-- ==== Sys2Proof/Word.lean ====
section
/-! DEFINITION. The word types of 00_scope.md section 5: every quantity is an unsigned integer of 8, 32 or 64 bits,
with arithmetic modulo its width; addresses are natural numbers (R40). -/

namespace Sys2Proof

/-- `u8`: an op byte, a status byte, a payload byte. -/
abbrev Byte := BitVec 8

/-- `u32`: request ids, arguments, flash addresses, sizes. -/
abbrev U32 := BitVec 32

/-- `u64`: the tick counter and `x[T0]`. -/
abbrev U64 := BitVec 64


end Sys2Proof
end

