-- ==== Sys2Proof/Machine/Bytes.lean ====
section
/-! DEFINITION. Byte order: "the byte at the lowest address holds bits 7:0" (R41). -/

namespace Sys2Proof

/-- The four bytes of a 32-bit word, lowest address first (R41). -/
def bytes32 (w : U32) : List Byte :=
  [w.extractLsb' 0 8, w.extractLsb' 8 8, w.extractLsb' 16 8, w.extractLsb' 24 8]

/-- The eight bytes of a 64-bit word, lowest address first (R41). -/
def bytes64 (w : U64) : List Byte :=
  bytes32 (w.extractLsb' 0 32) ++ bytes32 (w.extractLsb' 32 32)

/-- The 32-bit word whose bytes, lowest address first, are `b0` to `b3` (R41). -/
def word32 (b0 b1 b2 b3 : Byte) : U32 :=
  b3 ++ b2 ++ b1 ++ b0

/-- The byte of a 32-bit word that a byte field holds: "the low `n` bytes of `v`" for `n = 1` (00_scope.md section 6). -/
def lowByte (w : U32) : Byte :=
  w.extractLsb' 0 8

/-- A byte read, "zero-extended to `u32`" (00_scope.md section 6, `MemRead`). -/
def zextByte (b : Byte) : U32 :=
  b.setWidth 32

end Sys2Proof
end

