-- ==== Sys2Proof/Config.lean ====
section
/-! DEFINITION. The implementation parameters R4 to R9 as one structure, and the free values (U2, U6). The constraints
on the parameters are `parametersOk` in Machine/Operands.lean. -/

namespace Sys2Proof

/-- `GEN` (R4): the generation the engine was built for. -/
inductive Gen
  | a
  | b
  deriving DecidableEq, Repr

/-- `LAYOUT_A` (R6, R71): the byte offset of every generation A mailbox field. `payload` is `HEADER_SIZE` (R70). -/
structure LayoutA where
  requestId : Nat
  execId    : Nat
  offset    : Nat
  size      : Nat
  op        : Nat
  status    : Nat
  payload   : Nat
  deriving DecidableEq, Repr

/-- `LAYOUT_B` (R6, R72): the byte offset of every generation B mailbox field. -/
structure LayoutB where
  toScp0    : Nat
  toScp1    : Nat
  requestId : Nat
  execId    : Nat
  op        : Nat
  status    : Nat
  fromScp   : Nat
  deriving DecidableEq, Repr

/-- The layout the engine was built with; a parameter set whose `GEN` and layout disagree is refused (R237). -/
inductive Layout
  | a (l : LayoutA)
  | b (l : LayoutB)
  deriving DecidableEq, Repr

/-- The parameters of R4 to R9. Nothing in the model fixes one: every definition takes them from `State.cfg`. -/
structure Config where
  /-- `GEN` (R4). -/
  gen          : Gen
  /-- `MBOX_BASE` (R5). -/
  mboxBase     : Nat
  /-- `DB_SIGNAL_ADDR` (R5). -/
  dbSignalAddr : Nat
  /-- `DB_STATUS_ADDR` (R5). -/
  dbStatusAddr : Nat
  /-- `LAYOUT_A` or `LAYOUT_B` (R6). -/
  layout       : Layout
  /-- `SEED_A` (R7). -/
  seedA        : U32
  /-- `SEED_B` (R7). -/
  seedB        : U32
  /-- `PAYLOAD_CAP` (R8). -/
  payloadCap   : Nat
  /-- `MAX_CHUNK` (R8). -/
  maxChunk     : Nat
  /-- `TICK_HZ` (R9); `TIMEOUT_TICKS = TICK_HZ`. -/
  tickHz       : Nat
  /-- `EPS_TICKS` (R9, U12): unconstrained, and no rule bounds anything by it. -/
  epsTicks     : Nat
  deriving DecidableEq, Repr

/-- `SEED_GEN` (R7). -/
def Config.seed (c : Config) : U32 :=
  match c.gen with
  | .a => c.seedA
  | .b => c.seedB

/-- `LAYOUT_A_REF` (R71), used by 95_test_vectors.md only. -/
def LayoutA.ref : LayoutA :=
  { requestId := 0x00, execId := 0x04, offset := 0x08, size := 0x0C, op := 0x10, status := 0x11, payload := 0x12 }

/-- `LAYOUT_B_REF` (R72), used by 95_test_vectors.md only. -/
def LayoutB.ref : LayoutB :=
  { toScp0 := 0x00, toScp1 := 0x04, requestId := 0x08, execId := 0x0C, op := 0x10, status := 0x11, fromScp := 0x12 }

/-- The reference configuration of 95_test_vectors.md section 0, generation A. DESIGN CHOICE (log 4): the three
addresses, for which the spec gives no value, and `epsTicks`. Only `State.reset` and the tests use it. -/
def Config.refA : Config :=
  { gen := .a, mboxBase := 0x1000, dbSignalAddr := 0x2000, dbStatusAddr := 0x2004, layout := .a LayoutA.ref
    seedA := 0x00000001#32, seedB := 0x80000001#32, payloadCap := 1024, maxChunk := 1024
    tickHz := 1000000, epsTicks := 0 }

/-- The reference configuration of 95_test_vectors.md section 0, generation B. -/
def Config.refB : Config :=
  { Config.refA with gen := .b, layout := .b LayoutB.ref }

/-- Free 32-bit values (U2, U6; log 5): no body, so nothing can be proved about one. -/
opaque Config.freeWord : Nat → U32

/-- Free bytes (U2, U5; log 5). -/
opaque Config.freeByte : Nat → Byte

/-- What a read of the reference responder's flash outside `FLASH[0 .. FLASH_SIZE - 1]` gives, by address (R176, U4; log 10). -/
opaque Config.freeFlash : Nat → Byte

end Sys2Proof
end

