-- ==== Sys2Proof/Syntax.lean ====
section
/-! DEFINITION. The instructions: one constructor per row of spec/opcode_table.json. -/

namespace Sys2Proof

/-- The 13 op bytes (R130 to R142) and the five host operations (R85). An op byte carries the two operands of the
`scp_cmd` it is issued by, also where its opcode "takes no arguments" (R133: they are latched and reported). A caller
buffer is named by its first byte's address in main processor memory (R40; log 8). -/
inductive Instr
  /-- `A.R`: `'R'`, generation A, read flash (R130). -/
  | aRead (arg0 arg1 : U32)
  /-- `A.W`: `'W'`, generation A, write flash (R131). -/
  | aWrite (arg0 arg1 : U32)
  /-- `A.E`: `'E'`, generation A, erase flash (R132). -/
  | aErase (arg0 arg1 : U32)
  /-- `A.I`: `'I'`, generation A, lot id (R133). -/
  | aLotId (arg0 arg1 : U32)
  /-- `A.M`: `'M'`, generation A, mac (R134). -/
  | aMac (arg0 arg1 : U32)
  /-- `A.N`: `'N'`, generation A, serial (R135). -/
  | aSerial (arg0 arg1 : U32)
  /-- `A.T`: `'T'`, generation A, trace on (R136). -/
  | aTraceOn (arg0 arg1 : U32)
  /-- `A.t`: `'t'`, generation A, trace off (R137). -/
  | aTraceOff (arg0 arg1 : U32)
  /-- `A.L`: `'L'`, generation A, legacy (R138). -/
  | aLegacyL (arg0 arg1 : U32)
  /-- `A.V`: `'V'`, generation A, legacy (R139). -/
  | aLegacyV (arg0 arg1 : U32)
  /-- `B.R`: `'R'`, generation B, read flash (R140). -/
  | bRead (arg0 arg1 : U32)
  /-- `B.W`: `'W'`, generation B, write flash (R141). -/
  | bWrite (arg0 arg1 : U32)
  /-- `B.V`: `'V'`, generation B, legacy (R142). -/
  | bLegacyV (arg0 arg1 : U32)
  /-- `SCP_CMD(op, arg0, arg1)` (R100): any op byte, recognised or not. -/
  | scpCmd (op : Byte) (arg0 arg1 : U32)
  /-- `SCP_BUF()` (R120). -/
  | scpBuf
  /-- `FLASH_ERASE(addr, size)` (R152). -/
  | flashErase (addr size : U32)
  /-- `FLASH_READ(addr, dst, size)` (R153). -/
  | flashRead (addr : U32) (dst : U64) (size : U32)
  /-- `FLASH_WRITE(addr, src, size)` (R154). -/
  | flashWrite (addr : U32) (src : U64) (size : U32)
  deriving DecidableEq, Repr

end Sys2Proof
end

