-- ==== Sys2Proof/WellFormed.lean ====
section
/-! DEFINITION. Which instructions are well formed for an engine of a generation. -/

namespace Sys2Proof

/-- The generation whose opcode set a row belongs to (R74); `none` for a host operation, which every engine has. -/
def Instr.generation : Instr → Option Gen
  | .aRead _ _ | .aWrite _ _ | .aErase _ _ | .aLotId _ _ | .aMac _ _ | .aSerial _ _ | .aTraceOn _ _
  | .aTraceOff _ _ | .aLegacyL _ _ | .aLegacyV _ _ => some .a
  | .bRead _ _ | .bWrite _ _ | .bLegacyV _ _ => some .b
  | .scpCmd _ _ _ | .scpBuf | .flashErase _ _ | .flashRead _ _ _ | .flashWrite _ _ _ => none

/-- The caller buffer an instruction names, as its address and its length: "at least `size` bytes" (R29). -/
def Instr.buffer : Instr → Option (U64 × U32)
  | .flashRead _ dst size => some (dst, size)
  | .flashWrite _ src size => some (src, size)
  | .aRead _ _ | .aWrite _ _ | .aErase _ _ | .aLotId _ _ | .aMac _ _ | .aSerial _ _ | .aTraceOn _ _
  | .aTraceOff _ _ | .aLegacyL _ _ | .aLegacyV _ _ | .bRead _ _ | .bWrite _ _ | .bLegacyV _ _
  | .scpCmd _ _ _ | .scpBuf | .flashErase _ _ => none

/-- A row of one generation's opcode set belongs to an engine of that generation (R74, R86). -/
def Instr.generationOk (g : Gen) (i : Instr) : Bool :=
  match i.generation with
  | some h => h == g
  | none => true

/-- A caller buffer ends inside the 64-bit range of the pointer that names it (log 8). -/
def Instr.bufferOk (i : Instr) : Bool :=
  match i.buffer with
  | some (base, size) => decide (base.toNat + size.toNat ≤ 2 ^ 64)
  | none => true

/-- An instruction that is well formed for an engine of generation `g`. -/
def Instr.wf (g : Gen) (i : Instr) : Bool :=
  i.generationOk g && i.bufferOk

end Sys2Proof
end

