-- ==== Sys2Proof/Decode.lean ====
section
/-! DEFINITION. The bytes of a host call, decoded and encoded. The spec gives a host call no binary encoding (R85:
"A model should use an inductive type"); the byte form here is the model's (log 3): the first byte is a `HOSTOP` kind
number 0 to 4 (R85) followed by that operation's operands in the table's order, or an op byte (R73) followed by `arg0` and
`arg1`; every multi-byte operand is little-endian (R41). -/

namespace Sys2Proof

/-- Why bytes are not the call of a row. -/
inductive DecodeError
  /-- The bytes end before the call's last operand. -/
  | truncated
  /-- The first byte is an op byte outside `OPSET(GEN)` (R80): "not dispatched" (R143). It carries its operands and the
  bytes after the call, because the engine answers it with `InvalidOperation`. -/
  | illegalOpByte (op : Byte) (arg0 arg1 : U32) (rest : List Byte)
  deriving DecidableEq, Repr

/-- The rows of format `OPBYTE(GEN)` (R73, R74): the exact byte, mask 0xFF, and the row. -/
def opByteRows : Gen → List (Byte × (U32 → U32 → Instr))
  | .a =>
    [(0x52#8, .aRead), (0x57#8, .aWrite), (0x45#8, .aErase), (0x49#8, .aLotId), (0x4D#8, .aMac), (0x4E#8, .aSerial),
     (0x54#8, .aTraceOn), (0x74#8, .aTraceOff), (0x4C#8, .aLegacyL), (0x56#8, .aLegacyV)]
  | .b => [(0x52#8, .bRead), (0x57#8, .bWrite), (0x56#8, .bLegacyV)]

/-- A 32-bit little-endian operand and the bytes after it. -/
def take32 : List Byte → Option (U32 × List Byte)
  | b0 :: b1 :: b2 :: b3 :: rest => some (word32 b0 b1 b2 b3, rest)
  | _ => none

/-- Two 32-bit operands and the bytes after them. -/
def takePair (bs : List Byte) : Option (U32 × U32 × List Byte) :=
  match take32 bs with
  | none => none
  | some (x, r) =>
    match take32 r with
    | none => none
    | some (y, r') => some (x, y, r')

/-- A 64-bit little-endian operand and the bytes after it. -/
def take64 (bs : List Byte) : Option (U64 × List Byte) :=
  match takePair bs with
  | none => none
  | some (lo, hi, r) => some (hi ++ lo, r)

/-- The operands of `FLASH_READ`, `FLASH_WRITE`: `addr`, the buffer, `size` (R85). -/
def takeBuffered (bs : List Byte) : Option (U32 × U64 × U32 × List Byte) :=
  match take32 bs with
  | none => none
  | some (addr, r) =>
    match take64 r with
    | none => none
    | some (buf, r') =>
      match take32 r' with
      | none => none
      | some (size, r'') => some (addr, buf, size, r'')

/-- `SCP_CMD`, kind 0: `op`, `arg0`, `arg1` (R85). -/
def decodeScpCmd : List Byte → Except DecodeError (Instr × List Byte)
  | [] => .error .truncated
  | op :: bs =>
    match takePair bs with
    | none => .error .truncated
    | some (x, y, r) => .ok (.scpCmd op x y, r)

/-- An op byte with its two operands: a row of `OPSET(g)`, or an illegal op byte (R80). -/
def decodeOpByte (g : Gen) (op : Byte) (bs : List Byte) : Except DecodeError (Instr × List Byte) :=
  match takePair bs with
  | none => .error .truncated
  | some (x, y, r) =>
    match (opByteRows g).lookup op with
    | none => .error (.illegalOpByte op x y r)
    | some row => .ok (row x y, r)

/-- `FLASH_ERASE`, kind 2 (R85). -/
def decodeErase (bs : List Byte) : Except DecodeError (Instr × List Byte) :=
  match takePair bs with
  | none => .error .truncated
  | some (x, y, r) => .ok (.flashErase x y, r)

/-- `FLASH_READ`, kind 3, and `FLASH_WRITE`, kind 4 (R85). -/
def decodeBuffered (row : U32 → U64 → U32 → Instr) (bs : List Byte) : Except DecodeError (Instr × List Byte) :=
  match takeBuffered bs with
  | none => .error .truncated
  | some (addr, buf, size, r) => .ok (row addr buf size, r)

/-- The call that bytes begin with, on an engine of generation `g` (R86), and the bytes after it. -/
def decode (g : Gen) : List Byte → Except DecodeError (Instr × List Byte)
  | [] => .error .truncated
  | b :: bs =>
    if b = 0#8 then decodeScpCmd bs
    else if b = 1#8 then .ok (.scpBuf, bs)
    else if b = 2#8 then decodeErase bs
    else if b = 3#8 then decodeBuffered .flashRead bs
    else if b = 4#8 then decodeBuffered .flashWrite bs
    else decodeOpByte g b bs

/-- An op byte's call (R73): the byte, `arg0`, `arg1`. -/
def encodeOpByte (op : Byte) (arg0 arg1 : U32) : List Byte :=
  op :: (bytes32 arg0 ++ bytes32 arg1)

/-- The bytes of a call. -/
def encode : Instr → List Byte
  | .aRead x y => encodeOpByte 0x52#8 x y
  | .aWrite x y => encodeOpByte 0x57#8 x y
  | .aErase x y => encodeOpByte 0x45#8 x y
  | .aLotId x y => encodeOpByte 0x49#8 x y
  | .aMac x y => encodeOpByte 0x4D#8 x y
  | .aSerial x y => encodeOpByte 0x4E#8 x y
  | .aTraceOn x y => encodeOpByte 0x54#8 x y
  | .aTraceOff x y => encodeOpByte 0x74#8 x y
  | .aLegacyL x y => encodeOpByte 0x4C#8 x y
  | .aLegacyV x y => encodeOpByte 0x56#8 x y
  | .bRead x y => encodeOpByte 0x52#8 x y
  | .bWrite x y => encodeOpByte 0x57#8 x y
  | .bLegacyV x y => encodeOpByte 0x56#8 x y
  | .scpCmd op x y => 0#8 :: op :: (bytes32 x ++ bytes32 y)
  | .scpBuf => [1#8]
  | .flashErase addr size => 2#8 :: (bytes32 addr ++ bytes32 size)
  | .flashRead addr dst size => 3#8 :: (bytes32 addr ++ (bytes64 dst ++ bytes32 size))
  | .flashWrite addr src size => 4#8 :: (bytes32 addr ++ (bytes64 src ++ bytes32 size))

/-- How many bytes a call has, by its first byte. -/
def callLength (first : Byte) : Nat :=
  if first = 0#8 then 10
  else if first = 1#8 then 1
  else if first = 2#8 then 9
  else if first = 3#8 then 17
  else if first = 4#8 then 17
  else 9

/-- The `n` low bytes of a number, least significant first. -/
def lowBytes : Nat → Nat → List Byte
  | 0, _ => []
  | n + 1, w => BitVec.ofNat 8 w :: lowBytes n (w / 256)

/-- The call that a table word stands for: `nbits` bits of `w`, the first byte least significant, every further bit of the
call 0, cut at the call's own length. -/
def tableCall (nbits w : Nat) : List Byte :=
  (lowBytes 17 (w % 2 ^ nbits)).take (callLength (BitVec.ofNat 8 (w % 2 ^ nbits)))

/-- The instruction the decoder reads from a table word, on an engine of the generation of `State.reset` (A, log 4). The
rows `B.R`, `B.W`, `B.V` have the bytes of `A.R`, `A.W`, `A.V`: one byte is one row or the other by the generation (R86). -/
def decodeTableWord (nbits w : Nat) : Option Instr :=
  match decode Config.refA.gen (tableCall nbits w) with
  | .ok (i, _) => some i
  | .error _ => none

end Sys2Proof
end

