-- ==== Sys2Proof/Machine/State.lean ====
section
/-! DEFINITION. The state of the system the engine lives in (R10): configuration, shared state, engine-private registers,
hidden state, environment state; the stops; reset (R32, R220). Plain data throughout. -/

namespace Sys2Proof.Machine

open Sys2Proof

/-- Main processor memory: address and byte pairs in the canonical form of `Memory.wf` (Machine/Ops.lean). -/
abbrev Memory := List Host.Cell

/-- What an unlisted address reads as. DESIGN CHOICE (log 1): the spec gives no contents of memory at reset (R32). -/
def Memory.fill : Byte := 0#8

/-- The mailbox message fields (R11): `arg0`, `arg1` are `offset`, `size` in generation A (R16) and `to_scp[0]`,
`to_scp[1]` in generation B (R17); `payload i` is `MB.payload[i]` (R18). -/
inductive Field
  | requestId
  | execId
  | op
  | status
  | arg0
  | arg1
  | payload (i : Nat)
  deriving DecidableEq, Repr

/-- The shared locations (R10 (a)): a location is the unit of coherence and of single-copy atomicity (R45, R50). -/
inductive Loc
  | field (f : Field)
  /-- `DB.STATUS` (R20). -/
  | dbStatus
  /-- `DB.SIGNAL` (R19). -/
  | dbSignal
  deriving DecidableEq, Repr

/-- The sequencer phases (R23). -/
inductive Pc
  | rest
  | v | c | wOp | wA0 | wA1 | wId | sb | ring | t0 | poll | lb | rdSt | resolve
  | fInit | fTest | fChunk | fCopyIn | fCmd | fCopyOut | fAdv
  deriving DecidableEq, Repr

/-- Inside `C` and `POLL`: which of the four reads of `Idle()` (R104), or the deadline test of `POLL` (R111), is next. -/
inductive SampleAt
  | rdBusy
  | rdExec
  | rdReq
  | rdStatus
  | rdNow
  deriving DecidableEq, Repr

/-- The values one `Idle()` read (R104). -/
structure Sample where
  busy : Bool
  exec : U32
  req  : U32
  st   : Byte
  deriving DecidableEq, Repr

/-- `x[C_KIND]` (R27): 0, 1, 2, 3. -/
inductive ChunkKind
  | none
  | erase
  | read
  | write
  deriving DecidableEq, Repr

/-- The diagnostics record (R26, R84). -/
structure Diag where
  kind   : BitVec 3
  op     : Byte
  arg0   : U32
  arg1   : U32
  req    : U32
  exec   : U32
  status : Byte
  valid  : Bool
  deriving DecidableEq, Repr

/-- The engine-private registers (R21 to R27), and what R104, R111, R114 and R151 carry from one step to the next. -/
structure Engine where
  /-- `x[NEXT_ID]` (R21). -/
  nextId   : U32
  /-- `x[OP]`, `x[ARG0]`, `x[ARG1]` (R22). -/
  op       : Byte
  arg0     : U32
  arg1     : U32
  /-- `pc` (R23). -/
  pc       : Pc
  /-- `x[T0]` (R24). -/
  t0       : U64
  /-- `x[RES]` (R25). -/
  res      : BitVec 3
  /-- the diagnostics record (R26). -/
  diag     : Diag
  /-- `x[C_KIND]`, `x[C_ADDR]`, `x[C_SIZE]`, `x[C_CUR]`, `x[C_CHUNK]` (R27). -/
  cKind    : ChunkKind
  cAddr    : U32
  cSize    : U32
  cCur     : U32
  cChunk   : U32
  /-- the next read of `Idle()`, four steps (00_scope.md section 6). -/
  sampleAt : SampleAt
  /-- `s` of R103, R111, R114. -/
  sample   : Sample
  /-- `st` of R114. -/
  rdSt     : Byte
  /-- the index `i` of `F_COPYIN`, `F_COPYOUT` (R151). -/
  cIdx     : U32
  /-- the address of `src` or `dst` of the running operation (R151). -/
  cBuf     : U64
  deriving DecidableEq, Repr

/-- The shared state (R10 (a)) and the caller's buffers (R29 (b)), all in main processor memory but for the doorbell. -/
structure Bus where
  /-- The mailbox region and the caller's memory (R40). -/
  mem      : Memory
  /-- `DB.STATUS` (R20): bit 0 is `busy`. Bits 31:1 are any value (U7); that they are held until a move changes them is the
  model's choice (log 11). -/
  dbStatus : U32
  /-- Doorbell signals the coprocessor has not observed yet: "each write is one signal" (R47). -/
  signals  : Nat
  /-- A signalled command was oversize, so that the coprocessor "may write past the payload buffer" (R229, U3; log 9). -/
  oversize : Bool
  deriving DecidableEq, Repr

/-- A requester store the coprocessor cannot yet be relied on to see (R30), and how many store barriers have passed it. -/
structure Store where
  field    : Field
  val      : U32
  barriers : Nat
  deriving DecidableEq, Repr

/-- A value from before one of the coprocessor's stores, which a requester load may still return (R30). -/
structure Older where
  loc : Loc
  val : U32
  deriving DecidableEq, Repr

/-- The hidden state (R30). -/
structure Ordering where
  /-- Not-yet-visible requester stores, oldest first. -/
  pending  : List Store
  /-- Older values loads may still return, newest first: of the coprocessor's stores since the point at which the load
  satisfied latest was satisfied. A load barrier keeps these (R52). -/
  stale    : List Older
  /-- The rest of them, of the stores before that point, newest first. A load barrier ends these (R52). -/
  passed   : List Older
  /-- How many coprocessor stores back the next load is satisfied: the memory system's choice (R50). -/
  loadPick : Nat
  deriving DecidableEq, Repr

/-- One responder step (R172), and the observation of a doorbell signal (R173 clause 1). -/
inductive ScpMove
  | writeExec (v : U32)
  | writeStatus (v : Byte)
  | writePayload (i : Nat) (v : Byte)
  /-- A byte past the payload buffer, after an oversize command (R229, U3). -/
  | writePast (k : Nat) (v : Byte)
  | clearBusy
  | read (l : Loc)
  | observe
  | nothing
  deriving DecidableEq, Repr

/-- What the caller does to memory between operations: data in and out of the payload through `scp_buf()` (R131, R178
item 6), and its own buffers (R29 (b)). -/
inductive HostMove
  | writePayload (i : Nat) (v : Byte)
  | readPayload (i : Nat)
  | writeOwn (a : Nat) (v : Byte)
  deriving DecidableEq, Repr

/-- One environment step between two requester steps (R170). -/
inductive EnvMove
  /-- The coprocessor (R172). -/
  | scp (m : ScpMove)
  /-- The clock advances by `n` ticks (R201). -/
  | clk (n : Nat)
  /-- The `k`-th pending requester store becomes visible (R50). -/
  | drain (k : Nat)
  /-- The next load is satisfied early, `n` coprocessor stores back (R50). -/
  | early (n : Nat)
  /-- Bits 31:1 of `DB.STATUS` take any value (U7; log 11). -/
  | statusHi (v : BitVec 31)
  /-- The caller, while the engine is at `REST` (R178). -/
  | host (m : HostMove)
  deriving DecidableEq, Repr

/-- Where a responder stands in the sequence of R173. -/
inductive ScpPhase
  /-- Between transactions. -/
  | quiet
  /-- The signal of the message with this id was observed; whether `exec_id` and the in-progress status are written, and the
  payload positions of the response that are not. -/
  | started (id : U32) (execDone statusDone : Bool) (owed : List Nat)
  /-- The final status is written, `busy` is not yet cleared. -/
  | final
  deriving DecidableEq, Repr

/-- The environment state (R10 (c), R29) and the interfaces to the caller. -/
structure Environment where
  /-- `Now()` (R201). -/
  now      : U64
  /-- The bytes of the host operations offered and not yet taken (R101; log 3). -/
  offers   : List Byte
  /-- The environment's moves before each coming requester step (R170; log 2). -/
  sched    : List (List EnvMove)
  /-- The address the last `SCP_BUF` returned (R120). -/
  retBuf   : Nat
  /-- The payload byte the caller read last. -/
  hostSeen : Byte
  /-- The value the coprocessor read last. -/
  scpSeen  : U32
  /-- The monitor of R173: the responder's phase, and whether every responder step so far was a conforming one. -/
  scpPhase : ScpPhase
  conform  : Bool
  deriving DecidableEq, Repr

/-- The whole state. `cfg` is no state of the spec (R10): no step changes it (log 4). `window` is the payload window of
R57, from the load barrier of a transaction on: how many payload bytes hold its response. `freeCtr` counts the free values
taken (log 5). -/
structure State where
  cfg     : Config
  eng     : Engine
  bus     : Bus
  ord     : Ordering
  env     : Environment
  window  : Nat
  freeCtr : Nat
  deriving DecidableEq, Repr

/-- Stops of the machine. The block itself reports no such stop: its four errors are completions (R190). -/
inductive Fault
  /-- Every meaning: a host operation offered while `pc` is not `REST` "has no step in the model" (R101, U19). Safe. -/
  | offeredWhileBusy
  /-- `FLASH_READ`, `FLASH_WRITE`: the caller buffer overlaps the mailbox or a doorbell register; the caller's duty 7,
  "a place where the model has no move" (R178). Safe. -/
  | bufferOverlapsDevice
  deriving DecidableEq, Repr

/-- Refusals. -/
inductive Refusal
  /-- `exec`: an instruction that has no meaning yet. Safe. -/
  | notModelled (mnemonic : String)
  /-- Every meaning and `step`: "A parameter set that violates the constraints is refused by the model" (R44, R237). Safe. -/
  | badParameters
  /-- `step`: the offered bytes end before the call's last operand (log 3). Safe. -/
  | truncatedCall
  deriving DecidableEq, Repr

/-- A state with every value the spec leaves unspecified at 0, nothing pending, offered or scheduled. DESIGN CHOICE
(log 1): the zeros. -/
def State.blank (cfg : Config) : State :=
  { cfg := cfg
    eng :=
      { nextId := 0#32, op := 0#8, arg0 := 0#32, arg1 := 0#32, pc := .rest, t0 := 0#64, res := 0#3
        diag := { kind := 0#3, op := 0#8, arg0 := 0#32, arg1 := 0#32, req := 0#32, exec := 0#32, status := 0#8
                  valid := false }
        cKind := .none, cAddr := 0#32, cSize := 0#32, cCur := 0#32, cChunk := 0#32, sampleAt := .rdBusy
        sample := { busy := false, exec := 0#32, req := 0#32, st := 0#8 }, rdSt := 0#8, cIdx := 0#32, cBuf := 0#64 }
    bus := { mem := [], dbStatus := 0#32, signals := 0, oversize := false }
    ord := { pending := [], stale := [], passed := [], loadPick := 0 }
    env :=
      { now := 0#64, offers := [], sched := [], retBuf := 0, hostSeen := 0#8, scpSeen := 0#32, scpPhase := .quiet
        conform := true }
    window := 0
    freeCtr := 0 }

/-- Reset of the engine on any earlier state (R32, R220, R223): `x[NEXT_ID] = SEED_GEN`, `pc = REST`, `x[C_KIND] = 0`, no
store pending, no response in the payload (U5: "before any `OK`"); everything else "unspecified", so whatever `u` holds. -/
def State.resetFrom (cfg : Config) (u : State) : State :=
  { u with
    cfg := cfg
    eng := { u.eng with nextId := cfg.seed, pc := .rest, cKind := .none }
    ord := { pending := [], stale := [], passed := [], loadPick := 0 }
    window := 0 }

/-- The machine right after reset, with the reference parameters (log 4) and 0 for what is unspecified (log 1). -/
def State.reset : State :=
  State.resetFrom Config.refA (State.blank Config.refA)

end Sys2Proof.Machine
end

