-- ==== Sys2Proof/Machine/Flags.lean ====
section
/-! DEFINITION. The idle predicate (R28), the block's only condition, and the other tests of the sequencer: the status
decode (R81) and the deadline (R111). None is stored. -/

namespace Sys2Proof.Machine

open Sys2Proof

/-- The status byte `'G'`, "good/complete" (R75). -/
def statusGood : Byte := 0x47#8

/-- The status byte `'E'`, "executing/in-progress" (R75). -/
def statusExecuting : Byte := 0x45#8

/-- `busy`: bit 0 of a `DB.STATUS` read, all other bits masked off (R20, R82). -/
def busyBit (w : U32) : Bool :=
  w.getLsbD 0

/-- The idle predicate over one sample (R28): `(busy == 0) and (exec == req) and (st == 'G' or st == 'E')`. -/
def idle (x : Sample) : Bool :=
  !x.busy && x.exec == x.req && (x.st == statusGood || x.st == statusExecuting)

/-- The deadline test of `POLL` (R111): `n - x[T0] >= TIMEOUT_TICKS`, a `u64` subtraction. -/
def expired (now t0 : U64) (timeout : Nat) : Bool :=
  decide (timeout ≤ (now - t0).toNat)

/-- The result codes (R83, R190). -/
def codeOk : BitVec 3 := 0#3

def codeInvalidOperation : BitVec 3 := 1#3

def codeChannelBusy : BitVec 3 := 2#3

def codeTimeout : BitVec 3 := 3#3

def codeFault : BitVec 3 := 4#3

end Sys2Proof.Machine
end

