-- ==== Sys2Proof/Machine/Operands.lean ====
section
/-! DEFINITION. Operand assembly: the constraints on the parameters (R5 to R9, R70), the op byte sets (R74), which
argument fields an op byte stores (R76 to R79), where a field lies (R71, R72). -/

namespace Sys2Proof.Machine

open Sys2Proof

/-- `OPSET(GEN)` (R74). -/
def opset : Gen → List Byte
  | .a => [0x52#8, 0x57#8, 0x45#8, 0x4C#8, 0x56#8, 0x49#8, 0x4D#8, 0x4E#8, 0x54#8, 0x74#8]
  | .b => [0x52#8, 0x57#8, 0x56#8]

/-- Whether an op byte is recognised (R74, R80). -/
def recognised (g : Gen) (op : Byte) : Bool :=
  (opset g).contains op

/-- Whether steps `W_A0`, `W_A1` store the arguments: generation A for `'R' 'W' 'E' 'L' 'V'` (R76, R79) and not for
`'I' 'M' 'N' 'T' 't'` (R78); generation B always (R77). -/
def storesArgs : Gen → Byte → Bool
  | .a, op => [0x52#8, 0x57#8, 0x45#8, 0x4C#8, 0x56#8].contains op
  | .b, _ => true

/-- How many payload bytes the response to a command occupies (R57, 41_opcodes.md): `arg1` for `'R'` (R130, R140); the
whole buffer, "as the responder left them", where the length is not given (`'I' 'M' 'N' 'L' 'V'`: R133 to R135, R138,
R139, R142); none where no response is defined (`'W' 'E' 'T' 't'`: R131, R132, R136, R137, R141). -/
def responseLength (cap : Nat) (op : Byte) (arg1 : U32) : Nat :=
  if op = 0x52#8 then arg1.toNat
  else if [0x49#8, 0x4D#8, 0x4E#8, 0x4C#8, 0x56#8].contains op then cap
  else 0

/-- The payload positions that a conforming responder writes before it reports `'G'` (R173 clause 3): `0 .. arg1 - 1` for `'R'`
(R130, R140), but for an `arg1` above `PAYLOAD_CAP`, where "the response is then unspecified" (U3); none for the opcodes whose
response has no length (R133 to R135, R138, R139, R142; U11) or that have none. -/
def responseOwed (cap : Nat) (op : Byte) (arg1 : U32) : List Nat :=
  if op = 0x52#8 ∧ arg1.toNat ≤ cap then List.range arg1.toNat else []

/-- A command "spanning more than one chunk's worth of data" (R229, R178 item 3): `'R'` or `'W'` with `arg1` above
`PAYLOAD_CAP`. -/
def oversizeCommand (cap : Nat) (op : Byte) (arg1 : U32) : Bool :=
  (op == 0x52#8 || op == 0x57#8) && decide (cap < arg1.toNat)

/-- `opc(K)` (R151). `none` issues no command; its value is never used. -/
def chunkOpcode : ChunkKind → Byte
  | .erase => 0x45#8
  | .read => 0x52#8
  | .write => 0x57#8
  | .none => 0x00#8

/-- `OFF_f` (R71, R72). -/
def fieldOffset : Layout → Field → Nat
  | .a l, .requestId => l.requestId
  | .a l, .execId => l.execId
  | .a l, .op => l.op
  | .a l, .status => l.status
  | .a l, .arg0 => l.offset
  | .a l, .arg1 => l.size
  | .a l, .payload i => l.payload + i
  | .b l, .requestId => l.requestId
  | .b l, .execId => l.execId
  | .b l, .op => l.op
  | .b l, .status => l.status
  | .b l, .arg0 => l.toScp0
  | .b l, .arg1 => l.toScp1
  | .b l, .payload i => l.fromScp + i

/-- `width_f` in bytes (R43, R71, R72). -/
def fieldWidth : Field → Nat
  | .requestId | .execId | .arg0 | .arg1 => 4
  | .op | .status | .payload _ => 1

/-- The address of a mailbox field: `MBOX_BASE + OFF_f`. -/
def fieldAddr (cfg : Config) (f : Field) : Nat :=
  cfg.mboxBase + fieldOffset cfg.layout f

/-- `HEADER_SIZE`: where the payload starts (R70). -/
def headerSize (l : Layout) : Nat :=
  fieldOffset l (.payload 0)

/-- `MBOX_SIZE` (R8). -/
def mboxSize (cfg : Config) : Nat :=
  headerSize cfg.layout + cfg.payloadCap

/-- The six header fields (R71, R72). -/
def headerFields : List Field :=
  [.requestId, .execId, .arg0, .arg1, .op, .status]

/-- A payload byte. -/
def isPayload : Field → Bool
  | .payload _ => true
  | .requestId | .execId | .op | .status | .arg0 | .arg1 => false

/-- Two address ranges, each a start and a length, share no byte. -/
def disjoint (a n b m : Nat) : Bool :=
  decide (a + n ≤ b) || decide (b + m ≤ a)

/-- R70: the header fields are pairwise disjoint and fill `[0, HEADER_SIZE)` with no unused byte, and every 32-bit field
is at a multiple of 4. -/
def layoutOk (l : Layout) : Bool :=
  headerFields.all (fun f =>
    decide (fieldOffset l f + fieldWidth f ≤ headerSize l)
      && (decide (fieldWidth f = 1) || decide (fieldOffset l f % 4 = 0))
      && headerFields.all (fun g =>
          decide (f = g) || disjoint (fieldOffset l f) (fieldWidth f) (fieldOffset l g) (fieldWidth g)))
    && decide ((headerFields.map fieldWidth).sum = headerSize l)

/-- `GEN` and the layout agree (R237). -/
def layoutAgrees : Gen → Layout → Bool
  | .a, .a _ => true
  | .b, .b _ => true
  | .a, .b _ => false
  | .b, .a _ => false

/-- R5: every address a multiple of 4, the three regions pairwise disjoint. -/
def addressesOk (cfg : Config) : Bool :=
  decide (cfg.mboxBase % 4 = 0) && decide (cfg.dbSignalAddr % 4 = 0) && decide (cfg.dbStatusAddr % 4 = 0)
    && disjoint cfg.mboxBase (mboxSize cfg) cfg.dbSignalAddr 4
    && disjoint cfg.mboxBase (mboxSize cfg) cfg.dbStatusAddr 4
    && disjoint cfg.dbSignalAddr 4 cfg.dbStatusAddr 4

/-- The constraints on the parameters: R5, R6 with R70 and R237, R7, R8, R9 (D1). -/
def parametersOk (cfg : Config) : Bool :=
  addressesOk cfg && layoutAgrees cfg.gen cfg.layout && layoutOk cfg.layout && decide (cfg.seedA ≠ cfg.seedB)
    && decide (1 ≤ cfg.maxChunk) && decide (cfg.maxChunk ≤ cfg.payloadCap) && decide (cfg.payloadCap < 2 ^ 32)
    && decide (1 ≤ cfg.tickHz)

/-- `TIMEOUT_TICKS` (R9). -/
def timeoutTicks (cfg : Config) : Nat :=
  cfg.tickHz

/-- A caller buffer is disjoint from the mailbox region and the doorbell registers (R29 (b), R178 item 7); an empty one
is disjoint from everything. -/
def bufferClear (cfg : Config) (base : Nat) (size : Nat) : Bool :=
  decide (size = 0)
    || disjoint base size cfg.mboxBase (mboxSize cfg) && disjoint base size cfg.dbSignalAddr 4
      && disjoint base size cfg.dbStatusAddr 4

/-- `min(x[C_SIZE], MAX_CHUNK)` (R151). -/
def chunkOf (cfg : Config) (size : U32) : U32 :=
  BitVec.ofNat 32 (min size.toNat cfg.maxChunk)

end Sys2Proof.Machine
end

