-- ==== Sys2Proof/Machine/Ops.lean ====
section
/-! DEFINITION. The named operations: memory, the requester's loads, stores, barriers and doorbell write (20_memory.md), and
the completion of a transaction with an error or with `OK` (60_exceptions.md R196). -/

namespace Sys2Proof.Machine

open Sys2Proof

/-- One byte of memory. -/
def Memory.read : Memory → Nat → Byte
  | [], _ => Memory.fill
  | (k, b) :: m, a => if k = a then b else Memory.read m a

/-- Lists a byte at its place, replacing an entry for the same address. -/
def Memory.insert : Memory → Nat → Byte → Memory
  | [], a, v => [(a, v)]
  | (k, b) :: m, a, v =>
    if a < k then (a, v) :: (k, b) :: m
    else if a = k then (a, v) :: m
    else (k, b) :: Memory.insert m a v

/-- Takes an address off the list. -/
def Memory.erase : Memory → Nat → Memory
  | [], _ => []
  | (k, b) :: m, a => if k = a then m else (k, b) :: Memory.erase m a

/-- Writes one byte; writing what an unlisted address reads as takes the entry off the list. -/
def Memory.write (m : Memory) (a : Nat) (v : Byte) : Memory :=
  if v = Memory.fill then Memory.erase m a else Memory.insert m a v

/-- The canonical form: addresses strictly rising, no entry equal to what an unlisted address reads as. -/
def Memory.wf : Memory → Bool
  | [] => true
  | (k, b) :: m => decide (b ≠ Memory.fill) && m.all (fun c => decide (k < c.1)) && Memory.wf m

/-- Writes bytes at rising addresses. -/
def Memory.writeList : Memory → Nat → List Byte → Memory
  | m, _, [] => m
  | m, a, v :: vs => Memory.writeList (Memory.write m a v) (a + 1) vs

/-- A mailbox field in memory, little-endian (R41), a byte field zero-extended. -/
def readField (cfg : Config) (m : Memory) (f : Field) : U32 :=
  if fieldWidth f = 4 then
    word32 (Memory.read m (fieldAddr cfg f)) (Memory.read m (fieldAddr cfg f + 1))
      (Memory.read m (fieldAddr cfg f + 2)) (Memory.read m (fieldAddr cfg f + 3))
  else zextByte (Memory.read m (fieldAddr cfg f))

/-- Writes a mailbox field in memory: all bytes of a 32-bit field, or the low byte of `v`, in one step (R45). -/
def writeField (cfg : Config) (m : Memory) (f : Field) (v : U32) : Memory :=
  if fieldWidth f = 4 then Memory.writeList m (fieldAddr cfg f) (bytes32 v)
  else Memory.write m (fieldAddr cfg f) (lowByte v)

/-- The visible value of a shared location: what the coprocessor sees. A read of `DB.SIGNAL` gives a free value (R19,
U6; log 5). -/
def visible (s : State) : Loc → U32
  | .field f => readField s.cfg s.bus.mem f
  | .dbStatus => s.bus.dbStatus
  | .dbSignal => Config.freeWord s.freeCtr

/-- The requester's newest pending store to a location: "each side's own reads see its own earlier writes" (R50 (b)). -/
def ownStore (pending : List Store) (l : Loc) : Option U32 :=
  match pending with
  | [] => none
  | e :: es =>
    match ownStore es l with
    | some v => some v
    | none => if l = .field e.field then some e.val else none

/-- The value of `l` before the coprocessor's stores that `os` undoes, newest first; `v` where none of them is to `l`. -/
def valueBack (l : Loc) : List Older → U32 → U32
  | [], v => v
  | o :: os, v => valueBack l os (if o.loc = l then o.val else v)

/-- Takes the older values of `l` out. -/
def forget (l : Loc) (os : List Older) : List Older :=
  os.filter (fun o => decide (o.loc ≠ l))

/-- What the next load of a location returns (R50): the requester's own pending store (b), else the value `loadPick`
coprocessor stores back. -/
def loadValue (s : State) (l : Loc) : U32 :=
  match ownStore s.ord.pending l with
  | some v => v
  | none => valueBack l ((s.ord.stale ++ s.ord.passed).take s.ord.loadPick) (visible s l)

/-- The state after a `MemRead` of a shared location: no side effect on any location (R47); only R30's hidden state moves.
Of the stores before the point at which the load was satisfied, no later load returns the values of its own location
(R50 (a)), and no load after the next load barrier the others (R52). -/
def afterLoad (s : State) (l : Loc) : State :=
  let n := s.ord.loadPick
  let m := n - s.ord.stale.length
  { s with
    ord :=
      { s.ord with
        stale := s.ord.stale.take n
        passed := forget l (s.ord.stale.drop n) ++ (s.ord.passed.take m ++ forget l (s.ord.passed.drop m))
        loadPick := 0 } }

/-- An own store ends what loads of the same location may return from before it (R50 (a), (b)). -/
def ownLocation (l : Loc) (o : Ordering) : Ordering :=
  { o with stale := forget l o.stale, passed := forget l o.passed }

/-- `MB.f <- v`: the store is issued; it becomes visible later (R30, R50). A store to the payload ends the window (R57). -/
def storeField (f : Field) (v : U32) (s : State) : State :=
  { s with
    ord :=
      { ownLocation (.field f) s.ord with
        pending := s.ord.pending ++ [{ field := f, val := v, barriers := 0 }] }
    window := if isPayload f then 0 else s.window }

/-- A pending store becomes visible. -/
def commit (e : Store) (s : State) : State :=
  { s with
    bus := { s.bus with mem := writeField s.cfg s.bus.mem e.field e.val }
    ord := ownLocation (.field e.field) s.ord }

/-- Pending stores become visible, in order. -/
def commitAll : List Store → State → State
  | [], s => s
  | e :: es, s => commitAll es (commit e s)

/-- Whether the pending store `e` may become visible before the stores `earlier` issued before it: not before one to the
same location (R50 (a)), not before one that a store barrier separates from it (R51). -/
def mayCommit (earlier : List Store) (e : Store) : Bool :=
  earlier.all (fun x => decide (x.field ≠ e.field) && decide (x.barriers ≤ e.barriers))

/-- The `k`-th pending store becomes visible, where the ordering rules let it (R50, R51); else nothing happens. -/
def drain (k : Nat) (s : State) : State :=
  match s.ord.pending[k]? with
  | none => s
  | some e =>
    if mayCommit (s.ord.pending.take k) e then
      commit e { s with ord := { s.ord with pending := s.ord.pending.eraseIdx k } }
    else s

/-- `StoreBarrier()` (R51): orders every store issued before it before every store issued after it. -/
def storeBarrier (s : State) : State :=
  { s with
    ord := { s.ord with pending := s.ord.pending.map (fun e => { e with barriers := e.barriers + 1 }) } }

/-- `LoadBarrier()` (R52, D24): no later load is satisfied earlier than a load before the barrier. -/
def loadBarrier (s : State) : State :=
  { s with ord := { s.ord with passed := [], loadPick := 0 } }

/-- The message the coprocessor sees is an oversize command (R229). -/
def oversizeMessage (s : State) : Bool :=
  oversizeCommand s.cfg.payloadCap (lowByte (visible s (.field .op))) (visible s (.field .arg1))

/-- `DB.SIGNAL <- v` (R19): bit 0 set signals the coprocessor and sets `busy` in the same step; bit 0 clear has no effect;
bits 31:1 are ignored. Every store that a store barrier ordered before this one is visible first (R51). That bits 31:1 of
`DB.STATUS` stay is the model's choice (U7; log 11). -/
def writeSignal (v : U32) (s : State) : State :=
  if v.getLsbD 0 then
    let s' := commitAll (s.ord.pending.filter (fun e => decide (1 ≤ e.barriers)))
      { s with ord := { s.ord with pending := s.ord.pending.filter (fun e => decide (e.barriers < 1)) } }
    { s' with
      bus :=
        { s'.bus with
          dbStatus := s'.bus.dbStatus ||| 1#32
          signals := s'.bus.signals + 1
          oversize := s'.bus.oversize || oversizeMessage s' }
      ord := ownLocation .dbStatus s'.ord }
  else s

/-- One read of main processor memory outside the shared regions: a caller buffer (R43). -/
def readOwn (s : State) (a : Nat) : Byte :=
  Memory.read s.bus.mem a

/-- One write of main processor memory outside the shared regions: a caller buffer (R43). -/
def writeOwn (a : Nat) (v : Byte) (s : State) : State :=
  { s with bus := { s.bus with mem := Memory.write s.bus.mem a v } }

/-- The sequencer moves on. -/
def goto (p : Pc) (s : State) : State :=
  { s with eng := { s.eng with pc := p } }

/-- Returns control to whoever started the transaction (00_scope.md section 6): the host, or the continuation of `F_CMD`,
which ends the operation with an error and goes on after `OK` (R151). -/
def returnToCaller (code : BitVec 3) (s : State) : State :=
  match s.eng.cKind with
  | .none => goto .rest s
  | .erase | .read | .write =>
    if code = codeOk then
      if s.eng.cKind = .read then { s with eng := { s.eng with cIdx := 0#32, pc := .fCopyOut } }
      else goto .fAdv s
    else { s with eng := { s.eng with cKind := .none, pc := .rest } }

/-- Completion of a transaction (R196): the result code, the diagnostics record, and back to the caller. Every error entry
of the block is this operation with its code (R190 to R194), and so is `OK`, which alone leaves the payload window as the load
barrier opened it (R57). -/
def complete (code : BitVec 3) (req exec : U32) (status : Byte) (valid : Bool) (s : State) : State :=
  returnToCaller code
    { s with
      eng :=
        { s.eng with
          res := code
          diag :=
            { kind := code, op := s.eng.op, arg0 := s.eng.arg0, arg1 := s.eng.arg1, req := req, exec := exec
              status := status, valid := valid } }
      window := if code = codeOk then s.window else 0 }

/-- `raise InvalidOperation` (R191): ids and status not sampled, so free values (U2; log 5). -/
def raiseInvalidOperation (s : State) : State :=
  complete codeInvalidOperation (Config.freeWord s.freeCtr) (Config.freeWord (s.freeCtr + 1))
    (Config.freeByte s.freeCtr) false { s with freeCtr := s.freeCtr + 2 }

/-- `raise ChannelBusy` (R192): the values of the step `C` sample. -/
def raiseChannelBusy (s : State) : State :=
  complete codeChannelBusy s.eng.sample.req s.eng.sample.exec s.eng.sample.st true s

/-- `raise Timeout` (R193): the values of the last `POLL` sample. -/
def raiseTimeout (s : State) : State :=
  complete codeTimeout s.eng.sample.req s.eng.sample.exec s.eng.sample.st true s

/-- `raise Fault` (R194): the ids of the idle sample, the status read after the load barrier. -/
def raiseFault (s : State) : State :=
  complete codeFault s.eng.sample.req s.eng.sample.exec s.eng.rdSt true s

/-- `return OK` of a transaction (R114, R196). -/
def returnOk (s : State) : State :=
  complete codeOk s.eng.sample.req s.eng.sample.exec s.eng.rdSt true s

/-- What the engine's own side sees of a location when no load is satisfied early: its newest pending store, else the
visible value (R50 (b)). -/
def ownView (s : State) (l : Loc) : U32 :=
  match ownStore s.ord.pending l with
  | some v => v
  | none => visible s l

/-- The values an `Idle()` sample reads when nothing moves and no load is satisfied early (R104). -/
def ownSample (s : State) : Sample :=
  { busy := busyBit (ownView s .dbStatus)
    exec := ownView s (.field .execId)
    req := ownView s (.field .requestId)
    st := lowByte (ownView s (.field .status)) }

end Sys2Proof.Machine
end

