-- ==== Sys2Proof/Machine/Transaction.lean ====
section
/-! DEFINITION. The steps of `SCP_CMD` (R102 to R114), each at most one memory access, barrier or clock read (D21), and
the operation `SCP_BUF` (R120). -/

namespace Sys2Proof.Machine

open Sys2Proof

/-- The operands of a transaction are latched (R102, first line of step `V`), and the payload window of the one before it
ends: "valid until next scp_cmd call" (R57, R227). -/
def latch (op : Byte) (arg0 arg1 : U32) (s : State) : State :=
  { s with eng := { s.eng with op := op, arg0 := arg0, arg1 := arg1 }, window := 0 }

/-- Step `V` (R102): no memory access of any kind. -/
def stepV (s : State) : State :=
  if recognised s.cfg.gen s.eng.op then
    { s with eng := { s.eng with sampleAt := .rdBusy, pc := .c } }
  else raiseInvalidOperation s

/-- One of the four reads of `Idle()`, in the order of R104. -/
def sampleRead (s : State) : State :=
  match s.eng.sampleAt with
  | .rdBusy =>
    let s' := afterLoad s .dbStatus
    { s' with
      eng := { s.eng with
        sample := { s.eng.sample with busy := busyBit (loadValue s .dbStatus) }, sampleAt := .rdExec } }
  | .rdExec =>
    let s' := afterLoad s (.field .execId)
    { s' with
      eng := { s.eng with
        sample := { s.eng.sample with exec := loadValue s (.field .execId) }, sampleAt := .rdReq } }
  | .rdReq =>
    let s' := afterLoad s (.field .requestId)
    { s' with
      eng := { s.eng with
        sample := { s.eng.sample with req := loadValue s (.field .requestId) }, sampleAt := .rdStatus } }
  | .rdStatus =>
    let s' := afterLoad s (.field .status)
    { s' with
      eng := { s.eng with
        sample := { s.eng.sample with st := lowByte (loadValue s (.field .status)) }, sampleAt := .rdNow } }
  | .rdNow => { s with eng := { s.eng with sampleAt := .rdBusy } }

/-- Step `C` (R103): the sample, then the one busy check; nothing is written. -/
def stepC (s : State) : State :=
  match s.eng.sampleAt with
  | .rdStatus =>
    let s' := sampleRead s
    if idle s'.eng.sample then goto .wOp s' else raiseChannelBusy s'
  | .rdBusy | .rdExec | .rdReq | .rdNow => sampleRead s

/-- Step `W_OP` (R105). -/
def stepWOp (s : State) : State :=
  goto .wA0 (storeField .op (zextByte s.eng.op) s)

/-- Step `W_A0` (R106, R76 to R79). -/
def stepWA0 (s : State) : State :=
  goto .wA1 (if storesArgs s.cfg.gen s.eng.op then storeField .arg0 s.eng.arg0 s else s)

/-- Step `W_A1` (R106, R76 to R79). -/
def stepWA1 (s : State) : State :=
  goto .wId (if storesArgs s.cfg.gen s.eng.op then storeField .arg1 s.eng.arg1 s else s)

/-- Step `W_ID` (R107): the id the counter held, then the counter plus 1 modulo 2^32. -/
def stepWId (s : State) : State :=
  let s' := storeField .requestId s.eng.nextId s
  { s' with eng := { s'.eng with nextId := s.eng.nextId + 1#32, pc := .sb } }

/-- Step `SB` (R108). -/
def stepSb (s : State) : State :=
  goto .ring (storeBarrier s)

/-- Step `RING` (R109). -/
def stepRing (s : State) : State :=
  goto .t0 (writeSignal 1#32 s)

/-- Step `T0` (R110). -/
def stepT0 (s : State) : State :=
  { s with eng := { s.eng with t0 := s.env.now, sampleAt := .rdBusy, pc := .poll } }

/-- Step `POLL` (R111): the sample first, the deadline test only after a sample that was not idle. -/
def stepPoll (s : State) : State :=
  match s.eng.sampleAt with
  | .rdStatus =>
    let s' := sampleRead s
    if idle s'.eng.sample then goto .lb s' else s'
  | .rdNow =>
    if expired s.env.now s.eng.t0 (timeoutTicks s.cfg) then raiseTimeout s else sampleRead s
  | .rdBusy | .rdExec | .rdReq => sampleRead s

/-- Step `LB` (R113). The response is the payload's from here until the first write there (R57); how far it reaches where
the spec gives no length is log 5's. -/
def stepLb (s : State) : State :=
  { loadBarrier s with
    eng := { s.eng with pc := .rdSt }
    window := responseLength s.cfg.payloadCap s.eng.op s.eng.arg1 }

/-- Step `RD_ST` (R114): a fresh read of `status`. -/
def stepRdSt (s : State) : State :=
  let s' := afterLoad s (.field .status)
  { s' with eng := { s.eng with rdSt := lowByte (loadValue s (.field .status)), pc := .resolve } }

/-- Step `RESOLVE` (R114): `'G'` is `OK`, every other byte is `Fault` (R81). -/
def stepResolve (s : State) : State :=
  if s.eng.rdSt = statusGood then returnOk s else raiseFault s

/-- `SCP_BUF` (R120): the address `MBOX_BASE + OFF_payload`, handed to the caller; no other effect. -/
def returnBuf (s : State) : State :=
  { s with env := { s.env with retBuf := fieldAddr s.cfg (.payload 0) } }

end Sys2Proof.Machine
end

