-- ==== Sys2Proof/Machine/Chunked.lean ====
section
/-! DEFINITION. The steps of the chunk loop (R151), shared by `FLASH_ERASE`, `FLASH_READ`, `FLASH_WRITE`. -/

namespace Sys2Proof.Machine

open Sys2Proof

/-- Step `F_INIT` with the operands of the host's call (R151). -/
def chunkInit (k : ChunkKind) (addr : U32) (buf : U64) (size : U32) (s : State) : State :=
  { s with
    eng := { s.eng with cKind := k, cAddr := addr, cSize := size, cCur := 0#32, cBuf := buf, pc := .fTest } }

/-- Step `F_INIT` when `pc` names it: the operands are in the chunk registers already. No run of the model gets here,
because `F_INIT` is the step the host's offer starts (`chunkInit`). -/
def stepFInit (s : State) : State :=
  { s with eng := { s.eng with cCur := 0#32, pc := .fTest } }

/-- Step `F_TEST` (R151, R155): `OK` with the diagnostics record left as it is, or the next chunk. -/
def stepFTest (s : State) : State :=
  if s.eng.cSize = 0#32 then
    { s with eng := { s.eng with cKind := .none, res := codeOk, pc := .rest } }
  else goto .fChunk s

/-- Step `F_CHUNK` (R151). -/
def stepFChunk (s : State) : State :=
  { s with
    eng :=
      { s.eng with
        cChunk := chunkOf s.cfg s.eng.cSize
        cIdx := 0#32
        pc := if s.eng.cKind = .write then .fCopyIn else .fCmd } }

/-- The index of the byte copied after byte `i` of a chunk, and the phase it is copied in; `done` after the last byte. -/
def copyNext (done : Pc) (s : State) : State :=
  if s.eng.cIdx.toNat + 1 < s.eng.cChunk.toNat then { s with eng := { s.eng with cIdx := s.eng.cIdx + 1#32 } }
  else { s with eng := { s.eng with cIdx := 0#32, pc := done } }

/-- The address of byte `x[C_CUR] + i` of the caller's buffer. -/
def bufferAddr (s : State) : Nat :=
  s.eng.cBuf.toNat + s.eng.cCur.toNat + s.eng.cIdx.toNat

/-- Step `F_COPYIN`, one byte (R151, R154): `MB.payload[i] <- src[x[C_CUR] + i]`. -/
def stepFCopyIn (s : State) : State :=
  copyNext .fCmd (storeField (.payload s.eng.cIdx.toNat) (zextByte (readOwn s (bufferAddr s))) s)

/-- Step `F_CMD` (R151): calls `SCP_CMD(opc(K), x[C_ADDR], x[C_CHUNK])`; it comes back through `returnToCaller`. -/
def stepFCmd (s : State) : State :=
  goto .v (latch (chunkOpcode s.eng.cKind) s.eng.cAddr s.eng.cChunk s)

/-- Step `F_COPYOUT`, one byte (R151, R153): `dst[x[C_CUR] + i] <- MB.payload[i]`. -/
def stepFCopyOut (s : State) : State :=
  copyNext .fAdv
    (writeOwn (bufferAddr s) (lowByte (loadValue s (.field (.payload s.eng.cIdx.toNat))))
      (afterLoad s (.field (.payload s.eng.cIdx.toNat))))

/-- Step `F_ADV` (R151): the address and the cursor advance, the size decreases; the address wraps at 2^32 (R161). -/
def stepFAdv (s : State) : State :=
  { s with
    eng :=
      { s.eng with
        cAddr := s.eng.cAddr + s.eng.cChunk
        cCur := s.eng.cCur + s.eng.cChunk
        cSize := s.eng.cSize - s.eng.cChunk
        pc := .fTest } }

end Sys2Proof.Machine
end

