-- ==== Sys2Proof/Machine/Responder.lean ====
section
/-! DEFINITION. The environment's steps: the unconstrained responder (R172) with the monitor of the conforming one (R173),
the clock (R201), the memory system (R50), the caller between operations (R178). -/

namespace Sys2Proof.Machine

open Sys2Proof

/-- A coprocessor store to a mailbox field becomes visible; the requester's loads may still return the value from before
it (R30). A store to the payload ends the window (R57: "until the first write to the payload buffer"). -/
def scpStore (f : Field) (v : U32) (s : State) : State :=
  { s with
    bus := { s.bus with mem := writeField s.cfg s.bus.mem f v }
    ord := { s.ord with stale := { loc := .field f, val := readField s.cfg s.bus.mem f } :: s.ord.stale }
    window := if isPayload f then 0 else s.window }

/-- The coprocessor clears `busy` (R20, R171). That bits 31:1 of `DB.STATUS` stay is the model's choice (U7; log 11). -/
def scpClearBusy (s : State) : State :=
  { s with
    bus := { s.bus with dbStatus := s.bus.dbStatus &&& 0xFFFFFFFE#32 }
    ord := { s.ord with stale := { loc := .dbStatus, val := s.bus.dbStatus } :: s.ord.stale } }

/-- The shared state that the coprocessor reads: the requester's message (R33, R171). A conforming responder reads it only
after the signal (R173 clause 1), and reads nothing else (R33: "An access not in this table never happens"). -/
def isMessage : Loc → Bool
  | .field .requestId | .field .op | .field .arg0 | .field .arg1 | .field (.payload _) => true
  | .field .execId | .field .status | .dbStatus | .dbSignal => false

/-- Whether a responder step is one of the conforming responder (R173) in the phase it is in. `'G'` is conforming only once the
response is in the payload (clause 3; which bytes those are is the flash's, R3). Writing `exec_id` again with the same id
before the final status is conforming, a point that clauses 2 and 8 leave open: the model's choice (log 7). -/
def scpAllowed (m : ScpMove) (p : ScpPhase) : Bool :=
  match m, p with
  | .nothing, _ => true
  | .observe, .quiet => true
  | .observe, .started _ _ _ _ => false
  | .observe, .final => false
  | .read _, .quiet => false
  | .read l, .started _ _ _ _ => isMessage l
  | .read l, .final => isMessage l
  | .writePast _ _, _ => false
  | .writeExec v, .started id _ _ _ => v == id
  | .writeExec _, .quiet => false
  | .writeExec _, .final => false
  | .writeStatus v, .started _ x e owed =>
    if x && e then v != statusGood || owed.isEmpty else v == statusExecuting
  | .writeStatus _, .quiet => false
  | .writeStatus _, .final => false
  | .writePayload _ _, .started _ x e _ => x && e
  | .writePayload _ _, .quiet => false
  | .writePayload _ _, .final => false
  | .clearBusy, .started _ x e _ => x && e
  | .clearBusy, .final => true
  | .clearBusy, .quiet => false

/-- The phase after the signal of the message that is visible then (R173 clause 1, R174). -/
def scpStart (s : State) : ScpPhase :=
  .started (visible s (.field .requestId)) false false
    (responseOwed s.cfg.payloadCap (lowByte (visible s (.field .op))) (visible s (.field .arg1)))

/-- The phase of the monitor after a responder step (R173): the signal, `exec_id` and the in-progress status, the response,
the final status, `busy` cleared. -/
def scpNextPhase (m : ScpMove) (s : State) : ScpPhase :=
  match m, s.env.scpPhase with
  | .observe, .quiet => if s.bus.signals = 0 then .quiet else scpStart s
  | .writeExec _, .started id _ e owed => .started id true e owed
  | .writeStatus _, .started id x e owed => if x && e then .final else .started id x true owed
  | .writePayload i _, .started id x e owed => .started id x e (owed.filter (· ≠ i))
  | .clearBusy, _ => .quiet
  | .observe, p => p
  | .writeExec _, p => p
  | .writeStatus _, p => p
  | .writePayload _ _, p => p
  | .writePast _ _, p => p
  | .read _, p => p
  | .nothing, p => p

/-- Whether a location exists: a payload position is below `PAYLOAD_CAP` (R18). -/
def locExists (cfg : Config) : Loc → Bool
  | .field (.payload i) => decide (i < cfg.payloadCap)
  | .field .requestId | .field .execId | .field .op | .field .status | .field .arg0 | .field .arg1
  | .dbStatus | .dbSignal => true

/-- The address of byte `k` past the payload buffer. -/
def pastAddr (cfg : Config) (k : Nat) : Nat :=
  cfg.mboxBase + mboxSize cfg + k

/-- The effect of one responder step on the shared state (R171, R172). A payload position outside the buffer does not
exist (R18), so nothing happens there. The bytes past the buffer, up to a doorbell register or beyond one, are written
only after an oversize command (R229, U3; log 9). -/
def scpEffect (m : ScpMove) (s : State) : State :=
  match m with
  | .writeExec v => scpStore .execId v s
  | .writeStatus v => scpStore .status (zextByte v) s
  | .writePayload i v => if i < s.cfg.payloadCap then scpStore (.payload i) (zextByte v) s else s
  | .writePast k v => if s.bus.oversize && bufferClear s.cfg (pastAddr s.cfg k) 1 then writeOwn (pastAddr s.cfg k) v s else s
  | .clearBusy => scpClearBusy s
  | .read l =>
    if locExists s.cfg l then { s with env := { s.env with scpSeen := visible s l }, freeCtr := s.freeCtr + 1 } else s
  | .observe => { s with bus := { s.bus with signals := s.bus.signals - 1 } }
  | .nothing => s

/-- One responder step, with the monitor. -/
def scpMove (m : ScpMove) (s : State) : State :=
  let s' := scpEffect m s
  { s' with
    env :=
      { s'.env with
        scpPhase := scpNextPhase m s
        conform := s.env.conform && scpAllowed m s.env.scpPhase } }

/-- The clock advances (R201). It never decreases: an advance past 2^64 - 1 is no move (U20). -/
def clkMove (n : Nat) (s : State) : State :=
  if s.env.now.toNat + n < 2 ^ 64 then { s with env := { s.env with now := s.env.now + BitVec.ofNat 64 n } } else s

/-- Bits 31:1 of `DB.STATUS` change (U7); `busy` stays. That they change by this move alone is the model's choice (log 11). -/
def statusHiMove (v : BitVec 31) (s : State) : State :=
  { s with bus := { s.bus with dbStatus := v ++ s.bus.dbStatus.extractLsb' 0 1 } }

/-- What the caller does to memory between operations (R131, R178 items 6 and 7): a payload store is one of the
requester's (R51 names "any payload bytes written by the caller before the transaction"); its own memory is disjoint from
the shared regions (R29 (b)). A payload byte read outside the window of R57 (before an `OK`, after an error, after the next
`SCP_CMD` has started, at an index the response does not reach) is a free value (U5, R227, R178 item 6; log 5). -/
def hostEffect (m : HostMove) (s : State) : State :=
  match m with
  | .writePayload i v => if i < s.cfg.payloadCap then storeField (.payload i) (zextByte v) s else s
  | .readPayload i =>
    if i < s.cfg.payloadCap then
      let s' := afterLoad s (.field (.payload i))
      if i < s.window then { s' with env := { s.env with hostSeen := lowByte (loadValue s (.field (.payload i))) } }
      else { s' with env := { s.env with hostSeen := Config.freeByte s.freeCtr }, freeCtr := s.freeCtr + 1 }
    else s
  | .writeOwn a v => if bufferClear s.cfg a 1 then writeOwn a v s else s

/-- The caller moves only while the engine is at `REST` (R101, R178 item 1). -/
def hostMove (m : HostMove) (s : State) : State :=
  if s.eng.pc = .rest then hostEffect m s else s

/-- One environment step. -/
def envMove (m : EnvMove) (s : State) : State :=
  match m with
  | .scp m => scpMove m s
  | .clk n => clkMove n s
  | .drain k => drain k s
  | .early n => { s with ord := { s.ord with loadPick := n } }
  | .statusHi v => statusHiMove v s
  | .host m => hostMove m s

/-- Environment steps, in order. -/
def envMoves : List EnvMove → State → State
  | [], s => s
  | m :: ms, s => envMoves ms (envMove m s)

/-- The ticks left to the deadline where the engine stands at the deadline test of a poll that only the clock can end: what
it sees of the channel is not idle. 0 everywhere else. -/
def ticksToDeadline (s : State) : Nat :=
  if s.eng.pc = .poll ∧ s.eng.sampleAt = .rdNow ∧ idle (ownSample s) = false then
    timeoutTicks s.cfg - (s.env.now - s.eng.t0).toNat
  else 0

/-- The environment's turn when the schedule is used up (log 2). At `REST` the oldest pending store becomes visible, since
"every store eventually becomes visible to the other side" (R50 (e)), and the clock advances by a tick, since `Now()`
"eventually exceeds" every value (R201). The stores of an operation in progress come to its doorbell write (R51) or to
`REST`; there the clock moves where a poll waits for its deadline, so that the poll ends (R119). -/
def fairTurn (s : State) : State :=
  if s.eng.pc = .rest then clkMove 1 (drain 0 s) else clkMove (ticksToDeadline s) s

/-- The environment's turn before a requester step: the next batch of the schedule (R170), and when that is used up what
has to happen in the end. -/
def envTurn (s : State) : State :=
  match s.env.sched with
  | [] => fairTurn s
  | b :: bs => envMoves b { s with env := { s.env with sched := bs } }

end Sys2Proof.Machine
end

