-- ==== Sys2Proof/Machine/Sequencer.lean ====
section
/-! DEFINITION. The sequencer: one requester step by `pc` (R23, R122, R162), and the steps of one host operation. -/

namespace Sys2Proof.Machine

open Sys2Proof

/-- The requester step that `pc` names. At `REST` the engine has no step of its own (R101). -/
def engineStep (s : State) : State :=
  match s.eng.pc with
  | .rest => s
  | .v => stepV s
  | .c => stepC s
  | .wOp => stepWOp s
  | .wA0 => stepWA0 s
  | .wA1 => stepWA1 s
  | .wId => stepWId s
  | .sb => stepSb s
  | .ring => stepRing s
  | .t0 => stepT0 s
  | .poll => stepPoll s
  | .lb => stepLb s
  | .rdSt => stepRdSt s
  | .resolve => stepResolve s
  | .fInit => stepFInit s
  | .fTest => stepFTest s
  | .fChunk => stepFChunk s
  | .fCopyIn => stepFCopyIn s
  | .fCmd => stepFCmd s
  | .fCopyOut => stepFCopyOut s
  | .fAdv => stepFAdv s

/-- One requester step after the environment's turn (R170, D21). -/
def tick (s : State) : State :=
  engineStep (envTurn s)

/-- The schedule is used up and the tick counter would wrap before the deadline of the poll ("no move", U20): the one case in
which the poll loop goes on for ever. -/
def waiting (s : State) : Bool :=
  s.env.sched.isEmpty && decide (0 < ticksToDeadline s) && decide (2 ^ 64 ≤ s.env.now.toNat + ticksToDeadline s)

/-- Requester steps until the operation is complete (`pc = REST`) or can never be (`waiting`); at most `fuel`. -/
def run : Nat → State → State
  | 0, s => s
  | fuel + 1, s =>
    if s.eng.pc = .rest then s
    else if waiting s then s
    else run fuel (tick s)

/-- Enough requester steps for an operation on `size` bytes: one for each entry of the schedule, and more than the
straight-line steps of every chunk and of the polls after the last entry. -/
def budget (size : U32) (s : State) : Nat :=
  s.env.sched.length + 64 * (size.toNat + 1)

/-- A host operation (R101): it starts only at `REST`, on parameters that meet their constraints (R44), with the requester
step `first`, and the caller is blocked until it completes. -/
def hostOperation (size : U32) (first : State → State) (s : State) : Host.Outcome State Fault Refusal :=
  if parametersOk s.cfg then
    if s.eng.pc = .rest then .next (run (budget size s) (first (envTurn s)))
    else .fault .offeredWhileBusy
  else .refused .badParameters

/-- The transaction `scp_cmd(op, arg0, arg1)` as a host operation (R100): it starts with step `V`. -/
def transact (op : Byte) (arg0 arg1 : U32) (s : State) : Host.Outcome State Fault Refusal :=
  hostOperation 0#32 (fun t => stepV (latch op arg0 arg1 t)) s

/-- A chunked operation (R150): it starts with step `F_INIT` (R151). -/
def chunked (k : ChunkKind) (addr : U32) (buf : U64) (size : U32) (s : State) : Host.Outcome State Fault Refusal :=
  hostOperation size (chunkInit k addr buf size) s

/-- A chunked operation on a caller buffer: a buffer that breaks the caller's duty 7 has no move (R178). -/
def chunkedOn (k : ChunkKind) (addr : U32) (buf : U64) (size : U32) (s : State) :
    Host.Outcome State Fault Refusal :=
  if parametersOk s.cfg && !bufferClear s.cfg buf.toNat size.toNat then .fault .bufferOverlapsDevice
  else chunked k addr buf size s

end Sys2Proof.Machine
end

