-- ==== Sys2Proof/Machine/HostOps.lean ====
section
/-! DEFINITION. The meanings of the five host operations (R85). -/

namespace Sys2Proof.Machine

open Sys2Proof

/-- `SCP_CMD(op, arg0, arg1)` (R100). -/
def execScpCmd (op : Byte) (arg0 arg1 : U32) (s : State) : Host.Outcome State Fault Refusal :=
  transact op arg0 arg1 s

/-- `SCP_BUF()` (R120): no access, no error; only the address is handed to the caller. -/
def execScpBuf (s : State) : Host.Outcome State Fault Refusal :=
  hostOperation 0#32 returnBuf s

/-- `FLASH_ERASE(addr, size)` (R152): no payload access at all, so no buffer. -/
def execFlashErase (addr size : U32) (s : State) : Host.Outcome State Fault Refusal :=
  chunked .erase addr 0#64 size s

/-- `FLASH_READ(addr, dst, size)` (R153). -/
def execFlashRead (addr : U32) (dst : U64) (size : U32) (s : State) : Host.Outcome State Fault Refusal :=
  chunkedOn .read addr dst size s

/-- `FLASH_WRITE(addr, src, size)` (R154). -/
def execFlashWrite (addr : U32) (src : U64) (size : U32) (s : State) : Host.Outcome State Fault Refusal :=
  chunkedOn .write addr src size s

end Sys2Proof.Machine
end

