-- ==== Sys2Proof/Machine/OpBytes.lean ====
section
/-! DEFINITION. The meanings of the 13 op bytes: "Every op byte is dispatched by the one transaction" of R100; what
differs is the byte, and with it the argument fields stored (41_opcodes.md). Each is the transaction on the engine as it
is built: an op byte outside its generation's set ends in `InvalidOperation` (R143, R237). -/

namespace Sys2Proof.Machine

open Sys2Proof

/-- `A.R` (R130): read flash. -/
def execAR (arg0 arg1 : U32) (s : State) : Host.Outcome State Fault Refusal :=
  transact 0x52#8 arg0 arg1 s

/-- `A.W` (R131): write flash; the data bytes are in the payload before the call. -/
def execAW (arg0 arg1 : U32) (s : State) : Host.Outcome State Fault Refusal :=
  transact 0x57#8 arg0 arg1 s

/-- `A.E` (R132): erase flash. -/
def execAE (arg0 arg1 : U32) (s : State) : Host.Outcome State Fault Refusal :=
  transact 0x45#8 arg0 arg1 s

/-- `A.I` (R133): lot id; no argument field stored (R78). -/
def execAI (arg0 arg1 : U32) (s : State) : Host.Outcome State Fault Refusal :=
  transact 0x49#8 arg0 arg1 s

/-- `A.M` (R134): mac; no argument field stored (R78). -/
def execAM (arg0 arg1 : U32) (s : State) : Host.Outcome State Fault Refusal :=
  transact 0x4D#8 arg0 arg1 s

/-- `A.N` (R135): serial; no argument field stored (R78). -/
def execAN (arg0 arg1 : U32) (s : State) : Host.Outcome State Fault Refusal :=
  transact 0x4E#8 arg0 arg1 s

/-- `A.T` (R136): trace on; no argument field stored (R78). -/
def execATraceOn (arg0 arg1 : U32) (s : State) : Host.Outcome State Fault Refusal :=
  transact 0x54#8 arg0 arg1 s

/-- `A.t` (R137): trace off; no argument field stored (R78). -/
def execATraceOff (arg0 arg1 : U32) (s : State) : Host.Outcome State Fault Refusal :=
  transact 0x74#8 arg0 arg1 s

/-- `A.L` (R138): legacy; both words stored (R79). -/
def execAL (arg0 arg1 : U32) (s : State) : Host.Outcome State Fault Refusal :=
  transact 0x4C#8 arg0 arg1 s

/-- `A.V` (R139): legacy; both words stored (R79). -/
def execAV (arg0 arg1 : U32) (s : State) : Host.Outcome State Fault Refusal :=
  transact 0x56#8 arg0 arg1 s

/-- `B.R` (R140): read flash. -/
def execBR (arg0 arg1 : U32) (s : State) : Host.Outcome State Fault Refusal :=
  transact 0x52#8 arg0 arg1 s

/-- `B.W` (R141): write flash; the data bytes are in `from_scp` before the call. -/
def execBW (arg0 arg1 : U32) (s : State) : Host.Outcome State Fault Refusal :=
  transact 0x57#8 arg0 arg1 s

/-- `B.V` (R142): legacy; two raw words. -/
def execBV (arg0 arg1 : U32) (s : State) : Host.Outcome State Fault Refusal :=
  transact 0x56#8 arg0 arg1 s

end Sys2Proof.Machine
end

