-- ==== Sys2Proof/Machine/Dispatch.lean ====
section
/-! DEFINITION. One arm per row of spec/opcode_table.json. -/

namespace Sys2Proof.Machine

open Sys2Proof

def exec (i : Instr) (s : State) : Host.Outcome State Fault Refusal :=
  match i with
  | .aRead arg0 arg1 => Sys2Proof.Machine.execAR arg0 arg1 s
  | .aWrite arg0 arg1 => Sys2Proof.Machine.execAW arg0 arg1 s
  | .aErase arg0 arg1 => Sys2Proof.Machine.execAE arg0 arg1 s
  | .aLotId arg0 arg1 => Sys2Proof.Machine.execAI arg0 arg1 s
  | .aMac arg0 arg1 => Sys2Proof.Machine.execAM arg0 arg1 s
  | .aSerial arg0 arg1 => Sys2Proof.Machine.execAN arg0 arg1 s
  | .aTraceOn arg0 arg1 => Sys2Proof.Machine.execATraceOn arg0 arg1 s
  | .aTraceOff arg0 arg1 => Sys2Proof.Machine.execATraceOff arg0 arg1 s
  | .aLegacyL arg0 arg1 => Sys2Proof.Machine.execAL arg0 arg1 s
  | .aLegacyV arg0 arg1 => Sys2Proof.Machine.execAV arg0 arg1 s
  | .bRead arg0 arg1 => Sys2Proof.Machine.execBR arg0 arg1 s
  | .bWrite arg0 arg1 => Sys2Proof.Machine.execBW arg0 arg1 s
  | .bLegacyV arg0 arg1 => Sys2Proof.Machine.execBV arg0 arg1 s
  | .scpCmd op arg0 arg1 => Sys2Proof.Machine.execScpCmd op arg0 arg1 s
  | .scpBuf => Sys2Proof.Machine.execScpBuf s
  | .flashErase addr size => Sys2Proof.Machine.execFlashErase addr size s
  | .flashRead addr dst size => Sys2Proof.Machine.execFlashRead addr dst size s
  | .flashWrite addr src size => Sys2Proof.Machine.execFlashWrite addr src size s

end Sys2Proof.Machine
end

