-- ==== Sys2Proof/Machine/Fetch.lean ====
section
/-! DEFINITION. Taking and placing host calls, and the answer to an op byte that is no row. -/

namespace Sys2Proof.Machine

open Sys2Proof

/-- The call was taken from the offers; `rest` is what is offered after it. -/
def takeCall (rest : List Byte) (s : State) : State :=
  { s with env := { s.env with offers := rest } }

/-- A call is offered to an engine at `REST` with no chunked operation in progress. -/
def placeCall (call : List Byte) (s : State) : State :=
  { s with
    eng := { s.eng with pc := .rest, cKind := .none }
    env := { s.env with offers := call } }

/-- An op byte outside `OPSET(GEN)`: `scp_cmd` answers it with `InvalidOperation` (R80, R143). -/
def illegalOpByte (op : Byte) (arg0 arg1 : U32) (s : State) : Host.Outcome State Fault Refusal :=
  transact op arg0 arg1 s

end Sys2Proof.Machine
end

