-- ==== Sys2Proof/Machine/Step.lean ====
section
/-! DEFINITION. One step of the machine, and how a host call is placed. -/

namespace Sys2Proof.Machine

open Sys2Proof

/-- One step. At `REST` the machine takes the next call the host offers, or leaves the turn to the environment when none
is offered; while an operation is in progress it takes the requester step that `pc` names, after the environment's turn. -/
def step (s : State) : Host.Outcome State Fault Refusal :=
  if parametersOk s.cfg then
    if s.eng.pc = .rest then
      if s.env.offers.isEmpty then .next (envTurn s)
      else
        match decode s.cfg.gen s.env.offers with
        | .ok (i, rest) => exec i (takeCall rest s)
        | .error (.illegalOpByte op arg0 arg1 rest) => illegalOpByte op arg0 arg1 (takeCall rest s)
        | .error .truncated => .refused .truncatedCall
    else .next (tick s)
  else .refused .badParameters

/-- `s` with the call of a table word offered, and the engine at `REST` where the next step takes it. -/
def State.withFetchWord (s : State) (nbits w : Nat) : State :=
  placeCall (tableCall nbits w) s

end Sys2Proof.Machine
end

