-- ==== Sys2Proof/Machine/RefScp.lean ====
section
/-! DEFINITION. `RefSCP` (R176), the reference responder of 95_test_vectors.md: "not a description of the real
coprocessor" (D27) and no part of `State`. It is a machine of its own beside the engine: it reads what the engine has
signalled, and its turns are moves of the coprocessor in the engine's schedule. -/

namespace Sys2Proof.Machine

open Sys2Proof

/-- The script entry of one command (R176): perform it, fail it, or hang. -/
inductive RefScript
  | perform
  | fail
  | hang
  deriving DecidableEq, Repr

/-- What `RefSCP` does with one command: the script entry, and `LAT` in ticks, which "may be given per command" (R176). -/
structure RefEntry where
  script  : RefScript
  latency : Nat
  deriving DecidableEq, Repr

/-- A command in progress: its message as read after the signal (R174), its script entry, and the tick it is due at. -/
structure RefJob where
  id    : U32
  op    : Byte
  arg0  : U32
  arg1  : U32
  entry : RefEntry
  due   : Nat
  deriving DecidableEq, Repr

/-- The state of `RefSCP` (R176): `FLASH[0 .. FLASH_SIZE - 1]`, the script of the coming commands, the latency `LAT` of a
command that the script does not name, and the command in progress. -/
structure RefScp where
  flash     : Memory
  flashSize : Nat
  script    : List RefEntry
  latency   : Nat
  job       : Option RefJob
  deriving DecidableEq, Repr

/-- Responder moves that write payload bytes at rising positions. -/
def payloadWrites : Nat → List Byte → List EnvMove
  | _, [] => []
  | i, v :: vs => .scp (.writePayload i v) :: payloadWrites (i + 1) vs

/-- A byte of the flash. Where `FLASH[0 .. FLASH_SIZE - 1]` has none, R176 and U4 give no value: a free one (log 10). -/
def flashByte (r : RefScp) (a : Nat) : Byte :=
  if a < r.flashSize then Memory.read r.flash a else Config.freeFlash a

/-- `n` bytes of the flash from address `a`. -/
def flashBytes (r : RefScp) : Nat → Nat → List Byte
  | _, 0 => []
  | a, n + 1 => flashByte r a :: flashBytes r (a + 1) n

/-- The visible payload bytes `0 .. n - 1`. -/
def payloadBytes (s : State) (n : Nat) : List Byte :=
  (List.range n).map (fun i => lowByte (visible s (.field (.payload i))))

/-- How many of the positions `a0 + i`, `0 <= i < a1`, `FLASH[0 .. FLASH_SIZE - 1]` has: those that a write or an erase changes
(R176; log 10). -/
def flashCount (flashSize : Nat) (a0 a1 : U32) : Nat :=
  min a1.toNat (flashSize - a0.toNat)

/-- What `RefSCP` does at the doorbell write: `MB.exec_id <- id; MB.status <- 'E'` (R176). -/
def refStart (id : U32) : List EnvMove :=
  [.scp .observe, .scp (.writeExec id), .scp (.writeStatus statusExecuting)]

/-- What `RefSCP` does `LAT` ticks later (R176), with the flash it has and a payload of `cap` bytes. -/
def refFinish (cap : Nat) (r : RefScp) (j : RefJob) : List EnvMove :=
  match j.entry.script with
  | .hang => []
  | .fail => [.scp .clearBusy]
  | .perform =>
    (if j.op = 0x52#8 then payloadWrites 0 (flashBytes r j.arg0.toNat (min j.arg1.toNat cap)) else [])
      ++ [.scp (.writeStatus statusGood), .scp .clearBusy]

/-- The flash after a command (R176): `'W'` overwrites with the payload, `'E'` fills with 0xFF. -/
def refFlash (r : RefScp) (j : RefJob) (payload : List Byte) : Memory :=
  match j.entry.script with
  | .hang => r.flash
  | .fail => r.flash
  | .perform =>
    if j.op = 0x57#8 then
      Memory.writeList r.flash j.arg0.toNat (payload.take (flashCount r.flashSize j.arg0 j.arg1))
    else if j.op = 0x45#8 then
      Memory.writeList r.flash j.arg0.toNat (List.replicate (flashCount r.flashSize j.arg0 j.arg1) 0xFF#8)
    else r.flash

/-- The script entry of the next command: an unscripted one is performed after `LAT` ticks (R176). -/
def refEntry (r : RefScp) : RefEntry :=
  r.script.headD { script := .perform, latency := r.latency }

/-- The command that `RefSCP` reads from the mailbox once it has a signal (R174, R176). -/
def refJob (r : RefScp) (s : State) : RefJob :=
  { id := visible s (.field .requestId)
    op := lowByte (visible s (.field .op))
    arg0 := visible s (.field .arg0)
    arg1 := visible s (.field .arg1)
    entry := refEntry r
    due := s.env.now.toNat + (refEntry r).latency }

/-- The payload bytes a command transfers from (R176: `MB.payload[i]` for `0 <= i < a1`). -/
def jobPayload (s : State) (j : RefJob) : List Byte :=
  payloadBytes s (min j.arg1.toNat s.cfg.payloadCap)

/-- `RefSCP`'s turn (R176): with no command in progress it takes a signal and starts its command; with one in progress it
finishes it at the tick it is due, and never where the script hangs; else it does nothing. -/
def refTurn (r : RefScp) (s : State) : RefScp × List EnvMove :=
  match r.job with
  | none =>
    if s.bus.signals = 0 then (r, [])
    else ({ r with script := r.script.tail, job := some (refJob r s) }, refStart (visible s (.field .requestId)))
  | some j =>
    if j.entry.script = .hang ∨ s.env.now.toNat < j.due then (r, [])
    else ({ r with flash := refFlash r j (jobPayload s j), job := none }, refFinish s.cfg.payloadCap r j)

/-- One requester step beside `RefSCP`: `RefSCP` takes its turn on what it sees, the clock advances by `d` ticks, the engine
takes its step. -/
def refTick (d : Nat) (p : RefScp × State) : RefScp × State :=
  let (r, moves) := refTurn p.1 p.2
  (r, tick { p.2 with env := { p.2.env with sched := [moves ++ [.clk d]] } })

/-- The engine beside `RefSCP` until its operation is complete, at most `fuel` requester steps of `d` ticks each. -/
def refRun (d : Nat) : Nat → RefScp × State → RefScp × State
  | 0, p => p
  | fuel + 1, p => if p.2.eng.pc = .rest then p else refRun d fuel (refTick d p)

end Sys2Proof.Machine
end

