-- ==== Sys2Proof/Safety.lean ====
section
/-! DEFINITION. What counts as a safe state, and the terms in which claims speak of states, schedules and results. -/

namespace Sys2Proof.Machine

open Sys2Proof

/-- The fields the requester writes (R33). -/
def requesterOwned : Field → Bool
  | .requestId | .op | .arg0 | .arg1 | .payload _ => true
  | .execId | .status => false

/-- The fields of the message header that only the requester writes (R33). -/
def requestHeader : Field → Bool
  | .requestId | .op | .arg0 | .arg1 => true
  | .execId | .status | .payload _ => false

/-- A field that exists: a payload position is below `PAYLOAD_CAP` (R18). -/
def fieldExists (cfg : Config) : Field → Prop
  | .payload i => i < cfg.payloadCap
  | .requestId | .execId | .op | .status | .arg0 | .arg1 => True

/-- What a field holds after `v` was stored to it: all of `v` in a 32-bit field, its low byte in a byte field (R43). -/
def fieldValue (f : Field) (v : U32) : U32 :=
  if fieldWidth f = 4 then v else zextByte (lowByte v)

/-- An address of the mailbox region (R42). -/
def inMailbox (cfg : Config) (a : Nat) : Prop :=
  cfg.mboxBase ≤ a ∧ a < cfg.mboxBase + mboxSize cfg

/-- The steps of a transaction before the channel check decided (R102, R103). -/
def beforeCheck : Pc → Bool
  | .v | .c => true
  | .rest | .wOp | .wA0 | .wA1 | .wId | .sb | .ring | .t0 | .poll | .lb | .rdSt | .resolve
  | .fInit | .fTest | .fChunk | .fCopyIn | .fCmd | .fCopyOut | .fAdv => false

/-- The steps of a transaction after `V` recognised its op byte. -/
def opChecked : Pc → Bool
  | .c | .wOp | .wA0 | .wA1 | .wId | .sb | .ring | .t0 | .poll | .lb | .rdSt | .resolve => true
  | .rest | .v | .fInit | .fTest | .fChunk | .fCopyIn | .fCmd | .fCopyOut | .fAdv => false

/-- The steps of a transaction (R122). -/
def inTransaction (p : Pc) : Bool :=
  beforeCheck p || opChecked p

/-- The steps of the chunk loop (R162). -/
def inChunkLoop : Pc → Bool
  | .fInit | .fTest | .fChunk | .fCopyIn | .fCmd | .fCopyOut | .fAdv => true
  | .rest | .v | .c | .wOp | .wA0 | .wA1 | .wId | .sb | .ring | .t0 | .poll | .lb | .rdSt | .resolve => false

/-- The steps between the doorbell write and the end of the transaction. -/
def afterDoorbell : Pc → Bool
  | .t0 | .poll | .lb | .rdSt | .resolve => true
  | .rest | .v | .c | .wOp | .wA0 | .wA1 | .wId | .sb | .ring
  | .fInit | .fTest | .fChunk | .fCopyIn | .fCmd | .fCopyOut | .fAdv => false

/-- The steps of the write phase up to the doorbell: header stores may be pending (R107). -/
def inWritePhase : Pc → Bool
  | .wA0 | .wA1 | .wId | .sb | .ring => true
  | .rest | .v | .c | .wOp | .t0 | .poll | .lb | .rdSt | .resolve
  | .fInit | .fTest | .fChunk | .fCopyIn | .fCmd | .fCopyOut | .fAdv => false

/-- The steps of the chunk loop at which the current chunk is chosen: all but the test and the choice itself. -/
def chunkChosen (p : Pc) : Bool :=
  inTransaction p || decide (p = .fCopyIn) || decide (p = .fCmd) || decide (p = .fCopyOut) || decide (p = .fAdv)

/-- Pending stores carry what the field will hold: a byte field's value has no bit above bit 7 (R43). -/
def pendingNormal (s : State) : Prop :=
  ∀ e ∈ s.ord.pending, fieldValue e.field e.val = e.val

/-- The states the engine can be in: the memory is canonical, `pc`, `x[C_KIND]` and the chunk registers fit together, and
only stores the requester may make are pending. -/
structure SafeState (s : State) : Prop where
  /-- The memory keeps its one form. -/
  memory : Memory.wf s.bus.mem = true
  /-- At `REST` no chunk loop is active (R179). -/
  restKind : s.eng.pc = .rest → s.eng.cKind = .none
  /-- In the chunk loop one is (R23). -/
  loopKind : inChunkLoop s.eng.pc = true → s.eng.cKind ≠ .none
  /-- Payload is copied in for a write and out for a read only (R151). -/
  copyInKind : s.eng.pc = .fCopyIn → s.eng.cKind = .write
  copyOutKind : s.eng.pc = .fCopyOut → s.eng.cKind = .read
  /-- A chunk is chosen only while bytes remain (R151). -/
  sizeLeft : s.eng.pc = .fChunk → s.eng.cSize ≠ 0#32
  /-- Every chunk has `1 <= chunk <= MAX_CHUNK`, and no more than remains (R157, R160). -/
  chunkBounds : s.eng.cKind ≠ .none → chunkChosen s.eng.pc = true →
    1 ≤ s.eng.cChunk.toNat ∧ s.eng.cChunk.toNat ≤ s.cfg.maxChunk ∧ s.eng.cChunk.toNat ≤ s.eng.cSize.toNat
  /-- Every payload index of a copy is inside the chunk (R157). -/
  copyIndex : s.eng.pc = .fCopyIn ∨ s.eng.pc = .fCopyOut → s.eng.cIdx.toNat < s.eng.cChunk.toNat
  /-- Only a member of `OPSET(GEN)` gets past step `V` (R14, R102). -/
  opRecognised : opChecked s.eng.pc = true → recognised s.cfg.gen s.eng.op = true
  /-- A transaction of the chunk loop is the command of its chunk (R151). -/
  chunkCommand : s.eng.cKind ≠ .none → inTransaction s.eng.pc = true →
    s.eng.op = chunkOpcode s.eng.cKind ∧ s.eng.arg0 = s.eng.cAddr ∧ s.eng.arg1 = s.eng.cChunk
  /-- The caller's buffer stays clear of the shared regions (R29 (b)), and the cursor does not wrap (R161). -/
  bufferStaysClear : s.eng.cKind = .read ∨ s.eng.cKind = .write →
    bufferClear s.cfg s.eng.cBuf.toNat (s.eng.cCur.toNat + s.eng.cSize.toNat) = true
      ∧ s.eng.cCur.toNat + s.eng.cSize.toNat < 2 ^ 32
  /-- The engine's pending stores are to fields it owns and that exist (R33, R43). -/
  pendingOwned : ∀ e ∈ s.ord.pending, requesterOwned e.field = true ∧ fieldExists s.cfg e.field
  /-- Header stores are pending only in the write phase (R107, R109). -/
  pendingHeader : inWritePhase s.eng.pc = false → ∀ e ∈ s.ord.pending, requestHeader e.field = false
  /-- At the doorbell a store barrier has passed every pending store (R108). -/
  pendingFenced : s.eng.pc = .ring → ∀ e ∈ s.ord.pending, 1 ≤ e.barriers
  /-- After the doorbell nothing is pending (R51). -/
  pendingDone : afterDoorbell s.eng.pc = true → s.ord.pending = []
  /-- Pending stores carry values of their field's width (R43). -/
  pendingWidth : pendingNormal s

/-- In a transaction the engine's own side sees the message it has written so far (R105 to R107, R121). -/
structure MessageHeld (s : State) : Prop where
  op : s.eng.pc ∈ [Pc.wA0, .wA1, .wId, .sb, .ring, .t0, .poll, .lb, .rdSt, .resolve] →
    ownView s (.field .op) = zextByte s.eng.op
  arg0 : s.eng.pc ∈ [Pc.wA1, .wId, .sb, .ring, .t0, .poll, .lb, .rdSt, .resolve] →
    storesArgs s.cfg.gen s.eng.op = true → ownView s (.field .arg0) = s.eng.arg0
  arg1 : s.eng.pc ∈ [Pc.wId, .sb, .ring, .t0, .poll, .lb, .rdSt, .resolve] →
    storesArgs s.cfg.gen s.eng.op = true → ownView s (.field .arg1) = s.eng.arg1
  requestId : s.eng.pc ∈ [Pc.sb, .ring, .t0, .poll, .lb, .rdSt, .resolve] →
    ownView s (.field .requestId) = s.eng.nextId - 1#32

/-- The engine can take a host operation: its parameters meet their constraints and it is at `REST` (R101, R179). -/
def Ready (s : State) : Prop :=
  parametersOk s.cfg = true ∧ s.eng.pc = .rest ∧ s.eng.cKind = .none

/-- No store is pending and no load may return an older value (the hidden state of R30 is empty). -/
def Settled (s : State) : Prop :=
  s.ord.pending = [] ∧ s.ord.stale = [] ∧ s.ord.passed = [] ∧ s.ord.loadPick = 0

/-- The values an `Idle()` sample reads when nothing moves (R104). -/
def visibleSample (s : State) : Sample :=
  { busy := busyBit s.bus.dbStatus
    exec := visible s (.field .execId)
    req := visible s (.field .requestId)
    st := lowByte (visible s (.field .status)) }

/-- The channel is idle (R28). -/
def channelIdle (s : State) : Prop :=
  idle (visibleSample s) = true

/-- The channel is ready for an operation whose every step is known: `Ready`, `Settled`, idle, memory in its one form. -/
def ReadyIdle (s : State) : Prop :=
  Ready s ∧ Settled s ∧ channelIdle s ∧ Memory.wf s.bus.mem = true

/-- The engine's registers after a call that ended at its channel check (R103, R192, R196): the operands latched, the
sample taken, `ChannelBusy` recorded. -/
def busyEngine (s : State) (op : Byte) (arg0 arg1 : U32) : Engine :=
  { s.eng with
    op := op
    arg0 := arg0
    arg1 := arg1
    pc := .rest
    res := codeChannelBusy
    diag :=
      { kind := codeChannelBusy, op := op, arg0 := arg0, arg1 := arg1, req := (ownSample s).req
        exec := (ownSample s).exec, status := (ownSample s).st, valid := true }
    sampleAt := .rdNow
    sample := ownSample s }

/-- `n` requester steps before which the environment does nothing. -/
def quiet (n : Nat) : List (List EnvMove) :=
  List.replicate n []

/-- A responder's answer to the command with id `id`, in the order of R173: the signal observed, `exec_id`, the in-progress
status, the response bytes, the final status, `busy` cleared. -/
def answer (id : U32) (data : List Byte) (final : Byte) : List EnvMove :=
  [.scp .observe, .scp (.writeExec id), .scp (.writeStatus statusExecuting)] ++ payloadWrites 0 data
    ++ [.scp (.writeStatus final), .scp .clearBusy]

/-- The schedule of one transaction that is answered at its first poll: the 12 steps `V`, four reads of `C`, `W_OP`,
`W_A0`, `W_A1`, `W_ID`, `SB`, `RING`, `T0`, then the answer. -/
def answeredSched (id : U32) (data : List Byte) (final : Byte) : List (List EnvMove) :=
  quiet 12 ++ [answer id data final]

/-- The steps of one chunk of `c` bytes up to its first poll: `F_TEST`, `F_CHUNK`, the copy-in of a write, `F_CMD`, and the
12 of `answeredSched`. -/
def stepsToPoll (k : ChunkKind) (c : Nat) : Nat :=
  (if k = .write then c else 0) + 15

/-- The steps of one chunk after the answer's step: three reads, `LB`, `RD_ST`, `RESOLVE`, the copy-out of a read, `F_ADV`. -/
def stepsToTest (k : ChunkKind) (c : Nat) : Nat :=
  (if k = .read then c else 0) + 7

/-- The schedule of a chunk loop whose every command is answered with `'G'` at its first poll, with the response bytes
taken from `data` in order; `n` bounds the number of chunks. -/
def chunkSched (k : ChunkKind) (maxChunk : Nat) : Nat → Nat → U32 → List Byte → List (List EnvMove)
  | 0, _, _, _ => []
  | n + 1, size, id, data =>
    if size = 0 then []
    else
      quiet (stepsToPoll k (min size maxChunk)) ++ [answer id (data.take (min size maxChunk)) statusGood]
        ++ quiet (stepsToTest k (min size maxChunk))
        ++ chunkSched k maxChunk n (size - min size maxChunk) (id + 1#32) (data.drop (min size maxChunk))

/-- The schedule of a whole chunked operation: `F_INIT`, then the chunks. -/
def chunkedSched (k : ChunkKind) (maxChunk size : Nat) (id : U32) (data : List Byte) : List (List EnvMove) :=
  [] :: chunkSched k maxChunk size size id data

/-- `ceil(size / MAX_CHUNK)` (R160). -/
def chunkCount (size maxChunk : Nat) : Nat :=
  (size + maxChunk - 1) / maxChunk

/-- The engine's registers after an answered transaction (R107, R110, R114, R196); the chunk registers keep their values. -/
def answeredEngine (s : State) (op : Byte) (arg0 arg1 : U32) (final : Byte) : Engine :=
  { s.eng with
    nextId := s.eng.nextId + 1#32
    op := op
    arg0 := arg0
    arg1 := arg1
    pc := .rest
    t0 := s.env.now
    res := if final = statusGood then codeOk else codeFault
    diag :=
      { kind := if final = statusGood then codeOk else codeFault, op := op, arg0 := arg0, arg1 := arg1
        req := s.eng.nextId, exec := s.eng.nextId, status := final, valid := true }
    sampleAt := .rdNow
    sample := { busy := false, exec := s.eng.nextId, req := s.eng.nextId, st := final }
    rdSt := final }

/-- The message header after a transaction wrote it (R105 to R107, R121): the argument fields only where the opcode stores
them (R76 to R79). -/
def headerWritten (s t : State) (op : Byte) (arg0 arg1 : U32) : Prop :=
  visible t (.field .op) = zextByte op
    ∧ visible t (.field .arg0) = (if storesArgs s.cfg.gen op then arg0 else visible s (.field .arg0))
    ∧ visible t (.field .arg1) = (if storesArgs s.cfg.gen op then arg1 else visible s (.field .arg1))
    ∧ visible t (.field .requestId) = s.eng.nextId

/-- What no operation touches while nothing but the coprocessor moves: the parameters, the clock, the offers, the caller's
and the coprocessor's last values, the free-value counter. -/
def callerUnchanged (s t : State) : Prop :=
  t.cfg = s.cfg ∧ t.env.now = s.env.now ∧ t.env.offers = s.env.offers ∧ t.env.retBuf = s.env.retBuf
    ∧ t.env.hostSeen = s.env.hostSeen ∧ t.env.scpSeen = s.env.scpSeen ∧ t.freeCtr = s.freeCtr

/-- What neither the requester nor the responder touches in a transaction: the above, and every byte outside the mailbox. -/
def outsideUnchanged (s t : State) : Prop :=
  callerUnchanged s t ∧ ∀ a, ¬ inMailbox s.cfg a → Memory.read t.bus.mem a = Memory.read s.bus.mem a

/-- The state after a transaction that the responder answered with `data` and `final` (R121): the message, the responder's
fields, the payload and its window (R57; its length where the spec gives none is log 5's), `busy` clear, one signal given
and taken, nothing pending, and the frame. -/
def Answered (s t : State) (op : Byte) (arg0 arg1 : U32) (data : List Byte) (final : Byte) : Prop :=
  t.eng = answeredEngine s op arg0 arg1 final
    ∧ headerWritten s t op arg0 arg1
    ∧ visible t (.field .execId) = s.eng.nextId
    ∧ visible t (.field .status) = zextByte final
    ∧ (∀ i, i < s.cfg.payloadCap → visible t (.field (.payload i))
        = (match data[i]? with | some v => zextByte v | none => visible s (.field (.payload i))))
    ∧ t.window = (if final = statusGood then responseLength s.cfg.payloadCap op arg1 else 0)
    ∧ busyBit t.bus.dbStatus = false
    ∧ t.bus.signals = s.bus.signals
    ∧ Settled t
    ∧ outsideUnchanged s t

/-- The `SCP_CMD` call that an instruction makes: an op byte's row with its byte, or `SCP_CMD` itself (R100, 41_opcodes.md). -/
def commandOf : Instr → Option (Byte × U32 × U32)
  | .aRead x y => some (0x52#8, x, y)
  | .aWrite x y => some (0x57#8, x, y)
  | .aErase x y => some (0x45#8, x, y)
  | .aLotId x y => some (0x49#8, x, y)
  | .aMac x y => some (0x4D#8, x, y)
  | .aSerial x y => some (0x4E#8, x, y)
  | .aTraceOn x y => some (0x54#8, x, y)
  | .aTraceOff x y => some (0x74#8, x, y)
  | .aLegacyL x y => some (0x4C#8, x, y)
  | .aLegacyV x y => some (0x56#8, x, y)
  | .bRead x y => some (0x52#8, x, y)
  | .bWrite x y => some (0x57#8, x, y)
  | .bLegacyV x y => some (0x56#8, x, y)
  | .scpCmd op x y => some (op, x, y)
  | .scpBuf | .flashErase _ _ | .flashRead _ _ _ | .flashWrite _ _ _ => none

/-- The chunked operation that an instruction is: its kind, flash address and size (R150). -/
def chunkedCall : Instr → Option (ChunkKind × U32 × U32)
  | .flashErase addr size => some (.erase, addr, size)
  | .flashRead addr _ size => some (.read, addr, size)
  | .flashWrite addr _ size => some (.write, addr, size)
  | .aRead _ _ | .aWrite _ _ | .aErase _ _ | .aLotId _ _ | .aMac _ _ | .aSerial _ _ | .aTraceOn _ _
  | .aTraceOff _ _ | .aLegacyL _ _ | .aLegacyV _ _ | .bRead _ _ | .bWrite _ _ | .bLegacyV _ _
  | .scpCmd _ _ _ | .scpBuf => none

/-- Whether an instruction is a command that breaks the caller's duty 3, "spanning more than one chunk's worth of data"
(R178, R229). -/
def oversizeCall (cfg : Config) (i : Instr) : Bool :=
  match commandOf i with
  | some (op, _, y) => oversizeCommand cfg.payloadCap op y
  | none => false

/-- The bytes of main processor memory that an instruction may write outside the mailbox: the `dst` of `FLASH_READ` (R153). -/
def storesTo (i : Instr) (a : Nat) : Prop :=
  match i with
  | .flashRead _ dst size => dst.toNat ≤ a ∧ a < dst.toNat + size.toNat
  | .aRead _ _ | .aWrite _ _ | .aErase _ _ | .aLotId _ _ | .aMac _ _ | .aSerial _ _ | .aTraceOn _ _
  | .aTraceOff _ _ | .aLegacyL _ _ | .aLegacyV _ _ | .bRead _ _ | .bWrite _ _ | .bLegacyV _ _
  | .scpCmd _ _ _ | .scpBuf | .flashErase _ _ | .flashWrite _ _ _ => False

/-- The caller buffer an instruction names, if any, is clear of the shared regions (R29 (b), R178 item 7). -/
def buffersClear (cfg : Config) (i : Instr) : Bool :=
  match i.buffer with
  | some (base, size) => bufferClear cfg base.toNat size.toNat
  | none => true

/-- Operations one after the other; none where one does not answer a next state. -/
def execAll : List Instr → State → Option State
  | [], s => some s
  | i :: is, s =>
    match exec i s with
    | .next t => execAll is t
    | .fault _ => none
    | .refused _ => none

/-- `n` steps of the machine; none where one does not answer a next state. -/
def steps : Nat → State → Option State
  | 0, s => some s
  | n + 1, s =>
    match step s with
    | .next t => steps n t
    | .fault _ => none
    | .refused _ => none

/-- Loads of shared locations, one after the other, each satisfied a given number of coprocessor stores back (R50). -/
def loadAll : List (Nat × Loc) → State → State
  | [], s => s
  | (n, l) :: ls, s => loadAll ls (afterLoad (envMove (.early n) s) l)

/-- A command whose op byte the generation recognises. -/
def recognisedCommand (g : Gen) (i : Instr) : Prop :=
  ∃ op x y, commandOf i = some (op, x, y) ∧ recognised g op = true

/-- Every later command ends in `ChannelBusy` while nothing else moves, however many were made before it: no id is taken,
memory, the doorbell and the environment are as they were, but for the clock (R193, R222, R232). -/
def StaysBusy (t : State) : Prop :=
  ∀ js : List Instr, js ≠ [] → (∀ j ∈ js, recognisedCommand t.cfg.gen j) →
    ∃ u, execAll js t = some u
      ∧ u = { t with eng := u.eng, ord := u.ord, env := { t.env with now := u.env.now }, window := 0 } ∧ u.eng.pc = .rest
      ∧ u.eng.res = codeChannelBusy ∧ u.eng.nextId = t.eng.nextId

/-- `n` requester steps. -/
def ticks : Nat → State → State
  | 0, s => s
  | n + 1, s => ticks n (tick s)

/-- The state in which a transaction that is in progress hands control back, if it does within `fuel` steps. -/
def callRun : Nat → State → Option State
  | 0, _ => none
  | fuel + 1, s => if inTransaction (tick s).eng.pc then callRun fuel (tick s) else some (tick s)

/-- The steps of a chunk at which its transaction has taken its request id (R107). -/
def idTaken : Pc → Bool
  | .sb | .ring | .t0 | .poll | .lb | .rdSt | .resolve | .fCopyOut | .fAdv => true
  | .rest | .v | .c | .wOp | .wA0 | .wA1 | .wId | .fInit | .fTest | .fChunk | .fCopyIn | .fCmd => false

/-- The length of the chunk that starts after `done` bytes (R156, R160). -/
def chunkLength (cfg : Config) (size done : Nat) : Nat :=
  min (size - done) cfg.maxChunk

/-- The locations an `Idle()` sample reads (R104). -/
def sampledLocs : List Loc :=
  [.dbStatus, .field .execId, .field .requestId, .field .status]

/-- The hidden state after the four reads of one `Idle()` sample that returned the newest values (R50 (a)). -/
def ordAfterSample (o : Ordering) : Ordering :=
  { o with stale := [], passed := (o.stale ++ o.passed).filter (fun x => !sampledLocs.contains x.loc) }

/-- The state after a call that ended at its channel check while nothing moved: only engine registers and the hidden
state's older values differ, and no response is left in the payload window (R103, R192, R57). -/
def busyState (s : State) (op : Byte) (arg0 arg1 : U32) : State :=
  { s with eng := busyEngine s op arg0 arg1, ord := ordAfterSample s.ord, window := 0 }

/-- The engine after a transaction that timed out while nothing moved but the clock (R111, R193, R196). -/
def timedOutEngine (s : State) (op : Byte) (arg0 arg1 : U32) (exec : U32) (st : Byte) (busy : Bool) : Engine :=
  { s.eng with
    nextId := s.eng.nextId + 1#32
    op := op
    arg0 := arg0
    arg1 := arg1
    pc := .rest
    t0 := s.env.now
    res := codeTimeout
    diag :=
      { kind := codeTimeout, op := op, arg0 := arg0, arg1 := arg1, req := s.eng.nextId, exec := exec, status := st
        valid := true }
    sampleAt := .rdNow
    sample := { busy := busy, exec := exec, req := s.eng.nextId, st := st } }

/-- The schedule of a transaction whose coprocessor never answers: a second passes at the first poll (R193). -/
def hungSched (cfg : Config) : List (List EnvMove) :=
  quiet 12 ++ [[.clk (timeoutTicks cfg)]]

/-- The byte of a written range that payload position `i` holds after the whole range went through the payload in chunks:
the byte of the last chunk that has a byte `i` (R154). -/
def lastCopied (size maxChunk i : Nat) : Nat :=
  i + maxChunk * ((size - 1 - i) / maxChunk)

/-- The transaction record of the last chunk of an operation that completed with `OK` (R156, R160, R196). -/
def lastChunkDiag (s : State) (k : ChunkKind) (addr : U32) (size : Nat) : Diag :=
  let n := chunkCount size s.cfg.maxChunk - 1
  { kind := codeOk, op := chunkOpcode k, arg0 := addr + BitVec.ofNat 32 (n * s.cfg.maxChunk)
    arg1 := BitVec.ofNat 32 (size - n * s.cfg.maxChunk), req := s.eng.nextId + BitVec.ofNat 32 n
    exec := s.eng.nextId + BitVec.ofNat 32 n, status := statusGood, valid := true }

/-- The message and the responder's fields after an operation whose every chunk was answered with `'G'`: those of the last
chunk, or as they were when there was none (R31, R151). -/
def lastChunkMessage (s t : State) (k : ChunkKind) (addr size : U32) : Prop :=
  (size = 0#32 → ∀ f, requestHeader f = true ∨ f = .execId ∨ f = .status → visible t (.field f) = visible s (.field f))
    ∧ (size ≠ 0#32 →
        visible t (.field .op) = zextByte (chunkOpcode k)
          ∧ visible t (.field .arg0) = (lastChunkDiag s k addr size.toNat).arg0
          ∧ visible t (.field .arg1) = (lastChunkDiag s k addr size.toNat).arg1
          ∧ visible t (.field .requestId) = (lastChunkDiag s k addr size.toNat).req
          ∧ visible t (.field .execId) = (lastChunkDiag s k addr size.toNat).req
          ∧ visible t (.field .status) = zextByte statusGood)

/-- What a chunked operation leaves that completed with `OK` while nothing but the answering coprocessor moved (R151, R155,
R160, R179): the result, one id per chunk, no loop active, all bytes done, the record, the message and the payload window
(R57; log 5) of the last chunk, an idle channel with every signal taken, and what no operation touches; with no byte to move, the record as it was. -/
def ChunksDone (s t : State) (k : ChunkKind) (addr size : U32) : Prop :=
  t.eng.pc = .rest ∧ t.eng.cKind = .none ∧ t.eng.res = codeOk
    ∧ t.eng.nextId = s.eng.nextId + BitVec.ofNat 32 (chunkCount size.toNat s.cfg.maxChunk)
    ∧ t.eng.cSize = 0#32 ∧ t.eng.cCur = size ∧ t.eng.cAddr = addr + size
    ∧ t.eng.diag = (if size = 0#32 then s.eng.diag else lastChunkDiag s k addr size.toNat)
    ∧ lastChunkMessage s t k addr size
    ∧ t.window = (if size = 0#32 then s.window
        else responseLength s.cfg.payloadCap (chunkOpcode k) (lastChunkDiag s k addr size.toNat).arg1)
    ∧ t.bus.signals = s.bus.signals ∧ Settled t ∧ channelIdle t ∧ callerUnchanged s t

end Sys2Proof.Machine
end

