-- ==== Sys2Proof/Certificates/Slice0/Obligations.lean ====
section
/-! DEFINITION. The statements for the provers. Each docstring names the rules of spec/ it comes from. `SafeState`,
`ReadyIdle`, `Answered` and the schedules are in Safety.lean. A statement without a premise on `env.sched` holds for every
schedule, so for every interleaving of the coprocessor, the clock, the memory system and the caller (R170, R172). That
the interleaving is a list in the state, and what goes on when the list is used up (the clock, and at `REST` the pending
stores), is the model's choice (log 2). Where a statement says that `bus` or `DB.STATUS` is as it was, that this includes
bits 31:1 of `DB.STATUS`, which the spec calls any value (U7), is the model's choice (log 11). -/

open Sys2Proof Sys2Proof.Machine

/-! ### Encodings -/

/-- Decoding the bytes of a well-formed call gives the call and the bytes after it (R85, R86; log 3). -/
def Obligations.DecodeEncodeRoundTrip : Prop :=
  ∀ (g : Gen) (i : Instr) (rest : List Byte), i.wf g = true → decode g (encode i ++ rest) = .ok (i, rest)

/-- What decodes is the encoding of what it decodes to, and belongs to the generation: no bytes have a second reading
(R73, R86; log 3). -/
def Obligations.DecodedBytesAreTheEncoding : Prop :=
  ∀ (g : Gen) (bs rest : List Byte) (i : Instr),
    decode g bs = .ok (i, rest) → bs = encode i ++ rest ∧ i.generationOk g = true

/-- One call of each format, decoded from bytes written out by hand: `'R'`, `'T'` and `'t'` of generation A, `'V'` of
generation B, and the five host operations. The op byte and kind values are those of R73, R74 and R85; that a call is these
bytes, with its operands little-endian after the first, is the model's choice (log 3). -/
def Obligations.CallsDecodeAsWritten : Prop :=
  decode .a [0x52#8, 0x00#8, 0x00#8, 0x10#8, 0x00#8, 0x00#8, 0x01#8, 0x00#8, 0x00#8]
      = .ok (.aRead 0x00100000#32 0x100#32, [])
    ∧ decode .a [0x54#8, 1#8, 0#8, 0#8, 0#8, 2#8, 0#8, 0#8, 0#8] = .ok (.aTraceOn 1#32 2#32, [])
    ∧ decode .a [0x74#8, 1#8, 0#8, 0#8, 0#8, 2#8, 0#8, 0#8, 0#8] = .ok (.aTraceOff 1#32 2#32, [])
    ∧ decode .b [0x56#8, 1#8, 0#8, 0#8, 0#8, 2#8, 0#8, 0#8, 0#8] = .ok (.bLegacyV 1#32 2#32, [])
    ∧ decode .a [0#8, 0x52#8, 1#8, 0#8, 0#8, 0#8, 2#8, 0#8, 0#8, 0#8] = .ok (.scpCmd 0x52#8 1#32 2#32, [])
    ∧ decode .a [1#8] = .ok (.scpBuf, [])
    ∧ decode .b [2#8, 1#8, 0#8, 0#8, 0#8, 2#8, 0#8, 0#8, 0#8] = .ok (.flashErase 1#32 2#32, [])
    ∧ decode .b [3#8, 1#8, 0#8, 0#8, 0#8, 0#8, 0x30#8, 0#8, 0#8, 0#8, 0#8, 0#8, 0#8, 2#8, 0#8, 0#8, 0#8]
      = .ok (.flashRead 1#32 0x3000#64 2#32, [])
    ∧ decode .a [4#8, 1#8, 0#8, 0#8, 0#8, 0#8, 0x30#8, 0#8, 0#8, 0#8, 0#8, 0#8, 0#8, 2#8, 0#8, 0#8, 0#8]
      = .ok (.flashWrite 1#32 0x3000#64 2#32, [])

/-- The recognised op bytes are the characters of R73 in the sets of R74: 10 in generation A, 3 in generation B. -/
def Obligations.OpsetMembers : Prop :=
  ∀ op : Byte,
    (recognised .a op = true ↔ op ∈ "RWELVIMNTt".toList.map (fun c => BitVec.ofNat 8 c.toNat))
      ∧ (recognised .b op = true ↔ op ∈ "RWV".toList.map (fun c => BitVec.ofNat 8 c.toNat))

/-- A call whose first byte is above the host operation kinds is a row of the generation exactly where the byte is
recognised; every other byte is illegal and keeps its operands (R73, R74, R80, R86). -/
def Obligations.OpByteDecodesIffRecognised : Prop :=
  ∀ (g : Gen) (op : Byte) (x y : U32) (rest : List Byte), 5 ≤ op.toNat →
    (recognised g op = true →
      ∃ i, decode g (encodeOpByte op x y ++ rest) = .ok (i, rest) ∧ commandOf i = some (op, x, y)
        ∧ i.generation = some g)
    ∧ (recognised g op = false →
      decode g (encodeOpByte op x y ++ rest) = .error (.illegalOpByte op x y rest))

/-! ### The mailbox and memory -/

/-- R42: every byte of the mailbox region belongs to exactly one field of the layout. -/
def Obligations.MailboxIsPacked : Prop :=
  ∀ cfg : Config, parametersOk cfg = true → ∀ a, inMailbox cfg a →
    ∃! f : Field, fieldExists cfg f ∧ fieldAddr cfg f ≤ a ∧ a < fieldAddr cfg f + fieldWidth f

/-- R44: every 4-byte access is aligned, and a parameter set that violates the constraints gets no meaning. -/
def Obligations.AccessesAlignedOrRefused : Prop :=
  (∀ cfg : Config, parametersOk cfg = true →
    (∀ f : Field, fieldWidth f = 4 → fieldAddr cfg f % 4 = 0)
      ∧ cfg.dbSignalAddr % 4 = 0 ∧ cfg.dbStatusAddr % 4 = 0)
  ∧ (∀ s : State, parametersOk s.cfg = false →
      step s = .refused .badParameters ∧ ∀ i : Instr, exec i s = .refused .badParameters)

/-- R41, R43, R47: a store to a field sets the field's bytes, bits 7:0 at the lowest address, and no other byte; it reads
back whole, and every other field that exists reads as before. -/
def Obligations.FieldStoreLittleEndian : Prop :=
  ∀ (cfg : Config) (m : Memory) (f : Field) (v : U32), parametersOk cfg = true → Memory.wf m = true →
    fieldExists cfg f →
    (∀ k, k < fieldWidth f → Memory.read (writeField cfg m f v) (fieldAddr cfg f + k) = v.extractLsb' (8 * k) 8)
      ∧ (∀ a, a < fieldAddr cfg f ∨ fieldAddr cfg f + fieldWidth f ≤ a →
          Memory.read (writeField cfg m f v) a = Memory.read m a)
      ∧ readField cfg (writeField cfg m f v) f = fieldValue f v
      ∧ (∀ g, fieldExists cfg g → g ≠ f → readField cfg (writeField cfg m f v) g = readField cfg m g)
      ∧ Memory.wf (writeField cfg m f v) = true

/-- Memories in the one form that read the same at every address are equal (the model's form of memory, log 1). -/
def Obligations.MemoryFormIsCanonical : Prop :=
  ∀ m m' : Memory, Memory.wf m = true → Memory.wf m' = true →
    (∀ a, Memory.read m a = Memory.read m' a) → m = m'

/-! ### Reset -/

/-- R220, R221, R223, R32: reset sets the id counter to the generation's seed, `pc` to `REST`, no chunk loop and no pending
store; every other engine register, memory and the doorbell keep an arbitrary earlier value. -/
def Obligations.ResetValues : Prop :=
  ∀ (cfg : Config) (u : State),
    let r := State.resetFrom cfg u
    r.cfg = cfg ∧ r.eng.nextId = (match cfg.gen with | .a => cfg.seedA | .b => cfg.seedB)
      ∧ r.eng = { u.eng with nextId := r.eng.nextId, pc := .rest, cKind := .none }
      ∧ r.ord.pending = [] ∧ r.bus = u.bus

/-- From any earlier state with memory in its one form, the state after reset is a safe one and ready for an operation,
whatever the unspecified values are (R32, R220); `State.reset` is one. -/
def Obligations.ResetIsSafe : Prop :=
  (∀ (cfg : Config) (u : State), parametersOk cfg = true → Memory.wf u.bus.mem = true →
    SafeState (State.resetFrom cfg u) ∧ Ready (State.resetFrom cfg u))
  ∧ SafeState State.reset ∧ MessageHeld State.reset ∧ Ready State.reset

/-! ### The step -/

/-- A step at `REST` runs the call that the offered bytes decode to, on the state without those bytes; while an operation
is in progress a step is the environment's turn and one requester step; with nothing offered it is the environment's turn
(R101, R170, R201; log 2, log 3). -/
def Obligations.StepRunsDecodedCall : Prop :=
  ∀ s : State, parametersOk s.cfg = true →
    (∀ (i : Instr) (rest : List Byte), s.eng.pc = .rest → decode s.cfg.gen s.env.offers = .ok (i, rest) →
      step s = exec i (takeCall rest s))
    ∧ (s.eng.pc = .rest → s.env.offers = [] → step s = .next (envTurn s))
    ∧ (s.eng.pc ≠ .rest → step s = .next (tick s))

/-- R143: an op byte that no row lists is not dispatched: a step takes its call and answers `InvalidOperation`. The bytes of
the call, and that a first byte from 5 on is an op byte, are the model's choice (log 3). -/
def Obligations.StepAnswersIllegalOpByte : Prop :=
  ∀ (s : State) (op : Byte) (x y : U32) (rest : List Byte), Ready s → 5 ≤ op.toNat →
    recognised s.cfg.gen op = false → s.env.offers = encodeOpByte op x y ++ rest →
    ∃ t, step s = .next t ∧ step s = exec (.scpCmd op x y) (takeCall rest s)
      ∧ t.eng.pc = .rest ∧ t.eng.res = codeInvalidOperation ∧ t.env.offers = rest

/-- Every operation runs from `REST`, whatever the environment does: no stop but for parameters that violate their
constraints and a caller buffer that overlaps a shared region (R101, R119, R190). -/
def Obligations.EveryOperationRuns : Prop :=
  ∀ (i : Instr) (s : State), parametersOk s.cfg = true → s.eng.pc = .rest → buffersClear s.cfg i = true →
    ∃ t, exec i s = .next t

/-- R101, R178: an operation offered while one is in progress, and a caller buffer that overlaps the mailbox or a doorbell
register, have no step; that the model names the stops faults is its own choice (log 9, log 8). -/
def Obligations.OffersThatHaveNoStep : Prop :=
  ∀ (i : Instr) (s : State), parametersOk s.cfg = true →
    (buffersClear s.cfg i = true → s.eng.pc ≠ .rest → exec i s = .fault .offeredWhileBusy)
      ∧ (buffersClear s.cfg i = false → exec i s = .fault .bufferOverlapsDevice)

/-- R119, R162, R179, R201: every operation ends with the engine at `REST`, whatever the environment does; the one exception
is a poll whose deadline lies past the wrap of the tick counter, which has "no move" (U20). That the clock goes on when the
schedule is used up is the model's choice (log 2). -/
def Obligations.OperationEndsOrWaits : Prop :=
  ∀ (i : Instr) (s t : State), SafeState s → exec i s = .next t →
    (t.eng.pc = .rest ∧ t.eng.cKind = .none)
      ∨ (waiting t = true ∧ 2 ^ 64 ≤ t.eng.t0.toNat + timeoutTicks t.cfg)

/-- Every step keeps the safe states: `pc`, the chunk registers, the pending stores, their values' widths and the memory fit
together (R14, R23, R33, R43, R51, R151, R157, R179). -/
def Obligations.StepKeepsSafeState : Prop :=
  ∀ s t : State, SafeState s → step s = .next t → SafeState t

/-- Every step keeps what the engine's own side sees of the message it is writing (R105 to R107, R121, R171). -/
def Obligations.StepKeepsMessageHeld : Prop :=
  ∀ s t : State, SafeState s → MessageHeld s → step s = .next t → MessageHeld t

/-- R4, R10, R201: no step changes the configuration, the tick counter never decreases, and while the engine rests it exceeds
every value below the last one (U20) after some steps; that it advances by a tick where nothing is scheduled is the model's
choice (log 2). -/
def Obligations.StepKeepsConfigurationAndClock : Prop :=
  (∀ s t : State, step s = .next t → t.cfg = s.cfg ∧ s.env.now.toNat ≤ t.env.now.toNat)
    ∧ ∀ (s : State) (v : Nat), parametersOk s.cfg = true → s.eng.pc = .rest → s.env.offers = [] → v + 1 < 2 ^ 64 →
        ∃ n t, steps n s = some t ∧ v < t.env.now.toNat

/-! ### The idle predicate, the poll, the errors, step by step -/

/-- R28: the idle predicate over one sample. -/
def Obligations.IdlePredicate : Prop :=
  ∀ x : Sample, idle x = true ↔ x.busy = false ∧ x.exec = x.req ∧ (x.st = 0x47#8 ∨ x.st = 0x45#8)

/-- R104, R47, R50: with no load satisfied early, the four reads of `Idle()` read bit 0 of `DB.STATUS`, `exec_id`,
`request_id` and `status` in that order, and change no shared state. -/
def Obligations.IdleSampleReads : Prop :=
  ∀ s : State, s.ord.loadPick = 0 → s.eng.sampleAt = .rdBusy →
    let r1 := sampleRead s
    let r2 := sampleRead r1
    let r3 := sampleRead r2
    let r4 := sampleRead r3
    r1.eng.sample = { s.eng.sample with busy := busyBit (ownView s .dbStatus) }
      ∧ r2.eng.sample = { r1.eng.sample with exec := ownView s (.field .execId) }
      ∧ r3.eng.sample = { r2.eng.sample with req := ownView s (.field .requestId) }
      ∧ r4.eng.sample = { r3.eng.sample with st := lowByte (ownView s (.field .status)) }
      ∧ r4.eng.sample = ownSample s
      ∧ r4.bus = s.bus ∧ r4.ord.pending = s.ord.pending ∧ r4.env = s.env

/-- R102, R103, R111, R114, R190, R196: which step ends a transaction with which result, and what it records; after an
error control goes to `REST` and no chunk loop is active, after `OK` to the caller of the transaction; shared state is not
touched. The payload window opens at `LB` (R57), and only `OK` leaves it; its length is that of the response, the whole
buffer for the opcodes whose response length the spec does not give, which is the model's choice (log 5). -/
def Obligations.TransactionEndings : Prop :=
  ∀ s : State,
    let t := engineStep s
    let smp := (sampleRead s).eng.sample
    let recorded := fun (code : BitVec 3) (x : Sample) (st : Byte) =>
      t.eng.res = code
        ∧ t.eng.diag = { kind := code, op := s.eng.op, arg0 := s.eng.arg0, arg1 := s.eng.arg1, req := x.req
                         exec := x.exec, status := st, valid := true }
        ∧ t.bus = s.bus ∧ t.ord.pending = s.ord.pending ∧ t.env = s.env ∧ t.freeCtr = s.freeCtr
        ∧ t.eng.nextId = s.eng.nextId
        ∧ t.window = (if code = codeOk then s.window else 0)
    let toRest := t.eng.pc = .rest ∧ t.eng.cKind = .none
    (s.eng.pc = .v → recognised s.cfg.gen s.eng.op = false →
      t.eng.res = codeInvalidOperation ∧ t.eng.diag.kind = codeInvalidOperation ∧ t.eng.diag.op = s.eng.op
        ∧ t.eng.diag.arg0 = s.eng.arg0 ∧ t.eng.diag.arg1 = s.eng.arg1 ∧ t.eng.diag.valid = false
        ∧ t.bus = s.bus ∧ t.ord = s.ord ∧ t.env = s.env ∧ t.eng.nextId = s.eng.nextId ∧ t.window = 0
        ∧ toRest)
    ∧ (s.eng.pc = .c → s.eng.sampleAt = .rdStatus → idle smp = false →
        recorded codeChannelBusy smp smp.st ∧ toRest)
    ∧ (s.eng.pc = .poll → s.eng.sampleAt = .rdNow → expired s.env.now s.eng.t0 (timeoutTicks s.cfg) = true →
        recorded codeTimeout s.eng.sample s.eng.sample.st ∧ toRest)
    ∧ (s.eng.pc = .lb → t.window = responseLength s.cfg.payloadCap s.eng.op s.eng.arg1 ∧ t.eng.pc = .rdSt)
    ∧ (s.eng.pc = .resolve → s.eng.rdSt ≠ statusGood →
        recorded codeFault s.eng.sample s.eng.rdSt ∧ toRest)
    ∧ (s.eng.pc = .resolve → s.eng.rdSt = statusGood →
        recorded codeOk s.eng.sample s.eng.rdSt
          ∧ (s.eng.cKind = .none → toRest)
          ∧ (s.eng.cKind = .read → t.eng.pc = .fCopyOut ∧ t.eng.cIdx = 0#32 ∧ t.eng.cKind = .read)
          ∧ (s.eng.cKind = .erase ∨ s.eng.cKind = .write → t.eng.pc = .fAdv ∧ t.eng.cKind = s.eng.cKind))

/-- R21, R107: the id counter changes at step `W_ID` only, by exactly 1. -/
def Obligations.NextIdChangesAtWIdOnly : Prop :=
  ∀ s : State, (tick s).eng.nextId = if s.eng.pc = .wId then s.eng.nextId + 1#32 else s.eng.nextId

/-- R15, R20, R33, R48: no requester step changes the visible `exec_id` or `status`, clears `busy`, or writes a byte
outside the mailbox but the one byte of the caller's buffer that step `F_COPYOUT` stores; only `RING` gives a
signal. That `DB.STATUS` as a whole stays at every other step says more of its bits 31:1 than the spec (U7; log 11). -/
def Obligations.EngineKeepsOwnership : Prop :=
  ∀ s : State, SafeState s → parametersOk s.cfg = true →
    let t := engineStep s
    visible t (.field .execId) = visible s (.field .execId)
      ∧ visible t (.field .status) = visible s (.field .status)
      ∧ (busyBit s.bus.dbStatus = true → busyBit t.bus.dbStatus = true)
      ∧ (s.eng.pc ≠ .ring → t.bus.dbStatus = s.bus.dbStatus ∧ t.bus.signals = s.bus.signals)
      ∧ (∀ a, ¬ inMailbox s.cfg a → (s.eng.pc = .fCopyOut → a ≠ bufferAddr s) →
          Memory.read t.bus.mem a = Memory.read s.bus.mem a)
      ∧ (s.eng.pc = .fCopyOut → Memory.read t.bus.mem (bufferAddr s)
          = lowByte (loadValue s (.field (.payload s.eng.cIdx.toNat))))

/-- R171, R172, R33: no responder step changes the engine's registers, a pending store, a visible `request_id`, `op` or
argument field, the clock or the offers, and none sets `busy` or gives a signal; nor a byte outside the mailbox, but the one
byte past the payload that it may write after an oversize command (R229, U3; log 9). -/
def Obligations.ResponderKeepsOwnership : Prop :=
  ∀ (m : ScpMove) (s : State), parametersOk s.cfg = true →
    let t := scpMove m s
    t.eng = s.eng ∧ t.cfg = s.cfg ∧ t.ord.pending = s.ord.pending ∧ t.env.now = s.env.now
      ∧ t.env.offers = s.env.offers ∧ t.bus.oversize = s.bus.oversize
      ∧ (∀ f, requestHeader f = true → visible t (.field f) = visible s (.field f))
      ∧ (∀ a, ¬ inMailbox s.cfg a →
          (∀ k v, m = .writePast k v → s.bus.oversize = true → a ≠ pastAddr s.cfg k) →
          Memory.read t.bus.mem a = Memory.read s.bus.mem a)
      ∧ (busyBit t.bus.dbStatus = true → busyBit s.bus.dbStatus = true)
      ∧ t.bus.signals ≤ s.bus.signals

/-! ### Ordering -/

/-- R50 (b): a store that becomes visible changes nothing the engine's own side reads. -/
def Obligations.DrainKeepsOwnView : Prop :=
  ∀ (s : State) (k : Nat) (f : Field), SafeState s → parametersOk s.cfg = true → fieldExists s.cfg f →
    ownView (drain k s) (.field f) = ownView s (.field f)

/-- R50 (a), R51: a pending store does not become visible before an earlier one to the same location, nor before one that
a store barrier separates from it; the oldest pending store always may. R50 (e): every store becomes visible in the end.
While the caller offers nothing, some number of steps at `REST` leaves none pending; and with the schedule used up every
turn at `REST`, that before an operation too, makes the oldest one visible. That it is one a turn is the model's choice
(log 2). -/
def Obligations.StoresDrainInOrder : Prop :=
  (∀ (s : State) (k : Nat) (e : Store), s.ord.pending[k]? = some e →
    ((∃ x ∈ s.ord.pending.take k, x.field = e.field ∨ e.barriers < x.barriers) → drain k s = s)
      ∧ (k = 0 → (drain k s).ord.pending = s.ord.pending.drop 1
          ∧ (Memory.wf s.bus.mem = true → visible (drain k s) (.field e.field) = fieldValue e.field e.val)))
  ∧ (∀ s : State, parametersOk s.cfg = true → s.eng.pc = .rest → s.env.offers = [] →
      ∃ n t, steps n s = some t ∧ t.ord.pending = [])
  ∧ ∀ (s : State) (e : Store) (es : List Store), s.eng.pc = .rest → s.env.sched = [] → s.ord.pending = e :: es →
      envTurn s = clkMove 1 (commit e { s with ord := { s.ord with pending := es } })

/-- R50 (a): after a load that was satisfied some coprocessor stores back, a later load of the location returns what a load
at that point or a newer one would have returned, never an older value; and exactly the values of the other locations
that were possible stay possible. Stores back are the model's form of R50 (log 6). -/
def Obligations.LoadsNeverGoBack : Prop :=
  ∀ (s : State) (l : Loc),
    let t := afterLoad s l
    (∀ m, loadValue (envMove (.early m) t) l = loadValue (envMove (.early (min m s.ord.loadPick)) s) l)
      ∧ ∀ l', l' ≠ l →
          (∀ m, ∃ m', loadValue (envMove (.early m) t) l' = loadValue (envMove (.early m') s) l')
            ∧ ∀ m', ∃ m, loadValue (envMove (.early m) t) l' = loadValue (envMove (.early m') s) l'

/-- R51, R108, R109, R174, R19: the doorbell write makes every store of the message and every payload byte stored before
it visible, sets `busy` and gives one signal; so the coprocessor that observes the signal sees the whole message. The last
clause, that bits 31:1 of `DB.STATUS` stay, is the model's choice: the spec calls them any value (R20, U7; log 11). -/
def Obligations.DoorbellPublishesMessage : Prop :=
  ∀ s : State, SafeState s → MessageHeld s → parametersOk s.cfg = true → s.eng.pc = .ring →
    let t := engineStep s
    t.eng.pc = .t0 ∧ t.ord.pending = []
      ∧ (∀ f, fieldExists s.cfg f → visible t (.field f) = ownView s (.field f))
      ∧ visible t (.field .op) = zextByte s.eng.op
      ∧ visible t (.field .requestId) = s.eng.nextId - 1#32
      ∧ (storesArgs s.cfg.gen s.eng.op = true →
          visible t (.field .arg0) = s.eng.arg0 ∧ visible t (.field .arg1) = s.eng.arg1)
      ∧ busyBit t.bus.dbStatus = true ∧ t.bus.signals = s.bus.signals + 1
      ∧ t.bus.dbStatus.extractLsb' 1 31 = s.bus.dbStatus.extractLsb' 1 31

/-- R52, D24, R113: after step `LB` no load is satisfied earlier than any load before it: of a sequence of loads, whatever the
location and however early the memory system satisfies each, a load after the barrier returns what a load of the same
location at that point or at a newer one would have returned. How many stores back a load is satisfied is the model's form
of R50 (log 6). -/
def Obligations.LoadBarrierFreshens : Prop :=
  ∀ (s : State) (loads : List (Nat × Loc)) (n : Nat) (l0 l : Loc) (m : Nat), s.eng.pc = .lb → (n, l0) ∈ loads →
    ∃ k, k ≤ n ∧ loadValue (envMove (.early m) (engineStep (loadAll loads s))) l = loadValue (envMove (.early k) s) l

/-! ### Completions -/

/-- R130 to R132, R138, R139, R76, R79, R107, R121: the opcodes of generation A that take arguments, on an idle channel
whose coprocessor answers with `'G'`: the message with both argument fields, the next id, `OK`, and the frame. That the
payload window (R57) is the whole buffer for `'L'` and `'V'`, and nothing for `'W'` and `'E'`, is the model's choice: the
spec gives their responses no length (log 5). -/
def Obligations.ArgumentOpcodesCompleteA : Prop :=
  ∀ (i : Instr) (op : Byte) (x y : U32) (s : State) (data : List Byte),
    (i, op) ∈ [(Instr.aRead x y, 0x52#8), (.aWrite x y, 0x57#8), (.aErase x y, 0x45#8), (.aLegacyL x y, 0x4C#8),
      (.aLegacyV x y, 0x56#8)] →
    s.cfg.gen = .a → ReadyIdle s → data.length ≤ s.cfg.payloadCap →
    s.env.sched = answeredSched s.eng.nextId data statusGood →
    storesArgs s.cfg.gen op = true ∧ ∃ t, exec i s = .next t ∧ Answered s t op x y data statusGood

/-- R133 to R137, R78: the opcodes of generation A that take no arguments: the same, but the argument fields keep what
they held, while the operands are latched and recorded. That the payload window (R57) is the whole buffer for `'I'`, `'M'`
and `'N'`, and nothing for `'T'` and `'t'`, is the model's choice (log 5). -/
def Obligations.PlainOpcodesCompleteA : Prop :=
  ∀ (i : Instr) (op : Byte) (x y : U32) (s : State) (data : List Byte),
    (i, op) ∈ [(Instr.aLotId x y, 0x49#8), (.aMac x y, 0x4D#8), (.aSerial x y, 0x4E#8), (.aTraceOn x y, 0x54#8),
      (.aTraceOff x y, 0x74#8)] →
    s.cfg.gen = .a → ReadyIdle s → data.length ≤ s.cfg.payloadCap →
    s.env.sched = answeredSched s.eng.nextId data statusGood →
    storesArgs s.cfg.gen op = false ∧ ∃ t, exec i s = .next t ∧ Answered s t op x y data statusGood

/-- R140 to R142, R77: the three opcodes of generation B store both words. That the payload window (R57) is the whole buffer
for `'V'`, and nothing for `'W'`, is the model's choice (log 5). -/
def Obligations.OpcodesCompleteB : Prop :=
  ∀ (i : Instr) (op : Byte) (x y : U32) (s : State) (data : List Byte),
    (i, op) ∈ [(Instr.bRead x y, 0x52#8), (.bWrite x y, 0x57#8), (.bLegacyV x y, 0x56#8)] →
    s.cfg.gen = .b → ReadyIdle s → data.length ≤ s.cfg.payloadCap →
    s.env.sched = answeredSched s.eng.nextId data statusGood →
    storesArgs s.cfg.gen op = true ∧ ∃ t, exec i s = .next t ∧ Answered s t op x y data statusGood

/-- R100, R114, R177 (a): `SCP_CMD` with any recognised op byte ends in `OK` when the final status is `'G'`, and in `Fault`
when the coprocessor leaves `'E'` and clears `busy`. The length of the payload window (R57) is the model's choice where the
spec gives the response none: the whole buffer for `'I'`, `'M'`, `'N'`, `'L'`, `'V'`, nothing for `'W'`, `'E'`, `'T'`, `'t'`
(log 5). -/
def Obligations.ScpCmdCompletes : Prop :=
  ∀ (op : Byte) (x y : U32) (s : State) (data : List Byte) (final : Byte),
    recognised s.cfg.gen op = true → final = statusGood ∨ final = statusExecuting →
    ReadyIdle s → data.length ≤ s.cfg.payloadCap → s.env.sched = answeredSched s.eng.nextId data final →
    ∃ t, exec (.scpCmd op x y) s = .next t ∧ Answered s t op x y data final
      ∧ (final = statusGood → t.eng.res = codeOk) ∧ (final = statusExecuting → t.eng.res = codeFault)

/-- R120: `SCP_BUF` hands out the constant `MBOX_BASE + OFF_payload` and changes nothing else, at any time at `REST`: all else
is as the environment's turn before it leaves it. -/
def Obligations.ScpBufReturnsPayloadAddress : Prop :=
  ∀ s : State, parametersOk s.cfg = true → s.eng.pc = .rest →
    exec .scpBuf s = .next { envTurn s with env := { (envTurn s).env with
      retBuf := s.cfg.mboxBase + (match s.cfg.layout with | .a l => l.payload | .b l => l.fromScp) } }

/-- R152, R160, R161: `FLASH_ERASE` in generation A on a coprocessor that answers every chunk with `'G'`: `OK`, one id per
chunk, no payload access, and the frame. That an erase leaves no payload window is the model's choice (log 5). -/
def Obligations.FlashEraseCompletes : Prop :=
  ∀ (addr size : U32) (s : State), s.cfg.gen = .a → ReadyIdle s →
    s.env.sched = chunkedSched .erase s.cfg.maxChunk size.toNat s.eng.nextId [] →
    ∃ t, exec (.flashErase addr size) s = .next t ∧ ChunksDone s t .erase addr size
      ∧ (∀ i, i < s.cfg.payloadCap → visible t (.field (.payload i)) = visible s (.field (.payload i)))
      ∧ outsideUnchanged s t

/-- R153, R160, R52: `FLASH_READ` on a coprocessor that answers every chunk with `'G'` and the next bytes of `data`: `dst`
holds `data`, the payload its last chunks, and no other byte outside the mailbox changed. The payload window is the last
chunk (R57). -/
def Obligations.FlashReadCompletes : Prop :=
  ∀ (addr : U32) (dst : U64) (size : U32) (data : List Byte) (s : State), ReadyIdle s →
    bufferClear s.cfg dst.toNat size.toNat = true → data.length = size.toNat →
    s.env.sched = chunkedSched .read s.cfg.maxChunk size.toNat s.eng.nextId data →
    ∃ t, exec (.flashRead addr dst size) s = .next t ∧ ChunksDone s t .read addr size
      ∧ (∀ j (h : j < data.length), Memory.read t.bus.mem (dst.toNat + j) = data[j])
      ∧ (∀ i, i < s.cfg.payloadCap → visible t (.field (.payload i))
          = (if i < min size.toNat s.cfg.maxChunk then
              zextByte (data.getD (lastCopied size.toNat s.cfg.maxChunk i) 0#8)
            else visible s (.field (.payload i))))
      ∧ (∀ a, ¬ inMailbox s.cfg a → ¬ (dst.toNat ≤ a ∧ a < dst.toNat + size.toNat) →
          Memory.read t.bus.mem a = Memory.read s.bus.mem a)

/-- R154, R58, R160: `FLASH_WRITE` on a coprocessor that answers every chunk with `'G'`: `OK`, the payload holds the bytes
of the last chunks, `src` and every other byte outside the mailbox are unchanged. That a write leaves no payload window is
the model's choice (log 5). -/
def Obligations.FlashWriteCompletes : Prop :=
  ∀ (addr : U32) (src : U64) (size : U32) (s : State), ReadyIdle s →
    bufferClear s.cfg src.toNat size.toNat = true →
    s.env.sched = chunkedSched .write s.cfg.maxChunk size.toNat s.eng.nextId [] →
    ∃ t, exec (.flashWrite addr src size) s = .next t ∧ ChunksDone s t .write addr size
      ∧ (∀ i, i < s.cfg.payloadCap → visible t (.field (.payload i))
          = (if i < min size.toNat s.cfg.maxChunk then
              zextByte (Memory.read s.bus.mem (src.toNat + lastCopied size.toNat s.cfg.maxChunk i))
            else visible s (.field (.payload i))))
      ∧ outsideUnchanged s t

/-- R155: an operation on no byte returns `OK` with no command, no access, no id and the record as it was, on a busy
channel and in generation B too; with nothing scheduled the rest of the state is as the environment's turn leaves it. -/
def Obligations.EmptyOperationsAreNoOps : Prop :=
  ∀ (i : Instr) (addr : U32) (buf : U64) (s : State),
    (i, buf) ∈ [(Instr.flashErase addr 0#32, 0#64), (.flashRead addr buf 0#32, buf), (.flashWrite addr buf 0#32, buf)] →
    parametersOk s.cfg = true → s.eng.pc = .rest →
    (s.env.sched = [] → exec i s = .next { envTurn s with
        eng := { s.eng with cKind := .none, cAddr := addr, cSize := 0#32, cCur := 0#32, cBuf := buf, res := codeOk } })
    ∧ ∃ t, exec i s = .next t
        ∧ t.eng = { s.eng with cKind := .none, cAddr := addr, cSize := 0#32, cCur := 0#32, cBuf := buf, res := codeOk }

/-- R154, R58, R51: one chunk of `FLASH_WRITE` up to its doorbell, on an idle channel with nothing else moving: when the
signal is given, the payload the coprocessor sees holds the chunk's bytes of `src`, and the message is that chunk's. -/
def Obligations.FlashWriteChunkIsPublished : Prop :=
  ∀ s : State, SafeState s → parametersOk s.cfg = true → Settled s → channelIdle s → s.env.sched = [] →
    s.eng.pc = .fCopyIn → s.eng.cIdx = 0#32 →
    let t := ticks (s.eng.cChunk.toNat + 12) s
    t.eng.pc = .t0 ∧ t.ord.pending = [] ∧ t.bus.signals = s.bus.signals + 1 ∧ busyBit t.bus.dbStatus = true
      ∧ (∀ i, i < s.eng.cChunk.toNat → visible t (.field (.payload i))
          = zextByte (Memory.read s.bus.mem (s.eng.cBuf.toNat + s.eng.cCur.toNat + i)))
      ∧ visible t (.field .op) = zextByte 0x57#8 ∧ visible t (.field .arg0) = s.eng.cAddr
      ∧ visible t (.field .arg1) = s.eng.cChunk ∧ visible t (.field .requestId) = s.eng.nextId
      ∧ t.eng.nextId = s.eng.nextId + 1#32

/-! ### Errors -/

/-- R80, R191, R195, R102: an op byte outside `OPSET(GEN)` ends in `InvalidOperation` before anything is read or written,
whatever the channel, and so does a row of the other generation (R237): the state differs from the environment's turn in
the operand latches, the result, the record and the end of the payload window (R227) alone, and in the counter of free
values. 246 of the 256 bytes are
illegal in generation A and 253 in generation B, there with `'E'`, `'I'`, `'M'`, `'N'`, `'T'`, `'t'`, `'L'`. -/
def Obligations.InvalidOperation : Prop :=
  (∀ (i : Instr) (op : Byte) (x y : U32) (s : State), commandOf i = some (op, x, y) → Ready s →
    recognised s.cfg.gen op = false →
    ∃ (req exec' : U32) (st : Byte) (n : Nat), exec i s = .next { envTurn s with
      freeCtr := n
      window := 0
      eng := { s.eng with
        op := op, arg0 := x, arg1 := y, res := 1#3
        diag := { kind := 1#3, op := op, arg0 := x, arg1 := y, req := req, exec := exec', status := st
                  valid := false } } })
  ∧ ((List.range 256).filter (fun n => !recognised .a (BitVec.ofNat 8 n))).length = 246
  ∧ ((List.range 256).filter (fun n => !recognised .b (BitVec.ofNat 8 n))).length = 253
  ∧ ∀ op : Byte, op ∈ [0x45#8, 0x49#8, 0x4D#8, 0x4E#8, 0x54#8, 0x74#8, 0x4C#8] → recognised .b op = false

/-- R103, R192, R195: a recognised op on a channel whose sample is not idle ends in `ChannelBusy` with the sampled values
recorded and nothing written: all else is as the environment's turn before it leaves it. -/
def Obligations.ChannelBusy : Prop :=
  ∀ (i : Instr) (op : Byte) (x y : U32) (s : State), commandOf i = some (op, x, y) → Ready s →
    recognised s.cfg.gen op = true → s.env.sched = [] → s.ord.loadPick = 0 → idle (ownSample (envTurn s)) = false →
    exec i s = .next (busyState (envTurn s) op x y)

/-- R175, R193, R112, R222: a coprocessor that never answers: `Timeout` with the message and the consumed id left in place
and one signal given, and every later command, the next one and any number after it, `ChannelBusy`. -/
def Obligations.HungCoprocessorTimesOut : Prop :=
  ∀ (i : Instr) (op : Byte) (x y : U32) (s : State), commandOf i = some (op, x, y) → ReadyIdle s →
    recognised s.cfg.gen op = true → s.env.sched = hungSched s.cfg →
    s.env.now.toNat + timeoutTicks s.cfg < 2 ^ 64 →
    ∃ t, exec i s = .next t
      ∧ t.eng = timedOutEngine s op x y (visible s (.field .execId)) (lowByte (visible s (.field .status))) true
      ∧ headerWritten s t op x y
      ∧ visible t (.field .execId) = visible s (.field .execId)
      ∧ visible t (.field .status) = visible s (.field .status)
      ∧ (∀ j, j < s.cfg.payloadCap → visible t (.field (.payload j)) = visible s (.field (.payload j)))
      ∧ (∀ a, ¬ inMailbox s.cfg a → Memory.read t.bus.mem a = Memory.read s.bus.mem a)
      ∧ busyBit t.bus.dbStatus = true ∧ t.bus.signals = s.bus.signals + 1
      ∧ t.env.now.toNat = s.env.now.toNat + timeoutTicks s.cfg
      ∧ (∀ (j : Instr) (op' : Byte) (x' y' : U32), commandOf j = some (op', x', y') →
          recognised s.cfg.gen op' = true → exec j t = .next (busyState (envTurn t) op' x' y'))
      ∧ StaysBusy t

/-- R177 (b), R81, R232: a final status that is neither `'G'` nor `'E'` keeps the channel busy: `Timeout` with the marker
recorded, and every later command, the next one and any number after it, `ChannelBusy`. -/
def Obligations.MarkerStatusTimesOut : Prop :=
  ∀ (i : Instr) (op : Byte) (x y : U32) (s : State) (data : List Byte) (marker : Byte),
    commandOf i = some (op, x, y) → ReadyIdle s → recognised s.cfg.gen op = true →
    marker ≠ statusGood → marker ≠ statusExecuting → data.length ≤ s.cfg.payloadCap →
    s.env.now.toNat + timeoutTicks s.cfg < 2 ^ 64 →
    s.env.sched = quiet 12 ++ [answer s.eng.nextId data marker ++ [.clk (timeoutTicks s.cfg)]] →
    ∃ t, exec i s = .next t ∧ t.eng = timedOutEngine s op x y s.eng.nextId marker false
      ∧ visible t (.field .status) = zextByte marker ∧ busyBit t.bus.dbStatus = false
      ∧ (∀ (j : Instr) (op' : Byte) (x' y' : U32), commandOf j = some (op', x', y') →
          recognised s.cfg.gen op' = true → exec j t = .next (busyState (envTurn t) op' x' y'))
      ∧ StaysBusy t

/-- R111, R195: a completion that a sample sees wins over a deadline that has passed as well. -/
def Obligations.IdleSampleWinsOverDeadline : Prop :=
  ∀ (i : Instr) (op : Byte) (x y : U32) (s : State) (data : List Byte) (n : Nat),
    commandOf i = some (op, x, y) → ReadyIdle s → recognised s.cfg.gen op = true →
    data.length ≤ s.cfg.payloadCap → timeoutTicks s.cfg ≤ n → s.env.now.toNat + n < 2 ^ 64 →
    s.env.sched = quiet 12 ++ [answer s.eng.nextId data statusGood ++ [.clk n]] →
    ∃ t, exec i s = .next t ∧ t.eng = answeredEngine s op x y statusGood
      ∧ expired t.env.now t.eng.t0 (timeoutTicks t.cfg) = true

/-- R109 to R111: with nothing moving after the doorbell and no tick passing, the engine polls on, for any number of
iterations: the message is in the mailbox, the id is consumed, one signal is given, and no result is reported. A host
operation offered there has no step (R101), which the model names a fault (log 9). When only the clock goes on, as it does
where the schedule is used up (R201; log 2), the call ends in `Timeout` (R119). -/
def Obligations.PollWaitsForTheResponder : Prop :=
  ∀ (i : Instr) (op : Byte) (x y : U32) (s : State) (m : Nat), commandOf i = some (op, x, y) → ReadyIdle s →
    recognised s.cfg.gen op = true → s.env.sched = quiet (12 + 5 * m) →
    let t := ticks (11 + 5 * m) (stepV (latch op x y (envTurn s)))
    t.eng.pc = .poll ∧ t.eng.sampleAt = .rdBusy ∧ t.eng.res = s.eng.res ∧ t.eng.diag = s.eng.diag
      ∧ t.eng.nextId = s.eng.nextId + 1#32 ∧ t.eng.t0 = s.env.now ∧ t.env.now = s.env.now
      ∧ headerWritten s t op x y ∧ busyBit t.bus.dbStatus = true ∧ t.bus.signals = s.bus.signals + 1
      ∧ t.ord.pending = [] ∧ (∀ j : Instr, buffersClear t.cfg j = true → exec j t = .fault .offeredWhileBusy)
      ∧ (s.env.now.toNat + timeoutTicks s.cfg < 2 ^ 64 →
          ∃ u, exec i s = .next u
            ∧ u.eng = timedOutEngine s op x y (visible s (.field .execId)) (lowByte (visible s (.field .status))) true
            ∧ u.bus = t.bus ∧ u.env.now.toNat = s.env.now.toNat + timeoutTicks s.cfg)

/-- R165: `FLASH_ERASE` of at least one byte in generation B ends in `InvalidOperation` at its first chunk, with no access
to anything shared: it is as the environment's turn before it leaves it. -/
def Obligations.EraseInGenerationB : Prop :=
  ∀ (addr size : U32) (s : State), Ready s → s.cfg.gen = .b → size ≠ 0#32 → s.env.sched = [] →
    ∃ t, exec (.flashErase addr size) s = .next t
      ∧ t.bus = (envTurn s).bus ∧ t.ord = (envTurn s).ord ∧ t.env = (envTurn s).env ∧ t.cfg = s.cfg ∧ t.window = 0
      ∧ t.eng.pc = .rest ∧ t.eng.cKind = .none ∧ t.eng.nextId = s.eng.nextId ∧ t.eng.res = codeInvalidOperation
      ∧ t.eng.diag.kind = codeInvalidOperation ∧ t.eng.diag.op = 0x45#8 ∧ t.eng.diag.arg0 = addr
      ∧ t.eng.diag.arg1 = BitVec.ofNat 32 (min size.toNat s.cfg.maxChunk) ∧ t.eng.diag.valid = false

/-- R228, R154: `FLASH_WRITE` on a busy channel issues the payload stores of its first chunk before the check: `ChannelBusy`,
with the message and the id counter untouched. That the stores are still pending then is the model's form of R50 (log 6);
once they have become visible, which steps with nothing offered or scheduled bring about (R50 (e); log 2), the payload is
overwritten. The comparison is with the state after the environment's turn before the operation's first step. -/
def Obligations.FlashWriteOnBusyChannel : Prop :=
  ∀ (addr : U32) (src : U64) (size : U32) (s : State), Ready s → s.env.sched = [] → s.ord.loadPick = 0 →
    size ≠ 0#32 → bufferClear s.cfg src.toNat size.toNat = true → idle (ownSample (envTurn s)) = false →
    let u := envTurn s
    ∃ t, exec (.flashWrite addr src size) s = .next t ∧ t.eng.pc = .rest ∧ t.eng.res = codeChannelBusy
      ∧ t.eng.diag.op = 0x57#8 ∧ t.eng.diag.arg0 = addr ∧ t.eng.nextId = s.eng.nextId ∧ t.bus = u.bus
      ∧ (∀ j, j < min size.toNat s.cfg.maxChunk → ownView t (.field (.payload j))
          = zextByte (Memory.read u.bus.mem (src.toNat + j)))
      ∧ (∀ f, (∀ j, j < min size.toNat s.cfg.maxChunk → f ≠ .payload j) →
          ownView t (.field f) = ownView u (.field f))
      ∧ (Memory.wf s.bus.mem = true → s.env.offers = [] →
          ∃ d, steps t.ord.pending.length t = some d ∧ d.ord.pending = []
            ∧ ∀ j, j < min size.toNat s.cfg.maxChunk → visible d (.field (.payload j))
              = zextByte (Memory.read u.bus.mem (src.toNat + j)))

/-- R197, R230, R121: a late answer to a timed-out command frees the channel: when the coprocessor
answers the id in the mailbox with `'G'` or `'E'`, the channel is idle and the message is still there. -/
def Obligations.LateAnswerFreesChannel : Prop :=
  ∀ (s : State) (data : List Byte) (final : Byte), parametersOk s.cfg = true → Memory.wf s.bus.mem = true →
    final = statusGood ∨ final = statusExecuting →
    let t := envMoves (answer (visible s (.field .requestId)) data final) s
    channelIdle t ∧ t.eng = s.eng ∧ ∀ f, requestHeader f = true → visible t (.field f) = visible s (.field f)

/-- R172: under the unconstrained responder every result but `InvalidOperation` is reachable from every start state that the
clock does not bring to its end. -/
def Obligations.EveryResultIsReachable : Prop :=
  ∀ (op : Byte) (x y : U32) (s : State) (code : BitVec 3), SafeState s → Ready s →
    recognised s.cfg.gen op = true → s.env.now.toNat + timeoutTicks s.cfg < 2 ^ 64 →
    code ∈ [codeOk, codeChannelBusy, codeTimeout, codeFault] →
    ∃ (sched : List (List EnvMove)) (t : State),
      exec (.scpCmd op x y) { s with env := { s.env with sched := sched } } = .next t
        ∧ t.eng.pc = .rest ∧ t.eng.res = code

/-! ### Every interleaving -/

/-- R116: id consumption, for a direct call and for a transaction of the chunk loop. -/
def Obligations.IdConsumption : Prop :=
  let consumed := fun (s t : State) =>
    (t.eng.res = codeInvalidOperation ∨ t.eng.res = codeChannelBusy →
      t.eng.nextId = s.eng.nextId ∧ visible t (.field .requestId) = visible s (.field .requestId))
    ∧ (t.eng.res = codeOk ∨ t.eng.res = codeTimeout ∨ t.eng.res = codeFault →
      t.eng.nextId = s.eng.nextId + 1#32 ∧ visible t (.field .requestId) = s.eng.nextId)
  (∀ (i : Instr) (c : Byte × U32 × U32) (s t : State), commandOf i = some c → SafeState s → exec i s = .next t →
    t.eng.pc = .rest → consumed s t)
  ∧ (∀ (fuel : Nat) (s t : State), SafeState s → parametersOk s.cfg = true → s.eng.pc = .v →
      callRun fuel s = some t → consumed s t)

/-- R118, R121: a call that ends in `InvalidOperation` or `ChannelBusy` has written no header field, given no signal and
not set `busy`. -/
def Obligations.FailedCheckWritesNothing : Prop :=
  ∀ (i : Instr) (c : Byte × U32 × U32) (s t : State), commandOf i = some c → SafeState s → exec i s = .next t →
    t.eng.pc = .rest → t.eng.res = codeInvalidOperation ∨ t.eng.res = codeChannelBusy →
    (∀ f, requestHeader f = true → visible t (.field f) = visible s (.field f))
      ∧ t.bus.signals ≤ s.bus.signals ∧ (busyBit t.bus.dbStatus = true → busyBit s.bus.dbStatus = true)
      ∧ (∀ e ∈ t.ord.pending, requestHeader e.field = false)

/-- R190, R195, R196, R201: what every completed call reports: one of five codes, the call's operands, `InvalidOperation`
exactly for an op outside the set, the values of the deciding sample, `Timeout` never before the deadline, `OK` exactly
with `'G'`; and the payload window (R57, R227): none after an error, and after `OK` the opcode's response, or none where the
coprocessor wrote the payload after the load barrier. The length of a response for which the spec gives none is the model's
choice (log 5). -/
def Obligations.ResultAndRecord : Prop :=
  ∀ (i : Instr) (op : Byte) (x y : U32) (s t : State), commandOf i = some (op, x, y) → SafeState s →
    exec i s = .next t → t.eng.pc = .rest →
    t.eng.res.toNat ≤ 4 ∧ t.eng.diag.kind = t.eng.res ∧ t.eng.diag.op = op ∧ t.eng.diag.arg0 = x
      ∧ t.eng.diag.arg1 = y
      ∧ (t.eng.res = codeInvalidOperation ↔ recognised s.cfg.gen op = false)
      ∧ (t.eng.diag.valid = true ↔ t.eng.res ≠ codeInvalidOperation)
      ∧ (t.eng.res ≠ codeInvalidOperation →
          t.eng.diag.req = t.eng.sample.req ∧ t.eng.diag.exec = t.eng.sample.exec)
      ∧ (t.eng.res = codeChannelBusy → idle t.eng.sample = false ∧ t.eng.diag.status = t.eng.sample.st)
      ∧ (t.eng.res = codeTimeout → idle t.eng.sample = false ∧ t.eng.diag.status = t.eng.sample.st
          ∧ timeoutTicks s.cfg ≤ (t.env.now - t.eng.t0).toNat)
      ∧ (t.eng.res = codeFault → idle t.eng.sample = true ∧ t.eng.diag.status ≠ statusGood)
      ∧ (t.eng.res = codeOk → idle t.eng.sample = true ∧ t.eng.diag.status = statusGood)
      ∧ (t.eng.res ≠ codeOk → t.window = 0)
      ∧ (t.eng.res = codeOk → t.window = responseLength s.cfg.payloadCap op y ∨ t.window = 0)

/-- R173, R175, R52, R57: on a responder whose every move is a conforming one and that had no unobserved signal, a call that
ends in `OK` or `Fault` was answered: `exec_id` is its id, `busy` is clear, `OK` exactly when the final status is `'G'`, and
every later load of the payload returns the newest bytes. After `OK` to an `'R'` of at most `PAYLOAD_CAP` bytes each of its
`arg1` payload bytes is one that the responder wrote during the call (R130, R140). The caller reads the response after `OK`
and any value elsewhere (U5; log 5). That the responder conforms is what the monitor of log 7 says. -/
def Obligations.ConformingResponderIsReported : Prop :=
  ∀ (i : Instr) (op : Byte) (x y : U32) (s t : State), commandOf i = some (op, x, y) → SafeState s →
    s.env.scpPhase = .quiet → s.bus.signals = 0 → exec i s = .next t → t.eng.pc = .rest → t.env.conform = true →
    t.eng.res = codeOk ∨ t.eng.res = codeFault →
    visible t (.field .execId) = s.eng.nextId ∧ busyBit t.bus.dbStatus = false
      ∧ (t.eng.res = codeOk ↔ visible t (.field .status) = zextByte statusGood)
      ∧ t.env.scpPhase = .quiet ∧ t.bus.signals = 0
      ∧ (∀ (n j : Nat), loadValue (envMove (.early n) t) (.field (.payload j)) = visible t (.field (.payload j)))
      ∧ (t.eng.res = codeOk → op = 0x52#8 → y.toNat ≤ s.cfg.payloadCap → ∀ j, j < y.toNat →
          ∃ v, EnvMove.scp (.writePayload j v) ∈ s.env.sched.flatten ∧ visible t (.field (.payload j)) = zextByte v)
      ∧ ∀ j, j < s.cfg.payloadCap → (hostMove (.readPayload j) t).env.hostSeen
          = (if t.eng.res = codeOk ∧ j < responseLength s.cfg.payloadCap op y then
              lowByte (visible t (.field (.payload j)))
            else Config.freeByte t.freeCtr)

/-- R151, R156, R157, R160, R161: the arithmetic of the chunk loop, at every point of every run of it: the bytes done and
the bytes left make up the range, every chunk but the last has `MAX_CHUNK` bytes, the flash address advances modulo 2^32,
and one id is taken per chunk. -/
def Obligations.ChunksCoverTheRange : Prop :=
  ∀ (k : ChunkKind) (addr : U32) (buf : U64) (size : U32) (s : State) (n : Nat), k ≠ .none →
    parametersOk s.cfg = true →
    let t := ticks n (chunkInit k addr buf size s)
    t.eng.cKind ≠ .none →
    let done := t.eng.cCur.toNat
    t.eng.cKind = k ∧ t.eng.cBuf = buf ∧ done + t.eng.cSize.toNat = size.toNat
      ∧ t.eng.cAddr = addr + t.eng.cCur
      ∧ (t.eng.cSize = 0#32 ∨ done % s.cfg.maxChunk = 0)
      ∧ (chunkChosen t.eng.pc = true → t.eng.cChunk.toNat = chunkLength s.cfg size.toNat done
          ∧ 1 ≤ t.eng.cChunk.toNat ∧ t.eng.cChunk.toNat ≤ s.cfg.payloadCap)
      ∧ t.eng.nextId = s.eng.nextId
          + BitVec.ofNat 32 (chunkCount done s.cfg.maxChunk + if idTaken t.eng.pc then 1 else 0)

/-- R158, R159, R160, R166: what a completed chunked operation reports. `OK`: `ceil(size / MAX_CHUNK)` ids consumed and no
byte left. An error: the record of the first failing chunk, from which the caller can tell how many bytes were done, and
`InvalidOperation` from the first chunk only. -/
def Obligations.ChunkedOperationReports : Prop :=
  ∀ (i : Instr) (k : ChunkKind) (addr size : U32) (s t : State), chunkedCall i = some (k, addr, size) →
    SafeState s → exec i s = .next t → t.eng.pc = .rest →
    (t.eng.res = codeOk →
      t.eng.nextId = s.eng.nextId + BitVec.ofNat 32 (chunkCount size.toNat s.cfg.maxChunk)
        ∧ t.eng.cSize = 0#32 ∧ t.eng.cCur = size)
    ∧ (t.eng.res ≠ codeOk → ∃ j, j < chunkCount size.toNat s.cfg.maxChunk
        ∧ t.eng.diag.kind = t.eng.res ∧ t.eng.diag.op = chunkOpcode k
        ∧ t.eng.diag.arg0 = addr + BitVec.ofNat 32 (j * s.cfg.maxChunk)
        ∧ t.eng.diag.arg1.toNat = chunkLength s.cfg size.toNat (j * s.cfg.maxChunk)
        ∧ (t.eng.diag.arg0 - addr).toNat = t.eng.cCur.toNat
        ∧ t.eng.nextId = s.eng.nextId + BitVec.ofNat 32
            (j + if t.eng.res = codeInvalidOperation ∨ t.eng.res = codeChannelBusy then 0 else 1)
        ∧ (t.eng.res = codeInvalidOperation → j = 0 ∧ k = .erase ∧ s.cfg.gen = .b))

/-- R153, R158: a `FLASH_READ` that fails leaves `dst` from the failing chunk on, for every interleaving (with no oversize
command signalled before, R229); and below it `dst` holds the data of the chunks that completed: after `j` full chunks
answered with the bytes of `data`, for a next chunk that ends in `Fault`, `Timeout` or `ChannelBusy`. -/
def Obligations.FailedReadLeavesTheRest : Prop :=
  (∀ (addr : U32) (dst : U64) (size : U32) (s t : State), SafeState s → s.bus.oversize = false →
    exec (.flashRead addr dst size) s = .next t → t.eng.pc = .rest → t.eng.res ≠ codeOk →
    ∀ a, dst.toNat + (t.eng.diag.arg0 - addr).toNat ≤ a → a < dst.toNat + size.toNat →
      Memory.read t.bus.mem a = Memory.read (envTurn s).bus.mem a)
  ∧ (∀ (addr : U32) (dst : U64) (size : U32) (data extra : List Byte) (j : Nat) (s : State) (code : BitVec 3)
      (tail : List (List EnvMove)), ReadyIdle s → bufferClear s.cfg dst.toNat size.toNat = true →
    j * s.cfg.maxChunk < size.toNat → data.length = j * s.cfg.maxChunk → extra.length ≤ s.cfg.payloadCap →
    s.env.now.toNat + timeoutTicks s.cfg < 2 ^ 64 →
    (tail, code) ∈ [(quiet 15 ++ [answer (s.eng.nextId + BitVec.ofNat 32 j) extra statusExecuting], codeFault),
      (quiet 15 ++ [[.clk (timeoutTicks s.cfg)]], codeTimeout), ([[.scp (.writeStatus 0#8)]], codeChannelBusy)] →
    s.env.sched = chunkedSched .read s.cfg.maxChunk data.length s.eng.nextId data ++ tail →
    ∃ t, exec (.flashRead addr dst size) s = .next t ∧ t.eng.pc = .rest ∧ t.eng.res = code
      ∧ t.eng.diag.arg0 = addr + BitVec.ofNat 32 data.length
      ∧ (∀ k (h : k < data.length), Memory.read t.bus.mem (dst.toNat + k) = data[k])
      ∧ ∀ a, dst.toNat + data.length ≤ a → a < dst.toNat + size.toNat →
          Memory.read t.bus.mem a = Memory.read s.bus.mem a)

/-- The frame of every operation but `SCP_BUF`, for every interleaving (R33, R43, R48, R101, R152 to R154): outside the
mailbox only the `dst` of `FLASH_READ` changes, the caller and the offers do not move while it runs, and a command leaves
the chunk registers. The comparison is with the state after the environment's turn before the operation's first step. An
oversize command, this one or one before it, may let the coprocessor write past the payload (R229, U3; log 9), so that
memory is compared where the caller kept its duty 3 (R178). -/
def Obligations.OperationFrame : Prop :=
  ∀ (i : Instr) (s t : State), SafeState s → i ≠ .scpBuf → exec i s = .next t →
    t.cfg = s.cfg
      ∧ (s.bus.oversize = false → oversizeCall s.cfg i = false →
          ∀ a, ¬ inMailbox s.cfg a → ¬ storesTo i a → Memory.read t.bus.mem a = Memory.read (envTurn s).bus.mem a)
      ∧ t.env.offers = s.env.offers ∧ t.env.retBuf = s.env.retBuf ∧ t.env.hostSeen = (envTurn s).env.hostSeen
      ∧ (commandOf i ≠ none → t.eng.cKind = s.eng.cKind ∧ t.eng.cAddr = s.eng.cAddr ∧ t.eng.cSize = s.eng.cSize
          ∧ t.eng.cCur = s.eng.cCur ∧ t.eng.cChunk = s.eng.cChunk ∧ t.eng.cIdx = s.eng.cIdx ∧ t.eng.cBuf = s.eng.cBuf)
      ∧ (commandOf i ≠ none → t.eng.pc = .rest → t.eng.res = codeInvalidOperation ∨ t.eng.res = codeChannelBusy →
          t.eng.t0 = s.eng.t0 ∧ t.eng.rdSt = s.eng.rdSt)

/-! ### The reference responder -/

/-- R176, R173: `RefSCP` answers a signalled command. At the signal it takes it, writes `exec_id` and the in-progress status,
and the command is due `LAT` ticks later; before that, and always when the script hangs, it does nothing. At the due tick a
command that is performed leaves `'G'`, one scripted to fail leaves the status, both with `busy` clear; a read fills the
payload from the flash and nothing else in it, and the flash is as `refFlash` says. All its moves are conforming ones in the
monitor of log 7. That `RefSCP` is data beside the state, that a write or an erase is clipped at `FLASH_SIZE` and that a read
beyond it places free values, are log 10's choices. -/
def Obligations.RefScpConforms : Prop :=
  ∀ (r : RefScp) (s u : State), parametersOk s.cfg = true → Memory.wf s.bus.mem = true → s.env.scpPhase = .quiet →
    1 ≤ s.bus.signals → r.job = none →
    let j := refJob r s
    let owed := fun (u : State) => responseOwed u.cfg.payloadCap j.op j.arg1
    let r1 := (refTurn r s).1
    let t := envMoves (refTurn r s).2 s
    r1 = { r with script := r.script.tail, job := some j }
      ∧ j.due = s.env.now.toNat + (refEntry r).latency
      ∧ t.env.conform = s.env.conform ∧ t.env.scpPhase = .started j.id true true (owed s) ∧ t.bus.signals + 1 = s.bus.signals
      ∧ visible t (.field .execId) = visible s (.field .requestId)
      ∧ visible t (.field .status) = zextByte statusExecuting ∧ busyBit t.bus.dbStatus = busyBit s.bus.dbStatus
      ∧ (u.env.now.toNat < j.due ∨ j.entry.script = .hang → refTurn r1 u = (r1, []))
      ∧ (parametersOk u.cfg = true → Memory.wf u.bus.mem = true → u.env.scpPhase = .started j.id true true (owed u) →
          j.due ≤ u.env.now.toNat → j.entry.script ≠ .hang →
          let r2 := (refTurn r1 u).1
          let v := envMoves (refTurn r1 u).2 u
          r2.job = none ∧ r2.flash = refFlash r j (jobPayload u j)
            ∧ v.env.conform = u.env.conform ∧ v.env.scpPhase = .quiet ∧ v.bus.signals = u.bus.signals
            ∧ visible v (.field .execId) = visible u (.field .execId)
            ∧ visible v (.field .status)
              = (if j.entry.script = .perform then zextByte statusGood else visible u (.field .status))
            ∧ busyBit v.bus.dbStatus = false
            ∧ (∀ k, k < u.cfg.payloadCap → visible v (.field (.payload k))
                = (if j.entry.script = .perform ∧ j.op = 0x52#8 ∧ k < j.arg1.toNat then
                    zextByte (flashByte r (j.arg0.toNat + k))
                  else visible u (.field (.payload k)))))

/-- R167: writing the same bytes to the same flash range twice yields the same flash content, which holds the bytes at the
range and is as it was from `FLASH_SIZE` on (log 10). -/
def Obligations.FlashWriteIsContentIdempotent : Prop :=
  ∀ (r : RefScp) (j : RefJob) (payload : List Byte), Memory.wf r.flash = true → j.op = 0x57#8 →
    j.entry.script = .perform →
    let once := { r with flash := refFlash r j payload }
    let stored := payload.take (flashCount r.flashSize j.arg0 j.arg1)
    refFlash once j payload = once.flash
      ∧ (∀ k (h : k < stored.length), Memory.read once.flash (j.arg0.toNat + k) = stored[k])
      ∧ ∀ a, r.flashSize ≤ a → Memory.read once.flash a = Memory.read r.flash a
end

