-- ==== Sys2Proof/Laws/State.lean ====
section
/-! SUPPORT. For each named state update, what it leaves in each component of the state. -/

namespace Sys2Proof.Machine

open Sys2Proof

@[simp] theorem goto_cfg (p : Pc) (s : State) :
    (goto p s).cfg = s.cfg := rfl

@[simp] theorem goto_eng (p : Pc) (s : State) :
    (goto p s).eng = { s.eng with pc := p } := rfl

@[simp] theorem goto_bus (p : Pc) (s : State) :
    (goto p s).bus = s.bus := rfl

@[simp] theorem goto_ord (p : Pc) (s : State) :
    (goto p s).ord = s.ord := rfl

@[simp] theorem goto_env (p : Pc) (s : State) :
    (goto p s).env = s.env := rfl

@[simp] theorem goto_freeCtr (p : Pc) (s : State) :
    (goto p s).freeCtr = s.freeCtr := rfl

@[simp] theorem goto_window (p : Pc) (s : State) :
    (goto p s).window = s.window := rfl

@[simp] theorem latch_cfg (op : Byte) (x y : U32) (s : State) :
    (latch op x y s).cfg = s.cfg := rfl

@[simp] theorem latch_eng (op : Byte) (x y : U32) (s : State) :
    (latch op x y s).eng = { s.eng with op := op, arg0 := x, arg1 := y } := rfl

@[simp] theorem latch_bus (op : Byte) (x y : U32) (s : State) :
    (latch op x y s).bus = s.bus := rfl

@[simp] theorem latch_ord (op : Byte) (x y : U32) (s : State) :
    (latch op x y s).ord = s.ord := rfl

@[simp] theorem latch_env (op : Byte) (x y : U32) (s : State) :
    (latch op x y s).env = s.env := rfl

@[simp] theorem latch_freeCtr (op : Byte) (x y : U32) (s : State) :
    (latch op x y s).freeCtr = s.freeCtr := rfl

@[simp] theorem latch_window (op : Byte) (x y : U32) (s : State) :
    (latch op x y s).window = 0 := rfl

@[simp] theorem afterLoad_cfg (s : State) (l : Loc) :
    (afterLoad s l).cfg = s.cfg := rfl

@[simp] theorem afterLoad_eng (s : State) (l : Loc) :
    (afterLoad s l).eng = s.eng := rfl

@[simp] theorem afterLoad_bus (s : State) (l : Loc) :
    (afterLoad s l).bus = s.bus := rfl

@[simp] theorem afterLoad_ord (s : State) (l : Loc) :
    (afterLoad s l).ord = { s.ord with
      stale := s.ord.stale.take s.ord.loadPick
      passed := forget l (s.ord.stale.drop s.ord.loadPick)
        ++ (s.ord.passed.take (s.ord.loadPick - s.ord.stale.length)
          ++ forget l (s.ord.passed.drop (s.ord.loadPick - s.ord.stale.length)))
      loadPick := 0 } := rfl

@[simp] theorem afterLoad_env (s : State) (l : Loc) :
    (afterLoad s l).env = s.env := rfl

@[simp] theorem afterLoad_freeCtr (s : State) (l : Loc) :
    (afterLoad s l).freeCtr = s.freeCtr := rfl

@[simp] theorem afterLoad_window (s : State) (l : Loc) :
    (afterLoad s l).window = s.window := rfl

@[simp] theorem storeField_cfg (f : Field) (v : U32) (s : State) :
    (storeField f v s).cfg = s.cfg := rfl

@[simp] theorem storeField_eng (f : Field) (v : U32) (s : State) :
    (storeField f v s).eng = s.eng := rfl

@[simp] theorem storeField_bus (f : Field) (v : U32) (s : State) :
    (storeField f v s).bus = s.bus := rfl

@[simp] theorem storeField_ord (f : Field) (v : U32) (s : State) :
    (storeField f v s).ord = { ownLocation (.field f) s.ord with
      pending := s.ord.pending ++ [{ field := f, val := v, barriers := 0 }] } := rfl

@[simp] theorem storeField_env (f : Field) (v : U32) (s : State) :
    (storeField f v s).env = s.env := rfl

@[simp] theorem storeField_freeCtr (f : Field) (v : U32) (s : State) :
    (storeField f v s).freeCtr = s.freeCtr := rfl

@[simp] theorem storeField_window (f : Field) (v : U32) (s : State) :
    (storeField f v s).window = if isPayload f then 0 else s.window := rfl

@[simp] theorem commit_cfg (e : Store) (s : State) :
    (commit e s).cfg = s.cfg := rfl

@[simp] theorem commit_eng (e : Store) (s : State) :
    (commit e s).eng = s.eng := rfl

@[simp] theorem commit_bus (e : Store) (s : State) :
    (commit e s).bus = { s.bus with mem := writeField s.cfg s.bus.mem e.field e.val } := rfl

@[simp] theorem commit_ord (e : Store) (s : State) :
    (commit e s).ord = ownLocation (.field e.field) s.ord := rfl

@[simp] theorem commit_env (e : Store) (s : State) :
    (commit e s).env = s.env := rfl

@[simp] theorem commit_freeCtr (e : Store) (s : State) :
    (commit e s).freeCtr = s.freeCtr := rfl

@[simp] theorem commit_window (e : Store) (s : State) :
    (commit e s).window = s.window := rfl

@[simp] theorem ownLocation_pending (l : Loc) (o : Ordering) :
    (ownLocation l o).pending = o.pending := rfl

@[simp] theorem ownLocation_stale (l : Loc) (o : Ordering) :
    (ownLocation l o).stale = forget l o.stale := rfl

@[simp] theorem ownLocation_passed (l : Loc) (o : Ordering) :
    (ownLocation l o).passed = forget l o.passed := rfl

@[simp] theorem ownLocation_loadPick (l : Loc) (o : Ordering) :
    (ownLocation l o).loadPick = o.loadPick := rfl

@[simp] theorem storeBarrier_cfg (s : State) :
    (storeBarrier s).cfg = s.cfg := rfl

@[simp] theorem storeBarrier_eng (s : State) :
    (storeBarrier s).eng = s.eng := rfl

@[simp] theorem storeBarrier_bus (s : State) :
    (storeBarrier s).bus = s.bus := rfl

@[simp] theorem storeBarrier_ord (s : State) :
    (storeBarrier s).ord = { s.ord with pending := s.ord.pending.map (fun e => { e with barriers := e.barriers + 1 }) } := rfl

@[simp] theorem storeBarrier_env (s : State) :
    (storeBarrier s).env = s.env := rfl

@[simp] theorem storeBarrier_freeCtr (s : State) :
    (storeBarrier s).freeCtr = s.freeCtr := rfl

@[simp] theorem storeBarrier_window (s : State) :
    (storeBarrier s).window = s.window := rfl

@[simp] theorem loadBarrier_cfg (s : State) :
    (loadBarrier s).cfg = s.cfg := rfl

@[simp] theorem loadBarrier_eng (s : State) :
    (loadBarrier s).eng = s.eng := rfl

@[simp] theorem loadBarrier_bus (s : State) :
    (loadBarrier s).bus = s.bus := rfl

@[simp] theorem loadBarrier_ord (s : State) :
    (loadBarrier s).ord = { s.ord with passed := [], loadPick := 0 } := rfl

@[simp] theorem loadBarrier_env (s : State) :
    (loadBarrier s).env = s.env := rfl

@[simp] theorem loadBarrier_freeCtr (s : State) :
    (loadBarrier s).freeCtr = s.freeCtr := rfl

@[simp] theorem loadBarrier_window (s : State) :
    (loadBarrier s).window = s.window := rfl

@[simp] theorem stepLb_cfg (s : State) : (stepLb s).cfg = s.cfg := rfl

@[simp] theorem stepLb_eng (s : State) : (stepLb s).eng = { s.eng with pc := .rdSt } := rfl

@[simp] theorem stepLb_bus (s : State) : (stepLb s).bus = s.bus := rfl

@[simp] theorem stepLb_ord (s : State) : (stepLb s).ord = (loadBarrier s).ord := rfl

@[simp] theorem stepLb_env (s : State) : (stepLb s).env = s.env := rfl

@[simp] theorem stepLb_freeCtr (s : State) : (stepLb s).freeCtr = s.freeCtr := rfl

@[simp] theorem stepLb_window (s : State) :
    (stepLb s).window = responseLength s.cfg.payloadCap s.eng.op s.eng.arg1 := rfl

@[simp] theorem writeOwn_cfg (a : Nat) (v : Byte) (s : State) :
    (writeOwn a v s).cfg = s.cfg := rfl

@[simp] theorem writeOwn_eng (a : Nat) (v : Byte) (s : State) :
    (writeOwn a v s).eng = s.eng := rfl

@[simp] theorem writeOwn_bus (a : Nat) (v : Byte) (s : State) :
    (writeOwn a v s).bus = { s.bus with mem := Memory.write s.bus.mem a v } := rfl

@[simp] theorem writeOwn_ord (a : Nat) (v : Byte) (s : State) :
    (writeOwn a v s).ord = s.ord := rfl

@[simp] theorem writeOwn_env (a : Nat) (v : Byte) (s : State) :
    (writeOwn a v s).env = s.env := rfl

@[simp] theorem writeOwn_freeCtr (a : Nat) (v : Byte) (s : State) :
    (writeOwn a v s).freeCtr = s.freeCtr := rfl

@[simp] theorem writeOwn_window (a : Nat) (v : Byte) (s : State) :
    (writeOwn a v s).window = s.window := rfl

@[simp] theorem returnBuf_cfg (s : State) :
    (returnBuf s).cfg = s.cfg := rfl

@[simp] theorem returnBuf_eng (s : State) :
    (returnBuf s).eng = s.eng := rfl

@[simp] theorem returnBuf_bus (s : State) :
    (returnBuf s).bus = s.bus := rfl

@[simp] theorem returnBuf_ord (s : State) :
    (returnBuf s).ord = s.ord := rfl

@[simp] theorem returnBuf_env (s : State) :
    (returnBuf s).env = { s.env with retBuf := fieldAddr s.cfg (.payload 0) } := rfl

@[simp] theorem returnBuf_freeCtr (s : State) :
    (returnBuf s).freeCtr = s.freeCtr := rfl

@[simp] theorem returnBuf_window (s : State) :
    (returnBuf s).window = s.window := rfl

@[simp] theorem takeCall_cfg (rest : List Byte) (s : State) :
    (takeCall rest s).cfg = s.cfg := rfl

@[simp] theorem takeCall_eng (rest : List Byte) (s : State) :
    (takeCall rest s).eng = s.eng := rfl

@[simp] theorem takeCall_bus (rest : List Byte) (s : State) :
    (takeCall rest s).bus = s.bus := rfl

@[simp] theorem takeCall_ord (rest : List Byte) (s : State) :
    (takeCall rest s).ord = s.ord := rfl

@[simp] theorem takeCall_env (rest : List Byte) (s : State) :
    (takeCall rest s).env = { s.env with offers := rest } := rfl

@[simp] theorem takeCall_freeCtr (rest : List Byte) (s : State) :
    (takeCall rest s).freeCtr = s.freeCtr := rfl

@[simp] theorem takeCall_window (rest : List Byte) (s : State) :
    (takeCall rest s).window = s.window := rfl

@[simp] theorem placeCall_cfg (call : List Byte) (s : State) :
    (placeCall call s).cfg = s.cfg := rfl

@[simp] theorem placeCall_eng (call : List Byte) (s : State) :
    (placeCall call s).eng = { s.eng with pc := .rest, cKind := .none } := rfl

@[simp] theorem placeCall_bus (call : List Byte) (s : State) :
    (placeCall call s).bus = s.bus := rfl

@[simp] theorem placeCall_ord (call : List Byte) (s : State) :
    (placeCall call s).ord = s.ord := rfl

@[simp] theorem placeCall_env (call : List Byte) (s : State) :
    (placeCall call s).env = { s.env with offers := call } := rfl

@[simp] theorem placeCall_freeCtr (call : List Byte) (s : State) :
    (placeCall call s).freeCtr = s.freeCtr := rfl

@[simp] theorem placeCall_window (call : List Byte) (s : State) :
    (placeCall call s).window = s.window := rfl

@[simp] theorem chunkInit_cfg (k : ChunkKind) (a : U32) (b : U64) (n : U32) (s : State) :
    (chunkInit k a b n s).cfg = s.cfg := rfl

@[simp] theorem chunkInit_eng (k : ChunkKind) (a : U32) (b : U64) (n : U32) (s : State) :
    (chunkInit k a b n s).eng = { s.eng with
      cKind := k, cAddr := a, cSize := n, cCur := 0#32, cBuf := b, pc := .fTest } := rfl

@[simp] theorem chunkInit_bus (k : ChunkKind) (a : U32) (b : U64) (n : U32) (s : State) :
    (chunkInit k a b n s).bus = s.bus := rfl

@[simp] theorem chunkInit_ord (k : ChunkKind) (a : U32) (b : U64) (n : U32) (s : State) :
    (chunkInit k a b n s).ord = s.ord := rfl

@[simp] theorem chunkInit_env (k : ChunkKind) (a : U32) (b : U64) (n : U32) (s : State) :
    (chunkInit k a b n s).env = s.env := rfl

@[simp] theorem chunkInit_freeCtr (k : ChunkKind) (a : U32) (b : U64) (n : U32) (s : State) :
    (chunkInit k a b n s).freeCtr = s.freeCtr := rfl

@[simp] theorem chunkInit_window (k : ChunkKind) (a : U32) (b : U64) (n : U32) (s : State) :
    (chunkInit k a b n s).window = s.window := rfl

@[simp] theorem scpStore_cfg (f : Field) (v : U32) (s : State) :
    (scpStore f v s).cfg = s.cfg := rfl

@[simp] theorem scpStore_eng (f : Field) (v : U32) (s : State) :
    (scpStore f v s).eng = s.eng := rfl

@[simp] theorem scpStore_bus (f : Field) (v : U32) (s : State) :
    (scpStore f v s).bus = { s.bus with mem := writeField s.cfg s.bus.mem f v } := rfl

@[simp] theorem scpStore_ord (f : Field) (v : U32) (s : State) :
    (scpStore f v s).ord = { s.ord with
      stale := { loc := .field f, val := readField s.cfg s.bus.mem f } :: s.ord.stale } := rfl

@[simp] theorem scpStore_env (f : Field) (v : U32) (s : State) :
    (scpStore f v s).env = s.env := rfl

@[simp] theorem scpStore_freeCtr (f : Field) (v : U32) (s : State) :
    (scpStore f v s).freeCtr = s.freeCtr := rfl

@[simp] theorem scpStore_window (f : Field) (v : U32) (s : State) :
    (scpStore f v s).window = if isPayload f then 0 else s.window := rfl

@[simp] theorem scpClearBusy_cfg (s : State) :
    (scpClearBusy s).cfg = s.cfg := rfl

@[simp] theorem scpClearBusy_eng (s : State) :
    (scpClearBusy s).eng = s.eng := rfl

@[simp] theorem scpClearBusy_bus (s : State) :
    (scpClearBusy s).bus = { s.bus with dbStatus := s.bus.dbStatus &&& 0xFFFFFFFE#32 } := rfl

@[simp] theorem scpClearBusy_ord (s : State) :
    (scpClearBusy s).ord = { s.ord with stale := { loc := .dbStatus, val := s.bus.dbStatus } :: s.ord.stale } := rfl

@[simp] theorem scpClearBusy_env (s : State) :
    (scpClearBusy s).env = s.env := rfl

@[simp] theorem scpClearBusy_freeCtr (s : State) :
    (scpClearBusy s).freeCtr = s.freeCtr := rfl

@[simp] theorem scpClearBusy_window (s : State) :
    (scpClearBusy s).window = s.window := rfl

@[simp] theorem resetFrom_cfg (cfg : Config) (s : State) :
    (State.resetFrom cfg s).cfg = cfg := rfl

@[simp] theorem resetFrom_eng (cfg : Config) (s : State) :
    (State.resetFrom cfg s).eng = { s.eng with nextId := cfg.seed, pc := .rest, cKind := .none } := rfl

@[simp] theorem resetFrom_bus (cfg : Config) (s : State) :
    (State.resetFrom cfg s).bus = s.bus := rfl

@[simp] theorem resetFrom_ord (cfg : Config) (s : State) :
    (State.resetFrom cfg s).ord = { pending := [], stale := [], passed := [], loadPick := 0 } := rfl

@[simp] theorem resetFrom_env (cfg : Config) (s : State) :
    (State.resetFrom cfg s).env = s.env := rfl

@[simp] theorem resetFrom_freeCtr (cfg : Config) (s : State) :
    (State.resetFrom cfg s).freeCtr = s.freeCtr := rfl

@[simp] theorem resetFrom_window (cfg : Config) (s : State) :
    (State.resetFrom cfg s).window = 0 := rfl

end Sys2Proof.Machine
end

