-- ==== Sys2Proof/Laws/Memory.lean ====
section
/-! SUPPORT. Memory: read after write, the canonical form, mailbox fields as locations of their own. -/

namespace Sys2Proof.Machine

open Sys2Proof

theorem Memory.read_erase_of_all_gt (m : Memory) (a k : Nat) (hm : m.all (fun c => decide (k < c.1)) = true)
    (h : a ≤ k) : Memory.read m a = Memory.fill := by
  induction m with
  | nil => rfl
  | cons c m ih =>
    obtain ⟨j, b⟩ := c
    simp only [List.all_cons, Bool.and_eq_true, decide_eq_true_eq] at hm
    have hj : j ≠ a := by omega
    simp [Memory.read, hj, ih hm.2]

theorem Memory.wf_cons {k : Nat} {b : Byte} {m : Memory} :
    Memory.wf ((k, b) :: m) = true ↔
      b ≠ Memory.fill ∧ m.all (fun c => decide (k < c.1)) = true ∧ Memory.wf m = true := by
  simp [Memory.wf, and_assoc]

theorem Memory.all_gt_insert {m : Memory} {k a : Nat} {v : Byte}
    (hm : m.all (fun c => decide (k < c.1)) = true) (h : k < a) :
    (Memory.insert m a v).all (fun c => decide (k < c.1)) = true := by
  induction m with
  | nil => simpa [Memory.insert] using h
  | cons c m ih =>
    obtain ⟨j, b⟩ := c
    simp only [List.all_cons, Bool.and_eq_true, decide_eq_true_eq] at hm
    simp only [Memory.insert]
    split
    · simp only [List.all_cons, Bool.and_eq_true, decide_eq_true_eq]; exact ⟨h, hm⟩
    · split
      · simp only [List.all_cons, Bool.and_eq_true, decide_eq_true_eq]; exact ⟨h, hm.2⟩
      · simp only [List.all_cons, Bool.and_eq_true, decide_eq_true_eq]; exact ⟨hm.1, ih hm.2⟩

theorem Memory.all_gt_erase {m : Memory} {k a : Nat}
    (hm : m.all (fun c => decide (k < c.1)) = true) :
    (Memory.erase m a).all (fun c => decide (k < c.1)) = true := by
  induction m with
  | nil => rfl
  | cons c m ih =>
    obtain ⟨j, b⟩ := c
    simp only [List.all_cons, Bool.and_eq_true, decide_eq_true_eq] at hm
    simp only [Memory.erase]
    split
    · exact hm.2
    · simp only [List.all_cons, Bool.and_eq_true, decide_eq_true_eq]; exact ⟨hm.1, ih hm.2⟩

theorem Memory.all_gt_trans {m : Memory} {k a : Nat}
    (hm : m.all (fun c => decide (k < c.1)) = true) (h : a < k) :
    m.all (fun c => decide (a < c.1)) = true := by
  simp only [List.all_eq_true, decide_eq_true_eq] at hm ⊢
  intro c hc
  exact lt_trans h (hm c hc)

theorem Memory.wf_insert {m : Memory} {a : Nat} {v : Byte} (hm : Memory.wf m = true) (hv : v ≠ Memory.fill) :
    Memory.wf (Memory.insert m a v) = true := by
  induction m with
  | nil => simpa [Memory.insert, Memory.wf] using hv
  | cons c m ih =>
    obtain ⟨j, b⟩ := c
    obtain ⟨hb, hall, hw⟩ := Memory.wf_cons.1 hm
    simp only [Memory.insert]
    split
    · refine Memory.wf_cons.2 ⟨hv, ?_, hm⟩
      simp only [List.all_cons, Bool.and_eq_true, decide_eq_true_eq]
      exact ⟨‹_›, Memory.all_gt_trans hall ‹_›⟩
    · split
      · subst a
        exact Memory.wf_cons.2 ⟨hv, hall, hw⟩
      · exact Memory.wf_cons.2 ⟨hb, Memory.all_gt_insert hall (by omega), ih hw⟩

theorem Memory.wf_erase {m : Memory} {a : Nat} (hm : Memory.wf m = true) :
    Memory.wf (Memory.erase m a) = true := by
  induction m with
  | nil => rfl
  | cons c m ih =>
    obtain ⟨j, b⟩ := c
    obtain ⟨hb, hall, hw⟩ := Memory.wf_cons.1 hm
    simp only [Memory.erase]
    split
    · exact hw
    · exact Memory.wf_cons.2 ⟨hb, Memory.all_gt_erase hall, ih hw⟩

/-- A write keeps the canonical form. -/
theorem Memory.wf_write {m : Memory} {a : Nat} {v : Byte} (hm : Memory.wf m = true) :
    Memory.wf (Memory.write m a v) = true := by
  unfold Memory.write
  split
  · exact Memory.wf_erase hm
  · exact Memory.wf_insert hm ‹_›

theorem Memory.wf_writeList {vs : List Byte} {m : Memory} {a : Nat} (hm : Memory.wf m = true) :
    Memory.wf (Memory.writeList m a vs) = true := by
  induction vs generalizing m a with
  | nil => exact hm
  | cons v vs ih => exact ih (Memory.wf_write hm)

theorem Memory.wf_writeField {cfg : Config} {m : Memory} {f : Field} {v : U32} (hm : Memory.wf m = true) :
    Memory.wf (writeField cfg m f v) = true := by
  unfold writeField
  split
  · exact Memory.wf_writeList hm
  · exact Memory.wf_write hm

theorem Memory.read_insert_same (m : Memory) (a : Nat) (v : Byte) :
    Memory.read (Memory.insert m a v) a = v := by
  induction m with
  | nil => simp [Memory.insert, Memory.read]
  | cons c m ih =>
    obtain ⟨j, b⟩ := c
    simp only [Memory.insert]
    split
    · simp [Memory.read]
    · split
      · simp [Memory.read]
      · have hj : j ≠ a := by omega
        simp [Memory.read, hj, ih]

theorem Memory.read_insert_other (m : Memory) {a x : Nat} (v : Byte) (h : x ≠ a) :
    Memory.read (Memory.insert m a v) x = Memory.read m x := by
  induction m with
  | nil => simp [Memory.insert, Memory.read, Ne.symm h]
  | cons c m ih =>
    obtain ⟨j, b⟩ := c
    simp only [Memory.insert]
    split
    · simp [Memory.read, Ne.symm h]
    · split
      · subst a
        simp [Memory.read, Ne.symm h]
      · simp [Memory.read, ih]

theorem Memory.read_erase_same {m : Memory} (hm : Memory.wf m = true) (a : Nat) :
    Memory.read (Memory.erase m a) a = Memory.fill := by
  induction m with
  | nil => rfl
  | cons c m ih =>
    obtain ⟨j, b⟩ := c
    obtain ⟨-, hall, hw⟩ := Memory.wf_cons.1 hm
    simp only [Memory.erase]
    split
    · subst a
      exact Memory.read_erase_of_all_gt m j j hall le_rfl
    · simp [Memory.read, ‹_›, ih hw]

theorem Memory.read_erase_other (m : Memory) {a x : Nat} (h : x ≠ a) :
    Memory.read (Memory.erase m a) x = Memory.read m x := by
  induction m with
  | nil => rfl
  | cons c m ih =>
    obtain ⟨j, b⟩ := c
    simp only [Memory.erase]
    split
    · subst a
      simp [Memory.read, Ne.symm h]
    · simp [Memory.read, ih]

/-- A read of the address just written gives the value written. -/
theorem Memory.read_write_same {m : Memory} (hm : Memory.wf m = true) (a : Nat) (v : Byte) :
    Memory.read (Memory.write m a v) a = v := by
  unfold Memory.write
  split
  · rw [Memory.read_erase_same hm]; exact Eq.symm ‹_›
  · exact Memory.read_insert_same m a v

/-- A write leaves every other address alone. -/
theorem Memory.read_write_other (m : Memory) {a x : Nat} (v : Byte) (h : x ≠ a) :
    Memory.read (Memory.write m a v) x = Memory.read m x := by
  unfold Memory.write
  split
  · exact Memory.read_erase_other m h
  · exact Memory.read_insert_other m v h

theorem Memory.read_writeList_outside (vs : List Byte) (m : Memory) (a x : Nat)
    (h : x < a ∨ a + vs.length ≤ x) : Memory.read (Memory.writeList m a vs) x = Memory.read m x := by
  induction vs generalizing m a with
  | nil => rfl
  | cons v vs ih =>
    simp only [List.length_cons] at h
    simp only [Memory.writeList]
    rw [ih _ _ (by omega), Memory.read_write_other _ _ (by omega)]

theorem Memory.read_writeList_inside {vs : List Byte} {m : Memory} (hm : Memory.wf m = true) (a : Nat) (i : Nat)
    (h : i < vs.length) : Memory.read (Memory.writeList m a vs) (a + i) = vs[i] := by
  induction vs generalizing m a i with
  | nil => simp at h
  | cons v vs ih =>
    simp only [Memory.writeList]
    cases i with
    | zero =>
      rw [Memory.read_writeList_outside _ _ _ _ (by omega)]
      simpa using Memory.read_write_same hm a v
    | succ i =>
      have := ih (Memory.wf_write (a := a) (v := v) hm) (a + 1) i (by simpa using h)
      simpa [Nat.add_assoc, Nat.add_comm 1 i] using this

@[simp] theorem bytes32_length (v : U32) : (bytes32 v).length = 4 := rfl

theorem word32_bytes32 (v : U32) :
    word32 (v.extractLsb' 0 8) (v.extractLsb' 8 8) (v.extractLsb' 16 8) (v.extractLsb' 24 8) = v := by
  unfold word32
  ext i hi
  simp only [BitVec.getElem_append, BitVec.getElem_extractLsb']
  split
  · simp [BitVec.getLsbD_eq_getElem hi]
  · split
    · rw [BitVec.getLsbD_eq_getElem (by omega)]; congr 1; omega
    · split
      · rw [BitVec.getLsbD_eq_getElem (by omega)]; congr 1; omega
      · rw [BitVec.getLsbD_eq_getElem (by omega)]; congr 1; omega

@[simp] theorem lowByte_zextByte (b : Byte) : lowByte (zextByte b) = b := by
  ext i hi
  simp only [lowByte, zextByte, BitVec.getElem_extractLsb', BitVec.getLsbD_setWidth, Nat.zero_add,
    BitVec.getLsbD_eq_getElem hi]
  simp only [Bool.and_eq_right_iff_imp, decide_eq_true_eq]
  omega

theorem fieldWidth_cases (f : Field) : fieldWidth f = 4 ∨ fieldWidth f = 1 := by
  cases f <;> simp [fieldWidth]

@[simp] theorem readField_writeField_same {m : Memory} (hm : Memory.wf m = true) (cfg : Config) (f : Field)
    (v : U32) : readField cfg (writeField cfg m f v) f = fieldValue f v := by
  unfold readField writeField fieldValue
  split
  · rename_i h
    have e0 := Memory.read_writeList_inside (vs := bytes32 v) hm (fieldAddr cfg f) 0 (by simp)
    have e1 := Memory.read_writeList_inside (vs := bytes32 v) hm (fieldAddr cfg f) 1 (by simp)
    have e2 := Memory.read_writeList_inside (vs := bytes32 v) hm (fieldAddr cfg f) 2 (by simp)
    have e3 := Memory.read_writeList_inside (vs := bytes32 v) hm (fieldAddr cfg f) 3 (by simp)
    simp only [Nat.add_zero] at e0
    rw [e0, e1, e2, e3]
    exact word32_bytes32 v
  · rw [Memory.read_write_same hm]

/-- Two fields' bytes do not overlap. -/
def fieldsApart (cfg : Config) (f g : Field) : Prop :=
  fieldAddr cfg f + fieldWidth f ≤ fieldAddr cfg g ∨ fieldAddr cfg g + fieldWidth g ≤ fieldAddr cfg f

/-- A field write leaves every byte outside the field alone. -/
theorem read_writeField_outside (cfg : Config) (m : Memory) (f : Field) (v : U32) (x : Nat)
    (h : x < fieldAddr cfg f ∨ fieldAddr cfg f + fieldWidth f ≤ x) :
    Memory.read (writeField cfg m f v) x = Memory.read m x := by
  unfold writeField
  split
  · rename_i hw
    exact Memory.read_writeList_outside _ _ _ _ (by simpa [hw] using h)
  · rename_i hw
    have : fieldWidth f = 1 := by rcases fieldWidth_cases f with h4 | h1 <;> omega
    exact Memory.read_write_other _ _ (by omega)

theorem readField_writeField_apart {cfg : Config} {f g : Field} (h : fieldsApart cfg f g) (m : Memory) (v : U32) :
    readField cfg (writeField cfg m f v) g = readField cfg m g := by
  unfold fieldsApart at h
  unfold readField
  split
  · rename_i hw
    rw [read_writeField_outside _ _ _ _ _ (by omega), read_writeField_outside _ _ _ _ _ (by omega),
      read_writeField_outside _ _ _ _ _ (by omega), read_writeField_outside _ _ _ _ _ (by omega)]
  · rename_i hw
    have hg : fieldWidth g = 1 := by rcases fieldWidth_cases g with h4 | h1 <;> omega
    rw [read_writeField_outside _ _ _ _ _ (by omega)]

end Sys2Proof.Machine
end

