-- ==== Sys2Proof/Laws/PerInstr.lean ====
section
/-! SUPPORT. Statements about every instruction as syntax, one lemma per constructor. -/

/-- An instruction's call has the length its first byte announces, so a decoder knows where the next call begins. -/
def Sys2Proof.Laws.EncodedLength.Statement (i : Sys2Proof.Instr) : Prop :=
  ∃ b bs, Sys2Proof.encode i = b :: bs ∧ (Sys2Proof.encode i).length = Sys2Proof.callLength b

namespace Sys2Proof.Laws.EncodedLength

open Sys2Proof

theorem aRead (x y : U32) : Statement (.aRead x y) :=
  ⟨_, _, rfl, rfl⟩

theorem aWrite (x y : U32) : Statement (.aWrite x y) :=
  ⟨_, _, rfl, rfl⟩

theorem aErase (x y : U32) : Statement (.aErase x y) :=
  ⟨_, _, rfl, rfl⟩

theorem aLotId (x y : U32) : Statement (.aLotId x y) :=
  ⟨_, _, rfl, rfl⟩

theorem aMac (x y : U32) : Statement (.aMac x y) :=
  ⟨_, _, rfl, rfl⟩

theorem aSerial (x y : U32) : Statement (.aSerial x y) :=
  ⟨_, _, rfl, rfl⟩

theorem aTraceOn (x y : U32) : Statement (.aTraceOn x y) :=
  ⟨_, _, rfl, rfl⟩

theorem aTraceOff (x y : U32) : Statement (.aTraceOff x y) :=
  ⟨_, _, rfl, rfl⟩

theorem aLegacyL (x y : U32) : Statement (.aLegacyL x y) :=
  ⟨_, _, rfl, rfl⟩

theorem aLegacyV (x y : U32) : Statement (.aLegacyV x y) :=
  ⟨_, _, rfl, rfl⟩

theorem bRead (x y : U32) : Statement (.bRead x y) :=
  ⟨_, _, rfl, rfl⟩

theorem bWrite (x y : U32) : Statement (.bWrite x y) :=
  ⟨_, _, rfl, rfl⟩

theorem bLegacyV (x y : U32) : Statement (.bLegacyV x y) :=
  ⟨_, _, rfl, rfl⟩

theorem scpCmd (op : Byte) (x y : U32) : Statement (.scpCmd op x y) :=
  ⟨_, _, rfl, rfl⟩

theorem scpBuf : Statement .scpBuf :=
  ⟨_, _, rfl, rfl⟩

theorem flashErase (x y : U32) : Statement (.flashErase x y) :=
  ⟨_, _, rfl, rfl⟩

theorem flashRead (x : U32) (b : U64) (y : U32) : Statement (.flashRead x b y) :=
  ⟨_, _, rfl, rfl⟩

theorem flashWrite (x : U32) (b : U64) (y : U32) : Statement (.flashWrite x b y) :=
  ⟨_, _, rfl, rfl⟩

end Sys2Proof.Laws.EncodedLength
end

