-- ==== Sys2Proof/Laws/Decode.lean ====
section
/-! SUPPORT. The operand readers of the decoder undo the writers of the encoder, and the other way round. -/

namespace Sys2Proof

open Sys2Proof.Machine

theorem take32_bytes32 (w : U32) (rest : List Byte) : take32 (bytes32 w ++ rest) = some (w, rest) := by
  simp only [bytes32, List.cons_append, List.nil_append, take32, word32_bytes32]

theorem takePair_bytes (x y : U32) (rest : List Byte) :
    takePair (bytes32 x ++ (bytes32 y ++ rest)) = some (x, y, rest) := by
  simp only [takePair, take32_bytes32]

theorem word64_split (w : U64) : w.extractLsb' 32 32 ++ w.extractLsb' 0 32 = w := by
  ext i hi
  simp only [BitVec.getElem_append, BitVec.getElem_extractLsb']
  split
  · simp [BitVec.getLsbD_eq_getElem hi]
  · rw [BitVec.getLsbD_eq_getElem (by omega)]; congr 1; omega

theorem take64_bytes64 (w : U64) (rest : List Byte) : take64 (bytes64 w ++ rest) = some (w, rest) := by
  simp only [bytes64, List.append_assoc, take64, takePair_bytes, word64_split]

theorem takeBuffered_bytes (a : U32) (b : U64) (n : U32) (rest : List Byte) :
    takeBuffered (bytes32 a ++ (bytes64 b ++ (bytes32 n ++ rest))) = some (a, b, n, rest) := by
  simp only [takeBuffered, take32_bytes32, take64_bytes64]

theorem append4_bytes (b3 b2 b1 b0 : Byte) :
    (b3 ++ b2 ++ b1 ++ b0).extractLsb' 0 8 = b0 ∧ (b3 ++ b2 ++ b1 ++ b0).extractLsb' 8 8 = b1
      ∧ (b3 ++ b2 ++ b1 ++ b0).extractLsb' 16 8 = b2 ∧ (b3 ++ b2 ++ b1 ++ b0).extractLsb' 24 8 = b3 := by
  refine ⟨?_, ?_, ?_, ?_⟩ <;> ext i hi <;>
    simp only [BitVec.getElem_extractLsb', BitVec.getLsbD_append]
  · simp [hi]
  · simp [hi]
  · simp [show ¬ 16 + i < 8 by omega, show ¬ 16 + i - 8 < 8 by omega, show 16 + i - 8 - 8 = i by omega, hi]
  · simp [show ¬ 24 + i < 8 by omega, show ¬ 24 + i - 8 < 8 by omega, show ¬ 24 + i - 8 - 8 < 8 by omega,
      show 24 + i - 8 - 8 - 8 = i by omega, BitVec.getLsbD_eq_getElem hi]

/-- What `take32` reads is what `bytes32` writes. -/
theorem take32_some {bs rest : List Byte} {w : U32} (h : take32 bs = some (w, rest)) : bs = bytes32 w ++ rest := by
  unfold take32 at h
  split at h
  · rename_i b0 b1 b2 b3 r
    simp only [Option.some.injEq, Prod.mk.injEq] at h
    obtain ⟨rfl, rfl⟩ := h
    obtain ⟨e0, e1, e2, e3⟩ := append4_bytes b3 b2 b1 b0
    simp only [bytes32, word32, List.cons_append, List.nil_append]
    exact congrArg₂ List.cons e0.symm (congrArg₂ List.cons e1.symm (congrArg₂ List.cons e2.symm
      (congrArg₂ List.cons e3.symm rfl)))
  · exact absurd h (by simp)

theorem takePair_some {bs rest : List Byte} {x y : U32} (h : takePair bs = some (x, y, rest)) :
    bs = bytes32 x ++ (bytes32 y ++ rest) := by
  unfold takePair at h
  split at h
  · exact absurd h (by simp)
  · rename_i w r hw
    split at h
    · exact absurd h (by simp)
    · rename_i w' r' hw'
      simp only [Option.some.injEq, Prod.mk.injEq] at h
      obtain ⟨rfl, rfl, rfl⟩ := h
      rw [take32_some hw, take32_some hw']

end Sys2Proof
end

