-- ==== Sys2Proof/Laws/Params.lean ====
section
/-! SUPPORT. What the constraints on the parameters give: the fields of a layout lie apart and inside the mailbox, away
from the doorbell registers and from a clear caller buffer. -/

namespace Sys2Proof.Machine

open Sys2Proof

/-- The constraints on the parameters, one by one (R5 to R9, R70, R237). -/
theorem parametersOk_iff (cfg : Config) :
    parametersOk cfg = true ↔
      addressesOk cfg = true ∧ layoutAgrees cfg.gen cfg.layout = true ∧ layoutOk cfg.layout = true
        ∧ cfg.seedA ≠ cfg.seedB ∧ 1 ≤ cfg.maxChunk ∧ cfg.maxChunk ≤ cfg.payloadCap ∧ cfg.payloadCap < 2 ^ 32
        ∧ 1 ≤ cfg.tickHz := by
  simp only [parametersOk, Bool.and_eq_true, decide_eq_true_eq, and_assoc]

theorem disjoint_iff (a n b m : Nat) : disjoint a n b m = true ↔ a + n ≤ b ∨ b + m ≤ a := by
  simp [disjoint]

/-- A header field ends before the payload (R70). -/
theorem header_inside {l : Layout} (h : layoutOk l = true) {f : Field} (hf : f ∈ headerFields) :
    fieldOffset l f + fieldWidth f ≤ headerSize l := by
  simp only [layoutOk, Bool.and_eq_true, List.all_eq_true, decide_eq_true_eq] at h
  exact (h.1 f hf).1.1

/-- Two header fields do not overlap (R70). -/
theorem header_apart {l : Layout} (h : layoutOk l = true) {f g : Field} (hf : f ∈ headerFields)
    (hg : g ∈ headerFields) (hfg : f ≠ g) :
    fieldOffset l f + fieldWidth f ≤ fieldOffset l g ∨ fieldOffset l g + fieldWidth g ≤ fieldOffset l f := by
  simp only [layoutOk, Bool.and_eq_true, List.all_eq_true, decide_eq_true_eq, Bool.or_eq_true] at h
  rcases (h.1 f hf).2 g hg with h1 | h1
  · exact absurd h1 hfg
  · exact (disjoint_iff _ _ _ _).1 h1

/-- A 32-bit header field is at a multiple of 4 (R70). -/
theorem header_aligned {l : Layout} (h : layoutOk l = true) {f : Field} (hf : f ∈ headerFields)
    (hw : fieldWidth f = 4) : fieldOffset l f % 4 = 0 := by
  simp only [layoutOk, Bool.and_eq_true, List.all_eq_true, decide_eq_true_eq, Bool.or_eq_true] at h
  rcases (h.1 f hf).1.2 with h1 | h1
  · omega
  · exact h1

theorem payload_offset (l : Layout) (i : Nat) : fieldOffset l (.payload i) = headerSize l + i := by
  cases l <;> simp [headerSize, fieldOffset]

theorem field_header_or_payload (f : Field) : f ∈ headerFields ∨ ∃ i, f = .payload i := by
  cases f <;> simp [headerFields]

/-- Different fields of a mailbox share no byte (R42, R70). -/
theorem fields_apart {cfg : Config} (h : parametersOk cfg = true) {f g : Field} (hfg : f ≠ g) :
    fieldsApart cfg f g := by
  have hl := ((parametersOk_iff cfg).1 h).2.2.1
  unfold fieldsApart fieldAddr
  rcases field_header_or_payload f with hf | ⟨i, rfl⟩ <;> rcases field_header_or_payload g with hg | ⟨j, rfl⟩
  · have := header_apart hl hf hg hfg
    omega
  · have := header_inside hl hf
    rw [payload_offset]
    omega
  · have := header_inside hl hg
    rw [payload_offset]
    omega
  · have hij : i ≠ j := fun e => hfg (by rw [e])
    simp only [payload_offset, fieldWidth]
    omega

/-- A write to one field leaves every other field's value. -/
theorem readField_writeField_other {cfg : Config} (h : parametersOk cfg = true) {f g : Field} (hfg : f ≠ g)
    (m : Memory) (v : U32) : readField cfg (writeField cfg m f v) g = readField cfg m g :=
  readField_writeField_apart (fields_apart h hfg) m v

/-- A field that exists lies inside the mailbox region (R42). -/
theorem field_inside {cfg : Config} (h : parametersOk cfg = true) {f : Field} (hf : fieldExists cfg f) :
    cfg.mboxBase ≤ fieldAddr cfg f ∧ fieldAddr cfg f + fieldWidth f ≤ cfg.mboxBase + mboxSize cfg := by
  have hl := ((parametersOk_iff cfg).1 h).2.2.1
  unfold fieldAddr mboxSize
  rcases field_header_or_payload f with hm | ⟨i, rfl⟩
  · have := header_inside hl hm
    omega
  · simp only [fieldExists] at hf
    simp only [payload_offset, fieldWidth]
    omega

/-- A write to an existing field leaves every byte outside the mailbox. -/
theorem read_writeField_notMailbox {cfg : Config} (h : parametersOk cfg = true) {f : Field}
    (hf : fieldExists cfg f) (m : Memory) (v : U32) {a : Nat} (ha : ¬ inMailbox cfg a) :
    Memory.read (writeField cfg m f v) a = Memory.read m a := by
  have := field_inside h hf
  unfold inMailbox at ha
  exact read_writeField_outside _ _ _ _ _ (by omega)

/-- A write outside the mailbox leaves every field that exists. -/
theorem readField_write_notMailbox {cfg : Config} (h : parametersOk cfg = true) {f : Field}
    (hf : fieldExists cfg f) (m : Memory) {a : Nat} (v : Byte) (ha : ¬ inMailbox cfg a) :
    readField cfg (Memory.write m a v) f = readField cfg m f := by
  have := field_inside h hf
  unfold inMailbox at ha
  unfold readField
  split
  · rename_i hw
    rw [Memory.read_write_other _ _ (by omega), Memory.read_write_other _ _ (by omega),
      Memory.read_write_other _ _ (by omega), Memory.read_write_other _ _ (by omega)]
  · have hw : fieldWidth f = 1 := by rcases fieldWidth_cases f with h4 | h1 <;> omega
    rw [Memory.read_write_other _ _ (by omega)]

/-- Every byte of a clear buffer lies outside the mailbox (R29 (b)). -/
theorem bufferClear_notMailbox {cfg : Config} {base size : Nat} (h : bufferClear cfg base size = true) {a : Nat}
    (h1 : base ≤ a) (h2 : a < base + size) : ¬ inMailbox cfg a := by
  simp only [bufferClear, Bool.or_eq_true, decide_eq_true_eq, Bool.and_eq_true, disjoint_iff] at h
  unfold inMailbox
  rcases h with h | ⟨⟨h3, -⟩, -⟩ <;> omega

/-- Part of a clear buffer is clear. -/
theorem bufferClear_mono {cfg : Config} {base size n : Nat} (h : bufferClear cfg base size = true) (hn : n ≤ size) :
    bufferClear cfg base n = true := by
  simp only [bufferClear, Bool.or_eq_true, decide_eq_true_eq, Bool.and_eq_true, disjoint_iff] at h ⊢
  rcases h with h | h
  · left; omega
  · right; omega

/-- The chunk is `min(x[C_SIZE], MAX_CHUNK)` as a number (R151). -/
theorem chunkOf_toNat (cfg : Config) (size : U32) : (chunkOf cfg size).toNat = min size.toNat cfg.maxChunk := by
  have := size.isLt
  simp only [chunkOf, BitVec.toNat_ofNat]
  exact Nat.mod_eq_of_lt (by omega)

/-- A chunk is chosen within its bounds (R157). -/
theorem chunkOf_bounds {cfg : Config} (h : parametersOk cfg = true) {size : U32} (hs : size ≠ 0#32) :
    1 ≤ (chunkOf cfg size).toNat ∧ (chunkOf cfg size).toNat ≤ cfg.maxChunk
      ∧ (chunkOf cfg size).toNat ≤ size.toNat := by
  have h1 := ((parametersOk_iff cfg).1 h).2.2.2.2.1
  have h2 : size.toNat ≠ 0 := fun e => hs (BitVec.eq_of_toNat_eq (by simpa using e))
  rw [chunkOf_toNat]
  omega

end Sys2Proof.Machine
end

