-- ==== Sys2Proof/Laws/Ops.lean ====
section
/-! SUPPORT. Everything the shared operations can do: loads, stores, barriers, the doorbell, completion. -/

namespace Sys2Proof.Machine

open Sys2Proof

/-! ### Older values -/

@[simp] theorem forget_nil (l : Loc) : forget l [] = [] := rfl

/-- An older value that `forget` leaves is of another location, and was there. -/
theorem mem_forget {l : Loc} {o : Older} {os : List Older} : o ∈ forget l os ↔ o ∈ os ∧ o.loc ≠ l := by
  simp [forget]

@[simp] theorem forget_append (l : Loc) (os ps : List Older) : forget l (os ++ ps) = forget l os ++ forget l ps := by
  simp [forget]

@[simp] theorem valueBack_nil (l : Loc) (v : U32) : valueBack l [] v = v := rfl

theorem valueBack_append (l : Loc) (os ps : List Older) (v : U32) :
    valueBack l (os ++ ps) v = valueBack l ps (valueBack l os v) := by
  induction os generalizing v with
  | nil => rfl
  | cons o os ih => simp only [List.cons_append, valueBack, ih]

/-- Where no older value is of the location, the visible one is left. -/
theorem valueBack_of_none {l : Loc} {os : List Older} (h : ∀ o ∈ os, o.loc ≠ l) (v : U32) : valueBack l os v = v := by
  induction os generalizing v with
  | nil => rfl
  | cons o os ih =>
    have ho := h o List.mem_cons_self
    simp only [valueBack, ho, if_false]
    exact ih (fun x hx => h x (List.mem_cons_of_mem _ hx)) v

/-- Older values of another location do not matter. -/
theorem valueBack_forget_other {l l' : Loc} (h : l' ≠ l) (os : List Older) (v : U32) :
    valueBack l' (forget l os) v = valueBack l' os v := by
  induction os generalizing v with
  | nil => rfl
  | cons o os ih =>
    by_cases ho : o.loc = l
    · have : forget l (o :: os) = forget l os := by simp [forget, ho]
      rw [this, ih, valueBack, if_neg (fun e => h (e.symm.trans ho))]
    · have : forget l (o :: os) = o :: forget l os := by simp [forget, ho]
      rw [this, valueBack, valueBack, ih]

/-- After `forget` the location has its newest value only. -/
theorem valueBack_forget_same (l : Loc) (os : List Older) (v : U32) : valueBack l (forget l os) v = v :=
  valueBack_of_none (fun _ ho => (mem_forget.1 ho).2) v

/-! ### Own stores -/

theorem ownStore_append_single (p : List Store) (e : Store) (l : Loc) :
    ownStore (p ++ [e]) l = if l = .field e.field then some e.val else ownStore p l := by
  induction p with
  | nil => simp [ownStore]
  | cons x xs ih =>
    simp only [List.cons_append, ownStore, ih]
    by_cases h : l = .field e.field <;> simp [h]

@[simp] theorem ownStore_map_barriers (p : List Store) (l : Loc) :
    ownStore (p.map (fun e => { e with barriers := e.barriers + 1 })) l = ownStore p l := by
  induction p with
  | nil => rfl
  | cons x xs ih => simp only [List.map_cons, ownStore, ih]

/-- An own store of a location is one of the pending stores. -/
theorem ownStore_some {p : List Store} {l : Loc} {v : U32} (h : ownStore p l = some v) :
    ∃ e ∈ p, l = .field e.field ∧ e.val = v := by
  induction p with
  | nil => simp [ownStore] at h
  | cons x xs ih =>
    simp only [ownStore] at h
    split at h
    · rename_i w hw
      obtain ⟨e, he, h1, h2⟩ := ih (by rw [hw]; exact h)
      exact ⟨e, List.mem_cons_of_mem _ he, h1, h2⟩
    · split at h
      · exact ⟨x, List.mem_cons_self, ‹_›, by simpa using h⟩
      · exact absurd h (by simp)

/-- A location with no pending store has no own store. -/
theorem ownStore_none {p : List Store} {l : Loc} (h : ∀ e ∈ p, l ≠ .field e.field) : ownStore p l = none := by
  cases hv : ownStore p l with
  | none => rfl
  | some v =>
    obtain ⟨e, he, h1, -⟩ := ownStore_some hv
    exact absurd h1 (h e he)

/-! ### Loads -/

/-- With no early satisfaction a load returns the engine's own view (R50 (b)). -/
theorem loadValue_of_pick_zero {s : State} (h : s.ord.loadPick = 0) (l : Loc) : loadValue s l = ownView s l := by
  cases hv : ownStore s.ord.pending l <;> simp [loadValue, ownView, hv, h]

/-- With no older value of the location, a load returns the engine's own view whatever the memory system picks. -/
theorem loadValue_of_fresh {s : State} {l : Loc} (hs : ∀ o ∈ s.ord.stale, o.loc ≠ l)
    (hp : ∀ o ∈ s.ord.passed, o.loc ≠ l) : loadValue s l = ownView s l := by
  unfold loadValue ownView
  cases ownStore s.ord.pending l with
  | some v => rfl
  | none =>
    refine valueBack_of_none (fun o ho => ?_) _
    rcases List.mem_append.1 (List.mem_of_mem_take ho) with h | h
    · exact hs o h
    · exact hp o h

/-- The values that later loads may return, as one list: a load that is satisfied `n` stores back leaves the `n` newest, and
of the rest those of other locations. -/
theorem afterLoad_older (s : State) (l : Loc) :
    (afterLoad s l).ord.stale ++ (afterLoad s l).ord.passed
      = (s.ord.stale ++ s.ord.passed).take s.ord.loadPick
        ++ forget l ((s.ord.stale ++ s.ord.passed).drop s.ord.loadPick) := by
  simp only [afterLoad_ord, List.take_append, List.drop_append, forget_append]
  rcases Nat.le_total s.ord.loadPick s.ord.stale.length with h | h
  · simp [Nat.sub_eq_zero_of_le h]
  · simp [List.take_of_length_le h, List.drop_of_length_le h]

@[simp] theorem visible_afterLoad (s : State) (l l' : Loc) : visible (afterLoad s l) l' = visible s l' := by
  cases l' <;> rfl

@[simp] theorem ownView_afterLoad (s : State) (l l' : Loc) : ownView (afterLoad s l) l' = ownView s l' := by
  unfold ownView
  rw [visible_afterLoad]
  rfl

/-! ### Visible values -/

theorem visible_congr {s t : State} (hc : t.cfg = s.cfg) (hb : t.bus = s.bus) (hf : t.freeCtr = s.freeCtr) (l : Loc) :
    visible t l = visible s l := by
  cases l <;> simp [visible, hc, hb, hf]

theorem visible_field_congr {s t : State} (hc : t.cfg = s.cfg) (hm : t.bus.mem = s.bus.mem) (f : Field) :
    visible t (.field f) = visible s (.field f) := by
  simp [visible, hc, hm]

/-- A committed store's field shows what was stored. -/
theorem visible_commit_same {s : State} (hm : Memory.wf s.bus.mem = true) (e : Store) :
    visible (commit e s) (.field e.field) = fieldValue e.field e.val := by
  simp [visible, readField_writeField_same hm]

/-- A committed store leaves every other field. -/
theorem visible_commit_other {s : State} (h : parametersOk s.cfg = true) {e : Store} {f : Field} (hf : f ≠ e.field) :
    visible (commit e s) (.field f) = visible s (.field f) := by
  simp [visible, readField_writeField_other h (Ne.symm hf)]

@[simp] theorem visible_commit_dbStatus (e : Store) (s : State) :
    visible (commit e s) .dbStatus = visible s .dbStatus := rfl

/-! ### Committing pending stores -/

@[simp] theorem commitAll_cfg (es : List Store) (s : State) : (commitAll es s).cfg = s.cfg := by
  induction es generalizing s with
  | nil => rfl
  | cons e es ih => simp [commitAll, ih]

@[simp] theorem commitAll_eng (es : List Store) (s : State) : (commitAll es s).eng = s.eng := by
  induction es generalizing s with
  | nil => rfl
  | cons e es ih => simp [commitAll, ih]

@[simp] theorem commitAll_env (es : List Store) (s : State) : (commitAll es s).env = s.env := by
  induction es generalizing s with
  | nil => rfl
  | cons e es ih => simp [commitAll, ih]

@[simp] theorem commitAll_freeCtr (es : List Store) (s : State) : (commitAll es s).freeCtr = s.freeCtr := by
  induction es generalizing s with
  | nil => rfl
  | cons e es ih => simp [commitAll, ih]

@[simp] theorem commitAll_pending (es : List Store) (s : State) :
    (commitAll es s).ord.pending = s.ord.pending := by
  induction es generalizing s with
  | nil => rfl
  | cons e es ih => simp [commitAll, ih]

@[simp] theorem commitAll_loadPick (es : List Store) (s : State) :
    (commitAll es s).ord.loadPick = s.ord.loadPick := by
  induction es generalizing s with
  | nil => rfl
  | cons e es ih => simp [commitAll, ih]

@[simp] theorem commitAll_window (es : List Store) (s : State) : (commitAll es s).window = s.window := by
  induction es generalizing s with
  | nil => rfl
  | cons e es ih => simp [commitAll, ih]

@[simp] theorem commitAll_oversize (es : List Store) (s : State) :
    (commitAll es s).bus.oversize = s.bus.oversize := by
  induction es generalizing s with
  | nil => rfl
  | cons e es ih => simp [commitAll, ih]

@[simp] theorem commitAll_dbStatus (es : List Store) (s : State) :
    (commitAll es s).bus.dbStatus = s.bus.dbStatus := by
  induction es generalizing s with
  | nil => rfl
  | cons e es ih => simp [commitAll, ih]

@[simp] theorem commitAll_signals (es : List Store) (s : State) :
    (commitAll es s).bus.signals = s.bus.signals := by
  induction es generalizing s with
  | nil => rfl
  | cons e es ih => simp [commitAll, ih]

theorem commitAll_wf {es : List Store} {s : State} (h : Memory.wf s.bus.mem = true) :
    Memory.wf (commitAll es s).bus.mem = true := by
  induction es generalizing s with
  | nil => exact h
  | cons e es ih => exact ih (by simpa using Memory.wf_writeField h)

/-- A field none of the committed stores is to keeps its value. -/
theorem visible_commitAll_other {es : List Store} {s : State} (h : parametersOk s.cfg = true) {f : Field}
    (hf : ∀ e ∈ es, f ≠ e.field) : visible (commitAll es s) (.field f) = visible s (.field f) := by
  induction es generalizing s with
  | nil => rfl
  | cons e es ih =>
    rw [commitAll, ih (by simpa using h) (fun x hx => hf x (List.mem_cons_of_mem _ hx)),
      visible_commit_other h (hf e List.mem_cons_self)]

/-- After all stores of a list are committed, a field shows the newest of them, or what it showed before. -/
theorem visible_commitAll {es : List Store} {s : State} (h : parametersOk s.cfg = true)
    (hm : Memory.wf s.bus.mem = true) (f : Field) :
    visible (commitAll es s) (.field f)
      = (match ownStore es (.field f) with | some v => fieldValue f v | none => visible s (.field f)) := by
  induction es generalizing s with
  | nil => rfl
  | cons e es ih =>
    rw [commitAll, ih (by simpa using h) (by simpa using Memory.wf_writeField hm)]
    simp only [ownStore]
    cases ho : ownStore es (.field f) with
    | some v => rfl
    | none =>
      by_cases hf : f = e.field
      · subst hf
        simp [visible_commit_same hm]
      · have : Loc.field f ≠ .field e.field := by simpa using hf
        simp [this, visible_commit_other h hf]

/-- Committed stores to existing fields leave every byte outside the mailbox. -/
theorem read_commitAll_notMailbox {es : List Store} {s : State} (h : parametersOk s.cfg = true)
    (hes : ∀ e ∈ es, fieldExists s.cfg e.field) {a : Nat} (ha : ¬ inMailbox s.cfg a) :
    Memory.read (commitAll es s).bus.mem a = Memory.read s.bus.mem a := by
  induction es generalizing s with
  | nil => rfl
  | cons e es ih =>
    rw [commitAll, ih (by simpa using h) (fun x hx => by simpa using hes x (List.mem_cons_of_mem _ hx))
      (by simpa using ha)]
    exact read_writeField_notMailbox h (hes e List.mem_cons_self) _ _ ha

/-! ### Draining -/

/-- All a drain can do: nothing, or one pending store becomes visible, before which nothing to its field is pending. -/
theorem drain_cases (k : Nat) (s : State) :
    drain k s = s ∨
      ∃ p e q, s.ord.pending = p ++ e :: q ∧ (∀ x ∈ p, x.field ≠ e.field ∧ x.barriers ≤ e.barriers)
        ∧ drain k s = commit e { s with ord := { s.ord with pending := p ++ q } } := by
  unfold drain
  split
  · exact .inl rfl
  · rename_i e he
    split
    · rename_i hc
      obtain ⟨hk, hke⟩ := List.getElem?_eq_some_iff.1 he
      refine .inr ⟨s.ord.pending.take k, e, s.ord.pending.drop (k + 1), ?_, ?_, ?_⟩
      · subst hke
        rw [List.cons_getElem_drop_succ, List.take_append_drop]
      · intro x hx
        simpa [mayCommit] using List.all_eq_true.1 hc x hx
      · rw [List.eraseIdx_eq_take_drop_succ]
    · exact .inl rfl

@[simp] theorem drain_cfg (k : Nat) (s : State) : (drain k s).cfg = s.cfg := by
  rcases drain_cases k s with h | ⟨p, e, q, -, -, h⟩ <;> simp [h]

@[simp] theorem drain_eng (k : Nat) (s : State) : (drain k s).eng = s.eng := by
  rcases drain_cases k s with h | ⟨p, e, q, -, -, h⟩ <;> simp [h]

@[simp] theorem drain_env (k : Nat) (s : State) : (drain k s).env = s.env := by
  rcases drain_cases k s with h | ⟨p, e, q, -, -, h⟩ <;> simp [h]

@[simp] theorem drain_freeCtr (k : Nat) (s : State) : (drain k s).freeCtr = s.freeCtr := by
  rcases drain_cases k s with h | ⟨p, e, q, -, -, h⟩ <;> simp [h]

@[simp] theorem drain_window (k : Nat) (s : State) : (drain k s).window = s.window := by
  rcases drain_cases k s with h | ⟨p, e, q, -, -, h⟩ <;> simp [h]

/-- The oldest pending store always may become visible. -/
@[simp] theorem drain_zero_pending (s : State) : (drain 0 s).ord.pending = s.ord.pending.drop 1 := by
  unfold drain
  cases h : s.ord.pending with
  | nil => simp [h]
  | cons e es => simp [mayCommit]

/-- With nothing pending there is nothing to drain. -/
theorem drain_of_nil {s : State} (h : s.ord.pending = []) (k : Nat) : drain k s = s := by
  simp [drain, h]

/-- A store that a drain leaves pending was pending. -/
theorem mem_pending_of_drain {k : Nat} {s : State} {e : Store} (h : e ∈ (drain k s).ord.pending) :
    e ∈ s.ord.pending := by
  rcases drain_cases k s with hd | ⟨p, x, q, hp, -, hd⟩
  · rwa [hd] at h
  · rw [hd] at h
    simp only [commit_ord, ownLocation_pending, List.mem_append] at h
    rw [hp]
    rcases h with h | h <;> simp [h]

theorem drain_wf {k : Nat} {s : State} (h : Memory.wf s.bus.mem = true) :
    Memory.wf (drain k s).bus.mem = true := by
  rcases drain_cases k s with hd | ⟨p, e, q, -, -, hd⟩ <;> rw [hd]
  · exact h
  · simpa using Memory.wf_writeField h

/-! ### The doorbell -/

/-- The doorbell write of the engine (R109): every store a barrier has passed is visible, `busy` is set, one signal is
given. -/
theorem writeSignal_one (s : State) :
    writeSignal 1#32 s =
      (let s' := commitAll (s.ord.pending.filter (fun e => decide (1 ≤ e.barriers)))
        { s with ord := { s.ord with pending := s.ord.pending.filter (fun e => decide (e.barriers < 1)) } }
       { s' with
         bus :=
           { s'.bus with
             dbStatus := s'.bus.dbStatus ||| 1#32
             signals := s'.bus.signals + 1
             oversize := s'.bus.oversize || oversizeMessage s' }
         ord := ownLocation .dbStatus s'.ord }) := rfl

@[simp] theorem writeSignal_one_cfg (s : State) : (writeSignal 1#32 s).cfg = s.cfg := by
  simp [writeSignal_one]

@[simp] theorem writeSignal_one_eng (s : State) : (writeSignal 1#32 s).eng = s.eng := by
  simp [writeSignal_one]

@[simp] theorem writeSignal_one_env (s : State) : (writeSignal 1#32 s).env = s.env := by
  simp [writeSignal_one]

@[simp] theorem writeSignal_one_freeCtr (s : State) : (writeSignal 1#32 s).freeCtr = s.freeCtr := by
  simp [writeSignal_one]

@[simp] theorem writeSignal_one_window (s : State) : (writeSignal 1#32 s).window = s.window := by
  simp [writeSignal_one]

@[simp] theorem writeSignal_one_dbStatus (s : State) :
    (writeSignal 1#32 s).bus.dbStatus = s.bus.dbStatus ||| 1#32 := by
  simp [writeSignal_one]

@[simp] theorem writeSignal_one_signals (s : State) : (writeSignal 1#32 s).bus.signals = s.bus.signals + 1 := by
  simp [writeSignal_one]

theorem writeSignal_one_pending (s : State) :
    (writeSignal 1#32 s).ord.pending = s.ord.pending.filter (fun e => decide (e.barriers < 1)) := by
  simp [writeSignal_one]

theorem writeSignal_one_wf {s : State} (h : Memory.wf s.bus.mem = true) :
    Memory.wf (writeSignal 1#32 s).bus.mem = true := by
  simp only [writeSignal_one]
  exact commitAll_wf h

/-- A write with bit 0 clear has no effect (R19). -/
theorem writeSignal_zero (v : U32) (s : State) (h : v.getLsbD 0 = false) : writeSignal v s = s := by
  unfold writeSignal
  rw [h]
  rfl

theorem busyBit_or_one (w : U32) : busyBit (w ||| 1#32) = true := by
  simp [busyBit]

theorem busyBit_clear (w : U32) : busyBit (w &&& 0xFFFFFFFE#32) = false := by
  simp [busyBit]

/-! ### Completion -/

/-- All a completion can do (R196, 00_scope.md section 6): back to the host, to the copy-out or the advance of a chunk
loop, or out of the loop with the error. -/
theorem returnToCaller_cases (code : BitVec 3) (s : State) :
    (s.eng.cKind = .none ∧ returnToCaller code s = goto .rest s) ∨
    (s.eng.cKind ≠ .none ∧ code = codeOk ∧ s.eng.cKind = .read
      ∧ returnToCaller code s = { s with eng := { s.eng with cIdx := 0#32, pc := .fCopyOut } }) ∨
    (s.eng.cKind ≠ .none ∧ code = codeOk ∧ s.eng.cKind ≠ .read ∧ returnToCaller code s = goto .fAdv s) ∨
    (s.eng.cKind ≠ .none ∧ code ≠ codeOk
      ∧ returnToCaller code s = { s with eng := { s.eng with cKind := .none, pc := .rest } }) := by
  unfold returnToCaller
  by_cases h : code = codeOk <;> cases hk : s.eng.cKind <;> simp [h]

@[simp] theorem returnToCaller_cfg (code : BitVec 3) (s : State) : (returnToCaller code s).cfg = s.cfg := by
  rcases returnToCaller_cases code s with ⟨-, h⟩ | ⟨-, -, -, h⟩ | ⟨-, -, -, h⟩ | ⟨-, -, h⟩ <;> rw [h] <;> rfl

@[simp] theorem returnToCaller_bus (code : BitVec 3) (s : State) : (returnToCaller code s).bus = s.bus := by
  rcases returnToCaller_cases code s with ⟨-, h⟩ | ⟨-, -, -, h⟩ | ⟨-, -, -, h⟩ | ⟨-, -, h⟩ <;> rw [h] <;> rfl

@[simp] theorem returnToCaller_ord (code : BitVec 3) (s : State) : (returnToCaller code s).ord = s.ord := by
  rcases returnToCaller_cases code s with ⟨-, h⟩ | ⟨-, -, -, h⟩ | ⟨-, -, -, h⟩ | ⟨-, -, h⟩ <;> rw [h] <;> rfl

@[simp] theorem returnToCaller_env (code : BitVec 3) (s : State) : (returnToCaller code s).env = s.env := by
  rcases returnToCaller_cases code s with ⟨-, h⟩ | ⟨-, -, -, h⟩ | ⟨-, -, -, h⟩ | ⟨-, -, h⟩ <;> rw [h] <;> rfl

@[simp] theorem returnToCaller_window (code : BitVec 3) (s : State) : (returnToCaller code s).window = s.window := by
  rcases returnToCaller_cases code s with ⟨-, h⟩ | ⟨-, -, -, h⟩ | ⟨-, -, -, h⟩ | ⟨-, -, h⟩ <;> rw [h] <;> rfl

@[simp] theorem returnToCaller_freeCtr (code : BitVec 3) (s : State) :
    (returnToCaller code s).freeCtr = s.freeCtr := by
  rcases returnToCaller_cases code s with ⟨-, h⟩ | ⟨-, -, -, h⟩ | ⟨-, -, -, h⟩ | ⟨-, -, h⟩ <;> rw [h] <;> rfl

section Complete

variable (code : BitVec 3) (r x : U32) (st : Byte) (v : Bool) (s : State)

@[simp] theorem complete_cfg : (complete code r x st v s).cfg = s.cfg := by simp [complete]

@[simp] theorem complete_bus : (complete code r x st v s).bus = s.bus := by simp [complete]

@[simp] theorem complete_ord : (complete code r x st v s).ord = s.ord := by simp [complete]

@[simp] theorem complete_env : (complete code r x st v s).env = s.env := by simp [complete]

@[simp] theorem complete_window : (complete code r x st v s).window
    = if code = codeOk then s.window else 0 := by simp [complete]

@[simp] theorem complete_freeCtr : (complete code r x st v s).freeCtr = s.freeCtr := by simp [complete]

end Complete

/-- A completion called by the host: `x[RES]`, the diagnostics record, `pc` and the payload window, nothing else (R196). -/
theorem complete_host {s : State} (h : s.eng.cKind = .none) (code : BitVec 3) (r x : U32) (st : Byte) (v : Bool) :
    complete code r x st v s =
      { s with
        eng :=
          { s.eng with
            res := code
            diag :=
              { kind := code, op := s.eng.op, arg0 := s.eng.arg0, arg1 := s.eng.arg1, req := r, exec := x
                status := st, valid := v }
            pc := .rest }
        window := if code = codeOk then s.window else 0 } := by
  simp [complete, returnToCaller, h, goto]

end Sys2Proof.Machine
end

