-- ==== Sys2Proof/Laws/Environment.lean ====
section
/-! SUPPORT. What an environment step can change, and what it cannot: never the parameters or an engine-private register
(R33), never the message header the requester owns (R171). -/

namespace Sys2Proof.Machine

open Sys2Proof

/-! ### The coprocessor -/

/-- All a responder step does to the shared state (R172). -/
theorem scpEffect_cases (m : ScpMove) (s : State) :
    (∃ f v, (f = .execId ∨ f = .status ∨ ∃ i, f = .payload i ∧ i < s.cfg.payloadCap) ∧ scpEffect m s = scpStore f v s)
    ∨ scpEffect m s = scpClearBusy s
    ∨ (∃ k v, m = .writePast k v ∧ s.bus.oversize = true ∧ bufferClear s.cfg (pastAddr s.cfg k) 1 = true
        ∧ scpEffect m s = writeOwn (pastAddr s.cfg k) v s)
    ∨ (∃ w n k, scpEffect m s =
        { s with bus := { s.bus with signals := n }, env := { s.env with scpSeen := w }, freeCtr := k }
        ∧ n ≤ s.bus.signals) := by
  cases m with
  | writeExec v => exact .inl ⟨.execId, v, .inl rfl, rfl⟩
  | writeStatus v => exact .inl ⟨.status, zextByte v, .inr (.inl rfl), rfl⟩
  | writePayload i v =>
    by_cases h : i < s.cfg.payloadCap
    · exact .inl ⟨.payload i, zextByte v, .inr (.inr ⟨i, rfl, h⟩), by simp [scpEffect, h]⟩
    · exact .inr (.inr (.inr ⟨s.env.scpSeen, s.bus.signals, s.freeCtr, by simp [scpEffect, h], le_rfl⟩))
  | clearBusy => exact .inr (.inl rfl)
  | writePast k v =>
    by_cases h : s.bus.oversize = true ∧ bufferClear s.cfg (pastAddr s.cfg k) 1 = true
    · exact .inr (.inr (.inl ⟨k, v, rfl, h.1, h.2, by simp [scpEffect, h]⟩))
    · refine .inr (.inr (.inr ⟨s.env.scpSeen, s.bus.signals, s.freeCtr, ?_, le_rfl⟩))
      simp only [scpEffect, Bool.and_eq_true, h, if_false]
  | read l =>
    by_cases h : locExists s.cfg l = true
    · exact .inr (.inr (.inr ⟨visible s l, s.bus.signals, s.freeCtr + 1, by simp [scpEffect, h], le_rfl⟩))
    · exact .inr (.inr (.inr ⟨s.env.scpSeen, s.bus.signals, s.freeCtr, by simp [scpEffect, h], le_rfl⟩))
  | observe => exact .inr (.inr (.inr ⟨s.env.scpSeen, s.bus.signals - 1, s.freeCtr, rfl, Nat.sub_le _ _⟩))
  | nothing => exact .inr (.inr (.inr ⟨s.env.scpSeen, s.bus.signals, s.freeCtr, rfl, le_rfl⟩))

@[simp] theorem scpMove_cfg (m : ScpMove) (s : State) : (scpMove m s).cfg = s.cfg := by
  rcases scpEffect_cases m s with ⟨f, v, -, h⟩ | h | ⟨i, b, -, -, -, h⟩ | ⟨w, n, k, h, -⟩ <;> simp [scpMove, h]

@[simp] theorem scpMove_eng (m : ScpMove) (s : State) : (scpMove m s).eng = s.eng := by
  rcases scpEffect_cases m s with ⟨f, v, -, h⟩ | h | ⟨i, b, -, -, -, h⟩ | ⟨w, n, k, h, -⟩ <;> simp [scpMove, h]

@[simp] theorem scpMove_pending (m : ScpMove) (s : State) : (scpMove m s).ord.pending = s.ord.pending := by
  rcases scpEffect_cases m s with ⟨f, v, -, h⟩ | h | ⟨i, b, -, -, -, h⟩ | ⟨w, n, k, h, -⟩ <;> simp [scpMove, h]

@[simp] theorem scpMove_sched (m : ScpMove) (s : State) : (scpMove m s).env.sched = s.env.sched := by
  rcases scpEffect_cases m s with ⟨f, v, -, h⟩ | h | ⟨i, b, -, -, -, h⟩ | ⟨w, n, k, h, -⟩ <;> simp [scpMove, h]

@[simp] theorem scpMove_offers (m : ScpMove) (s : State) : (scpMove m s).env.offers = s.env.offers := by
  rcases scpEffect_cases m s with ⟨f, v, -, h⟩ | h | ⟨i, b, -, -, -, h⟩ | ⟨w, n, k, h, -⟩ <;> simp [scpMove, h]

@[simp] theorem scpMove_now (m : ScpMove) (s : State) : (scpMove m s).env.now = s.env.now := by
  rcases scpEffect_cases m s with ⟨f, v, -, h⟩ | h | ⟨i, b, -, -, -, h⟩ | ⟨w, n, k, h, -⟩ <;> simp [scpMove, h]

theorem scpMove_signals_le (m : ScpMove) (s : State) : (scpMove m s).bus.signals ≤ s.bus.signals := by
  rcases scpEffect_cases m s with ⟨f, v, -, h⟩ | h | ⟨i, b, -, -, -, h⟩ | ⟨w, n, k, h, hn⟩ <;> simp [scpMove, h]
  exact hn

theorem scpMove_wf {m : ScpMove} {s : State} (hm : Memory.wf s.bus.mem = true) :
    Memory.wf (scpMove m s).bus.mem = true := by
  rcases scpEffect_cases m s with ⟨f, v, -, h⟩ | h | ⟨i, b, -, -, -, h⟩ | ⟨w, n, k, h, -⟩ <;> simp only [scpMove, h]
  · exact Memory.wf_writeField hm
  · exact hm
  · exact Memory.wf_write hm
  · exact hm

/-- The coprocessor never sets `busy` (R20, R171). -/
theorem scpMove_busy {m : ScpMove} {s : State} (h : busyBit s.bus.dbStatus = false) :
    busyBit (scpMove m s).bus.dbStatus = false := by
  rcases scpEffect_cases m s with ⟨f, v, -, he⟩ | he | ⟨i, b, -, -, -, he⟩ | ⟨w, n, k, he, -⟩ <;> simp only [scpMove, he]
  · exact h
  · exact busyBit_clear _
  · exact h
  · exact h

/-! ### Every environment step -/

@[simp] theorem clkMove_cfg (n : Nat) (s : State) : (clkMove n s).cfg = s.cfg := by unfold clkMove; split <;> rfl

@[simp] theorem clkMove_eng (n : Nat) (s : State) : (clkMove n s).eng = s.eng := by unfold clkMove; split <;> rfl

@[simp] theorem clkMove_bus (n : Nat) (s : State) : (clkMove n s).bus = s.bus := by unfold clkMove; split <;> rfl

@[simp] theorem clkMove_ord (n : Nat) (s : State) : (clkMove n s).ord = s.ord := by unfold clkMove; split <;> rfl

@[simp] theorem clkMove_sched (n : Nat) (s : State) : (clkMove n s).env.sched = s.env.sched := by
  unfold clkMove; split <;> rfl

/-- The clock never decreases (R201). -/
theorem clkMove_now_le (n : Nat) (s : State) : s.env.now.toNat ≤ (clkMove n s).env.now.toNat := by
  unfold clkMove
  split
  · rename_i h
    simp only [BitVec.toNat_add, BitVec.toNat_ofNat]
    have hn : n % 2 ^ 64 = n := Nat.mod_eq_of_lt (by omega)
    rw [hn, Nat.mod_eq_of_lt h]
    omega
  · exact le_rfl

/-- All a caller's move does: a payload store of the requester, a payload load (of a free value where the window does not
hold the byte), a byte of its own memory, or nothing. -/
theorem hostMove_cases (m : HostMove) (s : State) :
    hostMove m s = s ∨ (s.eng.pc = .rest ∧
      ((∃ i v, i < s.cfg.payloadCap ∧ hostMove m s = storeField (.payload i) (zextByte v) s)
      ∨ (∃ i v k, hostMove m s =
          { afterLoad s (.field (.payload i)) with env := { s.env with hostSeen := v }, freeCtr := k })
      ∨ (∃ a v, ¬ inMailbox s.cfg a ∧ hostMove m s = writeOwn a v s))) := by
  by_cases hr : s.eng.pc = .rest
  · cases m with
    | writePayload i v =>
      by_cases h : i < s.cfg.payloadCap
      · exact .inr ⟨hr, .inl ⟨i, v, h, by simp [hostMove, hostEffect, hr, h]⟩⟩
      · exact .inl (by simp [hostMove, hostEffect, h])
    | readPayload i =>
      by_cases h : i < s.cfg.payloadCap
      · by_cases hw : i < s.window
        · exact .inr ⟨hr, .inr (.inl ⟨i, lowByte (loadValue s (.field (.payload i))), s.freeCtr,
            by simp [hostMove, hostEffect, hr, h, hw, afterLoad]⟩)⟩
        · exact .inr ⟨hr, .inr (.inl ⟨i, Config.freeByte s.freeCtr, s.freeCtr + 1,
            by simp [hostMove, hostEffect, hr, h, hw]⟩)⟩
      · exact .inl (by simp [hostMove, hostEffect, h])
    | writeOwn a v =>
      by_cases h : bufferClear s.cfg a 1 = true
      · exact .inr ⟨hr, .inr (.inr ⟨a, v, bufferClear_notMailbox h le_rfl (by omega), by simp [hostMove, hostEffect, hr, h]⟩)⟩
      · exact .inl (by simp [hostMove, hostEffect, h])
  · exact .inl (by simp [hostMove, hr])

@[simp] theorem hostMove_cfg (m : HostMove) (s : State) : (hostMove m s).cfg = s.cfg := by
  rcases hostMove_cases m s with h | ⟨-, ⟨i, v, -, h⟩ | ⟨i, v, k, h⟩ | ⟨a, v, -, h⟩⟩ <;> simp [h]

@[simp] theorem hostMove_eng (m : HostMove) (s : State) : (hostMove m s).eng = s.eng := by
  rcases hostMove_cases m s with h | ⟨-, ⟨i, v, -, h⟩ | ⟨i, v, k, h⟩ | ⟨a, v, -, h⟩⟩ <;> simp [h]

@[simp] theorem hostMove_sched (m : HostMove) (s : State) : (hostMove m s).env.sched = s.env.sched := by
  rcases hostMove_cases m s with h | ⟨-, ⟨i, v, -, h⟩ | ⟨i, v, k, h⟩ | ⟨a, v, -, h⟩⟩ <;> simp [h]

@[simp] theorem hostMove_now (m : HostMove) (s : State) : (hostMove m s).env.now = s.env.now := by
  rcases hostMove_cases m s with h | ⟨-, ⟨i, v, -, h⟩ | ⟨i, v, k, h⟩ | ⟨a, v, -, h⟩⟩ <;> simp [h]

@[simp] theorem hostMove_dbStatus (m : HostMove) (s : State) : (hostMove m s).bus.dbStatus = s.bus.dbStatus := by
  rcases hostMove_cases m s with h | ⟨-, ⟨i, v, -, h⟩ | ⟨i, v, k, h⟩ | ⟨a, v, -, h⟩⟩ <;> simp [h]

@[simp] theorem hostMove_signals (m : HostMove) (s : State) : (hostMove m s).bus.signals = s.bus.signals := by
  rcases hostMove_cases m s with h | ⟨-, ⟨i, v, -, h⟩ | ⟨i, v, k, h⟩ | ⟨a, v, -, h⟩⟩ <;> simp [h]

theorem hostMove_wf {m : HostMove} {s : State} (hm : Memory.wf s.bus.mem = true) :
    Memory.wf (hostMove m s).bus.mem = true := by
  rcases hostMove_cases m s with h | ⟨-, ⟨i, v, -, h⟩ | ⟨i, v, k, h⟩ | ⟨a, v, -, h⟩⟩ <;> rw [h]
  · exact hm
  · exact hm
  · exact hm
  · exact Memory.wf_write hm

/-- A busy bit survives a change of bits 31:1 (R20, U7). -/
theorem busyBit_statusHi (v : BitVec 31) (w : U32) : busyBit (v ++ w.extractLsb' 0 1 : BitVec 32) = busyBit w := by
  unfold busyBit
  rw [BitVec.getLsbD_append]
  simp

@[simp] theorem envMove_cfg (m : EnvMove) (s : State) : (envMove m s).cfg = s.cfg := by
  cases m <;> simp [envMove, statusHiMove]

@[simp] theorem envMove_eng (m : EnvMove) (s : State) : (envMove m s).eng = s.eng := by
  cases m <;> simp [envMove, statusHiMove]

@[simp] theorem envMove_sched (m : EnvMove) (s : State) : (envMove m s).env.sched = s.env.sched := by
  cases m <;> simp [envMove, statusHiMove]

theorem envMove_now_le (m : EnvMove) (s : State) : s.env.now.toNat ≤ (envMove m s).env.now.toNat := by
  cases m with
  | clk n => exact clkMove_now_le n s
  | _ => simp [envMove, statusHiMove]

theorem envMove_wf {m : EnvMove} {s : State} (hm : Memory.wf s.bus.mem = true) :
    Memory.wf (envMove m s).bus.mem = true := by
  cases m with
  | scp m => exact scpMove_wf hm
  | clk n => simpa [envMove] using hm
  | drain k => exact drain_wf hm
  | early n => exact hm
  | statusHi v => exact hm
  | host m => exact hostMove_wf hm

/-- Induction over a batch of environment steps: what every step keeps, a batch keeps. -/
theorem envMoves_induction {P : State → Prop} (h : ∀ m s, P s → P (envMove m s)) (ms : List EnvMove) {s : State}
    (hs : P s) : P (envMoves ms s) := by
  induction ms generalizing s with
  | nil => exact hs
  | cons m ms ih => exact ih (h m s hs)

@[simp] theorem envMoves_cfg (ms : List EnvMove) (s : State) : (envMoves ms s).cfg = s.cfg :=
  envMoves_induction (P := fun t => t.cfg = s.cfg) (fun m t h => by simpa using h) ms rfl

@[simp] theorem envMoves_eng (ms : List EnvMove) (s : State) : (envMoves ms s).eng = s.eng :=
  envMoves_induction (P := fun t => t.eng = s.eng) (fun m t h => by simpa using h) ms rfl

@[simp] theorem envMoves_sched (ms : List EnvMove) (s : State) : (envMoves ms s).env.sched = s.env.sched :=
  envMoves_induction (P := fun t => t.env.sched = s.env.sched) (fun m t h => by simpa using h) ms rfl

@[simp] theorem fairTurn_cfg (s : State) : (fairTurn s).cfg = s.cfg := by
  unfold fairTurn; split <;> simp

@[simp] theorem fairTurn_eng (s : State) : (fairTurn s).eng = s.eng := by
  unfold fairTurn; split <;> simp

@[simp] theorem fairTurn_sched (s : State) : (fairTurn s).env.sched = s.env.sched := by
  unfold fairTurn; split <;> simp

/-- A turn with the schedule used up is a batch of environment steps too. -/
theorem fairTurn_eq_envMoves (s : State) : ∃ ms, fairTurn s = envMoves ms s := by
  unfold fairTurn
  split
  · exact ⟨[.drain 0, .clk 1], rfl⟩
  · exact ⟨[.clk (ticksToDeadline s)], rfl⟩

theorem clkMove_zero (s : State) : clkMove 0 s = s := by
  unfold clkMove
  split
  · simp
  · rfl

/-- Induction over the environment's turn: what every step keeps, and taking a batch off the schedule keeps, a turn keeps. -/
theorem envTurn_induction {P : State → Prop} (h : ∀ m s, P s → P (envMove m s))
    (hs : ∀ s bs, P s → P { s with env := { s.env with sched := bs } }) {s : State} (h0 : P s) : P (envTurn s) := by
  unfold envTurn
  split
  · obtain ⟨ms, hm⟩ := fairTurn_eq_envMoves s; rw [hm]; exact envMoves_induction h ms h0
  · exact envMoves_induction h _ (hs s _ h0)

/-- The deadline is a matter of `POLL` alone. -/
theorem ticksToDeadline_of_pc {s : State} (h : s.eng.pc ≠ .poll) : ticksToDeadline s = 0 := by
  simp [ticksToDeadline, h]

/-- Inside an operation but for `POLL` a turn with the schedule used up changes nothing. -/
theorem envTurn_of_nil {s : State} (hs : s.env.sched = []) (hp : s.eng.pc ≠ .poll) (hr : s.eng.pc ≠ .rest) :
    envTurn s = s := by
  simp [envTurn, fairTurn, hs, hr, ticksToDeadline_of_pc hp, clkMove_zero]

/-- At `REST` with the schedule used up a turn makes the oldest pending store visible and advances the clock (R50 (e), R201). -/
theorem envTurn_at_rest {s : State} (hs : s.env.sched = []) (hr : s.eng.pc = .rest) :
    envTurn s = clkMove 1 (drain 0 s) := by
  simp [envTurn, fairTurn, hs, hr]

/-- At `REST` with the schedule used up and nothing pending a turn only advances the clock. -/
theorem envTurn_of_settled {s : State} (hs : s.env.sched = []) (hr : s.eng.pc = .rest) (hp : s.ord.pending = []) :
    envTurn s = clkMove 1 s := by
  rw [envTurn_at_rest hs hr, drain_of_nil hp]

@[simp] theorem envTurn_cfg (s : State) : (envTurn s).cfg = s.cfg := by
  unfold envTurn; split <;> simp

@[simp] theorem envTurn_eng (s : State) : (envTurn s).eng = s.eng := by
  unfold envTurn; split <;> simp

/-- A turn takes one batch off the schedule. -/
@[simp] theorem envTurn_sched (s : State) : (envTurn s).env.sched = s.env.sched.tail := by
  unfold envTurn
  split
  · rename_i h; simp [h]
  · rename_i h; simp [h]

/-- A turn with an empty batch only takes it off. -/
theorem envTurn_of_quiet {s : State} {bs : List (List EnvMove)} (h : s.env.sched = [] :: bs) :
    envTurn s = { s with env := { s.env with sched := bs } } := by
  simp [envTurn, h, envMoves]

theorem envTurn_wf {s : State} (hm : Memory.wf s.bus.mem = true) : Memory.wf (envTurn s).bus.mem = true :=
  envTurn_induction (P := fun t => Memory.wf t.bus.mem = true) (fun _ _ h => envMove_wf h) (fun _ _ h => h) hm

theorem envTurn_now_le (s : State) : s.env.now.toNat ≤ (envTurn s).env.now.toNat :=
  envTurn_induction (P := fun t => s.env.now.toNat ≤ t.env.now.toNat)
    (fun m t h => le_trans h (envMove_now_le m t)) (fun _ _ h => h) le_rfl

end Sys2Proof.Machine
end

