-- ==== Sys2Proof/Laws/Sequencer.lean ====
section
/-! SUPPORT. The sequencer: what every requester step keeps, and how claims about one step become claims about a run and
about a host operation. -/

namespace Sys2Proof.Machine

open Sys2Proof

/-! ### One requester step -/

@[simp] theorem raiseInvalidOperation_cfg (s : State) : (raiseInvalidOperation s).cfg = s.cfg := by
  simp [raiseInvalidOperation]

@[simp] theorem sampleRead_cfg (s : State) : (sampleRead s).cfg = s.cfg := by
  unfold sampleRead; split <;> rfl

@[simp] theorem sampleRead_bus (s : State) : (sampleRead s).bus = s.bus := by
  unfold sampleRead; split <;> rfl

@[simp] theorem sampleRead_env (s : State) : (sampleRead s).env = s.env := by
  unfold sampleRead; split <;> rfl

@[simp] theorem sampleRead_freeCtr (s : State) : (sampleRead s).freeCtr = s.freeCtr := by
  unfold sampleRead; split <;> rfl

@[simp] theorem sampleRead_pending (s : State) : (sampleRead s).ord.pending = s.ord.pending := by
  unfold sampleRead; split <;> rfl

/-- A sample read changes `sampleAt` and the sample registers only. -/
theorem sampleRead_eng (s : State) :
    ∃ a x, (sampleRead s).eng = { s.eng with sampleAt := a, sample := x } := by
  unfold sampleRead
  split
  · exact ⟨_, _, rfl⟩
  · exact ⟨_, _, rfl⟩
  · exact ⟨_, _, rfl⟩
  · exact ⟨_, _, rfl⟩
  · exact ⟨.rdBusy, s.eng.sample, rfl⟩

@[simp] theorem copyNext_cfg (p : Pc) (s : State) : (copyNext p s).cfg = s.cfg := by
  unfold copyNext; split <;> rfl

@[simp] theorem copyNext_bus (p : Pc) (s : State) : (copyNext p s).bus = s.bus := by
  unfold copyNext; split <;> rfl

@[simp] theorem copyNext_ord (p : Pc) (s : State) : (copyNext p s).ord = s.ord := by
  unfold copyNext; split <;> rfl

@[simp] theorem copyNext_env (p : Pc) (s : State) : (copyNext p s).env = s.env := by
  unfold copyNext; split <;> rfl

@[simp] theorem copyNext_freeCtr (p : Pc) (s : State) : (copyNext p s).freeCtr = s.freeCtr := by
  unfold copyNext; split <;> rfl

/-- No requester step moves the clock, takes a call, or touches the schedule (R201). -/
@[simp] theorem engineStep_env (s : State) : (engineStep s).env = s.env := by
  unfold engineStep
  split
  · rfl
  · unfold stepV; split <;> simp [raiseInvalidOperation]
  · unfold stepC
    split
    · dsimp only; split <;> simp [raiseChannelBusy]
    all_goals simp
  · rfl
  · unfold stepWA0; split <;> rfl
  · unfold stepWA1; split <;> rfl
  · rfl
  · rfl
  · simp [stepRing]
  · rfl
  · unfold stepPoll
    split
    · dsimp only; split <;> simp
    · split <;> simp [raiseTimeout]
    all_goals simp
  · rfl
  · rfl
  · unfold stepResolve; split <;> simp [returnOk, raiseFault]
  · rfl
  · unfold stepFTest; split <;> rfl
  · rfl
  · simp [stepFCopyIn]
  · rfl
  · simp [stepFCopyOut]
  · rfl

@[simp] theorem tick_sched (s : State) : (tick s).env.sched = s.env.sched.tail := by
  simp [tick]

theorem tick_now_le (s : State) : s.env.now.toNat ≤ (tick s).env.now.toNat := by
  simpa [tick] using envTurn_now_le s

/-! ### A run -/

theorem run_at_rest {s : State} (h : s.eng.pc = .rest) (n : Nat) : run n s = s := by
  cases n <;> simp [run, h]

theorem run_waiting {s : State} (h : waiting s = true) (n : Nat) : run n s = s := by
  cases n <;> simp [run, h]

theorem run_step {s : State} (hp : s.eng.pc ≠ .rest) (hw : waiting s = false) (n : Nat) :
    run (n + 1) s = run n (tick s) := by
  simp [run, hp, hw]

/-- The engine does not wait while moves are scheduled. -/
theorem waiting_of_sched {s : State} {b : List EnvMove} {bs : List (List EnvMove)} (h : s.env.sched = b :: bs) :
    waiting s = false := by
  simp [waiting, h]

/-- The engine waits in `POLL` only. -/
theorem waiting_of_pc {s : State} (h : s.eng.pc ≠ .poll) : waiting s = false := by
  simp [waiting, ticksToDeadline_of_pc h]

/-- A poll that waits would wrap the tick counter before its deadline (U20). -/
theorem waiting_iff (s : State) :
    waiting s = true ↔
      s.env.sched = [] ∧ 0 < ticksToDeadline s ∧ 2 ^ 64 ≤ s.env.now.toNat + ticksToDeadline s := by
  simp [waiting, and_assoc]

/-- Induction over a run: what every requester step that is not at `REST` keeps, a run keeps. -/
theorem run_induction {P : State → Prop} (h : ∀ s, P s → s.eng.pc ≠ .rest → P (tick s)) (n : Nat) {s : State}
    (hs : P s) : P (run n s) := by
  induction n generalizing s with
  | zero => exact hs
  | succ n ih =>
    unfold run
    split
    · exact hs
    · split
      · exact hs
      · exact ih (h s hs ‹_›)

/-! ### Host operations -/

/-- What a host operation answers, when it answers a next state. -/
theorem hostOperation_next {size : U32} {first : State → State} {s t : State}
    (h : hostOperation size first s = .next t) :
    parametersOk s.cfg = true ∧ s.eng.pc = .rest ∧ t = run (budget size s) (first (envTurn s)) := by
  unfold hostOperation at h
  split at h
  · split at h
    · exact ⟨‹_›, ‹_›, by simpa using h.symm⟩
    · exact absurd h (by simp)
  · exact absurd h (by simp)

/-- A host operation of an engine at `REST` on good parameters always answers a next state. -/
theorem hostOperation_of_rest {s : State} (hc : parametersOk s.cfg = true) (hr : s.eng.pc = .rest) (size : U32)
    (first : State → State) : hostOperation size first s = .next (run (budget size s) (first (envTurn s))) := by
  simp [hostOperation, hc, hr]

/-- A chunked operation on a clear buffer is the plain chunked operation. -/
theorem chunkedOn_of_clear {s : State} {k : ChunkKind} {addr : U32} {buf : U64} {size : U32}
    (h : bufferClear s.cfg buf.toNat size.toNat = true) :
    chunkedOn k addr buf size s = chunked k addr buf size s := by
  simp [chunkedOn, h]

/-- What a chunked operation on a buffer answers, when it answers a next state. -/
theorem chunkedOn_next {s t : State} {k : ChunkKind} {addr : U32} {buf : U64} {size : U32}
    (h : chunkedOn k addr buf size s = .next t) :
    bufferClear s.cfg buf.toNat size.toNat = true ∧ chunked k addr buf size s = .next t := by
  unfold chunkedOn at h
  split at h
  · exact absurd h (by simp)
  · rename_i hb
    have hp := (hostOperation_next h).1
    simp only [hp, Bool.true_and, Bool.not_eq_true', Bool.not_eq_false] at hb
    exact ⟨by simpa using hb, h⟩

/-- The three shapes of a meaning that answers a next state: how the operation started, and the run from there. -/
theorem exec_next {i : Instr} {s t : State} (h : exec i s = .next t) :
    parametersOk s.cfg = true ∧ s.eng.pc = .rest ∧
      ((∃ op x y, t = run (budget 0#32 s) (stepV (latch op x y (envTurn s))))
      ∨ (i = .scpBuf ∧ t = returnBuf (envTurn s))
      ∨ (∃ k addr buf size, (k = .erase ∨ ((k = .read ∨ k = .write) ∧ bufferClear s.cfg buf.toNat size.toNat = true))
          ∧ t = run (budget size s) (chunkInit k addr buf size (envTurn s)))) := by
  have tr : ∀ op x y, transact op x y s = .next t →
      parametersOk s.cfg = true ∧ s.eng.pc = .rest ∧ t = run (budget 0#32 s) (stepV (latch op x y (envTurn s))) :=
    fun op x y h => hostOperation_next h
  cases i with
  | scpBuf =>
    obtain ⟨h1, h2, h3⟩ := hostOperation_next h
    exact ⟨h1, h2, .inr (.inl ⟨rfl, by rw [h3, run_at_rest (by simpa using h2)]⟩)⟩
  | flashErase addr size =>
    obtain ⟨h1, h2, h3⟩ := hostOperation_next h
    exact ⟨h1, h2, .inr (.inr ⟨.erase, addr, 0#64, size, .inl rfl, h3⟩)⟩
  | flashRead addr dst size =>
    obtain ⟨hb, hc⟩ := chunkedOn_next h
    obtain ⟨h1, h2, h3⟩ := hostOperation_next hc
    exact ⟨h1, h2, .inr (.inr ⟨.read, addr, dst, size, .inr ⟨.inl rfl, hb⟩, h3⟩)⟩
  | flashWrite addr src size =>
    obtain ⟨hb, hc⟩ := chunkedOn_next h
    obtain ⟨h1, h2, h3⟩ := hostOperation_next hc
    exact ⟨h1, h2, .inr (.inr ⟨.write, addr, src, size, .inr ⟨.inr rfl, hb⟩, h3⟩)⟩
  | _ =>
    obtain ⟨h1, h2, h3⟩ := tr _ _ _ h
    exact ⟨h1, h2, .inl ⟨_, _, _, h3⟩⟩

end Sys2Proof.Machine
end

