-- ==== Sys2Proof/Tests/Slice0.lean ====
section
/-! SUPPORT. Tests against the spec's own vectors (95_test_vectors.md, named in each comment) and encodings, the smoke
tests of WellFormed and Decode, and for every obligation with premises a witness that meets them. -/

namespace Sys2Proof.Tests

open Sys2Proof Sys2Proof.Machine

/-! ### Small states and observations -/

/-- The state after an outcome; `s` where the machine stopped. -/
def after (o : Host.Outcome State Fault Refusal) (s : State) : State :=
  match o with
  | .next t => t
  | .fault _ => s
  | .refused _ => s

def isNext (o : Host.Outcome State Fault Refusal) : Bool :=
  match o with
  | .next _ => true
  | .fault _ => false
  | .refused _ => false

theorem eq_next_of_isNext {o : Host.Outcome State Fault Refusal} (s : State) (h : isNext o = true) :
    o = .next (after o s) := by
  cases o <;> simp_all [isNext, after]

/-- A state after reset with parameters `cfg` and memory bytes `mem`. -/
def start (cfg : Config) (mem : Memory) : State :=
  State.resetFrom cfg { State.blank cfg with bus := { mem := mem, dbStatus := 0#32, signals := 0, oversize := false } }

/-- Generation A after reset on an idle mailbox: both ids 0, `status` `'G'`. -/
def idleA : State := start Config.refA [(0x1011, 0x47#8)]

/-- Generation B after reset on an idle mailbox. -/
def idleB : State := { start Config.refB [(0x1011, 0x47#8)] with
  eng := { (State.blank Config.refB).eng with nextId := 0x80000001#32 } }

/-- Generation A with a clear mailbox: `status` 0, so the channel is busy. -/
def busyA : State := start Config.refA []

def withId (id : U32) (s : State) : State :=
  { s with eng := { s.eng with nextId := id } }

def withSched (sched : List (List EnvMove)) (s : State) : State :=
  { s with env := { s.env with sched := sched } }

def withOffers (bs : List Byte) (s : State) : State :=
  { s with env := { s.env with offers := bs } }

def atPc (p : Pc) (s : State) : State :=
  { s with eng := { s.eng with pc := p } }

/-- The call on `s`, and the state it ends in. -/
def call (i : Instr) (s : State) : State :=
  after (exec i s) s

/-- The 18 header bytes at `MBOX_BASE`, in address order. -/
def header (s : State) : List Nat :=
  (List.range 18).map (fun k => (Memory.read s.bus.mem (s.cfg.mboxBase + k)).toNat)

/-- The diagnostics record as 95_test_vectors.md writes it. -/
def record (s : State) : List Nat :=
  [s.eng.diag.kind.toNat, s.eng.diag.op.toNat, s.eng.diag.arg0.toNat, s.eng.diag.arg1.toNat, s.eng.diag.req.toNat,
    s.eng.diag.exec.toNat, s.eng.diag.status.toNat, if s.eng.diag.valid then 1 else 0]

/-- Mailbox bytes with `request_id = exec_id = id` (one byte each), argument bytes `p` (as left from earlier), `status`. -/
def mboxA (id exec status : Byte) (p : Byte) : Memory :=
  Memory.writeList [] 0x1000
    [id, 0#8, 0#8, 0#8, exec, 0#8, 0#8, 0#8, p, p, p, p, p, p, p, p, 0#8, status]

/-! ### WellFormed -/

/-- A row of generation A on an engine of generation B, and the reverse, is ill formed (R74, R86). -/
theorem test_wf_refuses_other_generation :
    (Instr.aErase 0#32 0#32).wf .b = false ∧ (Instr.aRead 0#32 0#32).wf .b = false
      ∧ (Instr.bLegacyV 0#32 0#32).wf .a = false ∧ (Instr.bLegacyV 0#32 0#32).wf .b = true := by decide

/-- A buffer that runs past the last 64-bit address is ill formed; one that ends there is not (log 8). -/
theorem test_wf_refuses_wrapping_buffer :
    (Instr.flashRead 0#32 0xFFFFFFFFFFFFFFFF#64 2#32).wf .a = false
      ∧ (Instr.flashWrite 0#32 0xFFFFFFFFFFFFFFFF#64 2#32).wf .b = false
      ∧ (Instr.flashRead 0#32 0xFFFFFFFFFFFFFFFF#64 1#32).wf .a = true := by decide

/-! ### Decoding: bytes written out from R73, R85, R41 -/

/-- The ten rows of generation A: ASCII codes of `R W E I M N T t L V`, then `arg0 = 0x00200000`, `arg1 = 4`. -/
theorem test_decode_rows_a :
    [0x52#8, 0x57#8, 0x45#8, 0x49#8, 0x4D#8, 0x4E#8, 0x54#8, 0x74#8, 0x4C#8, 0x56#8].map
        (fun b => decode .a [b, 0#8, 0#8, 0x20#8, 0#8, 4#8, 0#8, 0#8, 0#8])
      = [Instr.aRead, .aWrite, .aErase, .aLotId, .aMac, .aSerial, .aTraceOn, .aTraceOff, .aLegacyL, .aLegacyV].map
        (fun row => .ok (row 0x00200000#32 4#32, [])) := by decide +kernel

/-- The three rows of generation B: `R W V`. -/
theorem test_decode_rows_b :
    [0x52#8, 0x57#8, 0x56#8].map (fun b => decode .b [b, 0#8, 0#8, 0x20#8, 0#8, 4#8, 0#8, 0#8, 0#8, 0xEE#8])
      = [Instr.bRead, .bWrite, .bLegacyV].map (fun row => .ok (row 0x00200000#32 4#32, [0xEE#8])) := by
  decide +kernel

/-- The five host operations by kind number. -/
theorem test_decode_host_operations :
    decode .a [0#8, 0x72#8, 0x10#8, 0#8, 0#8, 0#8, 0x20#8, 0#8, 0#8, 0#8] = .ok (.scpCmd 0x72#8 0x10#32 0x20#32, [])
      ∧ decode .b [1#8, 1#8] = .ok (.scpBuf, [1#8])
      ∧ decode .a [2#8, 0#8, 0#8, 1#8, 0#8, 0#8, 0x10#8, 0#8, 0#8] = .ok (.flashErase 0x10000#32 0x1000#32, [])
      ∧ decode .a [3#8, 0#8, 0x10#8, 0#8, 0#8, 8#8, 7#8, 6#8, 5#8, 4#8, 3#8, 2#8, 1#8, 0xC4#8, 9#8, 0#8, 0#8]
        = .ok (.flashRead 0x1000#32 0x0102030405060708#64 2500#32, [])
      ∧ decode .b [4#8, 0#8, 3#8, 0#8, 0#8, 8#8, 7#8, 6#8, 5#8, 4#8, 3#8, 2#8, 1#8, 3#8, 0#8, 0#8, 0#8]
        = .ok (.flashWrite 0x300#32 0x0102030405060708#64 3#32, []) := by decide +kernel

/-- Section 2.3: bytes that are no row, in both generations and in B alone; bytes that end early. -/
theorem test_decode_refuses :
    decode .a [0x72#8, 1#8, 0#8, 0#8, 0#8, 2#8, 0#8, 0#8, 0#8, 7#8] = .error (.illegalOpByte 0x72#8 1#32 2#32 [7#8])
      ∧ decode .b [0x45#8, 1#8, 0#8, 0#8, 0#8, 2#8, 0#8, 0#8, 0#8] = .error (.illegalOpByte 0x45#8 1#32 2#32 [])
      ∧ decode .a [0x52#8, 1#8, 0#8] = .error .truncated ∧ decode .a [] = .error .truncated
      ∧ decode .a [3#8, 0#8, 0#8, 0#8, 0#8, 0#8] = .error .truncated ∧ decode .a [0#8] = .error .truncated := by
  decide +kernel

/-- The table's words of `A.t` (bits 0x74) and of `FLASH_READ` (kind 3), operands 0. -/
theorem test_decode_table_word :
    decodeTableWord 8 0x74 = some (.aTraceOff 0#32 0#32) ∧ decodeTableWord 8 3 = some (.flashRead 0#32 0#64 0#32)
      ∧ decodeTableWord 8 0x72 = none := by decide +kernel

/-- A placed word is what the next step runs: `A.N` right after reset, where the clear mailbox is busy (R222). -/
theorem test_fetch_word_runs :
    (after (step (State.reset.withFetchWord 8 0x4E)) State.reset).eng.diag.op = 0x4E#8
      ∧ (after (step (State.reset.withFetchWord 8 0x4E)) State.reset).eng.res = codeChannelBusy
      ∧ (after (step (State.reset.withFetchWord 8 0x4E)) State.reset).env.offers = [] := by decide +kernel

/-! ### The idle predicate and the status decode (sections 2.1, 2.2, 2.3) -/

/-- I1 to I12, from the words read. -/
theorem test_idle_vectors :
    [(0x0#32, 5#32, 5#32, 0x47#8), (0x0#32, 5#32, 5#32, 0x45#8), (0x1#32, 5#32, 5#32, 0x47#8),
      (0x0#32, 4#32, 5#32, 0x47#8), (0x0#32, 5#32, 5#32, 0x00#8), (0x0#32, 5#32, 5#32, 0x65#8),
      (0x0#32, 5#32, 5#32, 0x67#8), (0xFFFFFFFE#32, 5#32, 5#32, 0x47#8), (0x3#32, 5#32, 5#32, 0x47#8),
      (0x0#32, 0xFFFFFFFF#32, 0xFFFFFFFF#32, 0x47#8), (0x0#32, 0#32, 0#32, 0x45#8),
      (0x1#32, 4#32, 5#32, 0x58#8)].map
        (fun v => idle { busy := busyBit v.1, exec := v.2.1, req := v.2.2.1, st := v.2.2.2 })
      = [true, true, false, false, false, false, false, true, false, true, true, false] := by decide +kernel

/-- Section 2.2: the result by the byte read at `RD_ST`. -/
theorem test_status_decode :
    [0x47#8, 0x45#8, 0x00#8, 0x46#8, 0xFF#8].map
        (fun b => ((stepResolve { idleA with eng := { idleA.eng with rdSt := b } }).eng.res,
          (stepResolve { idleA with eng := { idleA.eng with rdSt := b } }).eng.diag.status))
      = [(codeOk, 0x47#8), (codeFault, 0x45#8), (codeFault, 0x00#8), (codeFault, 0x46#8), (codeFault, 0xFF#8)] := by
  decide +kernel

/-- Section 2.3, in the table's order. -/
theorem test_opcode_recognition :
    [0x52#8, 0x57#8, 0x45#8, 0x49#8, 0x4D#8, 0x4E#8, 0x54#8, 0x74#8, 0x4C#8, 0x56#8, 0x72#8, 0x77#8, 0x47#8, 0x00#8,
      0xFF#8, 0x53#8].map (fun b => (recognised .a b, recognised .b b))
      = [(true, true), (true, true), (true, false), (true, false), (true, false), (true, false), (true, false),
        (true, false), (true, false), (true, true), (false, false), (false, false), (false, false), (false, false),
        (false, false), (false, false)] := by decide +kernel

/-! ### The header after the write phase (section 2.4): nothing but the clock moved after it -/

theorem test_header_A_R : header (call (.aRead 0x00100000#32 0x100#32) idleA)
    = [1, 0, 0, 0, 0, 0, 0, 0, 0, 0, 0x10, 0, 0, 1, 0, 0, 0x52, 0x47] := by decide +kernel

theorem test_header_A_W : header (call (.aWrite 0x00200000#32 4#32) (withId 7#32 idleA))
    = [7, 0, 0, 0, 0, 0, 0, 0, 0, 0, 0x20, 0, 4, 0, 0, 0, 0x57, 0x47] := by decide +kernel

theorem test_header_A_E : header (call (.aErase 0x00010000#32 0x400#32) (withId 2#32 idleA))
    = [2, 0, 0, 0, 0, 0, 0, 0, 0, 0, 1, 0, 0, 4, 0, 0, 0x45, 0x47] := by decide +kernel

/-- The five rows without arguments keep the previous argument bytes, here 0xAA. -/
theorem test_header_A_plain :
    [(Instr.aLotId, 3#32), (.aMac, 4#32), (.aSerial, 5#32), (.aTraceOn, 6#32), (.aTraceOff, 7#32)].map
        (fun r => header (call (r.1 0#32 0#32) (withId r.2 (start Config.refA (mboxA 0#8 0#8 0x47#8 0xAA#8)))))
      = [(3, 0x49), (4, 0x4D), (5, 0x4E), (6, 0x54), (7, 0x74)].map
        (fun r => [r.1, 0, 0, 0, 0, 0, 0, 0, 0xAA, 0xAA, 0xAA, 0xAA, 0xAA, 0xAA, 0xAA, 0xAA, r.2, 0x47]) := by
  decide +kernel

theorem test_header_A_L : header (call (.aLegacyL 0x11223344#32 0x55667788#32) (withId 8#32 idleA))
    = [8, 0, 0, 0, 0, 0, 0, 0, 0x44, 0x33, 0x22, 0x11, 0x88, 0x77, 0x66, 0x55, 0x4C, 0x47] := by decide +kernel

theorem test_header_A_V : header (call (.aLegacyV 1#32 2#32) (withId 9#32 idleA))
    = [9, 0, 0, 0, 0, 0, 0, 0, 1, 0, 0, 0, 2, 0, 0, 0, 0x56, 0x47] := by decide +kernel

theorem test_header_B_R : header (call (.bRead 0x00100000#32 0x100#32) idleB)
    = [0, 0, 0x10, 0, 0, 1, 0, 0, 1, 0, 0, 0x80, 0, 0, 0, 0, 0x52, 0x47] := by decide +kernel

theorem test_header_B_W : header (call (.bWrite 0x00200000#32 4#32) (withId 0x80000002#32 idleB))
    = [0, 0, 0x20, 0, 4, 0, 0, 0, 2, 0, 0, 0x80, 0, 0, 0, 0, 0x57, 0x47] := by decide +kernel

theorem test_header_B_V : header (call (.bLegacyV 1#32 2#32) (withId 0x80000003#32 idleB))
    = [1, 0, 0, 0, 2, 0, 0, 0, 3, 0, 0, 0x80, 0, 0, 0, 0, 0x56, 0x47] := by decide +kernel

/-! ### The transaction (section 2.5) -/

/-- T1 with the first four response bytes: result, record, id, header, payload, `busy`. -/
theorem test_T1_success :
    let t := call (.aRead 0x00100000#32 0x100#32)
      (withSched (answeredSched 1#32 [0#8, 1#8, 2#8, 3#8] 0x47#8) idleA)
    t.eng.res = 0#3 ∧ record t = [0, 0x52, 0x00100000, 0x100, 1, 1, 0x47, 1] ∧ t.eng.nextId = 2#32 ∧ t.eng.pc = .rest
      ∧ header t = [1, 0, 0, 0, 1, 0, 0, 0, 0, 0, 0x10, 0, 0, 1, 0, 0, 0x52, 0x47]
      ∧ payloadBytes t 4 = [0#8, 1#8, 2#8, 3#8] ∧ busyBit t.bus.dbStatus = false := by decide +kernel

/-- T2: an unrecognised op on a busy channel. -/
theorem test_T2_invalid_operation :
    let t := call (.scpCmd 0x72#8 0x10#32 0x20#32) (withId 9#32 busyA)
    t.eng.res = 1#3 ∧ t.eng.diag.kind = 1#3 ∧ t.eng.diag.op = 0x72#8 ∧ t.eng.diag.arg0 = 0x10#32
      ∧ t.eng.diag.arg1 = 0x20#32 ∧ t.eng.diag.valid = false ∧ t.eng.nextId = 9#32 ∧ t.bus = busyA.bus := by
  decide +kernel

/-- T3: the rows of generation A alone, on generation B. -/
theorem test_T3_generation_b_refuses :
    [Instr.aErase, .aLotId, .aMac, .aSerial, .aTraceOn, .aTraceOff, .aLegacyL].map
        (fun row => ((call (row 0#32 0#32) idleB).eng.res, (call (row 0#32 0#32) idleB).eng.diag.op))
      = [0x45#8, 0x49#8, 0x4D#8, 0x4E#8, 0x54#8, 0x74#8, 0x4C#8].map (fun b => (1#3, b)) := by decide +kernel

/-- T4a, T4b, T4c: one failing conjunct each. -/
theorem test_T4_channel_busy :
    [(1#32, 2#8, 0x47#8), (0#32, 1#8, 0x45#8), (0#32, 2#8, 0x58#8)].map (fun v =>
        record (call (.aErase 0x1000#32 0x400#32) (withId 3#32
          { start Config.refA (mboxA 2#8 v.2.1 v.2.2 0#8) with
            bus := { mem := mboxA 2#8 v.2.1 v.2.2 0#8, dbStatus := v.1, signals := 0, oversize := false } })))
      = [[2, 0x45, 0x1000, 0x400, 2, 2, 0x47, 1], [2, 0x45, 0x1000, 0x400, 2, 1, 0x45, 1],
        [2, 0x45, 0x1000, 0x400, 2, 2, 0x58, 1]] := by decide +kernel

/-- T5: operands of a row without arguments are recorded and not stored. -/
theorem test_T5_plain_row_keeps_arguments :
    let t := call (.aMac 0xDEADBEEF#32 0x12345678#32) (withId 5#32
      (withSched (answeredSched 5#32 [] 0x47#8) (start Config.refA (mboxA 4#8 4#8 0x47#8 0xAA#8))))
    record t = [0, 0x4D, 0xDEADBEEF, 0x12345678, 5, 5, 0x47, 1] ∧ t.eng.nextId = 6#32
      ∧ header t = [5, 0, 0, 0, 5, 0, 0, 0, 0xAA, 0xAA, 0xAA, 0xAA, 0xAA, 0xAA, 0xAA, 0xAA, 0x4D, 0x47] := by
  decide +kernel

/-- What T6 and T7 share: the coprocessor starts command 1 at the doorbell; five steps later, at the first deadline test,
`n` ticks have passed since `T0`. -/
def startedThen (n : Nat) (more : List (List EnvMove)) : State :=
  withSched (quiet 11 ++ [[.scp .observe, .scp (.writeExec 1#32), .scp (.writeStatus 0x45#8)]] ++ quiet 4
    ++ [[.clk n]] ++ more) idleA

/-- T6: 999999 ticks loop, so that a later answer is seen; 1000000 raise `Timeout`; no payload read, the message stays. -/
theorem test_T6_timeout_boundary :
    record (call (.aRead 0#32 16#32) (startedThen 999999 [[.scp (.writeStatus 0x47#8), .scp .clearBusy]]))
        = [0, 0x52, 0, 16, 1, 1, 0x47, 1]
      ∧ record (call (.aRead 0#32 16#32) (startedThen 1000000 [])) = [3, 0x52, 0, 16, 1, 1, 0x45, 1]
      ∧ header (call (.aRead 0#32 16#32) (startedThen 1000000 []))
        = [1, 0, 0, 0, 1, 0, 0, 0, 0, 0, 0, 0, 16, 0, 0, 0, 0x52, 0x45]
      ∧ busyBit (call (.aRead 0#32 16#32) (startedThen 1000000 [])).bus.dbStatus = true := by decide +kernel

/-- T7: the sample after the jump is idle, so no clock is read. -/
theorem test_T7_idle_wins :
    record (call (.aRead 0#32 16#32) (startedThen 999000
      [[.scp (.writeStatus 0x47#8), .scp .clearBusy, .clk 4000000]])) = [0, 0x52, 0, 16, 1, 1, 0x47, 1] := by
  decide +kernel

/-- T8: the command fails with `'E'`. -/
theorem test_T8_fault :
    let t := call (.aWrite 0x00200000#32 4#32) (withId 7#32
      (withSched (answeredSched 7#32 [] 0x45#8) (start Config.refA (mboxA 6#8 6#8 0x47#8 0#8))))
    record t = [4, 0x57, 0x00200000, 4, 7, 7, 0x45, 1] ∧ t.eng.nextId = 8#32 := by decide +kernel

/-- T9: an error marker, then the stuck channel. -/
theorem test_T9_marker :
    let t := call (.aErase 0#32 0x400#32)
      (withSched (quiet 12 ++ [answer 1#32 [] 0x58#8 ++ [.clk 1000000]]) idleA)
    record t = [3, 0x45, 0, 0x400, 1, 1, 0x58, 1]
      ∧ record (call (.aRead 0#32 1#32) t) = [2, 0x52, 0, 1, 1, 1, 0x58, 1]
      ∧ (call (.aRead 0#32 1#32) t).eng.nextId = 2#32 := by decide +kernel

/-- T10: the status changes between the idle sample and the re-read, both ways. -/
theorem test_T10_status_reread :
    [(0x45#8, 0x47#8), (0x47#8, 0x00#8)].map (fun v =>
        record (call (.aRead 0#32 1#32) (withId 3#32
          (withSched (answeredSched 3#32 [] v.1 ++ quiet 4 ++ [[.scp (.writeStatus v.2)]]) idleA))))
      = [[0, 0x52, 0, 1, 3, 3, 0x47, 1], [4, 0x52, 0, 1, 3, 3, 0x00, 1]] := by decide +kernel

/-- T12: the id wraps. -/
theorem test_T12_id_wraps :
    let s := { idleA with bus := { idleA.bus with
      mem := Memory.writeList [] 0x1000 [0xFE#8, 0xFF#8, 0xFF#8, 0xFF#8, 0xFE#8, 0xFF#8, 0xFF#8, 0xFF#8] ++ idleA.bus.mem } }
    let t := call (.aSerial 0#32 0#32)
      (withId 0xFFFFFFFF#32 (withSched (answeredSched 0xFFFFFFFF#32 [] 0x47#8) s))
    record t = [0, 0x4E, 0, 0, 0xFFFFFFFF, 0xFFFFFFFF, 0x47, 1] ∧ t.eng.nextId = 0#32 := by decide +kernel

/-- T13: with an aliased id a responder that clears `busy` first gets the stale status accepted. -/
theorem test_T13_aliasing :
    record (call (.aRead 0#32 16#32) (withSched (quiet 12 ++ [[.scp .clearBusy]])
      (start Config.refA (mboxA 1#8 1#8 0x47#8 0#8)))) = [0, 0x52, 0, 16, 1, 1, 0x47, 1] := by decide +kernel

/-- T14: the first command of generation B on a mailbox that is not idle. -/
theorem test_T14_first_command_busy :
    let t := call (.bLegacyV 0#32 0#32) { idleB with bus := { idleB.bus with
      mem := [(0x1008, 0x78#8), (0x1009, 0x56#8), (0x100A, 0x34#8), (0x100B, 0x12#8)] } }
    record t = [2, 0x56, 0, 0, 0x12345678, 0, 0, 1] ∧ t.eng.nextId = 0x80000001#32 := by decide +kernel

/-- T15: the payload address, in both generations. -/
theorem test_T15_scp_buf :
    (call .scpBuf idleA).env.retBuf = 0x1012 ∧ (call .scpBuf idleB).env.retBuf = 0x1012
      ∧ (call .scpBuf idleA).eng = idleA.eng := by decide +kernel

/-! ### The memory ordering (R50 to R53) -/

/-- Before the barrier the coprocessor can see the new id with the old op byte, "a half-written message" (R225): with the
operation stopped before `SB`, the youngest store drains alone. -/
theorem test_half_written_message :
    let s := ticks 9 (stepV (latch 0x52#8 1#32 2#32 idleA))
    s.eng.pc = .ring
      ∧ visible (drain 3 (ticks 8 (stepV (latch 0x52#8 1#32 2#32 idleA)))) (.field .requestId) = 1#32
      ∧ visible (drain 3 (ticks 8 (stepV (latch 0x52#8 1#32 2#32 idleA)))) (.field .op) = 0#32 := by decide +kernel

/-- A load may return a value from before a coprocessor store, and only a newer one after that (R50 (a)). -/
theorem test_stale_load :
    let s := envMoves [.scp (.writeStatus 1#8), .scp (.writeStatus 2#8), .early 2] idleA
    loadValue s (.field .status) = 0x47#32
      ∧ loadValue (envMove (.early 1) s) (.field .status) = 1#32
      ∧ loadValue (envMove (.early 2) (afterLoad (envMove (.early 1) s) (.field .status))) (.field .status)
        = 1#32 := by decide +kernel

/-- "Stale payload reads" (R53): the coprocessor stores a payload byte and then clears `busy`. A sample that sees `busy`
clear leaves the old byte possible until the load barrier; one that does not see it leaves it possible after it (R52). -/
theorem test_load_barrier :
    let s := envMoves [.scp (.writePayload 0 7#8), .scp .clearBusy] idleA
    let seen := afterLoad s .dbStatus
    let unseen := afterLoad (envMove (.early 2) s) .dbStatus
    loadValue (envMove (.early 2) seen) (.field (.payload 0)) = 0#32
      ∧ loadValue (envMove (.early 2) (loadBarrier seen)) (.field (.payload 0)) = 7#32
      ∧ loadValue (envMove (.early 2) (loadBarrier unseen)) (.field (.payload 0)) = 0#32 := by decide +kernel

/-! ### The payload window (R57, R227, U5) -/

/-- After a read of 2 bytes the caller reads them; a command that fails its check ends the window, and so does the first
store to the payload. -/
theorem test_payload_window :
    let t := call (.aRead 0#32 2#32) (withSched (answeredSched 1#32 [8#8, 9#8, 10#8] 0x47#8) idleA)
    t.window = 2 ∧ (envMove (.host (.readPayload 1)) t).env.hostSeen = 9#8
      ∧ (envMove (.host (.readPayload 1)) t).freeCtr = t.freeCtr
      ∧ (envMove (.host (.readPayload 2)) t).freeCtr = t.freeCtr + 1
      ∧ (call (.scpCmd 0x72#8 0#32 0#32) t).window = 0 ∧ (envMove (.host (.writePayload 5 0#8)) t).window = 0
      ∧ (envMove (.scp (.writePayload 5 0#8)) t).window = 0 := by decide +kernel

/-- The window opens at `LB`: a payload write before it leaves the response, one between it and `RESOLVE` ends the window. -/
theorem test_window_opens_at_lb :
    [3, 4].map (fun n => (call (.aRead 0#32 2#32) (withSched (answeredSched 1#32 [8#8, 9#8] 0x47#8 ++ quiet n
        ++ [[.scp (.writePayload 0 5#8)]]) idleA)).window) = [2, 0] := by decide +kernel

/-- Outside the window the byte is a free value, whatever memory holds (here: before any `OK`). -/
theorem test_payload_window_closed :
    (envMove (.host (.readPayload 0)) idleA).env.hostSeen = Config.freeByte idleA.freeCtr := rfl

/-! ### The conforming responder (R173) -/

/-- Clause 3, R130: `'G'` to a read of 2 bytes with one of them, with both, in either order; `'G'` to a write, and a failed read,
with none, and so for a read of no byte. -/
theorem test_response_before_good :
    [(0x52#8, 2#32, answer 1#32 [7#8] 0x47#8), (0x52#8, 2#32, answer 1#32 [7#8, 8#8] 0x47#8),
      (0x52#8, 2#32, refStart 1#32 ++ [.scp (.writePayload 1 8#8), .scp (.writePayload 0 7#8), .scp (.writeStatus 0x47#8),
        .scp .clearBusy]),
      (0x57#8, 2#32, answer 1#32 [] 0x47#8), (0x52#8, 2#32, answer 1#32 [] 0x45#8), (0x52#8, 0#32, answer 1#32 [] 0x47#8)].map
        (fun x => (call (.scpCmd x.1 0#32 x.2.1) (withSched (quiet 12 ++ [x.2.2]) idleA)).env.conform)
      = [false, true, true, true, true, true] := by decide +kernel

/-! ### The oversize command (R229, U3) -/

/-- The byte past the payload of `smallA`'s 3 bytes is 0x1015: written after a read of 4 bytes, not after one of 3. -/
theorem test_oversize_overrun :
    [3#32, 4#32].map (fun n =>
        let t := call (.aRead 0#32 n) (withSched (quiet 12 ++ [[.scp (.writePast 0 0xEE#8)]])
          (start { Config.refA with maxChunk := 2, payloadCap := 3 } [(0x1011, 0x47#8)]))
        (Memory.read t.bus.mem 0x1015, t.bus.oversize))
      = [(0#8, false), (0xEE#8, true)] := by decide +kernel

/-! ### The clock (R201) -/

/-- With nothing scheduled a poll ends at its deadline, and the clock goes on at `REST`, a tick before the call too. -/
theorem test_clock_goes_on :
    (call (.aRead 0#32 1#32) idleA).eng.res = codeTimeout ∧ (call (.aRead 0#32 1#32) idleA).env.now = 1000001#64
      ∧ (after (step idleA) idleA).env.now = 1#64 := by decide +kernel

/-! ### The chunked transport (section 2.6) -/

/-- Generation A with chunks of at most 2 bytes in a payload of 3. -/
def smallA (mem : Memory) : State :=
  start { Config.refA with maxChunk := 2, payloadCap := 3 } mem

/-- As P1, in small: three bytes in two chunks; the last record, the chunk registers, `dst`. -/
theorem test_P1_flash_read :
    let t := call (.flashRead 0x1000#32 0x3000#64 3#32)
      (withSched (chunkedSched .read 2 3 1#32 [0x10#8, 0x11#8, 0x12#8]) (smallA [(0x1011, 0x47#8)]))
    record t = [0, 0x52, 0x1002, 1, 2, 2, 0x47, 1] ∧ t.eng.nextId = 3#32 ∧ t.eng.cAddr = 0x1003#32
      ∧ t.eng.cCur = 3#32 ∧ t.eng.cKind = .none
      ∧ [0x2FFF, 0x3000, 0x3001, 0x3002, 0x3003].map (Memory.read t.bus.mem) = [0#8, 0x10#8, 0x11#8, 0x12#8, 0#8]
      ∧ payloadBytes t 3 = [0x12#8, 0x11#8, 0#8] := by decide +kernel

/-- As P2, in small: the second chunk of three fails; the payload holds its bytes, `src` is unchanged. -/
theorem test_P2_flash_write_fails :
    let s := smallA [(0x1011, 0x47#8), (0x3000, 5#8), (0x3001, 6#8), (0x3002, 7#8), (0x3003, 8#8), (0x3004, 9#8)]
    let t := call (.flashWrite 0x2000#32 0x3000#64 5#32) (withId 10#32
      (withSched ([[]] ++ quiet 17 ++ [answer 10#32 [] 0x47#8] ++ quiet 7 ++ quiet 17 ++ [answer 11#32 [] 0x45#8]) s))
    record t = [4, 0x57, 0x2002, 2, 11, 11, 0x45, 1] ∧ t.eng.nextId = 12#32 ∧ t.eng.cKind = .none
      ∧ payloadBytes t 2 = [7#8, 8#8]
      ∧ [0x3000, 0x3004].map (Memory.read t.bus.mem) = [5#8, 9#8] := by decide +kernel

/-- T17: no byte, on a busy channel, in generation B. -/
theorem test_T17_empty_operations :
    [Instr.flashErase 0x1000#32 0#32, .flashRead 0x1000#32 0x3000#64 0#32, .flashWrite 0x1000#32 0x3000#64 0#32].map
        (fun i => ((call i (start Config.refB [])).eng.res, (call i (start Config.refB [])).eng.diag,
          (call i (start Config.refB [])).bus))
      = List.replicate 3 (codeOk, (start Config.refB []).eng.diag, (start Config.refB []).bus) := by decide +kernel

/-- T18 and P5, for erase: the flash address and the id wrap between the two chunks. -/
theorem test_T18_wraps :
    let s := withId 0xFFFFFFFF#32 idleA
    let t := call (.flashErase 0xFFFFFC00#32 2048#32) (withSched (chunkedSched .erase 1024 2048 0xFFFFFFFF#32 []) s)
    record t = [0, 0x45, 0, 0x400, 0, 0, 0x47, 1] ∧ t.eng.nextId = 1#32 := by decide +kernel

/-- T19: the payload stores are issued before the busy check. -/
theorem test_T19_write_on_busy_channel :
    let s := { smallA [(0x1011, 0x47#8), (0x1012, 0x11#8), (0x1013, 0x22#8), (0x3000, 0xA5#8), (0x3001, 0x5A#8)] with
      bus := { mem := [(0x1011, 0x47#8), (0x1012, 0x11#8), (0x1013, 0x22#8), (0x3000, 0xA5#8), (0x3001, 0x5A#8)]
               dbStatus := 1#32, signals := 0, oversize := false } }
    let t := call (.flashWrite 0x5000#32 0x3000#64 2#32) s
    record t = [2, 0x57, 0x5000, 2, 0, 0, 0x47, 1] ∧ t.bus.signals = 0
      ∧ ownView t (.field (.payload 0)) = 0xA5#32 ∧ ownView t (.field (.payload 1)) = 0x5A#32
      ∧ payloadBytes (drain 0 (drain 0 t)) 2 = [0xA5#8, 0x5A#8] := by decide +kernel

/-- R50 (e): two payload stores left pending by a `ChannelBusy` become visible, one a step with nothing offered, or one at the
start of the next operation. -/
theorem test_pending_stores_become_visible :
    let t := call (.flashWrite 0x5000#32 0x3000#64 2#32) (smallA [(0x1012, 0x11#8), (0x3000, 0xA5#8), (0x3001, 0x5A#8)])
    t.eng.res = 2#3 ∧ t.ord.pending.length = 2
      ∧ (steps 1 t).map (payloadBytes · 2) = some [0xA5#8, 0#8]
      ∧ (steps 2 t).map (payloadBytes · 2) = some [0xA5#8, 0x5A#8]
      ∧ payloadBytes (call (.aRead 0#32 0#32) t) 2 = [0xA5#8, 0#8] := by decide +kernel

/-- T20: erase in generation B. -/
theorem test_T20_erase_generation_b :
    let t := call (.flashErase 0x10000#32 0x1000#32) idleB
    t.eng.res = 1#3 ∧ t.eng.diag.op = 0x45#8 ∧ t.eng.diag.arg0 = 0x10000#32 ∧ t.eng.diag.arg1 = 0x400#32
      ∧ t.eng.diag.valid = false ∧ t.eng.cKind = .none ∧ t.bus = idleB.bus := by decide +kernel

/-- T21: the third command hangs; the record tells how far the operation got. -/
theorem test_T21_progress :
    let t := call (.flashErase 0x40000#32 0x1000#32) (withId 0x20#32 (withSched
      ([[]] ++ quiet 15 ++ [answer 0x20#32 [] 0x47#8] ++ quiet 7 ++ quiet 15 ++ [answer 0x21#32 [] 0x47#8] ++ quiet 7
        ++ quiet 15 ++ [[.scp .observe, .scp (.writeExec 0x22#32), .scp (.writeStatus 0x45#8), .clk 1000000]]) idleA))
    record t = [3, 0x45, 0x40800, 0x400, 0x22, 0x22, 0x45, 1] ∧ t.eng.nextId = 0x23#32 ∧ t.eng.cKind = .none := by
  decide +kernel

/-- `RefSCP` with `LAT = 50` and 0x100 bytes of flash. -/
def refScp (script : List RefEntry) : RefScp :=
  { flash := [(0x10, 7#8), (0x12, 9#8)], flashSize := 0x100, script := script, latency := 50, job := none }

/-- A command beside `RefSCP`, with 4 ticks to each requester step. -/
def beside (r : RefScp) (op : Byte) (x y : U32) (s : State) : RefScp × State :=
  refRun 4 200 (r, stepV (latch op x y s))

/-- T1, in small: `RefSCP` performs a read of 3 bytes `LAT` ticks after the doorbell. -/
theorem test_T1_ref_scp_read :
    let t := (beside (refScp []) 0x52#8 0x10#32 3#32 idleA).2
    record t = [0, 0x52, 0x10, 3, 1, 1, 0x47, 1] ∧ payloadBytes t 4 = [7#8, 0#8, 9#8, 0#8] ∧ t.env.conform = true
      ∧ t.env.scpPhase = .quiet ∧ 50 ≤ (t.env.now - t.eng.t0).toNat ∧ t.window = 3 := by decide +kernel

/-- An erase and a failed write: the flash, the final status; the erase stops at `FLASH_SIZE`. -/
theorem test_ref_scp_flash :
    let e := beside (refScp []) 0x45#8 0xFE#32 4#32 idleA
    let f := beside (refScp [⟨.fail, 8⟩]) 0x57#8 0#32 1#32 idleA
    e.2.eng.res = codeOk ∧ [0xFD, 0xFE, 0xFF, 0x100].map (Memory.read e.1.flash) = [0#8, 0xFF#8, 0xFF#8, 0#8]
      ∧ record f.2 = [4, 0x57, 0, 1, 1, 1, 0x45, 1] ∧ f.1.flash = (refScp []).flash := by decide +kernel

/-! ### Witnesses: for every obligation with premises, values that meet all of them together -/

theorem safe_at_rest {s : State} (hm : Memory.wf s.bus.mem = true) (hp : s.eng.pc = .rest) (hk : s.eng.cKind = .none)
    (ho : s.ord.pending = []) : SafeState s := by
  constructor <;> simp_all [inChunkLoop, opChecked, inWritePhase, afterDoorbell, pendingNormal]

/-- `SafeState` does not speak of the schedule. -/
theorem safe_withSched {s : State} (h : SafeState s) (sched : List (List EnvMove)) : SafeState (withSched sched s) := by
  constructor
  · exact h.memory
  · exact h.restKind
  · exact h.loopKind
  · exact h.copyInKind
  · exact h.copyOutKind
  · exact h.sizeLeft
  · exact h.chunkBounds
  · exact h.copyIndex
  · exact h.opRecognised
  · exact h.chunkCommand
  · exact h.bufferStaysClear
  · exact h.pendingOwned
  · exact h.pendingHeader
  · exact h.pendingFenced
  · exact h.pendingDone
  · exact h.pendingWidth

theorem held_at_rest {s : State} (hp : s.eng.pc = .rest) : MessageHeld s := by
  constructor <;> simp [hp]

theorem safe_idleA : SafeState idleA := safe_at_rest (by decide +kernel) rfl rfl rfl

theorem readyIdle_idleA : ReadyIdle idleA :=
  ⟨⟨by decide +kernel, rfl, rfl⟩, ⟨rfl, rfl, rfl, rfl⟩, by unfold channelIdle; decide +kernel, by decide +kernel⟩

theorem readyIdle_idleB : ReadyIdle idleB :=
  ⟨⟨by decide +kernel, rfl, rfl⟩, ⟨rfl, rfl, rfl, rfl⟩, by unfold channelIdle; decide +kernel, by decide +kernel⟩

/-- `ReadyIdle` does not speak of the schedule. -/
theorem readyIdle_withSched {s : State} (h : ReadyIdle s) (sched : List (List EnvMove)) :
    ReadyIdle (withSched sched s) := h

/-- The engine of generation A at the doorbell of `'R'` with operands 1, 2 and id 1, every store of the message pending. -/
def ringA : State :=
  { idleA with
    eng := { idleA.eng with op := 0x52#8, arg0 := 1#32, arg1 := 2#32, nextId := 2#32, pc := .ring }
    ord := { idleA.ord with
      pending := [{ field := .op, val := 0x52#32, barriers := 1 }, { field := .arg0, val := 1#32, barriers := 1 },
        { field := .arg1, val := 2#32, barriers := 1 }, { field := .requestId, val := 1#32, barriers := 1 }] } }

theorem safe_ringA : SafeState ringA where
  memory := by decide +kernel
  restKind := by decide +kernel
  loopKind := by decide +kernel
  copyInKind := by decide +kernel
  copyOutKind := by decide +kernel
  sizeLeft := by decide +kernel
  chunkBounds := by decide +kernel
  copyIndex := by decide +kernel
  opRecognised := by decide +kernel
  chunkCommand := by decide +kernel
  bufferStaysClear := by decide +kernel
  pendingOwned := by simp [ringA, requesterOwned, fieldExists]
  pendingHeader := by decide +kernel
  pendingFenced := by decide +kernel
  pendingDone := by decide +kernel
  pendingWidth := by unfold pendingNormal; decide +kernel

/-- A copy loop of two bytes in progress on a clear buffer, with kind `k`, at step `p`. -/
def copying (k : ChunkKind) (p : Pc) : State :=
  { idleA with
    eng := { idleA.eng with cKind := k, cAddr := 0x100#32, cSize := 2#32, cChunk := 2#32, cBuf := 0x3000#64, pc := p } }

theorem safe_copyIn : SafeState (copying .write .fCopyIn) := by
  constructor <;> first | decide +kernel | simp [pendingNormal, copying, idleA, start, State.resetFrom]

theorem safe_copyOut : SafeState (copying .read .fCopyOut) := by
  constructor <;> first | decide +kernel | simp [pendingNormal, copying, idleA, start, State.resetFrom]

/-- The transaction of a one-chunk erase about to start. -/
def nestedA : State :=
  { idleA with
    eng := { idleA.eng with cKind := .erase, cAddr := 0x100#32, cSize := 2#32, cChunk := 2#32, op := 0x45#8
                            arg0 := 0x100#32, arg1 := 2#32, pc := .v } }

theorem safe_nestedA : SafeState nestedA := by
  constructor <;> first | decide +kernel | simp [pendingNormal, nestedA, idleA, start, State.resetFrom]

theorem witness_DecodeEncodeRoundTrip :
    (Instr.aLegacyV 0xFFFFFFFF#32 0#32).wf .a = true ∧ (Instr.bLegacyV 0xFFFFFFFF#32 0#32).wf .b = true
      ∧ (Instr.flashRead 1#32 0xFFFFFFFFFFFFFFFF#64 1#32).wf .b = true := by decide

theorem witness_DecodedBytesAreTheEncoding :
    decode .a [1#8, 7#8] = .ok (.scpBuf, [7#8]) := by decide +kernel

/-- Both clauses at the first byte above the kinds, and the first clause at `'R'`. -/
theorem witness_OpByteDecodesIffRecognised :
    (5 ≤ (0x52#8 : Byte).toNat ∧ recognised .b 0x52#8 = true) ∧ (5 ≤ (5#8 : Byte).toNat ∧ recognised .a 5#8 = false) := by
  decide

/-- The first and the last byte of the mailbox region. -/
theorem witness_MailboxIsPacked :
    parametersOk Config.refB = true ∧ inMailbox Config.refB 0x1000 ∧ inMailbox Config.refB (0x1000 + 18 + 1023) := by
  refine ⟨by decide +kernel, ?_, ?_⟩ <;> unfold inMailbox <;> decide +kernel

theorem witness_AccessesAlignedOrRefused :
    (parametersOk Config.refA = true ∧ fieldWidth .arg1 = 4)
      ∧ parametersOk (start { Config.refA with mboxBase := 0x1002 } []).cfg = false := by decide +kernel

/-- A layout of the other generation is refused as well (R237). -/
theorem test_mixed_layout_refused :
    isNext (exec (.aRead 0#32 0#32) (start { Config.refA with gen := .b } [(0x1011, 0x47#8)])) = false := by
  decide +kernel

theorem witness_FieldStoreLittleEndian :
    parametersOk Config.refA = true ∧ Memory.wf idleA.bus.mem = true ∧ fieldExists Config.refA (.payload 1023) := by
  refine ⟨by decide +kernel, by decide +kernel, ?_⟩
  show 1023 < Config.refA.payloadCap
  decide

theorem witness_MemoryFormIsCanonical :
    Memory.wf [(1, 2#8), (5, 6#8)] = true ∧ ∀ a, Memory.read [(1, 2#8), (5, 6#8)] a = Memory.read [(1, 2#8), (5, 6#8)] a :=
  ⟨by decide, fun _ => rfl⟩

theorem witness_ResetIsSafe : parametersOk Config.refB = true ∧ Memory.wf idleB.bus.mem = true := by decide +kernel

/-- The three clauses: a call offered, nothing offered, an operation in progress. -/
theorem witness_StepRunsDecodedCall :
    (parametersOk idleA.cfg = true ∧ (withOffers [1#8, 1#8] idleA).eng.pc = .rest
        ∧ decode idleA.cfg.gen (withOffers [1#8, 1#8] idleA).env.offers = .ok (.scpBuf, [1#8]))
      ∧ (idleA.eng.pc = .rest ∧ idleA.env.offers = [])
      ∧ ringA.eng.pc ≠ .rest ∧ parametersOk ringA.cfg = true := by decide +kernel

theorem witness_StepAnswersIllegalOpByte :
    Ready (withOffers (encodeOpByte 0x72#8 1#32 2#32 ++ [1#8]) idleA) ∧ 5 ≤ (0x72#8 : Byte).toNat
      ∧ recognised idleA.cfg.gen 0x72#8 = false
      ∧ (withOffers (encodeOpByte 0x72#8 1#32 2#32 ++ [1#8]) idleA).env.offers
        = encodeOpByte 0x72#8 1#32 2#32 ++ [1#8] :=
  ⟨⟨by decide +kernel, rfl, rfl⟩, by decide, by decide, rfl⟩

/-- A buffer that ends where the mailbox starts is clear. -/
theorem witness_EveryOperationRuns :
    parametersOk idleA.cfg = true ∧ idleA.eng.pc = .rest
      ∧ buffersClear idleA.cfg (.flashWrite 0#32 0x0F00#64 0x100#32) = true := by decide +kernel

/-- Both clauses; the buffer is one byte longer than the witness above. -/
theorem witness_OffersThatHaveNoStep :
    (parametersOk ringA.cfg = true ∧ buffersClear ringA.cfg .scpBuf = true ∧ ringA.eng.pc ≠ .rest)
      ∧ buffersClear idleA.cfg (.flashWrite 0#32 0x0F00#64 0x101#32) = false := by decide +kernel

/-- The tick counter's last values before it would wrap. -/
def lateA (left : Nat) : State :=
  { idleA with env := { idleA.env with now := BitVec.ofNat 64 (2 ^ 64 - left) } }

/-- A call that ends with nothing scheduled, and one whose deadline the tick counter cannot reach. -/
theorem witness_OperationEndsOrWaits :
    (SafeState (lateA 1000002) ∧ ∃ t, exec (.aRead 1#32 2#32) (lateA 1000002) = .next t ∧ t.eng.pc = .rest
        ∧ t.eng.res = codeTimeout)
      ∧ SafeState (lateA 1000001) ∧ ∃ t, exec (.aRead 1#32 2#32) (lateA 1000001) = .next t ∧ waiting t = true :=
  ⟨⟨safe_at_rest rfl rfl rfl rfl, _, eq_next_of_isNext idleA (by decide +kernel), by decide +kernel, by decide +kernel⟩,
    safe_at_rest rfl rfl rfl rfl, _, eq_next_of_isNext idleA (by decide +kernel), by decide +kernel⟩

theorem witness_StepKeepsSafeState : SafeState ringA ∧ ∃ t, step ringA = .next t :=
  ⟨safe_ringA, _, eq_next_of_isNext ringA (by decide +kernel)⟩

theorem held_ringA : MessageHeld ringA where
  op := by decide +kernel
  arg0 := by decide +kernel
  arg1 := by decide +kernel
  requestId := by decide +kernel

theorem witness_StepKeepsMessageHeld : SafeState ringA ∧ MessageHeld ringA ∧ ∃ t, step ringA = .next t :=
  ⟨safe_ringA, held_ringA, _, eq_next_of_isNext ringA (by decide +kernel)⟩

/-- Both clauses; the second at the largest value. -/
theorem witness_StepKeepsConfigurationAndClock :
    (∃ t, step (withSched [[.clk 5]] idleA) = .next t ∧ t.env.now = 5#64)
      ∧ parametersOk (lateA 2).cfg = true ∧ (lateA 2).eng.pc = .rest ∧ (lateA 2).env.offers = []
      ∧ 2 ^ 64 - 2 + 1 < 2 ^ 64 :=
  ⟨⟨_, eq_next_of_isNext idleA (by decide +kernel), by decide +kernel⟩, by decide +kernel, rfl, rfl, by decide⟩

theorem witness_IdleSampleReads : idleA.ord.loadPick = 0 ∧ idleA.eng.sampleAt = .rdBusy := by decide

/-- The five endings, and the three callers `OK` returns to. -/
theorem witness_TransactionEndings :
    ((atPc .v idleA).eng.pc = .v ∧ recognised idleA.cfg.gen (atPc .v idleA).eng.op = false)
      ∧ (∃ s : State, s.eng.pc = .c ∧ s.eng.sampleAt = .rdStatus ∧ idle (sampleRead s).eng.sample = false)
      ∧ (∃ s : State, s.eng.pc = .poll ∧ s.eng.sampleAt = .rdNow
          ∧ expired s.env.now s.eng.t0 (timeoutTicks s.cfg) = true)
      ∧ (atPc .lb idleA).eng.pc = .lb
      ∧ ((atPc .resolve idleA).eng.pc = .resolve ∧ (atPc .resolve idleA).eng.rdSt ≠ statusGood)
      ∧ (∀ k : ChunkKind, ∃ s : State, s.eng.pc = .resolve ∧ s.eng.rdSt = statusGood ∧ s.eng.cKind = k) :=
  ⟨by decide +kernel,
    ⟨{ busyA with eng := { busyA.eng with pc := .c, sampleAt := .rdStatus } }, by decide +kernel⟩,
    ⟨{ idleA with eng := { idleA.eng with pc := .poll, sampleAt := .rdNow }
                  env := { idleA.env with now := 1000000#64 } }, by decide +kernel⟩,
    rfl, by decide +kernel,
    fun k => ⟨{ idleA with eng := { idleA.eng with pc := .resolve, rdSt := statusGood, cKind := k } }, rfl, rfl, rfl⟩⟩

/-- The doorbell step, and the copy-out step. -/
theorem witness_EngineKeepsOwnership :
    (SafeState ringA ∧ parametersOk ringA.cfg = true)
      ∧ SafeState (copying .read .fCopyOut) ∧ (copying .read .fCopyOut).eng.pc = .fCopyOut :=
  ⟨⟨safe_ringA, by decide +kernel⟩, safe_copyOut, rfl⟩

/-- Both kinds of byte outside the mailbox: with and without an oversize command before. -/
theorem witness_ResponderKeepsOwnership :
    parametersOk idleB.cfg = true ∧ requestHeader .arg1 = true ∧ ¬ inMailbox idleB.cfg 0x1413
      ∧ (∀ k v, ScpMove.writePast 0 1#8 = .writePast k v → idleB.bus.oversize = true → 0x1413 ≠ pastAddr idleB.cfg k)
      ∧ (∀ k v, ScpMove.writePast 0 1#8 = .writePast k v → true = true → 0x1413 ≠ pastAddr idleB.cfg k) := by
  refine ⟨by decide +kernel, rfl, by unfold inMailbox; decide +kernel, fun k v _ h => absurd h (by decide), ?_⟩
  rintro k v h -
  obtain ⟨rfl, -⟩ := ScpMove.writePast.inj h
  decide +kernel

theorem witness_DrainKeepsOwnView :
    SafeState ringA ∧ parametersOk ringA.cfg = true ∧ fieldExists ringA.cfg .op :=
  ⟨safe_ringA, by decide +kernel, trivial⟩

/-- The first clause at a store behind a fence and at the oldest store; the others at a payload store left pending at `REST`,
with nothing offered or scheduled. -/
theorem witness_StoresDrainInOrder :
    ({ idleA with ord := { idleA.ord with pending := [⟨.payload 0, 1#32, 0⟩] } } : State).ord.pending = [⟨.payload 0, 1#32, 0⟩]
      ∧ parametersOk idleA.cfg = true ∧ idleA.eng.pc = .rest ∧ idleA.env.offers = [] ∧ idleA.env.sched = []
      ∧ (∃ (s : State) (e : Store), s.ord.pending[1]? = some e
        ∧ ∃ x ∈ s.ord.pending.take 1, x.field = e.field ∨ e.barriers < x.barriers)
      ∧ ringA.ord.pending[0]? = some { field := .op, val := 0x52#32, barriers := 1 }
      ∧ Memory.wf ringA.bus.mem = true :=
  ⟨rfl, by decide +kernel, rfl, rfl, rfl, ⟨{ idleA with ord := { idleA.ord with pending := [⟨.payload 0, 1#32, 1⟩, ⟨.payload 1, 1#32, 0⟩] } },
      ⟨.payload 1, 1#32, 0⟩, by decide +kernel⟩, by decide +kernel⟩

theorem witness_DoorbellPublishesMessage :
    SafeState ringA ∧ MessageHeld ringA ∧ parametersOk ringA.cfg = true ∧ ringA.eng.pc = .ring
      ∧ storesArgs ringA.cfg.gen ringA.eng.op = true :=
  ⟨safe_ringA, held_ringA, by decide +kernel, rfl, by decide +kernel⟩

theorem witness_LoadBarrierFreshens :
    (atPc .lb idleA).eng.pc = .lb ∧ (2, Loc.dbStatus) ∈ [(0, Loc.field .status), (2, Loc.dbStatus)] := by decide

/-- The payload filled to its last byte would do as well; two response bytes here. -/
theorem witness_ArgumentOpcodesCompleteA :
    (Instr.aErase 1#32 2#32, 0x45#8) ∈ [(Instr.aRead 1#32 2#32, 0x52#8), (.aWrite 1#32 2#32, 0x57#8),
        (.aErase 1#32 2#32, 0x45#8), (.aLegacyL 1#32 2#32, 0x4C#8), (.aLegacyV 1#32 2#32, 0x56#8)]
      ∧ idleA.cfg.gen = .a ∧ ReadyIdle (withSched (answeredSched 1#32 [1#8, 2#8] statusGood) idleA)
      ∧ [1#8, 2#8].length ≤ idleA.cfg.payloadCap
      ∧ (withSched (answeredSched 1#32 [1#8, 2#8] statusGood) idleA).env.sched
        = answeredSched idleA.eng.nextId [1#8, 2#8] statusGood :=
  ⟨by decide, rfl, readyIdle_withSched readyIdle_idleA _, by decide, rfl⟩

theorem witness_PlainOpcodesCompleteA :
    (Instr.aTraceOff 1#32 2#32, 0x74#8) ∈ [(Instr.aLotId 1#32 2#32, 0x49#8), (.aMac 1#32 2#32, 0x4D#8),
        (.aSerial 1#32 2#32, 0x4E#8), (.aTraceOn 1#32 2#32, 0x54#8), (.aTraceOff 1#32 2#32, 0x74#8)]
      ∧ idleA.cfg.gen = .a ∧ ReadyIdle (withSched (answeredSched 1#32 [] statusGood) idleA)
      ∧ ([] : List Byte).length ≤ idleA.cfg.payloadCap
      ∧ (withSched (answeredSched 1#32 [] statusGood) idleA).env.sched = answeredSched idleA.eng.nextId [] statusGood :=
  ⟨by decide, rfl, readyIdle_withSched readyIdle_idleA _, by decide, rfl⟩

theorem witness_OpcodesCompleteB :
    (Instr.bLegacyV 1#32 2#32, 0x56#8) ∈ [(Instr.bRead 1#32 2#32, 0x52#8), (.bWrite 1#32 2#32, 0x57#8),
        (.bLegacyV 1#32 2#32, 0x56#8)]
      ∧ idleB.cfg.gen = .b ∧ ReadyIdle (withSched (answeredSched 0x80000001#32 [9#8] statusGood) idleB)
      ∧ [9#8].length ≤ idleB.cfg.payloadCap
      ∧ (withSched (answeredSched 0x80000001#32 [9#8] statusGood) idleB).env.sched
        = answeredSched idleB.eng.nextId [9#8] statusGood :=
  ⟨by decide, rfl, readyIdle_withSched readyIdle_idleB _, by decide, rfl⟩

/-- Both final statuses. -/
theorem witness_ScpCmdCompletes (final : Byte) (h : final = statusGood ∨ final = statusExecuting) :
    recognised idleB.cfg.gen 0x57#8 = true ∧ (final = statusGood ∨ final = statusExecuting)
      ∧ ReadyIdle (withSched (answeredSched 0x80000001#32 [9#8] final) idleB) ∧ [9#8].length ≤ idleB.cfg.payloadCap
      ∧ (withSched (answeredSched 0x80000001#32 [9#8] final) idleB).env.sched
        = answeredSched idleB.eng.nextId [9#8] final :=
  ⟨by decide, h, readyIdle_withSched readyIdle_idleB _, by decide, rfl⟩

theorem witness_ScpBufReturnsPayloadAddress : parametersOk idleB.cfg = true ∧ idleB.eng.pc = .rest := by decide +kernel

/-- Two chunks, the second of one byte. -/
theorem witness_FlashEraseCompletes :
    idleA.cfg.gen = .a ∧ ReadyIdle (withSched (chunkedSched .erase 1024 1025 1#32 []) idleA)
      ∧ (withSched (chunkedSched .erase 1024 1025 1#32 []) idleA).env.sched
        = chunkedSched .erase idleA.cfg.maxChunk (1025#32 : U32).toNat idleA.eng.nextId [] :=
  ⟨rfl, readyIdle_withSched readyIdle_idleA _, rfl⟩

/-- `smallA` on an idle mailbox. -/
def idleSmall : State := smallA [(0x1011, 0x47#8)]

theorem readyIdle_idleSmall : ReadyIdle idleSmall :=
  ⟨⟨by decide +kernel, rfl, rfl⟩, ⟨rfl, rfl, rfl, rfl⟩, by unfold channelIdle; decide +kernel, by decide +kernel⟩

/-- Two chunks, the second of one byte. -/
theorem witness_FlashReadCompletes :
    ReadyIdle (withSched (chunkedSched .read 2 3 1#32 [1#8, 2#8, 3#8]) idleSmall)
      ∧ bufferClear idleSmall.cfg (0x0FFD#64).toNat (3#32 : U32).toNat = true
      ∧ [1#8, 2#8, 3#8].length = (3#32 : U32).toNat
      ∧ (withSched (chunkedSched .read 2 3 1#32 [1#8, 2#8, 3#8]) idleSmall).env.sched
        = chunkedSched .read idleSmall.cfg.maxChunk (3#32 : U32).toNat idleSmall.eng.nextId [1#8, 2#8, 3#8] :=
  ⟨readyIdle_withSched readyIdle_idleSmall _, by decide +kernel, by decide, rfl⟩

/-- Two chunks, the second of one byte. -/
theorem witness_FlashWriteCompletes :
    ReadyIdle (withSched (chunkedSched .write 2 3 1#32 []) idleSmall)
      ∧ bufferClear idleSmall.cfg (0x2008#64).toNat (3#32 : U32).toNat = true
      ∧ (withSched (chunkedSched .write 2 3 1#32 []) idleSmall).env.sched
        = chunkedSched .write idleSmall.cfg.maxChunk (3#32 : U32).toNat idleSmall.eng.nextId [] :=
  ⟨readyIdle_withSched readyIdle_idleSmall _, by decide +kernel, rfl⟩

/-- On a busy channel, in generation B too. -/
theorem witness_EmptyOperationsAreNoOps :
    (Instr.flashErase 1#32 0#32, 0#64) ∈ [(Instr.flashErase 1#32 0#32, 0#64), (.flashRead 1#32 0#64 0#32, 0#64),
        (.flashWrite 1#32 0#64 0#32, 0#64)]
      ∧ parametersOk (start Config.refB []).cfg = true ∧ (start Config.refB []).eng.pc = .rest
      ∧ (start Config.refB []).env.sched = [] := by decide +kernel

theorem witness_FlashWriteChunkIsPublished :
    SafeState (copying .write .fCopyIn) ∧ parametersOk (copying .write .fCopyIn).cfg = true
      ∧ Settled (copying .write .fCopyIn) ∧ channelIdle (copying .write .fCopyIn)
      ∧ (copying .write .fCopyIn).env.sched = [] ∧ (copying .write .fCopyIn).eng.pc = .fCopyIn
      ∧ (copying .write .fCopyIn).eng.cIdx = 0#32 :=
  ⟨safe_copyIn, by decide +kernel, ⟨rfl, rfl, rfl, rfl⟩, by unfold channelIdle; decide +kernel, rfl, rfl, rfl⟩

theorem ready_busyA : Ready busyA := ⟨by decide +kernel, rfl, rfl⟩

/-- A byte that no generation knows, and a row of generation A on generation B. -/
theorem witness_InvalidOperation :
    (commandOf (.scpCmd 0xFF#8 1#32 2#32) = some (0xFF#8, 1#32, 2#32) ∧ Ready busyA
        ∧ recognised busyA.cfg.gen 0xFF#8 = false)
      ∧ commandOf (.aTraceOn 1#32 2#32) = some (0x54#8, 1#32, 2#32) ∧ Ready idleB
      ∧ recognised idleB.cfg.gen 0x54#8 = false :=
  ⟨⟨rfl, ready_busyA, by decide⟩, rfl, readyIdle_idleB.1, by decide⟩

theorem witness_ChannelBusy :
    commandOf (.aRead 1#32 2#32) = some (0x52#8, 1#32, 2#32) ∧ Ready busyA ∧ recognised busyA.cfg.gen 0x52#8 = true
      ∧ busyA.env.sched = [] ∧ busyA.ord.loadPick = 0 ∧ idle (ownSample (envTurn busyA)) = false :=
  ⟨rfl, ready_busyA, by decide, rfl, rfl, by decide +kernel⟩

/-- The commands `StaysBusy` speaks of: a row and an `SCP_CMD`. -/
theorem witness_StaysBusy :
    [Instr.aMac 0#32 0#32, .scpCmd 0x52#8 1#32 2#32] ≠ []
      ∧ ∀ j ∈ [Instr.aMac 0#32 0#32, .scpCmd 0x52#8 1#32 2#32], recognisedCommand .a j := by
  refine ⟨by decide, fun j hj => ?_⟩
  simp only [List.mem_cons, List.not_mem_nil, or_false] at hj
  rcases hj with rfl | rfl
  · exact ⟨_, _, _, rfl, by decide⟩
  · exact ⟨_, _, _, rfl, by decide⟩

/-- The last tick at which the deadline can still be reached. -/
theorem witness_HungCoprocessorTimesOut :
    let s := { withSched (hungSched Config.refA) idleA with
      env := { idleA.env with sched := hungSched Config.refA, now := BitVec.ofNat 64 (2 ^ 64 - 1000001) } }
    commandOf (.aMac 0#32 0#32) = some (0x4D#8, 0#32, 0#32) ∧ ReadyIdle s ∧ recognised s.cfg.gen 0x4D#8 = true
      ∧ s.env.sched = hungSched s.cfg ∧ s.env.now.toNat + timeoutTicks s.cfg < 2 ^ 64 :=
  ⟨rfl, readyIdle_idleA, by decide, rfl, by decide +kernel⟩

theorem witness_MarkerStatusTimesOut :
    let s := withSched (quiet 12 ++ [answer 1#32 [] 0x58#8 ++ [.clk 1000000]]) idleA
    commandOf (.aErase 0#32 0#32) = some (0x45#8, 0#32, 0#32) ∧ ReadyIdle s ∧ recognised s.cfg.gen 0x45#8 = true
      ∧ 0x58#8 ≠ statusGood ∧ 0x58#8 ≠ statusExecuting ∧ ([] : List Byte).length ≤ s.cfg.payloadCap
      ∧ s.env.now.toNat + timeoutTicks s.cfg < 2 ^ 64
      ∧ s.env.sched = quiet 12 ++ [answer s.eng.nextId [] 0x58#8 ++ [.clk (timeoutTicks s.cfg)]] :=
  ⟨rfl, readyIdle_withSched readyIdle_idleA _, by decide, by decide, by decide, by decide, by decide +kernel, rfl⟩

theorem witness_IdleSampleWinsOverDeadline :
    let s := withSched (quiet 12 ++ [answer 1#32 [] statusGood ++ [.clk 1000000]]) idleA
    commandOf (.aErase 0#32 0#32) = some (0x45#8, 0#32, 0#32) ∧ ReadyIdle s ∧ recognised s.cfg.gen 0x45#8 = true
      ∧ ([] : List Byte).length ≤ s.cfg.payloadCap ∧ timeoutTicks s.cfg ≤ 1000000
      ∧ s.env.now.toNat + 1000000 < 2 ^ 64
      ∧ s.env.sched = quiet 12 ++ [answer s.eng.nextId [] statusGood ++ [.clk 1000000]] :=
  ⟨rfl, readyIdle_withSched readyIdle_idleA _, by decide, by decide, by decide, by decide +kernel, rfl⟩

/-- Two iterations of the poll. -/
theorem witness_PollWaitsForTheResponder :
    let s := withSched (quiet (12 + 5 * 2)) idleB
    commandOf (.bRead 1#32 2#32) = some (0x52#8, 1#32, 2#32) ∧ ReadyIdle s
      ∧ recognised s.cfg.gen 0x52#8 = true ∧ s.env.sched = quiet (12 + 5 * 2) ∧ buffersClear s.cfg .scpBuf = true
      ∧ s.env.now.toNat + timeoutTicks s.cfg < 2 ^ 64 :=
  ⟨rfl, readyIdle_withSched readyIdle_idleB _, by decide, rfl, rfl, by decide +kernel⟩

theorem witness_EraseInGenerationB :
    Ready idleB ∧ idleB.cfg.gen = .b ∧ (1#32 : U32) ≠ 0#32 ∧ idleB.env.sched = [] :=
  ⟨readyIdle_idleB.1, rfl, by decide, rfl⟩

theorem witness_FlashWriteOnBusyChannel :
    Ready busyA ∧ busyA.env.sched = [] ∧ busyA.ord.loadPick = 0 ∧ (1#32 : U32) ≠ 0#32
      ∧ bufferClear busyA.cfg (0x3000#64).toNat (1#32 : U32).toNat = true ∧ idle (ownSample (envTurn busyA)) = false
      ∧ Memory.wf busyA.bus.mem = true ∧ busyA.env.offers = [] :=
  ⟨ready_busyA, rfl, rfl, by decide, by decide +kernel, by decide +kernel, rfl, rfl⟩

theorem witness_LateAnswerFreesChannel :
    parametersOk busyA.cfg = true ∧ Memory.wf busyA.bus.mem = true
      ∧ (statusGood = statusGood ∨ statusGood = statusExecuting) :=
  ⟨by decide +kernel, by decide +kernel, .inl rfl⟩

theorem witness_EveryResultIsReachable :
    SafeState busyA ∧ Ready busyA ∧ recognised busyA.cfg.gen 0x52#8 = true
      ∧ busyA.env.now.toNat + timeoutTicks busyA.cfg < 2 ^ 64
      ∧ codeTimeout ∈ [codeOk, codeChannelBusy, codeTimeout, codeFault] :=
  ⟨safe_at_rest rfl rfl rfl rfl, ready_busyA, by decide, by decide +kernel, by decide⟩

/-- Schedules under which `'R'` of generation A ends in each of its four results. -/
def resultScheds : List (List (List EnvMove) × BitVec 3) :=
  [(answeredSched 1#32 [1#8] statusGood, codeOk), ([[.scp (.writeStatus 0#8)]], codeChannelBusy),
    (hungSched Config.refA, codeTimeout), (answeredSched 1#32 [1#8] statusExecuting, codeFault)]

theorem results_reached : ∀ r ∈ resultScheds, isNext (exec (.aRead 1#32 2#32) (withSched r.1 idleA)) = true
    ∧ (call (.aRead 1#32 2#32) (withSched r.1 idleA)).eng.pc = .rest
    ∧ (call (.aRead 1#32 2#32) (withSched r.1 idleA)).eng.res = r.2 := by decide +kernel

/-- A direct call for each of four results (the fifth is `witness_InvalidOperation`), and a nested transaction. -/
theorem witness_IdConsumption :
    (∀ r ∈ resultScheds, commandOf (.aRead 1#32 2#32) = some (0x52#8, 1#32, 2#32)
        ∧ SafeState (withSched r.1 idleA)
        ∧ ∃ t, exec (.aRead 1#32 2#32) (withSched r.1 idleA) = .next t ∧ t.eng.pc = .rest ∧ t.eng.res = r.2)
      ∧ SafeState (withSched (answeredSched 1#32 [] statusGood) nestedA)
      ∧ parametersOk (withSched (answeredSched 1#32 [] statusGood) nestedA).cfg = true
      ∧ (withSched (answeredSched 1#32 [] statusGood) nestedA).eng.pc = .v
      ∧ (callRun 30 (withSched (answeredSched 1#32 [] statusGood) nestedA)).isSome = true := by
  refine ⟨fun r hr => ⟨rfl, safe_withSched safe_idleA _, ?_⟩, safe_withSched safe_nestedA _, by decide +kernel, rfl, by decide +kernel⟩
  exact ⟨_, eq_next_of_isNext _ (results_reached r hr).1, (results_reached r hr).2⟩

theorem witness_FailedCheckWritesNothing :
    commandOf (.aRead 1#32 2#32) = some (0x52#8, 1#32, 2#32) ∧ SafeState busyA
      ∧ ∃ t, exec (.aRead 1#32 2#32) busyA = .next t ∧ t.eng.pc = .rest
        ∧ (t.eng.res = codeInvalidOperation ∨ t.eng.res = codeChannelBusy) :=
  ⟨rfl, safe_at_rest rfl rfl rfl rfl, _, eq_next_of_isNext busyA (by decide +kernel), by decide +kernel,
    by decide +kernel⟩

/-- The clauses of the four results. -/
theorem witness_ResultAndRecord :
    ∀ r ∈ resultScheds, commandOf (.aRead 1#32 2#32) = some (0x52#8, 1#32, 2#32) ∧ SafeState (withSched r.1 idleA)
      ∧ ∃ t, exec (.aRead 1#32 2#32) (withSched r.1 idleA) = .next t ∧ t.eng.pc = .rest ∧ t.eng.res = r.2 :=
  fun r hr => ⟨rfl, safe_withSched safe_idleA _, _, eq_next_of_isNext _ (results_reached r hr).1, (results_reached r hr).2⟩

/-- A conforming answer with `'G'`, and one with `'E'`. -/
theorem witness_ConformingResponderIsReported (final : Byte) (h : final = statusGood ∨ final = statusExecuting) :
    let s := withSched (answeredSched 1#32 [7#8, 8#8] final) idleA
    commandOf (.aRead 1#32 2#32) = some (0x52#8, 1#32, 2#32) ∧ SafeState s ∧ s.env.scpPhase = .quiet
      ∧ s.bus.signals = 0 ∧ (2#32 : U32).toNat ≤ s.cfg.payloadCap ∧ ∃ t, exec (.aRead 1#32 2#32) s = .next t ∧ t.eng.pc = .rest ∧ t.env.conform = true
        ∧ (t.eng.res = codeOk ∨ t.eng.res = codeFault) := by
  rcases h with h | h <;> subst h <;>
    exact ⟨rfl, safe_withSched safe_idleA _, rfl, rfl, by decide, _, eq_next_of_isNext idleA (by decide +kernel),
      by decide +kernel, by decide +kernel, by decide +kernel⟩

theorem witness_ChunksCoverTheRange :
    ChunkKind.read ≠ .none ∧ parametersOk idleA.cfg = true
      ∧ (ticks 3 (chunkInit .read 1#32 0x3000#64 2#32 idleA)).eng.cKind ≠ .none
      ∧ chunkChosen (ticks 3 (chunkInit .read 1#32 0x3000#64 2#32 idleA)).eng.pc = true := by decide +kernel

/-- `OK` after two chunks; `InvalidOperation` in generation B; `Fault` at the second chunk. -/
theorem witness_ChunkedOperationReports :
    let s := withSched (chunkedSched .erase 1024 1025 1#32 []) idleA
    let f := withSched ([[]] ++ quiet 15 ++ [answer 1#32 [] statusGood] ++ quiet 7 ++ quiet 15
      ++ [answer 2#32 [] statusExecuting]) idleA
    chunkedCall (.flashErase 1#32 1025#32) = some (.erase, 1#32, 1025#32)
      ∧ (SafeState s ∧ ∃ t, exec (.flashErase 1#32 1025#32) s = .next t ∧ t.eng.pc = .rest ∧ t.eng.res = codeOk)
      ∧ (SafeState idleB ∧ ∃ t, exec (.flashErase 1#32 1025#32) idleB = .next t ∧ t.eng.pc = .rest
          ∧ t.eng.res = codeInvalidOperation)
      ∧ (SafeState f ∧ ∃ t, exec (.flashErase 1#32 1025#32) f = .next t ∧ t.eng.pc = .rest ∧ t.eng.res = codeFault) :=
  ⟨rfl, ⟨safe_withSched safe_idleA _, _, eq_next_of_isNext idleA (by decide +kernel), by decide +kernel, by decide +kernel⟩,
    ⟨safe_at_rest rfl rfl rfl rfl, _, eq_next_of_isNext idleB (by decide +kernel), by decide +kernel,
      by decide +kernel⟩,
    safe_withSched safe_idleA _, _, eq_next_of_isNext idleA (by decide +kernel), by decide +kernel, by decide +kernel⟩

/-- The three tails of a failing second chunk after a full first one of two bytes. -/
def failTails : List (List (List EnvMove) × BitVec 3) :=
  [(quiet 15 ++ [answer (idleSmall.eng.nextId + BitVec.ofNat 32 1) [] statusExecuting], codeFault),
    (quiet 15 ++ [[.clk (timeoutTicks idleSmall.cfg)]], codeTimeout), ([[.scp (.writeStatus 0#8)]], codeChannelBusy)]

/-- Both clauses; the second for each tail. -/
theorem witness_FailedReadLeavesTheRest :
    (SafeState busyA ∧ busyA.bus.oversize = false ∧ ∃ t, exec (.flashRead 1#32 0x3000#64 2#32) busyA = .next t
        ∧ t.eng.pc = .rest ∧ t.eng.res ≠ codeOk
        ∧ (0x3000#64).toNat + (t.eng.diag.arg0 - 1#32).toNat ≤ 0x3000
        ∧ 0x3000 < (0x3000#64).toNat + (2#32 : U32).toNat)
      ∧ ∀ r ∈ failTails,
          let s := withSched (chunkedSched .read 2 2 1#32 [5#8, 6#8] ++ r.1) idleSmall
          ReadyIdle s ∧ bufferClear s.cfg (0x3000#64).toNat (3#32 : U32).toNat = true
            ∧ 1 * s.cfg.maxChunk < (3#32 : U32).toNat ∧ [5#8, 6#8].length = 1 * s.cfg.maxChunk
            ∧ ([] : List Byte).length ≤ s.cfg.payloadCap ∧ s.env.now.toNat + timeoutTicks s.cfg < 2 ^ 64
            ∧ s.env.sched = chunkedSched .read s.cfg.maxChunk [5#8, 6#8].length s.eng.nextId [5#8, 6#8] ++ r.1 :=
  ⟨⟨safe_at_rest rfl rfl rfl rfl, rfl, _, eq_next_of_isNext busyA (by decide +kernel), by decide +kernel,
      by decide +kernel, by decide +kernel, by decide⟩,
    fun _ _ => ⟨readyIdle_withSched readyIdle_idleSmall _,
      (by decide +kernel : bufferClear idleSmall.cfg (0x3000#64).toNat (3#32 : U32).toNat = true),
      (by decide +kernel : 1 * idleSmall.cfg.maxChunk < (3#32 : U32).toNat),
      (by decide +kernel : [5#8, 6#8].length = 1 * idleSmall.cfg.maxChunk), Nat.zero_le _,
      (by decide +kernel : idleSmall.env.now.toNat + timeoutTicks idleSmall.cfg < 2 ^ 64), rfl⟩⟩

theorem witness_OperationFrame :
    SafeState busyA ∧ Instr.aRead 1#32 2#32 ≠ .scpBuf ∧ commandOf (.aRead 1#32 2#32) ≠ none
      ∧ busyA.bus.oversize = false ∧ oversizeCall busyA.cfg (.aRead 1#32 1024#32) = false
      ∧ ∃ t, exec (.aRead 1#32 2#32) busyA = .next t ∧ t.eng.pc = .rest ∧ t.eng.res = codeChannelBusy :=
  ⟨safe_at_rest rfl rfl rfl rfl, by decide, by decide, rfl, by decide, _, eq_next_of_isNext busyA (by decide +kernel),
    by decide +kernel, by decide +kernel⟩

/-- A command of each script with its due tick reached, and one before it. -/
theorem witness_RefScpConforms :
    let s := { idleA with bus := { idleA.bus with signals := 1 } }
    let u := { s with env := { s.env with now := 50#64, scpPhase := .started 0#32 true true [] } }
    (parametersOk s.cfg = true ∧ Memory.wf s.bus.mem = true ∧ s.env.scpPhase = .quiet ∧ 1 ≤ s.bus.signals)
      ∧ ((refScp []).job = none ∧ (refJob (refScp []) s).due ≤ u.env.now.toNat
          ∧ (refJob (refScp []) s).entry.script ≠ .hang
          ∧ (refJob (refScp [⟨.fail, 50⟩]) s).due ≤ u.env.now.toNat
          ∧ u.env.scpPhase = .started (refJob (refScp []) s).id true true
            (responseOwed u.cfg.payloadCap (refJob (refScp []) s).op (refJob (refScp []) s).arg1))
      ∧ s.env.now.toNat < (refJob (refScp []) s).due ∧ (refJob (refScp [⟨.hang, 0⟩]) s).entry.script = .hang := by
  decide +kernel

theorem witness_FlashWriteIsContentIdempotent :
    let j : RefJob := ⟨1#32, 0x57#8, 0xFF#32, 2#32, ⟨.perform, 0⟩, 0⟩
    Memory.wf (refScp []).flash = true ∧ j.op = 0x57#8 ∧ j.entry.script = .perform
      ∧ 0 < ([7#8, 8#8].take (flashCount (refScp []).flashSize j.arg0 j.arg1)).length ∧ (refScp []).flashSize ≤ 0x100 := by
  decide +kernel

end Sys2Proof.Tests
end

section
/-! SUPPORT. The two statements about the mailbox region: its bytes and its fields (R42), and aligned accesses (R44). -/

namespace Sys2Proof.Machine

open Sys2Proof

/-! ### The header is filled -/

/-- The offsets of a field's bytes inside the mailbox. -/
def fieldBytes (l : Layout) (f : Field) : Finset Nat :=
  Finset.Ico (fieldOffset l f) (fieldOffset l f + fieldWidth f)

@[simp] theorem mem_fieldBytes {l : Layout} {f : Field} {x : Nat} :
    x ∈ fieldBytes l f ↔ fieldOffset l f ≤ x ∧ x < fieldOffset l f + fieldWidth f :=
  Finset.mem_Ico

@[simp] theorem card_fieldBytes (l : Layout) (f : Field) : (fieldBytes l f).card = fieldWidth f := by
  simp [fieldBytes]

/-- The widths of the header fields add up to `HEADER_SIZE` (R70). -/
theorem header_widths_sum {l : Layout} (h : layoutOk l = true) :
    ∑ f ∈ headerFields.toFinset, fieldWidth f = headerSize l := by
  simp only [layoutOk, Bool.and_eq_true, decide_eq_true_eq] at h
  rw [List.sum_toFinset fieldWidth (by decide)]
  exact h.2

theorem header_pairwiseDisjoint {l : Layout} (h : layoutOk l = true) :
    (headerFields.toFinset : Set Field).PairwiseDisjoint (fieldBytes l) := by
  intro f hf g hg hfg
  have := header_apart h (List.mem_toFinset.1 hf) (List.mem_toFinset.1 hg) hfg
  refine Finset.disjoint_left.2 fun x hxf hxg => ?_
  rw [mem_fieldBytes] at hxf hxg
  omega

/-- The header fields leave no byte of the header unused: they are disjoint, lie inside it, and have as many bytes as it
has (R70). -/
theorem header_bytes_eq_range {l : Layout} (h : layoutOk l = true) :
    headerFields.toFinset.biUnion (fieldBytes l) = Finset.range (headerSize l) := by
  apply Finset.eq_of_subset_of_card_le
  · intro x hx
    obtain ⟨f, hf, hxf⟩ := Finset.mem_biUnion.1 hx
    have := header_inside h (List.mem_toFinset.1 hf)
    rw [mem_fieldBytes] at hxf
    rw [Finset.mem_range]
    omega
  · simp [Finset.card_biUnion (header_pairwiseDisjoint h), header_widths_sum h]

/-! ### Every byte of the mailbox has one field -/

/-- An address is one of a field's bytes. -/
def inField (cfg : Config) (f : Field) (a : Nat) : Prop :=
  fieldAddr cfg f ≤ a ∧ a < fieldAddr cfg f + fieldWidth f

theorem fieldExists_header (cfg : Config) {f : Field} (hf : f ∈ headerFields) : fieldExists cfg f := by
  cases f with
  | payload i => simp [headerFields] at hf
  | _ => exact trivial

/-- A mailbox address below the payload is in a header field, and one from there on is a payload byte (R18, R70). -/
theorem exists_inField {cfg : Config} (h : parametersOk cfg = true) {a : Nat} (ha : inMailbox cfg a) :
    ∃ f, fieldExists cfg f ∧ inField cfg f a := by
  obtain ⟨-, -, hl, -⟩ := (parametersOk_iff cfg).1 h
  obtain ⟨hlow, hhigh⟩ := ha
  obtain ⟨x, rfl⟩ := Nat.exists_eq_add_of_le hlow
  unfold inField fieldAddr
  by_cases hx : x < headerSize cfg.layout
  · rw [← Finset.mem_range, ← header_bytes_eq_range hl, Finset.mem_biUnion] at hx
    obtain ⟨f, hf, hxf⟩ := hx
    rw [mem_fieldBytes] at hxf
    exact ⟨f, fieldExists_header cfg (List.mem_toFinset.1 hf), by omega⟩
  · refine ⟨.payload (x - headerSize cfg.layout), ?_, ?_⟩
    · simp only [mboxSize] at hhigh
      simp only [fieldExists]
      omega
    · simp only [payload_offset, fieldWidth]
      omega

theorem inField_unique {cfg : Config} (h : parametersOk cfg = true) {f g : Field} {a : Nat} (hf : inField cfg f a)
    (hg : inField cfg g a) : f = g := by
  by_contra hfg
  have hap := fields_apart h hfg
  unfold fieldsApart at hap
  unfold inField at hf hg
  omega

/-- Settles O6: the header fields fill the header because their widths add up to its size, the payload positions fill
the rest, and no two fields share a byte. -/
theorem mailboxIsPacked : Obligations.MailboxIsPacked := by
  intro cfg h a ha
  obtain ⟨f, hf, hfa⟩ := exists_inField h ha
  exact ⟨f, ⟨hf, hfa⟩, fun g ⟨_, hga⟩ => inField_unique h hga hfa⟩

/-! ### Alignment, and bad parameters -/

/-- The addresses of R5 are multiples of 4. -/
theorem addresses_aligned {cfg : Config} (h : parametersOk cfg = true) :
    cfg.mboxBase % 4 = 0 ∧ cfg.dbSignalAddr % 4 = 0 ∧ cfg.dbStatusAddr % 4 = 0 := by
  have haddr := ((parametersOk_iff cfg).1 h).1
  simp only [addressesOk, Bool.and_eq_true, decide_eq_true_eq, and_assoc] at haddr
  obtain ⟨hbase, hsignal, hstatus, -⟩ := haddr
  exact ⟨hbase, hsignal, hstatus⟩

/-- A 32-bit field lies at a multiple of 4 (R44). -/
theorem fieldAddr_aligned {cfg : Config} (h : parametersOk cfg = true) {f : Field} (hw : fieldWidth f = 4) :
    fieldAddr cfg f % 4 = 0 := by
  obtain ⟨-, -, hl, -⟩ := (parametersOk_iff cfg).1 h
  rcases field_header_or_payload f with hf | ⟨i, rfl⟩
  · have hbase := (addresses_aligned h).1
    have hoffset := header_aligned hl hf hw
    unfold fieldAddr
    omega
  · exact absurd hw (by simp [fieldWidth])

theorem hostOperation_refused {s : State} (h : parametersOk s.cfg = false) (size : U32) (first : State → State) :
    hostOperation size first s = .refused .badParameters := by
  simp [hostOperation, h]

theorem transact_refused {s : State} (h : parametersOk s.cfg = false) (op : Byte) (arg0 arg1 : U32) :
    transact op arg0 arg1 s = .refused .badParameters :=
  hostOperation_refused h _ _

theorem chunked_refused {s : State} (h : parametersOk s.cfg = false) (k : ChunkKind) (addr : U32) (buf : U64)
    (size : U32) : chunked k addr buf size s = .refused .badParameters :=
  hostOperation_refused h _ _

theorem chunkedOn_refused {s : State} (h : parametersOk s.cfg = false) (k : ChunkKind) (addr : U32) (buf : U64)
    (size : U32) : chunkedOn k addr buf size s = .refused .badParameters := by
  simp [chunkedOn, h, chunked_refused h]

/-- No instruction has a meaning on bad parameters: each is a transaction, a chunked operation or `SCP_BUF`, and all
three start as host operations (R44). -/
theorem exec_refused {s : State} (h : parametersOk s.cfg = false) (i : Instr) :
    exec i s = .refused .badParameters := by
  cases i with
  | scpBuf => exact hostOperation_refused h 0#32 returnBuf
  | flashErase addr size => exact chunked_refused h .erase addr 0#64 size
  | flashRead addr dst size => exact chunkedOn_refused h .read addr dst size
  | flashWrite addr src size => exact chunkedOn_refused h .write addr src size
  | _ => exact transact_refused h _ _ _

theorem step_refused {s : State} (h : parametersOk s.cfg = false) : step s = .refused .badParameters := by
  simp [step, h]

/-- Settles O7: the bases and the 32-bit offsets are multiples of 4, and bad parameters are refused before anything else
is looked at. -/
theorem accessesAlignedOrRefused : Obligations.AccessesAlignedOrRefused := by
  refine ⟨fun cfg h => ?_, fun s h => ⟨step_refused h, exec_refused h⟩⟩
  obtain ⟨-, hsignal, hstatus⟩ := addresses_aligned h
  exact ⟨fun f hw => fieldAddr_aligned h hw, hsignal, hstatus⟩

end Sys2Proof.Machine
end

section
/-! SUPPORT. The op byte sets (R74), and the answer to an op byte outside the generation's set (R80). -/

namespace Sys2Proof.Machine

open Sys2Proof

/-! ### The op byte sets -/

theorem recognised_iff (g : Gen) (op : Byte) : recognised g op = true ↔ op ∈ opset g :=
  List.contains_iff_mem

theorem opset_a_perm_chars :
    (opset .a).Perm ("RWELVIMNTt".toList.map (fun c => BitVec.ofNat 8 c.toNat)) := by
  decide

theorem opset_b_perm_chars : (opset .b).Perm ("RWV".toList.map (fun c => BitVec.ofNat 8 c.toNat)) := by
  decide

/-- Settles O4: each set is its list of characters, read as bytes. -/
theorem opsetMembers : Obligations.OpsetMembers := by
  intro op
  simp only [recognised_iff]
  exact ⟨opset_a_perm_chars.mem_iff, opset_b_perm_chars.mem_iff⟩

/-! ### The answer to an op byte outside the set -/

/-- Every row and `SCP_CMD` is the one transaction, with its op byte (R100). -/
theorem exec_of_commandOf {i : Instr} {op : Byte} {x y : U32} (h : commandOf i = some (op, x, y)) (s : State) :
    exec i s = transact op x y s := by
  cases i with
  | scpBuf | flashErase | flashRead | flashWrite => exact absurd h (by simp [commandOf])
  | _ =>
    simp only [commandOf, Option.some.injEq, Prod.mk.injEq] at h
    obtain ⟨rfl, rfl, rfl⟩ := h
    rfl

theorem stepV_unrecognised {s : State} (h : recognised s.cfg.gen s.eng.op = false) :
    stepV s = raiseInvalidOperation s := by
  simp [stepV, h]

/-- `raise InvalidOperation` by the host, on an engine that stands at `REST`: the result, the record and the end of the
payload window, with the sampled values free (R191, R227, U2). -/
theorem raiseInvalidOperation_at_rest {s : State} (hr : s.eng.pc = .rest) (hk : s.eng.cKind = .none) :
    raiseInvalidOperation s =
      { s with
        freeCtr := s.freeCtr + 2
        window := 0
        eng :=
          { s.eng with
            res := codeInvalidOperation
            diag :=
              { kind := codeInvalidOperation, op := s.eng.op, arg0 := s.eng.arg0, arg1 := s.eng.arg1
                req := Config.freeWord s.freeCtr, exec := Config.freeWord (s.freeCtr + 1)
                status := Config.freeByte s.freeCtr, valid := false } } } := by
  rw [raiseInvalidOperation, complete_host (by exact hk)]
  simp [hr, codeInvalidOperation, codeOk]

/-- An op byte outside the set ends its transaction in step `V`, so that nothing of the run is left (R80, R102). -/
theorem transact_unrecognised {op : Byte} {s : State} (hs : Ready s) (h : recognised s.cfg.gen op = false)
    (x y : U32) : transact op x y s = .next (raiseInvalidOperation (latch op x y (envTurn s))) := by
  obtain ⟨hc, hr, hk⟩ := hs
  have hV : stepV (latch op x y (envTurn s)) = raiseInvalidOperation (latch op x y (envTurn s)) :=
    stepV_unrecognised (by simpa using h)
  have hrest : (raiseInvalidOperation (latch op x y (envTurn s))).eng.pc = .rest := by
    rw [raiseInvalidOperation_at_rest] <;> simpa
  rw [transact, hostOperation_of_rest hc hr, hV, run_at_rest hrest]

/-- How many of the 256 bytes are illegal: all but the members of the set (R80). -/
theorem unrecognised_count (g : Gen) :
    ((List.range 256).filter (fun n => !recognised g (BitVec.ofNat 8 n))).length = 256 - (opset g).length := by
  cases g <;> decide +kernel

/-- Settles O41: the command is the transaction, which step `V` ends after the latch; the counts are those of the two
sets. -/
theorem invalidOperation : Obligations.InvalidOperation := by
  refine ⟨fun i op x y s hi hs h => ?_, unrecognised_count .a, unrecognised_count .b, by decide⟩
  have ⟨_, hr, hk⟩ := hs
  rw [exec_of_commandOf hi, transact_unrecognised hs h, raiseInvalidOperation_at_rest (by simpa) (by simpa), ← envTurn_eng s]
  exact ⟨_, _, _, _, rfl⟩

end Sys2Proof.Machine
end

section
/-! SUPPORT. `SCP_BUF` as one exact next state (R120). -/

namespace Sys2Proof.Machine

open Sys2Proof

/-- The payload starts where the header ends (R70). -/
theorem fieldAddr_payload_zero (cfg : Config) :
    fieldAddr cfg (.payload 0) = cfg.mboxBase + headerSize cfg.layout := rfl

/-- `SCP_BUF` leaves the engine at `REST`, so that its one step is the whole operation. -/
theorem exec_scpBuf {s : State} (hc : parametersOk s.cfg = true) (hr : s.eng.pc = .rest) :
    exec .scpBuf s = .next (returnBuf (envTurn s)) := by
  have hrest : (returnBuf (envTurn s)).eng.pc = .rest := by simpa using hr
  calc exec .scpBuf s
    _ = .next (run (budget 0#32 s) (returnBuf (envTurn s))) := hostOperation_of_rest hc hr 0#32 returnBuf
    _ = .next (returnBuf (envTurn s)) := by rw [run_at_rest hrest]

/-- Settles O35: the operation is the one update of the returned address, which is the end of the header in either
layout. -/
theorem scpBufReturnsPayloadAddress : Obligations.ScpBufReturnsPayloadAddress := by
  intro s hc hr
  have haddr : fieldAddr (envTurn s).cfg (.payload 0) = s.cfg.mboxBase + headerSize s.cfg.layout := by
    rw [envTurn_cfg, fieldAddr_payload_zero]
  rw [exec_scpBuf hc hr, returnBuf, haddr]
  cases s.cfg.layout with
  | a l => rfl
  | b l => rfl

end Sys2Proof.Machine
end

section
/-! SUPPORT. A chunked operation of size 0, which ends at the first `F_TEST` (R155). -/

namespace Sys2Proof.Machine

open Sys2Proof

/-- An empty buffer is clear of the shared regions wherever it lies. -/
theorem bufferClear_empty (cfg : Config) (base : Nat) : bufferClear cfg base 0 = true := by
  simp [bufferClear]

/-- An operation of any size has a requester step to spend. -/
theorem budget_pos (size : U32) (s : State) : 0 < budget size s := by
  unfold budget; omega

/-- With no byte left the chunk loop ends with `OK` (R155). -/
theorem stepFTest_empty {s : State} (h : s.eng.cSize = 0#32) :
    stepFTest s = { s with eng := { s.eng with cKind := .none, res := codeOk, pc := .rest } } := by
  simp [stepFTest, h]

theorem tick_at_fTest {s : State} (h : s.eng.pc = .fTest) : tick s = stepFTest (envTurn s) := by
  simp [tick, engineStep, h]

/-- `F_INIT` and `F_TEST` of an operation of size 0 write the chunk registers and `x[RES]`, and no other register. -/
theorem tick_chunkInit_empty_eng {s : State} (hr : s.eng.pc = .rest) (k : ChunkKind) (addr : U32) (buf : U64) :
    (tick (chunkInit k addr buf 0#32 s)).eng =
      { s.eng with cKind := .none, cAddr := addr, cSize := 0#32, cCur := 0#32, cBuf := buf, res := codeOk } := by
  rw [tick_at_fTest (by simp), stepFTest_empty (by simp), envTurn_eng, chunkInit_eng, ← hr]

/-- With nothing scheduled the turn between `F_INIT` and `F_TEST` does nothing, so that the registers are all that
changes. -/
theorem tick_chunkInit_empty {s : State} (hs : s.env.sched = []) (hr : s.eng.pc = .rest) (k : ChunkKind) (addr : U32)
    (buf : U64) :
    tick (chunkInit k addr buf 0#32 s) =
      { s with
        eng :=
          { s.eng with cKind := .none, cAddr := addr, cSize := 0#32, cCur := 0#32, cBuf := buf, res := codeOk } } := by
  have hturn : envTurn (chunkInit k addr buf 0#32 s) = chunkInit k addr buf 0#32 s :=
    envTurn_of_nil (by simpa using hs) (by simp) (by simp)
  rw [← tick_chunkInit_empty_eng hr k, tick_at_fTest (by simp), hturn, stepFTest_empty (by simp), chunkInit]

/-- A chunked operation of size 0 is `F_INIT` and the one step that follows it. -/
theorem chunked_empty {s : State} (hc : parametersOk s.cfg = true) (hr : s.eng.pc = .rest) (k : ChunkKind) (addr : U32)
    (buf : U64) : chunked k addr buf 0#32 s = .next (tick (chunkInit k addr buf 0#32 (envTurn s))) := by
  have hrest : (tick (chunkInit k addr buf 0#32 (envTurn s))).eng.pc = .rest := by
    rw [tick_chunkInit_empty_eng (by simpa using hr)]
    simpa using hr
  obtain ⟨n, hn⟩ := Nat.exists_eq_add_one.2 (budget_pos 0#32 s)
  rw [chunked, hostOperation_of_rest hc hr, hn, run_step (by simp) (waiting_of_pc (by simp)), run_at_rest hrest]

/-- Each of the three operations of size 0 is the chunk loop: an empty buffer overlaps nothing (R178). -/
theorem exec_empty {i : Instr} {addr : U32} {buf : U64} (s : State)
    (h : (i, buf) ∈ [(Instr.flashErase addr 0#32, 0#64), (.flashRead addr buf 0#32, buf),
      (.flashWrite addr buf 0#32, buf)]) :
    ∃ k, exec i s = chunked k addr buf 0#32 s := by
  have hclear : bufferClear s.cfg buf.toNat (0#32 : U32).toNat = true := bufferClear_empty s.cfg buf.toNat
  simp only [List.mem_cons, List.not_mem_nil, or_false, Prod.mk.injEq, and_true] at h
  rcases h with ⟨rfl, rfl⟩ | rfl | rfl
  · exact ⟨.erase, rfl⟩
  · exact ⟨.read, chunkedOn_of_clear hclear⟩
  · exact ⟨.write, chunkedOn_of_clear hclear⟩

/-- Settles O39: the operation is `F_INIT` and `F_TEST`, of which neither reads or writes anything but the chunk
registers and `x[RES]`. -/
theorem emptyOperationsAreNoOps : Obligations.EmptyOperationsAreNoOps := by
  intro i addr buf s hi hc hr
  have hr' : (envTurn s).eng.pc = .rest := by simpa using hr
  obtain ⟨k, hk⟩ := exec_empty s hi
  rw [hk, chunked_empty hc hr, ← envTurn_eng s]
  exact ⟨fun hs => by rw [tick_chunkInit_empty (by simp [hs]) hr'], _, rfl, tick_chunkInit_empty_eng hr' k addr buf⟩

end Sys2Proof.Machine
end

section
/-! SUPPORT. What reset sets and what it keeps (R220), from the equations of `State.resetFrom` per component. -/

namespace Sys2Proof.Machine

open Sys2Proof

/-- `SEED_GEN` of generation A (R7). -/
theorem seed_of_gen_a {cfg : Config} (h : cfg.gen = .a) : cfg.seed = cfg.seedA := by
  rw [Config.seed, h]

/-- `SEED_GEN` of generation B (R7). -/
theorem seed_of_gen_b {cfg : Config} (h : cfg.gen = .b) : cfg.seed = cfg.seedB := by
  rw [Config.seed, h]

/-- Settles O10: reset writes three engine registers and empties the queue of pending stores; which seed the id counter
gets is the one thing that turns on the generation. -/
theorem resetValues : Obligations.ResetValues := by
  intro cfg u r
  have hid : r.eng.nextId = cfg.seed := by rw [resetFrom_eng]
  refine ⟨resetFrom_cfg cfg u, ?_, ?_, ?_, resetFrom_bus cfg u⟩
  · cases hg : cfg.gen with
    | a => rw [hid, seed_of_gen_a hg]
    | b => rw [hid, seed_of_gen_b hg]
  · rw [hid, resetFrom_eng]
  · rw [resetFrom_ord]

end Sys2Proof.Machine
end

section
/-! SUPPORT. Calls as bytes: what the encoder writes the decoder reads, and the other way round (R73, R74, R85, R86; log 3). -/

namespace Sys2Proof

open Sys2Proof.Machine

/-! ### The rows of a generation -/

/-- The rows' bytes are the recognised op bytes (R73, R74). -/
theorem opByteRows_perm_opset (g : Gen) : ((opByteRows g).map Prod.fst).Perm (opset g) := by
  cases g <;> decide

theorem lookup_none_iff (g : Gen) (op : Byte) : (opByteRows g).lookup op = none ↔ recognised g op = false := by
  rw [← Bool.not_eq_true, recognised_iff, ← (opByteRows_perm_opset g).mem_iff, List.lookup_eq_none_iff]
  simp only [List.mem_map, bne_iff_ne, ne_eq]
  exact ⟨fun h ⟨p, hp, he⟩ => h p hp he.symm, fun h p hp he => h ⟨p, hp, he.symm⟩⟩

/-- A row that is found is that byte's call, and a row of the generation. -/
theorem row_of_mem {g : Gen} {op : Byte} {row : U32 → U32 → Instr} (h : (op, row) ∈ opByteRows g) (x y : U32) :
    encode (row x y) = encodeOpByte op x y ∧ commandOf (row x y) = some (op, x, y) ∧ (row x y).generation = some g
      ∧ (row x y).buffer = none ∧ 5 ≤ op.toNat := by
  cases g <;>
  · simp only [opByteRows, List.mem_cons, List.not_mem_nil, or_false, Prod.mk.injEq] at h
    casesm* _ ∨ _ <;> obtain ⟨rfl, rfl⟩ := ‹_ ∧ _› <;> exact ⟨rfl, rfl, rfl, rfl, by decide⟩

theorem mem_of_lookup {g : Gen} {op : Byte} {row : U32 → U32 → Instr} (h : (opByteRows g).lookup op = some row) :
    (op, row) ∈ opByteRows g := by
  obtain ⟨l, l', hl, -⟩ := List.lookup_eq_some_iff.1 h
  simp [hl]

/-- Every row of a generation's set is found under its byte. -/
theorem lookup_of_generation {g : Gen} {i : Instr} (h : i.generation = some g) :
    ∃ op x y, commandOf i = some (op, x, y) ∧ ∃ row, (opByteRows g).lookup op = some row ∧ i = row x y := by
  cases i with
  | scpCmd | scpBuf | flashErase | flashRead | flashWrite => exact absurd h (by simp [Instr.generation])
  | _ x y =>
    obtain rfl : _ = g := Option.some.inj h
    exact ⟨_, x, y, rfl, _, by rfl, rfl⟩

/-! ### Op bytes -/

/-- A first byte above the host operations' kinds is an op byte (log 3). -/
theorem decode_cons_opByte {op : Byte} (h : 5 ≤ op.toNat) (g : Gen) (bs : List Byte) :
    decode g (op :: bs) = decodeOpByte g op bs := by
  have hne : ∀ n : Byte, n.toNat < 5 → op ≠ n := fun n hn he => by subst he; omega
  simp only [decode, hne 0#8 (by decide), hne 1#8 (by decide), hne 2#8 (by decide), hne 3#8 (by decide),
    hne 4#8 (by decide), if_false]

theorem decode_encodeOpByte {op : Byte} (h : 5 ≤ op.toNat) (g : Gen) (x y : U32) (rest : List Byte) :
    decode g (encodeOpByte op x y ++ rest) = decodeOpByte g op (bytes32 x ++ (bytes32 y ++ rest)) := by
  rw [encodeOpByte, List.cons_append, List.append_assoc, decode_cons_opByte h]

theorem decodeOpByte_row {g : Gen} {op : Byte} {row : U32 → U32 → Instr} (h : (opByteRows g).lookup op = some row)
    (x y : U32) (rest : List Byte) :
    decodeOpByte g op (bytes32 x ++ (bytes32 y ++ rest)) = .ok (row x y, rest) := by
  simp only [decodeOpByte, takePair_bytes, h]

theorem decodeOpByte_illegal {g : Gen} {op : Byte} (h : recognised g op = false) (x y : U32) (rest : List Byte) :
    decodeOpByte g op (bytes32 x ++ (bytes32 y ++ rest)) = .error (.illegalOpByte op x y rest) := by
  simp only [decodeOpByte, takePair_bytes, (lookup_none_iff g op).2 h]

/-- An illegal op byte's call is answered with the byte and its operands (R80). -/
theorem decode_illegal {g : Gen} {op : Byte} (h5 : 5 ≤ op.toNat) (h : recognised g op = false) (x y : U32)
    (rest : List Byte) : decode g (encodeOpByte op x y ++ rest) = .error (.illegalOpByte op x y rest) := by
  rw [decode_encodeOpByte h5, decodeOpByte_illegal h]

theorem decode_row {g : Gen} {op : Byte} {row : U32 → U32 → Instr} (h : (opByteRows g).lookup op = some row)
    (x y : U32) (rest : List Byte) : decode g (encode (row x y) ++ rest) = .ok (row x y, rest) := by
  obtain ⟨henc, -, -, -, h5⟩ := row_of_mem (mem_of_lookup h) x y
  rw [henc, decode_encodeOpByte h5, decodeOpByte_row h]

/-- Settles O1: a row is found under its byte, and every host operation's operands are read back as they were written. -/
theorem decodeEncodeRoundTrip : Obligations.DecodeEncodeRoundTrip := by
  intro g i rest hwf
  cases hg : i.generation with
  | some g' =>
    obtain ⟨hgen, -⟩ := Bool.and_eq_true_iff.1 hwf
    obtain rfl : g' = g := by simpa [Instr.generationOk, hg] using hgen
    obtain ⟨op, x, y, -, row, hl, rfl⟩ := lookup_of_generation hg
    exact decode_row hl x y rest
  | none =>
    cases i with
    | scpCmd op x y => simp [encode, decode, decodeScpCmd, takePair_bytes]
    | scpBuf => simp [encode, decode]
    | flashErase addr size => simp [encode, decode, decodeErase, takePair_bytes]
    | flashRead addr dst size => simp [encode, decode, decodeBuffered, takeBuffered_bytes]
    | flashWrite addr src size => simp [encode, decode, decodeBuffered, takeBuffered_bytes]
    | _ => exact absurd hg (by simp [Instr.generation])

/-- Settles O5: the rows' bytes are the recognised ones, and a call's operands follow its byte. -/
theorem opByteDecodesIffRecognised : Obligations.OpByteDecodesIffRecognised := by
  intro g op x y rest h5
  refine ⟨fun h => ?_, fun h => decode_illegal h5 h x y rest⟩
  cases hl : (opByteRows g).lookup op with
  | none => exact absurd ((lookup_none_iff g op).1 hl) (by simp [h])
  | some row =>
    obtain ⟨-, hcmd, hgen, -, -⟩ := row_of_mem (mem_of_lookup hl) x y
    exact ⟨row x y, by rw [decode_encodeOpByte h5, decodeOpByte_row hl], hcmd, hgen⟩

/-- Settles O3: each call is evaluated on its bytes. -/
theorem callsDecodeAsWritten : Obligations.CallsDecodeAsWritten :=
  ⟨rfl, rfl, rfl, rfl, rfl, rfl, rfl, rfl, rfl⟩

/-! ### From bytes back to the call -/

theorem bytes64_append (hi lo : U32) : bytes64 (hi ++ lo) = bytes32 lo ++ bytes32 hi :=
  congrArg₂ (fun a b => bytes32 a ++ bytes32 b) BitVec.extractLsb'_append_eq_right BitVec.extractLsb'_append_eq_left

theorem take64_some {bs rest : List Byte} {w : U64} (h : take64 bs = some (w, rest)) : bs = bytes64 w ++ rest := by
  unfold take64 at h
  split at h
  · exact absurd h (by simp)
  · rename_i lo hi r hp
    simp only [Option.some.injEq, Prod.mk.injEq] at h
    obtain ⟨rfl, rfl⟩ := h
    rw [takePair_some hp, bytes64_append, List.append_assoc]

theorem takeBuffered_some {bs rest : List Byte} {a : U32} {b : U64} {n : U32}
    (h : takeBuffered bs = some (a, b, n, rest)) : bs = bytes32 a ++ (bytes64 b ++ (bytes32 n ++ rest)) := by
  unfold takeBuffered at h
  split at h
  · exact absurd h (by simp)
  · rename_i a' r ha
    split at h
    · exact absurd h (by simp)
    · rename_i b' r' hb
      split at h
      · exact absurd h (by simp)
      · rename_i n' r'' hn
        simp only [Option.some.injEq, Prod.mk.injEq] at h
        obtain ⟨rfl, rfl, rfl, rfl⟩ := h
        rw [take32_some ha, take64_some hb, take32_some hn]

theorem decodeScpCmd_ok {bs rest : List Byte} {i : Instr} (h : decodeScpCmd bs = .ok (i, rest)) :
    ∃ op x y, i = .scpCmd op x y ∧ bs = op :: (bytes32 x ++ (bytes32 y ++ rest)) := by
  unfold decodeScpCmd at h
  split at h
  · exact absurd h (by simp)
  · rename_i op bs'
    split at h
    · exact absurd h (by simp)
    · rename_i x y r hp
      simp only [Except.ok.injEq, Prod.mk.injEq] at h
      obtain ⟨rfl, rfl⟩ := h
      exact ⟨op, x, y, rfl, by rw [takePair_some hp]⟩

theorem decodeErase_ok {bs rest : List Byte} {i : Instr} (h : decodeErase bs = .ok (i, rest)) :
    ∃ x y, i = .flashErase x y ∧ bs = bytes32 x ++ (bytes32 y ++ rest) := by
  unfold decodeErase at h
  split at h
  · exact absurd h (by simp)
  · rename_i x y r hp
    simp only [Except.ok.injEq, Prod.mk.injEq] at h
    obtain ⟨rfl, rfl⟩ := h
    exact ⟨x, y, rfl, takePair_some hp⟩

theorem decodeBuffered_ok {row : U32 → U64 → U32 → Instr} {bs rest : List Byte} {i : Instr}
    (h : decodeBuffered row bs = .ok (i, rest)) :
    ∃ a b n, i = row a b n ∧ bs = bytes32 a ++ (bytes64 b ++ (bytes32 n ++ rest)) := by
  unfold decodeBuffered at h
  split at h
  · exact absurd h (by simp)
  · rename_i a b n r hp
    simp only [Except.ok.injEq, Prod.mk.injEq] at h
    obtain ⟨rfl, rfl⟩ := h
    exact ⟨a, b, n, rfl, takeBuffered_some hp⟩

theorem decodeOpByte_ok {g : Gen} {op : Byte} {bs rest : List Byte} {i : Instr}
    (h : decodeOpByte g op bs = .ok (i, rest)) :
    ∃ row x y, (opByteRows g).lookup op = some row ∧ i = row x y ∧ bs = bytes32 x ++ (bytes32 y ++ rest) := by
  unfold decodeOpByte at h
  split at h
  · exact absurd h (by simp)
  · rename_i x y r hp
    split at h
    · exact absurd h (by simp)
    · rename_i row hl
      simp only [Except.ok.injEq, Prod.mk.injEq] at h
      obtain ⟨rfl, rfl⟩ := h
      exact ⟨row, x, y, hl, rfl, takePair_some hp⟩

/-- Settles O2: each reader's bytes are the writer's, and an op byte decodes to a row of the generation's own list. -/
theorem decodedBytesAreTheEncoding : Obligations.DecodedBytesAreTheEncoding := by
  intro g bs rest i h
  cases bs with
  | nil => exact absurd h (by simp [decode])
  | cons b bs =>
    simp only [decode] at h
    split_ifs at h with h0 h1 h2 h3 h4
    · obtain ⟨op, x, y, rfl, rfl⟩ := decodeScpCmd_ok h
      exact ⟨by simp [encode, h0], rfl⟩
    · obtain ⟨rfl, rfl⟩ := Prod.mk.inj (Except.ok.inj h)
      exact ⟨by simp [encode, h1], rfl⟩
    · obtain ⟨x, y, rfl, rfl⟩ := decodeErase_ok h
      exact ⟨by simp [encode, h2], rfl⟩
    · obtain ⟨a, b', n, rfl, rfl⟩ := decodeBuffered_ok h
      exact ⟨by simp [encode, h3], rfl⟩
    · obtain ⟨a, b', n, rfl, rfl⟩ := decodeBuffered_ok h
      exact ⟨by simp [encode, h4], rfl⟩
    · obtain ⟨row, x, y, hl, rfl, rfl⟩ := decodeOpByte_ok h
      obtain ⟨henc, -, hgen, -, -⟩ := row_of_mem (mem_of_lookup hl) x y
      exact ⟨by simp [henc, encodeOpByte], by simp [Instr.generationOk, hgen]⟩

end Sys2Proof
end

section
/-! SUPPORT. Field stores byte by byte (R41, R43), and the one form of a memory (log 1). -/

namespace Sys2Proof.Machine

open Sys2Proof

/-! ### A field store -/

theorem getElem_bytes32 (v : U32) (k : Nat) (h : k < (bytes32 v).length) :
    (bytes32 v)[k] = v.extractLsb' (8 * k) 8 := by
  rw [bytes32_length] at h
  interval_cases k <;> rfl

/-- Byte `k` of a stored field is bits `8k+7:8k` of the value (R41, R43). -/
theorem read_writeField_byte {m : Memory} (hm : Memory.wf m = true) (cfg : Config) (f : Field) (v : U32) {k : Nat}
    (hk : k < fieldWidth f) : Memory.read (writeField cfg m f v) (fieldAddr cfg f + k) = v.extractLsb' (8 * k) 8 := by
  unfold writeField
  split
  · rename_i hw
    have hlen : k < (bytes32 v).length := by rw [bytes32_length]; omega
    rw [Memory.read_writeList_inside hm _ k hlen, getElem_bytes32]
  · have h1 : fieldWidth f = 1 := (fieldWidth_cases f).resolve_left ‹_›
    obtain rfl : k = 0 := by omega
    exact Memory.read_write_same hm _ _

/-- Settles O8: the bytes of the field are those of the value, and every other byte and field lies apart. -/
theorem fieldStoreLittleEndian : Obligations.FieldStoreLittleEndian := by
  intro cfg m f v h hm _
  exact ⟨fun k hk => read_writeField_byte hm cfg f v hk, fun a ha => read_writeField_outside cfg m f v a ha,
    readField_writeField_same hm cfg f v, fun g _ hg => readField_writeField_other h (Ne.symm hg) m v,
    Memory.wf_writeField hm⟩

/-! ### The canonical form -/

/-- Below the first entry of a canonical memory every address is unlisted. -/
theorem Memory.read_cons_of_lt {k a : Nat} {b : Byte} {m : Memory} (h : Memory.wf ((k, b) :: m) = true) (ha : a < k) :
    Memory.read ((k, b) :: m) a = Memory.fill := by
  obtain ⟨-, hall, -⟩ := Memory.wf_cons.1 h
  rw [Memory.read, if_neg (by omega)]
  exact Memory.read_erase_of_all_gt m a k hall (by omega)

theorem Memory.read_cons_self (k : Nat) (b : Byte) (m : Memory) : Memory.read ((k, b) :: m) k = b := by
  simp [Memory.read]

/-- The first address is the least one that reads as something else than what an unlisted one does. -/
theorem Memory.head_le_of_read_eq {k k' : Nat} {b b' : Byte} {m m' : Memory} (h : Memory.wf ((k, b) :: m) = true)
    (h' : Memory.wf ((k', b') :: m') = true)
    (he : ∀ a, Memory.read ((k, b) :: m) a = Memory.read ((k', b') :: m') a) : k' ≤ k := by
  by_contra hlt
  have hk := he k
  rw [Memory.read_cons_self, Memory.read_cons_of_lt h' (by omega)] at hk
  exact (Memory.wf_cons.1 h).1 hk

/-- Reading the tail is reading the memory but at the first address, which the tail does not list. -/
theorem Memory.read_tail {k : Nat} {b : Byte} {m : Memory} (h : Memory.wf ((k, b) :: m) = true) (a : Nat) :
    Memory.read m a = if a = k then Memory.fill else Memory.read ((k, b) :: m) a := by
  obtain ⟨-, hall, -⟩ := Memory.wf_cons.1 h
  split
  · exact Memory.read_erase_of_all_gt m a k hall (by omega)
  · rw [Memory.read, if_neg (by omega)]

/-- A canonical memory that reads as an empty one is empty. -/
theorem Memory.eq_nil_of_read {m : Memory} (h : Memory.wf m = true) (he : ∀ a, Memory.read m a = Memory.fill) :
    m = [] := by
  cases m with
  | nil => rfl
  | cons c m =>
    have hb := he c.1
    rw [Memory.read_cons_self] at hb
    exact absurd hb (Memory.wf_cons.1 h).1

/-- Settles O9, by induction on the first memory: the heads agree because each is the least listed address. -/
theorem memoryFormIsCanonical : Obligations.MemoryFormIsCanonical := by
  intro m
  induction m with
  | nil => exact fun m' _ h' he => (Memory.eq_nil_of_read h' fun a => (he a).symm).symm
  | cons c m ih =>
    obtain ⟨k, b⟩ := c
    intro m' h h' he
    cases m' with
    | nil => exact Memory.eq_nil_of_read h he
    | cons c' m' =>
      obtain ⟨k', b'⟩ := c'
      obtain rfl : k = k' :=
        le_antisymm (Memory.head_le_of_read_eq h' h fun a => (he a).symm) (Memory.head_le_of_read_eq h h' he)
      obtain rfl : b = b' := by simpa [Memory.read_cons_self] using he k
      have ht : m = m' := ih m' (Memory.wf_cons.1 h).2.2 (Memory.wf_cons.1 h').2.2 fun a => by
        rw [Memory.read_tail h, Memory.read_tail h', he a]
      rw [ht]

end Sys2Proof.Machine
end

section
/-! SUPPORT. The two sides of a location: what the engine's own side sees, what a pending store, a drain and a responder
move do to it, and what nobody but its owner changes (R33, R50 (b), R171). -/

namespace Sys2Proof.Machine

open Sys2Proof

/-! ### The engine's own view -/

/-- The newest store decides, so the later list comes first. -/
theorem ownStore_append (p q : List Store) (l : Loc) : ownStore (p ++ q) l = (ownStore q l).or (ownStore p l) := by
  induction p with
  | nil => simp [ownStore]
  | cons e p ih =>
    simp only [List.cons_append, ownStore, ih]
    cases ownStore q l <;> rfl

theorem ownView_eq (s : State) (l : Loc) : ownView s l = (ownStore s.ord.pending l).getD (visible s l) := by
  unfold ownView
  cases ownStore s.ord.pending l <;> rfl

/-- With no pending store of a location the engine's own side sees the visible value. -/
theorem ownView_of_not_pending {s : State} {l : Loc} (h : ∀ e ∈ s.ord.pending, l ≠ .field e.field) :
    ownView s l = visible s l := by
  rw [ownView_eq, ownStore_none h]
  rfl

theorem ownView_dbStatus (s : State) : ownView s .dbStatus = s.bus.dbStatus :=
  ownView_of_not_pending fun _ _ => by simp

theorem ownView_congr {s t : State} (hp : t.ord.pending = s.ord.pending) {l : Loc} (hv : visible t l = visible s l) :
    ownView t l = ownView s l := by
  rw [ownView_eq, ownView_eq, hp, hv]

@[simp] theorem visible_storeField (f : Field) (v : U32) (s : State) (l : Loc) :
    visible (storeField f v s) l = visible s l :=
  visible_congr rfl rfl rfl l

theorem ownView_storeField_same (f : Field) (v : U32) (s : State) : ownView (storeField f v s) (.field f) = v := by
  rw [ownView_eq, storeField_ord, ownStore_append_single]
  simp

theorem ownView_storeField_other {f : Field} {l : Loc} (h : l ≠ .field f) (v : U32) (s : State) :
    ownView (storeField f v s) l = ownView s l := by
  rw [ownView_eq, ownView_eq, storeField_ord, ownStore_append_single, visible_storeField]
  simp [h]

@[simp] theorem visible_storeBarrier (s : State) (l : Loc) : visible (storeBarrier s) l = visible s l :=
  visible_congr rfl rfl rfl l

@[simp] theorem ownView_storeBarrier (s : State) (l : Loc) : ownView (storeBarrier s) l = ownView s l := by
  rw [ownView_eq, ownView_eq, storeBarrier_ord, ownStore_map_barriers, visible_storeBarrier]

/-! ### Drains -/

theorem visible_pending_irrelevant (s : State) (ps : List Store) (l : Loc) :
    visible { s with ord := { s.ord with pending := ps } } l = visible s l :=
  visible_congr rfl rfl rfl l

/-- A store that becomes visible leaves what the engine's own side sees: it was the newest of its field, or the newer one
still hides it (R50 (b)). -/
theorem ownView_drain {s : State} (h : parametersOk s.cfg = true) (hm : Memory.wf s.bus.mem = true)
    (hn : pendingNormal s) (k : Nat) (f : Field) : ownView (drain k s) (.field f) = ownView s (.field f) := by
  rcases drain_cases k s with hd | ⟨p, e, q, hp, hfirst, hd⟩
  · rw [hd]
  have hown : ownStore s.ord.pending (.field f)
      = (ownStore q (.field f)).or ((if Loc.field f = .field e.field then some e.val else none).or (ownStore p (.field f))) := by
    rw [hp, ← List.singleton_append, ← List.append_assoc, ownStore_append, ownStore_append_single]
    split <;> simp
  rw [hd, ownView_eq, ownView_eq, hown, commit_ord, ownLocation_pending]
  simp only [ownStore_append]
  by_cases hf : f = e.field
  · subst hf
    have hnone : ownStore p (.field e.field) = none :=
      ownStore_none fun x hx => by simpa using fun he => (hfirst x hx).1 he.symm
    have hval : fieldValue e.field e.val = e.val := hn e (by simp [hp])
    rw [visible_commit_same (by exact hm), hval, hnone]
    cases ownStore q (.field e.field) <;> simp
  · rw [visible_commit_other (by exact h) hf, visible_pending_irrelevant]
    simp [hf]

/-- Settles O26: a drain leaves the engine's own view of every field. -/
theorem drainKeepsOwnView : Obligations.DrainKeepsOwnView :=
  fun _ k f hs h _ => ownView_drain h hs.memory hs.pendingWidth k f

/-! ### Bytes outside the mailbox -/

theorem pastAddr_notMailbox (cfg : Config) (k : Nat) : ¬ inMailbox cfg (pastAddr cfg k) := by
  unfold inMailbox pastAddr
  omega

/-- The caller's own bytes hold no field. -/
theorem visible_writeOwn {s : State} (h : parametersOk s.cfg = true) {a : Nat} (ha : ¬ inMailbox s.cfg a) (v : Byte)
    {f : Field} (hf : fieldExists s.cfg f) : visible (writeOwn a v s) (.field f) = visible s (.field f) :=
  readField_write_notMailbox h hf s.bus.mem v ha

theorem read_drain_notMailbox {s : State} (h : parametersOk s.cfg = true)
    (hp : ∀ e ∈ s.ord.pending, fieldExists s.cfg e.field) (k : Nat) {a : Nat} (ha : ¬ inMailbox s.cfg a) :
    Memory.read (drain k s).bus.mem a = Memory.read s.bus.mem a := by
  rcases drain_cases k s with hd | ⟨p, e, q, hpe, -, hd⟩ <;> rw [hd]
  exact read_writeField_notMailbox h (hp e (by simp [hpe])) _ _ ha

@[simp] theorem drain_dbStatus (k : Nat) (s : State) : (drain k s).bus.dbStatus = s.bus.dbStatus := by
  rcases drain_cases k s with hd | ⟨p, e, q, -, -, hd⟩ <;> rw [hd]
  rfl

@[simp] theorem drain_signals (k : Nat) (s : State) : (drain k s).bus.signals = s.bus.signals := by
  rcases drain_cases k s with hd | ⟨p, e, q, -, -, hd⟩ <;> rw [hd]
  rfl

@[simp] theorem drain_oversize (k : Nat) (s : State) : (drain k s).bus.oversize = s.bus.oversize := by
  rcases drain_cases k s with hd | ⟨p, e, q, -, -, hd⟩ <;> rw [hd]
  rfl

/-! ### Responder moves -/

theorem requestHeader_exists {f : Field} (h : requestHeader f = true) (cfg : Config) : fieldExists cfg f := by
  cases f <;> simp [requestHeader, fieldExists] at h ⊢

theorem visible_scpStore_other {s : State} (h : parametersOk s.cfg = true) {f g : Field} (hfg : g ≠ f) (v : U32) :
    visible (scpStore f v s) (.field g) = visible s (.field g) :=
  readField_writeField_other h (Ne.symm hfg) s.bus.mem v

theorem visible_scpStore_same {s : State} (hm : Memory.wf s.bus.mem = true) (f : Field) (v : U32) :
    visible (scpStore f v s) (.field f) = fieldValue f v :=
  readField_writeField_same hm s.cfg f v

/-- The monitor beside a responder move is no part of what anyone sees. -/
theorem visible_scpMove (m : ScpMove) (s : State) (f : Field) :
    visible (scpMove m s) (.field f) = visible (scpEffect m s) (.field f) := rfl

@[simp] theorem scpMove_bus (m : ScpMove) (s : State) : (scpMove m s).bus = (scpEffect m s).bus := rfl

@[simp] theorem scpMove_window (m : ScpMove) (s : State) : (scpMove m s).window = (scpEffect m s).window := rfl

@[simp] theorem scpMove_ord (m : ScpMove) (s : State) : (scpMove m s).ord = (scpEffect m s).ord := rfl

/-- The responder leaves the fields that only the requester writes (R171). -/
theorem visible_scpMove_header {s : State} (h : parametersOk s.cfg = true) (m : ScpMove) {f : Field}
    (hf : requestHeader f = true) : visible (scpMove m s) (.field f) = visible s (.field f) := by
  rw [visible_scpMove]
  rcases scpEffect_cases m s with ⟨g, v, hg, he⟩ | he | ⟨k, v, -, -, -, he⟩ | ⟨w, n, k, he, -⟩ <;> rw [he]
  · refine visible_scpStore_other h (fun hfg => ?_) v
    subst hfg
    rcases hg with rfl | rfl | ⟨i, rfl, -⟩ <;> simp [requestHeader] at hf
  · rfl
  · exact visible_writeOwn h (pastAddr_notMailbox s.cfg k) v (requestHeader_exists hf s.cfg)
  · rfl

@[simp] theorem scpMove_oversize (m : ScpMove) (s : State) : (scpMove m s).bus.oversize = s.bus.oversize := by
  rcases scpEffect_cases m s with ⟨f, v, -, h⟩ | h | ⟨i, b, -, -, -, h⟩ | ⟨w, n, k, h, -⟩ <;> simp [h]

@[simp] theorem scpMove_retBuf (m : ScpMove) (s : State) : (scpMove m s).env.retBuf = s.env.retBuf := by
  rcases scpEffect_cases m s with ⟨f, v, -, h⟩ | h | ⟨i, b, -, -, -, h⟩ | ⟨w, n, k, h, -⟩ <;> simp [scpMove, h]

@[simp] theorem scpMove_hostSeen (m : ScpMove) (s : State) : (scpMove m s).env.hostSeen = s.env.hostSeen := by
  rcases scpEffect_cases m s with ⟨f, v, -, h⟩ | h | ⟨i, b, -, -, -, h⟩ | ⟨w, n, k, h, -⟩ <;> simp [scpMove, h]

/-- Outside the mailbox the responder writes one byte at most, and that after an oversize command (R229, U3; log 9). -/
theorem read_scpMove_notMailbox {s : State} (h : parametersOk s.cfg = true) (m : ScpMove) {a : Nat}
    (ha : ¬ inMailbox s.cfg a)
    (hpast : ∀ k v, m = .writePast k v → s.bus.oversize = true → a ≠ pastAddr s.cfg k) :
    Memory.read (scpMove m s).bus.mem a = Memory.read s.bus.mem a := by
  rw [scpMove_bus]
  rcases scpEffect_cases m s with ⟨g, v, hg, he⟩ | he | ⟨k, v, hm, ho, -, he⟩ | ⟨w, n, k, he, -⟩ <;> rw [he]
  · refine read_writeField_notMailbox h ?_ _ _ ha
    rcases hg with rfl | rfl | ⟨i, rfl, hi⟩
    · trivial
    · trivial
    · exact hi
  · rfl
  · exact Memory.read_write_other _ _ (hpast k v hm ho)

/-- Settles O25: a responder step is one of four effects, and none of them is the requester's. -/
theorem responderKeepsOwnership : Obligations.ResponderKeepsOwnership := by
  intro m s h
  have hbusy : busyBit (scpMove m s).bus.dbStatus = true → busyBit s.bus.dbStatus = true := fun ht => by
    by_contra hs
    rw [scpMove_busy (by simpa using hs)] at ht
    exact absurd ht (by simp)
  exact ⟨scpMove_eng m s, scpMove_cfg m s, scpMove_pending m s, scpMove_now m s, scpMove_offers m s,
    scpMove_oversize m s, fun f hf => visible_scpMove_header h m hf,
    fun a ha hpast => read_scpMove_notMailbox h m ha hpast, hbusy, scpMove_signals_le m s⟩

end Sys2Proof.Machine
end

section
/-! SUPPORT. What each requester step does, said once per step (R102 to R114, R151): every later proof about a run reads a
step here and not from its definition. -/

namespace Sys2Proof.Machine

open Sys2Proof

/-! ### The idle predicate and the sample -/

/-- Settles O20: the three conjuncts of the predicate, each as an equation. -/
theorem idlePredicate : Obligations.IdlePredicate := by
  intro x
  simp [idle, statusGood, statusExecuting, and_assoc]

/-- A sample read is one load, or the step from the sample to the deadline test: engine registers and older values. -/
theorem sampleRead_eq (s : State) :
    ∃ a x o, sampleRead s = { s with eng := { s.eng with sampleAt := a, sample := x }, ord := o }
      ∧ o.pending = s.ord.pending := by
  unfold sampleRead
  split <;> exact ⟨_, _, _, rfl, rfl⟩

@[simp] theorem sampleRead_window (s : State) : (sampleRead s).window = s.window := by
  obtain ⟨a, x, o, h, -⟩ := sampleRead_eq s
  rw [h]

@[simp] theorem visible_sampleRead (s : State) (l : Loc) : visible (sampleRead s) l = visible s l :=
  visible_congr (sampleRead_cfg s) (sampleRead_bus s) (sampleRead_freeCtr s) l

@[simp] theorem ownView_sampleRead (s : State) (l : Loc) : ownView (sampleRead s) l = ownView s l :=
  ownView_congr (sampleRead_pending s) (visible_sampleRead s l)

theorem sampleRead_rdBusy {s : State} (h : s.eng.sampleAt = .rdBusy) :
    sampleRead s = { afterLoad s .dbStatus with eng := { s.eng with
      sample := { s.eng.sample with busy := busyBit (loadValue s .dbStatus) }, sampleAt := .rdExec } } := by
  simp only [sampleRead, h]

theorem sampleRead_rdExec {s : State} (h : s.eng.sampleAt = .rdExec) :
    sampleRead s = { afterLoad s (.field .execId) with eng := { s.eng with
      sample := { s.eng.sample with exec := loadValue s (.field .execId) }, sampleAt := .rdReq } } := by
  simp only [sampleRead, h]

theorem sampleRead_rdReq {s : State} (h : s.eng.sampleAt = .rdReq) :
    sampleRead s = { afterLoad s (.field .requestId) with eng := { s.eng with
      sample := { s.eng.sample with req := loadValue s (.field .requestId) }, sampleAt := .rdStatus } } := by
  simp only [sampleRead, h]

theorem sampleRead_rdStatus {s : State} (h : s.eng.sampleAt = .rdStatus) :
    sampleRead s = { afterLoad s (.field .status) with eng := { s.eng with
      sample := { s.eng.sample with st := lowByte (loadValue s (.field .status)) }, sampleAt := .rdNow } } := by
  simp only [sampleRead, h]

theorem sampleRead_rdNow {s : State} (h : s.eng.sampleAt = .rdNow) :
    sampleRead s = { s with eng := { s.eng with sampleAt := .rdBusy } } := by
  simp only [sampleRead, h]

/-- A load that returns the newest value leaves nothing newer to go back to, and forgets its own location. -/
theorem afterLoad_of_pick_zero {s : State} (h : s.ord.loadPick = 0) (l : Loc) :
    afterLoad s l = { s with ord := { s.ord with
      stale := [], passed := forget l (s.ord.stale ++ s.ord.passed), loadPick := 0 } } := by
  rw [forget_append]
  simp [afterLoad, h]

theorem ownView_same {s t : State} (hc : t.cfg = s.cfg) (hb : t.bus = s.bus) (hf : t.freeCtr = s.freeCtr)
    (hp : t.ord.pending = s.ord.pending) (l : Loc) : ownView t l = ownView s l :=
  ownView_congr hp (visible_congr hc hb hf l)

/-- The four locations of a sample, forgotten one after the other. -/
theorem forget_sampled (os : List Older) :
    forget (.field .status) (forget (.field .requestId) (forget (.field .execId) (forget .dbStatus os)))
      = os.filter (fun x => !sampledLocs.contains x.loc) := by
  simp only [forget, List.filter_filter]
  refine List.filter_congr fun x _ => ?_
  simp only [sampledLocs, List.contains_eq_mem, List.mem_cons, List.not_mem_nil, or_false]
  grind

/-- The four reads of `Idle()` with no load satisfied early, one after the other (R104): each reads the engine's own view
of its location. -/
theorem sampleRead_reads {s : State} (hp : s.ord.loadPick = 0) (ha : s.eng.sampleAt = .rdBusy) :
    let r1 := sampleRead s
    let r2 := sampleRead r1
    let r3 := sampleRead r2
    let r4 := sampleRead r3
    r1 = { s with
        eng := { s.eng with sample := { s.eng.sample with busy := busyBit (ownView s .dbStatus) }, sampleAt := .rdExec }
        ord := r1.ord }
      ∧ r2 = { r1 with
          eng := { r1.eng with sample := { r1.eng.sample with exec := ownView s (.field .execId) }, sampleAt := .rdReq }
          ord := r2.ord }
      ∧ r3 = { r2 with
          eng := { r2.eng with sample := { r2.eng.sample with req := ownView s (.field .requestId) }, sampleAt := .rdStatus }
          ord := r3.ord }
      ∧ r4 = { r3 with
          eng := { r3.eng with sample := { r3.eng.sample with st := lowByte (ownView s (.field .status)) }, sampleAt := .rdNow }
          ord := ordAfterSample s.ord } := by
  intro r1 r2 r3 r4
  have e1 : r1 = _ := sampleRead_rdBusy ha
  have p1 : r1.ord.loadPick = 0 := by rw [e1]; rfl
  have e2 : r2 = _ := sampleRead_rdExec (s := r1) (by rw [e1])
  have p2 : r2.ord.loadPick = 0 := by rw [e2]; rfl
  have e3 : r3 = _ := sampleRead_rdReq (s := r2) (by rw [e2])
  have p3 : r3.ord.loadPick = 0 := by rw [e3]; rfl
  have e4 : r4 = _ := sampleRead_rdStatus (s := r3) (by rw [e3])
  have v1 : ∀ l, ownView r1 l = ownView s l := ownView_sampleRead s
  have v2 : ∀ l, ownView r2 l = ownView s l := fun l => by rw [← v1, ← ownView_sampleRead r1]
  have v3 : ∀ l, ownView r3 l = ownView s l := fun l => by rw [← v2, ← ownView_sampleRead r2]
  rw [loadValue_of_pick_zero hp] at e1
  rw [loadValue_of_pick_zero p1, v1] at e2
  rw [loadValue_of_pick_zero p2, v2] at e3
  rw [loadValue_of_pick_zero p3, v3] at e4
  have o4 : r4.ord = ordAfterSample s.ord := by
    rw [e4, afterLoad_of_pick_zero p3, e3, afterLoad_of_pick_zero p2, e2, afterLoad_of_pick_zero p1, e1,
      afterLoad_of_pick_zero hp]
    simp only [List.nil_append, forget_sampled, ordAfterSample]
    rw [← hp]
  exact ⟨by rw [e1]; rfl, by rw [e2]; rfl, by rw [e3]; rfl, by rw [← o4, e4]; rfl⟩

/-- The four reads of `Idle()` with no load satisfied early give the engine's own sample (R104). -/
theorem sampleRead_four {s : State} (hp : s.ord.loadPick = 0) (ha : s.eng.sampleAt = .rdBusy) :
    sampleRead (sampleRead (sampleRead (sampleRead s))) =
      { s with eng := { s.eng with sample := ownSample s, sampleAt := .rdNow }, ord := ordAfterSample s.ord } := by
  obtain ⟨e1, e2, e3, e4⟩ := sampleRead_reads hp ha
  rw [e4, e3, e2, e1]
  rfl

/-- Settles O21: each read is a load of the next location, and a load moves the older values only. -/
theorem idleSampleReads : Obligations.IdleSampleReads := by
  intro s hp ha
  obtain ⟨e1, e2, e3, e4⟩ := sampleRead_reads hp ha
  refine ⟨by rw [e1], by rw [e2], by rw [e3], by rw [e4], ?_, ?_, ?_, ?_⟩ <;> rw [sampleRead_four hp ha]
  rfl

end Sys2Proof.Machine
end

section
/-! SUPPORT. How a transaction ends, and what any requester step leaves alone (R33, R48, R196). -/

namespace Sys2Proof.Machine

open Sys2Proof

/-! ### Completion -/

/-- Where a transaction of a caller of kind `k` goes back to (00_scope.md section 6, R151). -/
def returnPc (code : BitVec 3) : ChunkKind → Pc
  | .none => .rest
  | .read => if code = codeOk then .fCopyOut else .rest
  | .erase | .write => if code = codeOk then .fAdv else .rest

/-- A completion as one update (R196): the result, the record, the way back, the end of the window after an error. -/
theorem complete_eq (code : BitVec 3) (r x : U32) (st : Byte) (v : Bool) (s : State) :
    complete code r x st v s =
      { s with
        eng :=
          { s.eng with
            res := code
            diag :=
              { kind := code, op := s.eng.op, arg0 := s.eng.arg0, arg1 := s.eng.arg1, req := r, exec := x
                status := st, valid := v }
            pc := returnPc code s.eng.cKind
            cKind := if code = codeOk then s.eng.cKind else .none
            cIdx := if code = codeOk ∧ s.eng.cKind = .read then 0#32 else s.eng.cIdx }
        window := if code = codeOk then s.window else 0 } := by
  unfold complete returnToCaller
  cases hk : s.eng.cKind <;> by_cases hc : code = codeOk <;> simp [hk, hc, returnPc, goto]

theorem returnPc_cases (code : BitVec 3) (k : ChunkKind) :
    (returnPc code k = .rest ∧ (k = .none ∨ code ≠ codeOk))
      ∨ (returnPc code k = .fCopyOut ∧ code = codeOk ∧ k = .read)
      ∨ (returnPc code k = .fAdv ∧ code = codeOk ∧ (k = .erase ∨ k = .write)) := by
  cases k <;> by_cases h : code = codeOk <;> simp [returnPc, h]

theorem returnPc_error {code : BitVec 3} (h : code ≠ codeOk) (k : ChunkKind) : returnPc code k = .rest := by
  cases k <;> simp [returnPc, h]

@[simp] theorem returnPc_none (code : BitVec 3) : returnPc code .none = .rest := rfl

@[simp] theorem visible_complete (code : BitVec 3) (r x : U32) (st : Byte) (v : Bool) (s : State) (l : Loc) :
    visible (complete code r x st v s) l = visible s l :=
  visible_congr (complete_cfg ..) (complete_bus ..) (complete_freeCtr ..) l

/-- Step `V`, by whether the op byte is recognised (R102). -/
theorem stepV_cases (s : State) :
    (recognised s.cfg.gen s.eng.op = true ∧ stepV s = { s with eng := { s.eng with sampleAt := .rdBusy, pc := .c } })
      ∨ (recognised s.cfg.gen s.eng.op = false ∧ stepV s = raiseInvalidOperation s) := by
  unfold stepV
  split
  · exact .inl ⟨‹_›, rfl⟩
  · exact .inr ⟨Bool.eq_false_of_not_eq_true ‹_›, rfl⟩

/-- Step `C`: a read of the sample, and at the last one the busy check (R103). -/
theorem stepC_cases (s : State) :
    (s.eng.sampleAt ≠ .rdStatus ∧ stepC s = sampleRead s)
      ∨ (s.eng.sampleAt = .rdStatus ∧ idle (sampleRead s).eng.sample = true ∧ stepC s = goto .wOp (sampleRead s))
      ∨ (s.eng.sampleAt = .rdStatus ∧ idle (sampleRead s).eng.sample = false
          ∧ stepC s = raiseChannelBusy (sampleRead s)) := by
  unfold stepC
  cases ha : s.eng.sampleAt <;> simp
  cases idle (sampleRead s).eng.sample <;> simp

/-- Step `POLL`: a read of the sample, at the last one the idle test, and after it the deadline test (R111). -/
theorem stepPoll_cases (s : State) :
    (stepPoll s = sampleRead s
        ∧ (s.eng.sampleAt = .rdNow → expired s.env.now s.eng.t0 (timeoutTicks s.cfg) = false)
        ∧ (s.eng.sampleAt = .rdStatus → idle (sampleRead s).eng.sample = false))
      ∨ (s.eng.sampleAt = .rdStatus ∧ idle (sampleRead s).eng.sample = true ∧ stepPoll s = goto .lb (sampleRead s))
      ∨ (s.eng.sampleAt = .rdNow ∧ expired s.env.now s.eng.t0 (timeoutTicks s.cfg) = true
          ∧ stepPoll s = raiseTimeout s) := by
  unfold stepPoll
  cases ha : s.eng.sampleAt <;> simp
  · cases idle (sampleRead s).eng.sample <;> simp
  · cases expired s.env.now s.eng.t0 (timeoutTicks s.cfg) <;> simp

/-- Step `RESOLVE` (R114): `OK` exactly with `'G'`. -/
theorem stepResolve_cases (s : State) :
    (s.eng.rdSt = statusGood ∧ stepResolve s = returnOk s) ∨ (s.eng.rdSt ≠ statusGood ∧ stepResolve s = raiseFault s) := by
  unfold stepResolve
  split
  · exact .inl ⟨‹_›, rfl⟩
  · exact .inr ⟨‹_›, rfl⟩

/-- A completion with an error goes to `REST` with no chunk loop (R190). -/
theorem complete_error {code : BitVec 3} (h : code ≠ codeOk) (r x : U32) (st : Byte) (v : Bool) (s : State) :
    (complete code r x st v s).eng.pc = .rest ∧ (complete code r x st v s).eng.cKind = .none := by
  simp [complete_eq, returnPc_error h, h]

/-- Settles O22: each of the steps that can end a transaction is a completion of the state after its sample. -/
theorem transactionEndings : Obligations.TransactionEndings := by
  intro s t smp recorded toRest
  refine ⟨fun hp hr => ?_, fun hp ha hi => ?_, fun hp ha he => ?_, fun hp => ?_, fun hp hst => ?_, fun hp hst => ?_⟩
  · have ht : t = raiseInvalidOperation s := by
      simp only [t, engineStep, hp]
      exact stepV_unrecognised hr
    have hend := complete_error (code := codeInvalidOperation) (by decide) (Config.freeWord s.freeCtr)
      (Config.freeWord (s.freeCtr + 1)) (Config.freeByte s.freeCtr) false { s with freeCtr := s.freeCtr + 2 }
    simp only [toRest, ht]
    refine ⟨?_, ?_, ?_, ?_, ?_, ?_, ?_, ?_, ?_, ?_, ?_, hend⟩ <;> simp [raiseInvalidOperation, complete_eq]
    exact fun h => absurd h (by decide)
  · have ht : t = raiseChannelBusy (sampleRead s) := by
      simp only [t, engineStep, hp]
      obtain ⟨h, -⟩ | ⟨-, h, -⟩ | ⟨-, -, h⟩ := stepC_cases s
      · exact absurd ha h
      · exact absurd h (by simp [smp] at hi; simp [hi])
      · exact h
    obtain ⟨a, x, o, hs, ho⟩ := sampleRead_eq s
    have hend := complete_error (code := codeChannelBusy) (by decide) smp.req smp.exec smp.st true (sampleRead s)
    simp only [recorded, toRest, ht]
    refine ⟨?_, hend⟩
    simp [raiseChannelBusy, complete_eq, smp, hs, ho]
  · have ht : t = raiseTimeout s := by
      simp only [t, engineStep, hp, stepPoll, ha, he]
      rfl
    have hend := complete_error (code := codeTimeout) (by decide) s.eng.sample.req s.eng.sample.exec s.eng.sample.st true s
    simp only [recorded, toRest, ht]
    refine ⟨?_, hend⟩
    simp [raiseTimeout, complete_eq]
  · simp only [t, engineStep, hp]
    exact ⟨stepLb_window s, rfl⟩
  · have ht : t = raiseFault s := by
      simp only [t, engineStep, hp, stepResolve, hst, if_false]
    have hend := complete_error (code := codeFault) (by decide) s.eng.sample.req s.eng.sample.exec s.eng.rdSt true s
    simp only [recorded, toRest, ht]
    refine ⟨?_, hend⟩
    simp [raiseFault, complete_eq]
  · have ht : t = returnOk s := by
      simp only [t, engineStep, hp, stepResolve, hst, if_true]
    simp only [recorded, toRest, ht, returnOk]
    refine ⟨by simp [complete_eq], fun hk => ?_, fun hk => ?_, fun hk => ?_⟩
    · simp [complete_eq, hk]
    · simp [complete_eq, hk, returnPc]
    · rcases hk with hk | hk <;> simp [complete_eq, hk, returnPc]

/-! ### A transaction's step -/

/-- The registers that hold the command and its caller: a transaction changes them at its end only. -/
structure SameCommand (e e' : Engine) : Prop where
  op : e'.op = e.op
  arg0 : e'.arg0 = e.arg0
  arg1 : e'.arg1 = e.arg1
  cKind : e'.cKind = e.cKind
  cAddr : e'.cAddr = e.cAddr
  cSize : e'.cSize = e.cSize
  cCur : e'.cCur = e.cCur
  cChunk : e'.cChunk = e.cChunk
  cIdx : e'.cIdx = e.cIdx
  cBuf : e'.cBuf = e.cBuf
  res : e'.res = e.res
  diag : e'.diag = e.diag

/-- `t` is the state in which a transaction in progress in `s` has handed control back with `code` (R196). -/
structure Completes (code : BitVec 3) (s t : State) : Prop where
  cfg : t.cfg = s.cfg
  bus : t.bus = s.bus
  pending : t.ord.pending = s.ord.pending
  env : t.env = s.env
  window : t.window = if code = codeOk then s.window else 0
  nextId : t.eng.nextId = s.eng.nextId
  op : t.eng.op = s.eng.op
  arg0 : t.eng.arg0 = s.eng.arg0
  arg1 : t.eng.arg1 = s.eng.arg1
  t0 : t.eng.t0 = s.eng.t0
  rdSt : t.eng.rdSt = s.eng.rdSt
  cAddr : t.eng.cAddr = s.eng.cAddr
  cSize : t.eng.cSize = s.eng.cSize
  cCur : t.eng.cCur = s.eng.cCur
  cChunk : t.eng.cChunk = s.eng.cChunk
  cBuf : t.eng.cBuf = s.eng.cBuf
  res : t.eng.res = code
  diagKind : t.eng.diag.kind = code
  diagOp : t.eng.diag.op = s.eng.op
  diagArg0 : t.eng.diag.arg0 = s.eng.arg0
  diagArg1 : t.eng.diag.arg1 = s.eng.arg1
  pc : t.eng.pc = returnPc code s.eng.cKind
  cKind : t.eng.cKind = if code = codeOk then s.eng.cKind else .none
  cIdx : t.eng.cIdx = if code = codeOk ∧ s.eng.cKind = .read then 0#32 else s.eng.cIdx

theorem completes_complete (code : BitVec 3) (r x : U32) (st : Byte) (v : Bool) (s : State) :
    Completes code s (complete code r x st v s) := by
  rw [complete_eq]
  constructor <;> rfl

theorem completes_raiseInvalidOperation (s : State) : Completes codeInvalidOperation s (raiseInvalidOperation s) := by
  rw [raiseInvalidOperation, complete_eq]
  constructor <;> rfl

theorem completes_raiseChannelBusy_sampleRead (s : State) :
    Completes codeChannelBusy s (raiseChannelBusy (sampleRead s)) := by
  obtain ⟨a, x, o, hs, ho⟩ := sampleRead_eq s
  rw [raiseChannelBusy, complete_eq, hs]
  constructor <;> first | rfl | exact ho

/-- Which step of a transaction may end it with which result (R190). -/
def endsAt : Pc → BitVec 3 → Prop
  | .v, code => code = codeInvalidOperation
  | .c, code => code = codeChannelBusy
  | .poll, code => code = codeTimeout
  | .resolve, code => code = codeOk ∨ code = codeFault
  | .rest, _ | .wOp, _ | .wA0, _ | .wA1, _ | .wId, _ | .sb, _ | .ring, _ | .t0, _ | .lb, _ | .rdSt, _
  | .fInit, _ | .fTest, _ | .fChunk, _ | .fCopyIn, _ | .fCmd, _ | .fCopyOut, _ | .fAdv, _ => False

/-- A step of a transaction ends it, or goes on to a step after the op check with the same command. -/
theorem engineStep_transaction {s : State} (h : inTransaction s.eng.pc = true) :
    (∃ code, endsAt s.eng.pc code ∧ Completes code s (engineStep s))
      ∨ (opChecked (engineStep s).eng.pc = true ∧ SameCommand s.eng (engineStep s).eng
          ∧ (s.eng.pc = .v → recognised s.cfg.gen s.eng.op = true)) := by
  obtain ⟨a, x, o, hs, -⟩ := sampleRead_eq s
  cases hp : s.eng.pc <;> rw [hp] at h <;> simp only [engineStep, hp, reduceCtorEq, false_implies, and_true]
  case v =>
    rcases stepV_cases s with ⟨hr, he⟩ | ⟨-, he⟩ <;> rw [he]
    · exact .inr ⟨rfl, by constructor <;> rfl, fun _ => hr⟩
    · exact .inl ⟨_, rfl, completes_raiseInvalidOperation s⟩
  case c =>
    rcases stepC_cases s with ⟨-, he⟩ | ⟨-, -, he⟩ | ⟨-, -, he⟩ <;> rw [he]
    · exact .inr ⟨by rw [hs]; simp [hp, opChecked], by rw [hs]; constructor <;> rfl⟩
    · exact .inr ⟨rfl, by rw [hs]; constructor <;> rfl⟩
    · exact .inl ⟨_, rfl, completes_raiseChannelBusy_sampleRead s⟩
  case poll =>
    rcases stepPoll_cases s with ⟨he, -⟩ | ⟨-, -, he⟩ | ⟨-, -, he⟩ <;> rw [he]
    · exact .inr ⟨by rw [hs]; simp [hp, opChecked], by rw [hs]; constructor <;> rfl⟩
    · exact .inr ⟨rfl, by rw [hs]; constructor <;> rfl⟩
    · exact .inl ⟨_, rfl, completes_complete ..⟩
  case resolve =>
    rcases stepResolve_cases s with ⟨-, he⟩ | ⟨-, he⟩ <;> rw [he]
    · exact .inl ⟨_, .inl rfl, completes_complete ..⟩
    · exact .inl ⟨_, .inr rfl, completes_complete ..⟩
  case wA0 => unfold stepWA0; split <;> exact .inr ⟨rfl, by constructor <;> rfl⟩
  case wA1 => unfold stepWA1; split <;> exact .inr ⟨rfl, by constructor <;> rfl⟩
  case ring => exact .inr ⟨rfl, by rw [stepRing, goto_eng, writeSignal_one_eng]; constructor <;> rfl⟩
  case wOp | wId | sb | t0 | lb | rdSt => exact .inr ⟨rfl, by constructor <;> rfl⟩
  all_goals exact absurd h (by decide)

/-! ### What any requester step leaves alone -/

@[simp] theorem copyNext_window (p : Pc) (s : State) : (copyNext p s).window = s.window := by
  unfold copyNext; split <;> rfl

/-- The index and the phase are all that `copyNext` sets. -/
theorem copyNext_eng (p : Pc) (s : State) :
    (copyNext p s).eng =
      if s.eng.cIdx.toNat + 1 < s.eng.cChunk.toNat then { s.eng with cIdx := s.eng.cIdx + 1#32 }
      else { s.eng with cIdx := 0#32, pc := p } := by
  unfold copyNext; split <;> rfl

/-- No step of the chunk loop that is not a copy or the start of a transaction touches more than engine registers. -/
theorem stepFTest_eq (s : State) :
    stepFTest s = { s with eng :=
      if s.eng.cSize = 0#32 then { s.eng with cKind := .none, res := codeOk, pc := .rest }
      else { s.eng with pc := .fChunk } } := by
  unfold stepFTest; split <;> rfl

@[simp] theorem engineStep_cfg (s : State) : (engineStep s).cfg = s.cfg := by
  cases hp : s.eng.pc <;> simp only [engineStep, hp]
  case v => rcases stepV_cases s with ⟨-, he⟩ | ⟨-, he⟩ <;> simp [he]
  case c => rcases stepC_cases s with ⟨-, he⟩ | ⟨-, -, he⟩ | ⟨-, -, he⟩ <;> simp [he, raiseChannelBusy]
  case poll => rcases stepPoll_cases s with ⟨he, -⟩ | ⟨-, -, he⟩ | ⟨-, -, he⟩ <;> simp [he, raiseTimeout]
  case resolve => rcases stepResolve_cases s with ⟨-, he⟩ | ⟨-, he⟩ <;> simp [he, returnOk, raiseFault]
  case wA0 => unfold stepWA0; split <;> rfl
  case wA1 => unfold stepWA1; split <;> rfl
  case ring => simp [stepRing]
  case fTest => rw [stepFTest_eq]
  case fCopyIn => simp [stepFCopyIn]
  case fCopyOut => simp [stepFCopyOut]
  all_goals rfl

@[simp] theorem tick_cfg (s : State) : (tick s).cfg = s.cfg := by
  simp [tick]

/-- Only the doorbell write and the copy-out touch shared memory or the doorbell at once (R30, R48). -/
theorem engineStep_bus {s : State} (hr : s.eng.pc ≠ .ring) (ho : s.eng.pc ≠ .fCopyOut) : (engineStep s).bus = s.bus := by
  cases hp : s.eng.pc <;> simp only [engineStep, hp]
  case v => rcases stepV_cases s with ⟨-, he⟩ | ⟨-, he⟩ <;> simp [he, raiseInvalidOperation]
  case c => rcases stepC_cases s with ⟨-, he⟩ | ⟨-, -, he⟩ | ⟨-, -, he⟩ <;> simp [he, raiseChannelBusy]
  case poll => rcases stepPoll_cases s with ⟨he, -⟩ | ⟨-, -, he⟩ | ⟨-, -, he⟩ <;> simp [he, raiseTimeout]
  case resolve => rcases stepResolve_cases s with ⟨-, he⟩ | ⟨-, he⟩ <;> simp [he, returnOk, raiseFault]
  case wA0 => unfold stepWA0; split <;> rfl
  case wA1 => unfold stepWA1; split <;> rfl
  case ring => exact absurd hp hr
  case fTest => rw [stepFTest_eq]
  case fCopyIn => simp [stepFCopyIn]
  case fCopyOut => exact absurd hp ho
  all_goals rfl

/-- The id counter moves at `W_ID` alone (R107). -/
theorem engineStep_nextId (s : State) :
    (engineStep s).eng.nextId = if s.eng.pc = .wId then s.eng.nextId + 1#32 else s.eng.nextId := by
  obtain ⟨a, x, o, hs, -⟩ := sampleRead_eq s
  cases hp : s.eng.pc <;> simp only [engineStep, hp, reduceCtorEq, if_false, if_true]
  case v => rcases stepV_cases s with ⟨-, he⟩ | ⟨-, he⟩ <;> simp [he, raiseInvalidOperation, complete_eq]
  case c => rcases stepC_cases s with ⟨-, he⟩ | ⟨-, -, he⟩ | ⟨-, -, he⟩ <;> simp [he, raiseChannelBusy, complete_eq, hs]
  case poll => rcases stepPoll_cases s with ⟨he, -⟩ | ⟨-, -, he⟩ | ⟨-, -, he⟩ <;> simp [he, raiseTimeout, complete_eq, hs]
  case resolve => rcases stepResolve_cases s with ⟨-, he⟩ | ⟨-, he⟩ <;> simp [he, returnOk, raiseFault, complete_eq]
  case wA0 => unfold stepWA0; split <;> rfl
  case wA1 => unfold stepWA1; split <;> rfl
  case ring => simp [stepRing]
  case fTest => rw [stepFTest_eq]; dsimp only; split <;> rfl
  case fCopyIn => rw [stepFCopyIn, copyNext_eng]; split <;> rfl
  case fCopyOut => rw [stepFCopyOut, copyNext_eng]; split <;> rfl
  all_goals rfl

/-- Settles O23: the environment has no engine register, and `W_ID` is the one step that sets the counter. -/
theorem nextIdChangesAtWIdOnly : Obligations.NextIdChangesAtWIdOnly := by
  intro s
  rw [tick, engineStep_nextId, envTurn_eng]

/-- The byte that the copy-out stores lies in the caller's buffer, clear of the mailbox (R29 (b)). -/
theorem bufferAddr_notMailbox {s : State} (hs : SafeState s) (hp : s.eng.pc = .fCopyIn ∨ s.eng.pc = .fCopyOut) :
    ¬ inMailbox s.cfg (bufferAddr s) := by
  have hk : s.eng.cKind = .read ∨ s.eng.cKind = .write := hp.elim (fun h => .inr (hs.copyInKind h)) fun h => .inl (hs.copyOutKind h)
  have hchosen : chunkChosen s.eng.pc = true := by rcases hp with h | h <;> rw [h] <;> decide
  obtain ⟨-, -, hchunk⟩ := hs.chunkBounds (by rcases hk with h | h <;> simp [h]) hchosen
  have hidx := hs.copyIndex hp
  exact bufferClear_notMailbox (hs.bufferStaysClear hk).1 (by unfold bufferAddr; omega) (by unfold bufferAddr; omega)

@[simp] theorem stepFCopyOut_bus (s : State) :
    (stepFCopyOut s).bus = { s.bus with
      mem := Memory.write s.bus.mem (bufferAddr s) (lowByte (loadValue s (.field (.payload s.eng.cIdx.toNat)))) } := by
  simp [stepFCopyOut]

theorem commitAll_bus_congr {s t : State} (hc : t.cfg = s.cfg) (hb : t.bus = s.bus) (es : List Store) :
    (commitAll es t).bus = (commitAll es s).bus := by
  induction es generalizing s t with
  | nil => exact hb
  | cons e es ih => exact ih (by simpa using hc) (by simp [hc, hb])

/-- The stores that a barrier has passed, which the doorbell write makes visible (R51). -/
def fenced (s : State) : List Store :=
  s.ord.pending.filter (fun e => decide (1 ≤ e.barriers))

/-- The doorbell write changes memory by the fenced stores alone. -/
theorem writeSignal_one_mem (s : State) : (writeSignal 1#32 s).bus.mem = (commitAll (fenced s) s).bus.mem := by
  have hbus := commitAll_bus_congr (s := s)
    (t := { s with ord := { s.ord with pending := s.ord.pending.filter (fun e => decide (e.barriers < 1)) } })
    rfl rfl (fenced s)
  rw [← hbus]
  rfl

theorem visible_writeSignal_one (s : State) (f : Field) :
    visible (writeSignal 1#32 s) (.field f) = visible (commitAll (fenced s) s) (.field f) :=
  visible_field_congr (by simp) (writeSignal_one_mem s) f

/-- Settles O24: only two steps touch the bus. The doorbell write commits the requester's own stores, and the copy-out
stores outside the mailbox. -/
theorem engineKeepsOwnership : Obligations.EngineKeepsOwnership := by
  intro s hs h t
  by_cases hring : s.eng.pc = .ring
  · have ht : t = goto .t0 (writeSignal 1#32 s) := by simp only [t, engineStep, hring, stepRing]
    have hmem : ∀ e ∈ fenced s, e ∈ s.ord.pending := fun e he => List.mem_of_mem_filter he
    have hother : ∀ f, requesterOwned f = false → visible t (.field f) = visible s (.field f) := fun f hf => by
      rw [ht]
      refine (visible_writeSignal_one s f).trans (visible_commitAll_other h fun e he hfe => ?_)
      have howned := (hs.pendingOwned e (hmem e he)).1
      rw [← hfe, hf] at howned
      exact absurd howned (by simp)
    refine ⟨hother _ rfl, hother _ rfl, fun _ => ?_, fun hn => absurd hring hn, fun a ha _ => ?_, fun hn => ?_⟩
    · rw [ht, goto_bus, writeSignal_one_dbStatus, busyBit_or_one]
    · rw [ht, goto_bus, writeSignal_one_mem]
      exact read_commitAll_notMailbox h (fun e he => (hs.pendingOwned e (hmem e he)).2) ha
    · exact absurd (hring.symm.trans hn) (by decide)
  by_cases hout : s.eng.pc = .fCopyOut
  · have ht : t = stepFCopyOut s := by simp only [t, engineStep, hout]
    have hbuf := bufferAddr_notMailbox hs (.inr hout)
    have hfield : ∀ f, fieldExists s.cfg f → visible t (.field f) = visible s (.field f) := fun f hf => by
      have hcfg : t.cfg = s.cfg := by rw [ht]; simp [stepFCopyOut]
      simp only [visible, hcfg]
      rw [ht, stepFCopyOut_bus]
      exact readField_write_notMailbox h hf s.bus.mem _ hbuf
    refine ⟨hfield _ trivial, hfield _ trivial, fun hb => ?_, fun _ => ?_, fun a ha hne => ?_, fun _ => ?_⟩
    · rw [ht, stepFCopyOut_bus]; exact hb
    · rw [ht, stepFCopyOut_bus]; exact ⟨rfl, rfl⟩
    · rw [ht, stepFCopyOut_bus]; exact Memory.read_write_other _ _ (hne hout)
    · rw [ht, stepFCopyOut_bus]; exact Memory.read_write_same hs.memory _ _
  · have hb : t.bus = s.bus := engineStep_bus hring hout
    have hc : t.cfg = s.cfg := engineStep_cfg s
    have hv : ∀ f, visible t (.field f) = visible s (.field f) := visible_field_congr hc (by rw [hb])
    exact ⟨hv _, hv _, fun h => by rw [hb]; exact h, fun _ => by rw [hb]; exact ⟨rfl, rfl⟩,
      fun a _ _ => by rw [hb], fun h => absurd h hout⟩

end Sys2Proof.Machine
end

section
/-! SUPPORT. Every step keeps the safe states: a safe state is memory in its one form, an engine whose registers fit
together, and pending stores that fit the engine's phase; each of the three is kept for itself. -/

namespace Sys2Proof.Machine

open Sys2Proof

/-! ### The three parts of a safe state -/

/-- The registers of the engine fit together: what `SafeState` says of `pc`, `x[C_KIND]`, the command and the chunk. -/
structure EngineOk (cfg : Config) (e : Engine) : Prop where
  restKind : e.pc = .rest → e.cKind = .none
  loopKind : inChunkLoop e.pc = true → e.cKind ≠ .none
  copyInKind : e.pc = .fCopyIn → e.cKind = .write
  copyOutKind : e.pc = .fCopyOut → e.cKind = .read
  sizeLeft : e.pc = .fChunk → e.cSize ≠ 0#32
  chunkBounds : e.cKind ≠ .none → chunkChosen e.pc = true →
    1 ≤ e.cChunk.toNat ∧ e.cChunk.toNat ≤ cfg.maxChunk ∧ e.cChunk.toNat ≤ e.cSize.toNat
  copyIndex : e.pc = .fCopyIn ∨ e.pc = .fCopyOut → e.cIdx.toNat < e.cChunk.toNat
  opRecognised : opChecked e.pc = true → recognised cfg.gen e.op = true
  chunkCommand : e.cKind ≠ .none → inTransaction e.pc = true →
    e.op = chunkOpcode e.cKind ∧ e.arg0 = e.cAddr ∧ e.arg1 = e.cChunk
  bufferStaysClear : e.cKind = .read ∨ e.cKind = .write →
    bufferClear cfg e.cBuf.toNat (e.cCur.toNat + e.cSize.toNat) = true ∧ e.cCur.toNat + e.cSize.toNat < 2 ^ 32

/-- The pending stores fit the phase: what `SafeState` says of them. -/
structure PendingOk (cfg : Config) (pc : Pc) (ps : List Store) : Prop where
  owned : ∀ e ∈ ps, requesterOwned e.field = true ∧ fieldExists cfg e.field
  header : inWritePhase pc = false → ∀ e ∈ ps, requestHeader e.field = false
  fenced : pc = .ring → ∀ e ∈ ps, 1 ≤ e.barriers
  done : afterDoorbell pc = true → ps = []
  width : ∀ e ∈ ps, fieldValue e.field e.val = e.val

theorem safeState_iff (s : State) :
    SafeState s ↔ Memory.wf s.bus.mem = true ∧ EngineOk s.cfg s.eng ∧ PendingOk s.cfg s.eng.pc s.ord.pending :=
  ⟨fun h => ⟨h.memory, ⟨h.restKind, h.loopKind, h.copyInKind, h.copyOutKind, h.sizeLeft, h.chunkBounds, h.copyIndex,
      h.opRecognised, h.chunkCommand, h.bufferStaysClear⟩,
      ⟨h.pendingOwned, h.pendingHeader, h.pendingFenced, h.pendingDone, h.pendingWidth⟩⟩,
    fun ⟨hm, he, hp⟩ => ⟨hm, he.restKind, he.loopKind, he.copyInKind, he.copyOutKind, he.sizeLeft, he.chunkBounds,
      he.copyIndex, he.opRecognised, he.chunkCommand, he.bufferStaysClear, hp.owned, hp.header, hp.fenced, hp.done,
      hp.width⟩⟩

theorem SafeState.engineOk {s : State} (h : SafeState s) : EngineOk s.cfg s.eng :=
  ((safeState_iff s).1 h).2.1

theorem SafeState.pendingOk {s : State} (h : SafeState s) : PendingOk s.cfg s.eng.pc s.ord.pending :=
  ((safeState_iff s).1 h).2.2

/-! ### The engine's registers -/

theorem inTransaction_of_opChecked {p : Pc} (h : opChecked p = true) : inTransaction p = true := by
  simp [inTransaction, h]

theorem opChecked_of_ne_v {p : Pc} (h : inTransaction p = true) (hv : p ≠ .v) : opChecked p = true := by
  revert h hv
  cases p <;> decide

theorem chunkChosen_of_inTransaction {p : Pc} (h : inTransaction p = true) : chunkChosen p = true := by
  simp [chunkChosen, h]

theorem not_inChunkLoop_of_inTransaction {p : Pc} (h : inTransaction p = true) : inChunkLoop p = false := by
  revert h
  cases p <;> decide

/-- At a step of a transaction what `EngineOk` asks of `REST` and of the chunk loop's own steps does not arise. -/
theorem engineOk_in_transaction {cfg : Config} {e : Engine} (ht : inTransaction e.pc = true)
    (hchunk : e.cKind ≠ .none →
      1 ≤ e.cChunk.toNat ∧ e.cChunk.toNat ≤ cfg.maxChunk ∧ e.cChunk.toNat ≤ e.cSize.toNat)
    (hrec : opChecked e.pc = true → recognised cfg.gen e.op = true)
    (hcmd : e.cKind ≠ .none → e.op = chunkOpcode e.cKind ∧ e.arg0 = e.cAddr ∧ e.arg1 = e.cChunk)
    (hbuf : e.cKind = .read ∨ e.cKind = .write →
      bufferClear cfg e.cBuf.toNat (e.cCur.toNat + e.cSize.toNat) = true ∧ e.cCur.toNat + e.cSize.toNat < 2 ^ 32) :
    EngineOk cfg e := by
  have hne : ∀ p, inTransaction p = false → e.pc ≠ p := fun p hp he => by
    rw [he, hp] at ht
    exact absurd ht (by decide)
  exact
    { restKind := fun h => absurd h (hne _ rfl)
      loopKind := fun h => by rw [not_inChunkLoop_of_inTransaction ht] at h; exact absurd h (by decide)
      copyInKind := fun h => absurd h (hne _ rfl)
      copyOutKind := fun h => absurd h (hne _ rfl)
      sizeLeft := fun h => absurd h (hne _ rfl)
      chunkBounds := fun hk _ => hchunk hk
      copyIndex := fun h => h.elim (fun h => absurd h (hne _ rfl)) fun h => absurd h (hne _ rfl)
      opRecognised := hrec
      chunkCommand := fun hk _ => hcmd hk
      bufferStaysClear := hbuf }

/-- A step inside a transaction, past the op check. -/
theorem EngineOk.sameCommand {cfg : Config} {e e' : Engine} (h : EngineOk cfg e) (ht : inTransaction e.pc = true)
    (hs : SameCommand e e') (ho : opChecked e'.pc = true) (hr : recognised cfg.gen e.op = true) : EngineOk cfg e' := by
  refine engineOk_in_transaction (inTransaction_of_opChecked ho) ?_ (fun _ => by rw [hs.op]; exact hr) ?_ ?_
  · rw [hs.cKind, hs.cChunk, hs.cSize]
    exact fun hk => h.chunkBounds hk (chunkChosen_of_inTransaction ht)
  · rw [hs.cKind, hs.op, hs.arg0, hs.arg1, hs.cAddr, hs.cChunk]
    exact fun hk => h.chunkCommand hk ht
  · rw [hs.cKind, hs.cBuf, hs.cCur, hs.cSize]
    exact h.bufferStaysClear

/-- At `REST` there is no chunk loop, and nothing else to say. -/
theorem engineOk_at_rest (cfg : Config) {e : Engine} (hp : e.pc = .rest) (hk : e.cKind = .none) : EngineOk cfg e := by
  constructor <;> simp [hp, hk, inChunkLoop, opChecked]

/-- At a step of the chunk loop what `EngineOk` asks of `REST` and of a transaction does not arise. -/
theorem engineOk_in_loop {cfg : Config} {e : Engine} (hl : inChunkLoop e.pc = true) (hk : e.cKind ≠ .none)
    (hin : e.pc = .fCopyIn → e.cKind = .write) (hout : e.pc = .fCopyOut → e.cKind = .read)
    (hsize : e.pc = .fChunk → e.cSize ≠ 0#32)
    (hchunk : chunkChosen e.pc = true →
      1 ≤ e.cChunk.toNat ∧ e.cChunk.toNat ≤ cfg.maxChunk ∧ e.cChunk.toNat ≤ e.cSize.toNat)
    (hidx : e.pc = .fCopyIn ∨ e.pc = .fCopyOut → e.cIdx.toNat < e.cChunk.toNat)
    (hbuf : e.cKind = .read ∨ e.cKind = .write →
      bufferClear cfg e.cBuf.toNat (e.cCur.toNat + e.cSize.toNat) = true ∧ e.cCur.toNat + e.cSize.toNat < 2 ^ 32) :
    EngineOk cfg e := by
  have ht : inTransaction e.pc = false := by
    by_contra ht
    rw [not_inChunkLoop_of_inTransaction (by simpa using ht)] at hl
    exact absurd hl (by decide)
  exact
    { restKind := fun h => by rw [h] at hl; exact absurd hl (by decide)
      loopKind := fun _ => hk
      copyInKind := hin
      copyOutKind := hout
      sizeLeft := hsize
      chunkBounds := fun _ => hchunk
      copyIndex := hidx
      opRecognised := fun h => by rw [inTransaction_of_opChecked h] at ht; exact absurd ht (by decide)
      chunkCommand := fun _ h => by rw [h] at ht; exact absurd ht (by decide)
      bufferStaysClear := hbuf }

/-- The end of a transaction: `REST`, the copy-out of a read, or the next chunk (R151). -/
theorem EngineOk.completes {s t : State} {code : BitVec 3} (h : EngineOk s.cfg s.eng)
    (ht : inTransaction s.eng.pc = true) (hc : Completes code s t) : EngineOk s.cfg t.eng := by
  have hb := fun hk => h.chunkBounds hk (chunkChosen_of_inTransaction ht)
  have hbuf := h.bufferStaysClear
  rw [← hc.cChunk, ← hc.cSize] at hb
  rw [← hc.cBuf, ← hc.cCur, ← hc.cSize] at hbuf
  rcases returnPc_cases code s.eng.cKind with ⟨hp, hk⟩ | ⟨hp, hok, hk⟩ | ⟨hp, hok, hk⟩ <;> rw [← hc.pc] at hp
  · refine engineOk_at_rest s.cfg hp ?_
    rw [hc.cKind]
    rcases hk with hk | hk <;> simp [hk]
  · have hkind : t.eng.cKind = .read := by rw [hc.cKind, if_pos hok, hk]
    have hidx : t.eng.cIdx = 0#32 := by rw [hc.cIdx, if_pos ⟨hok, hk⟩]
    have hbounds := hb (by simp [hk])
    exact engineOk_in_loop (by rw [hp]; rfl) (by simp [hkind]) (by simp [hp]) (fun _ => hkind) (by simp [hp])
      (fun _ => hbounds) (fun _ => by rw [hidx]; exact hbounds.1) fun _ => hbuf (.inl hk)
  · have hkind : t.eng.cKind = s.eng.cKind := by rw [hc.cKind, if_pos hok]
    have hne : s.eng.cKind ≠ .none := by rcases hk with hk | hk <;> simp [hk]
    exact engineOk_in_loop (by rw [hp]; rfl) (hkind ▸ hne) (by simp [hp]) (by simp [hp]) (by simp [hp])
      (fun _ => hb hne) (by simp [hp]) (hkind ▸ hbuf)

/-- A copy loop goes to the next byte of the chunk, or past the last one to `done`. -/
theorem EngineOk.copyNext {s : State} (h : EngineOk s.cfg s.eng) {done : Pc} (hd : done = .fCmd ∨ done = .fAdv)
    (hp : s.eng.pc = .fCopyIn ∨ s.eng.pc = .fCopyOut) : EngineOk s.cfg (copyNext done s).eng := by
  have hl : inChunkLoop s.eng.pc = true := by rcases hp with hp | hp <;> rw [hp] <;> rfl
  have hb := h.chunkBounds (h.loopKind hl) (by rcases hp with hp | hp <;> rw [hp] <;> rfl)
  rw [copyNext_eng]
  split
  · rename_i hi
    refine engineOk_in_loop hl (h.loopKind hl) h.copyInKind h.copyOutKind h.sizeLeft (fun _ => hb) (fun _ => ?_)
      h.bufferStaysClear
    rw [BitVec.toNat_add]
    exact lt_of_le_of_lt (Nat.mod_le _ _) hi
  · rcases hd with rfl | rfl <;>
      exact engineOk_in_loop rfl (h.loopKind hl) (by simp) (by simp) (by simp) (fun _ => hb) (by simp) h.bufferStaysClear

/-- The start of a chunked operation (R150, R178): its buffer is clear, its cursor is 0. -/
theorem engineOk_chunkInit {k : ChunkKind} {buf : U64} {size : U32} {s : State} (addr : U32)
    (hk : k = .erase ∨ ((k = .read ∨ k = .write) ∧ bufferClear s.cfg buf.toNat size.toNat = true)) :
    EngineOk s.cfg (chunkInit k addr buf size s).eng := by
  rw [chunkInit_eng]
  refine engineOk_in_loop rfl ?_ (by simp) (by simp) (by simp) (by simp [chunkChosen, inTransaction, beforeCheck, opChecked])
    (by simp) fun hbuf => ?_
  · rcases hk with rfl | ⟨rfl | rfl, -⟩ <;> simp
  · have hclear : bufferClear s.cfg buf.toNat size.toNat = true := by
      rcases hk with rfl | ⟨-, hc⟩
      · simp at hbuf
      · exact hc
    exact ⟨by simpa using hclear, by simpa using size.isLt⟩

theorem EngineOk.stepFInit {s : State} (h : EngineOk s.cfg s.eng) (hp : s.eng.pc = .fInit) :
    EngineOk s.cfg (stepFInit s).eng := by
  refine engineOk_in_loop rfl (h.loopKind (by rw [hp]; rfl)) (by simp [Machine.stepFInit]) (by simp [Machine.stepFInit])
    (by simp [Machine.stepFInit]) (by simp [Machine.stepFInit, chunkChosen, inTransaction, beforeCheck, opChecked])
    (by simp [Machine.stepFInit]) fun hk => ?_
  obtain ⟨hclear, hlt⟩ := h.bufferStaysClear hk
  exact ⟨bufferClear_mono hclear (by simp [Machine.stepFInit]), by simp [Machine.stepFInit]; omega⟩

theorem EngineOk.stepFTest {s : State} (h : EngineOk s.cfg s.eng) (hp : s.eng.pc = .fTest) :
    EngineOk s.cfg (stepFTest s).eng := by
  rw [stepFTest_eq]
  dsimp only
  split
  · exact engineOk_at_rest s.cfg rfl rfl
  · exact engineOk_in_loop rfl (h.loopKind (by rw [hp]; rfl)) (by simp) (by simp) (fun _ => ‹_›)
      (by simp [chunkChosen, inTransaction, beforeCheck, opChecked]) (by simp) h.bufferStaysClear

theorem EngineOk.stepFChunk {s : State} (hc : parametersOk s.cfg = true) (h : EngineOk s.cfg s.eng)
    (hp : s.eng.pc = .fChunk) : EngineOk s.cfg (stepFChunk s).eng := by
  have hb := chunkOf_bounds hc (h.sizeLeft hp)
  have hk := h.loopKind (by rw [hp]; rfl)
  by_cases hw : s.eng.cKind = .write
  · have he : (Machine.stepFChunk s).eng
        = { s.eng with cChunk := chunkOf s.cfg s.eng.cSize, cIdx := 0#32, pc := .fCopyIn } := by
      simp [Machine.stepFChunk, hw]
    rw [he]
    exact engineOk_in_loop rfl hk (fun _ => hw) (by simp) (by simp) (fun _ => hb) (fun _ => hb.1) h.bufferStaysClear
  · have he : (Machine.stepFChunk s).eng
        = { s.eng with cChunk := chunkOf s.cfg s.eng.cSize, cIdx := 0#32, pc := .fCmd } := by
      simp [Machine.stepFChunk, hw]
    rw [he]
    exact engineOk_in_loop rfl hk (by simp) (by simp) (by simp) (fun _ => hb) (by simp) h.bufferStaysClear

theorem EngineOk.stepFCmd {s : State} (h : EngineOk s.cfg s.eng) (hp : s.eng.pc = .fCmd) :
    EngineOk s.cfg (stepFCmd s).eng :=
  engineOk_in_transaction rfl (fun hk => h.chunkBounds hk (by rw [hp]; rfl)) (fun h => Bool.noConfusion h)
    (fun _ => ⟨rfl, rfl, rfl⟩) h.bufferStaysClear

/-- The chunk done moves from the size to the cursor, so that their sum stays (R151, R161). -/
theorem EngineOk.stepFAdv {s : State} (h : EngineOk s.cfg s.eng) (hp : s.eng.pc = .fAdv) :
    EngineOk s.cfg (stepFAdv s).eng := by
  have hk := h.loopKind (by rw [hp]; rfl)
  obtain ⟨-, -, hle⟩ := h.chunkBounds hk (by rw [hp]; rfl)
  refine engineOk_in_loop rfl hk (by simp [Machine.stepFAdv]) (by simp [Machine.stepFAdv]) (by simp [Machine.stepFAdv])
    (by simp [Machine.stepFAdv, chunkChosen, inTransaction, beforeCheck, opChecked]) (by simp [Machine.stepFAdv]) fun hb => ?_
  obtain ⟨hclear, hlt⟩ := h.bufferStaysClear hb
  have hsum : (s.eng.cCur + s.eng.cChunk).toNat + (s.eng.cSize - s.eng.cChunk).toNat
      = s.eng.cCur.toNat + s.eng.cSize.toNat := by
    rw [BitVec.toNat_add_of_lt (by omega), BitVec.toNat_sub_of_le (by exact hle)]
    omega
  simp only [Machine.stepFAdv, hsum]
  exact ⟨hclear, hlt⟩

/-- Every requester step keeps the registers fitting together. -/
theorem engineStep_engineOk {s : State} (hc : parametersOk s.cfg = true) (h : EngineOk s.cfg s.eng) :
    EngineOk s.cfg (engineStep s).eng := by
  by_cases ht : inTransaction s.eng.pc = true
  · rcases engineStep_transaction ht with ⟨code, -, hend⟩ | ⟨ho, hsame, hr⟩
    · exact h.completes ht hend
    · refine h.sameCommand ht hsame ho ?_
      by_cases hv : s.eng.pc = .v
      · exact hr hv
      · exact h.opRecognised (opChecked_of_ne_v ht hv)
  · cases hp : s.eng.pc <;> simp only [engineStep, hp]
    case rest => exact h
    case fInit => exact h.stepFInit hp
    case fTest => exact h.stepFTest hp
    case fChunk => exact h.stepFChunk hc hp
    case fCopyIn => exact EngineOk.copyNext (s := storeField _ _ s) h (.inl rfl) (.inl hp)
    case fCmd => exact h.stepFCmd hp
    case fCopyOut => exact EngineOk.copyNext (s := writeOwn _ _ (afterLoad s _)) h (.inr rfl) (.inr hp)
    case fAdv => exact h.stepFAdv hp
    all_goals exact absurd (by rw [hp]; rfl) ht

/-! ### The pending stores -/

/-- Fewer stores in a phase that asks no more of them. -/
theorem PendingOk.mono {cfg : Config} {pc pc' : Pc} {ps ps' : List Store} (h : PendingOk cfg pc ps)
    (hsub : ∀ e ∈ ps', e ∈ ps) (hw : inWritePhase pc' = false → inWritePhase pc = false)
    (hr : pc' = .ring → pc = .ring) (hd : afterDoorbell pc' = true → afterDoorbell pc = true) : PendingOk cfg pc' ps' :=
  { owned := fun e he => h.owned e (hsub e he)
    header := fun hp e he => h.header (hw hp) e (hsub e he)
    fenced := fun hp e he => h.fenced (hr hp) e (hsub e he)
    done := fun hp => List.eq_nil_iff_forall_not_mem.2 fun e he => by
      have := hsub e he
      rw [h.done (hd hp)] at this
      exact absurd this (by simp)
    width := fun e he => h.width e (hsub e he) }

theorem pendingOk_nil (cfg : Config) (pc : Pc) : PendingOk cfg pc [] := by
  constructor <;> simp

/-- One more store of the requester, in a phase where nothing is fenced yet. -/
theorem PendingOk.push {cfg : Config} {pc pc' : Pc} {ps : List Store} (h : PendingOk cfg pc ps) {e : Store}
    (howned : requesterOwned e.field = true ∧ fieldExists cfg e.field) (hwidth : fieldValue e.field e.val = e.val)
    (hw : inWritePhase pc' = false → inWritePhase pc = false ∧ requestHeader e.field = false)
    (hr : pc' ≠ .ring) (hd : afterDoorbell pc' = false) : PendingOk cfg pc' (ps ++ [e]) := by
  have hcases : ∀ x ∈ ps ++ [e], x ∈ ps ∨ x = e := fun x hx => by simpa using hx
  exact
    { owned := fun x hx => (hcases x hx).elim (h.owned x) fun hxe => hxe ▸ howned
      header := fun hp x hx => (hcases x hx).elim (h.header (hw hp).1 x) fun hxe => hxe ▸ (hw hp).2
      fenced := fun hp => absurd hp hr
      done := fun hp => by rw [hd] at hp; exact absurd hp (by decide)
      width := fun x hx => (hcases x hx).elim (h.width x) fun hxe => hxe ▸ hwidth }

/-- After the doorbell write the fenced stores are gone, and those were all (R51, R108). -/
theorem writeSignal_one_pending_nil {s : State} (h : ∀ e ∈ s.ord.pending, 1 ≤ e.barriers) :
    (writeSignal 1#32 s).ord.pending = [] := by
  rw [writeSignal_one_pending, List.filter_eq_nil_iff]
  intro e he
  have := h e he
  simp
  omega

theorem fieldValue_zextByte (f : Field) (b : Byte) (h : fieldWidth f = 1) : fieldValue f (zextByte b) = zextByte b := by
  simp [fieldValue, h]

theorem fieldValue_of_word (f : Field) (v : U32) (h : fieldWidth f = 4) : fieldValue f v = v := by
  simp [fieldValue, h]

/-- The requester steps that issue no store, place no barrier and ring no doorbell leave the pending stores. -/
theorem engineStep_pending {s : State}
    (h : s.eng.pc ∉ [Pc.wOp, .wA0, .wA1, .wId, .sb, .ring, .fCopyIn]) : (engineStep s).ord.pending = s.ord.pending := by
  cases hp : s.eng.pc <;> simp only [hp, List.mem_cons, reduceCtorEq, List.not_mem_nil, or_false, or_true, not_true] at h <;>
    simp only [engineStep, hp]
  case v => rcases stepV_cases s with ⟨-, he⟩ | ⟨-, he⟩ <;> simp [he, raiseInvalidOperation]
  case c => rcases stepC_cases s with ⟨-, he⟩ | ⟨-, -, he⟩ | ⟨-, -, he⟩ <;> simp [he, raiseChannelBusy]
  case poll => rcases stepPoll_cases s with ⟨he, -⟩ | ⟨-, -, he⟩ | ⟨-, -, he⟩ <;> simp [he, raiseTimeout]
  case resolve => rcases stepResolve_cases s with ⟨-, he⟩ | ⟨-, he⟩ <;> simp [he, returnOk, raiseFault]
  case fTest => rw [stepFTest_eq]
  case fCopyOut => simp [stepFCopyOut]
  all_goals rfl

/-- The phases of the chunk loop and of `REST` ask the same of pending stores: none to the header (R107). -/
theorem engineStep_outside_phase {s : State} (ht : inTransaction s.eng.pc = false) (hr : s.eng.pc ≠ .rest) :
    inWritePhase (engineStep s).eng.pc = false ∧ (engineStep s).eng.pc ≠ .ring ∧ afterDoorbell (engineStep s).eng.pc = false := by
  cases hp : s.eng.pc <;> rw [hp] at ht hr <;> simp only [engineStep, hp]
  case rest => exact absurd rfl hr
  case fTest => rw [stepFTest_eq]; dsimp only; split <;> exact ⟨rfl, by simp, rfl⟩
  case fChunk => simp only [stepFChunk]; split <;> exact ⟨rfl, by simp, rfl⟩
  case fCopyIn => rw [stepFCopyIn, copyNext_eng]; split <;> simp [hp, inWritePhase, afterDoorbell]
  case fCopyOut => rw [stepFCopyOut, copyNext_eng]; split <;> simp [hp, inWritePhase, afterDoorbell]
  case fInit | fCmd | fAdv => exact ⟨rfl, by simp [stepFInit, stepFCmd, stepFAdv], rfl⟩
  all_goals exact absurd ht (by decide)

/-- The phase after the end of a transaction asks for no header store only. -/
theorem Completes.phase {code : BitVec 3} {s t : State} (h : Completes code s t) :
    inWritePhase t.eng.pc = false ∧ t.eng.pc ≠ .ring ∧ afterDoorbell t.eng.pc = false := by
  rw [h.pc]
  rcases returnPc_cases code s.eng.cKind with ⟨hp, -⟩ | ⟨hp, -, -⟩ | ⟨hp, -, -⟩ <;> rw [hp] <;> exact ⟨rfl, by simp, rfl⟩

/-- A step of a transaction that neither stores, fences nor rings goes to `C` or `W_OP` before the doorbell, and stays
past the doorbell after it. -/
theorem engineStep_transaction_phase {s : State} (ht : inTransaction s.eng.pc = true)
    (h : s.eng.pc ∉ [Pc.wOp, .wA0, .wA1, .wId, .sb, .ring]) :
    (engineStep s).eng.pc ≠ .ring ∧ (afterDoorbell (engineStep s).eng.pc = true → afterDoorbell s.eng.pc = true) := by
  obtain ⟨a, x, o, hs, -⟩ := sampleRead_eq s
  rcases engineStep_transaction ht with ⟨code, -, hend⟩ | -
  · obtain ⟨-, hring, hdone⟩ := hend.phase
    exact ⟨hring, fun h => by rw [hdone] at h; exact absurd h (by decide)⟩
  cases hp : s.eng.pc <;> rw [hp] at ht h <;> simp only [engineStep, hp]
  case v =>
    rcases stepV_cases s with ⟨-, he⟩ | ⟨-, he⟩ <;> rw [he]
    · simp [afterDoorbell]
    · obtain ⟨-, hring, hdone⟩ := (completes_raiseInvalidOperation s).phase
      exact ⟨hring, fun h => by rw [hdone] at h; exact absurd h (by decide)⟩
  case c =>
    rcases stepC_cases s with ⟨-, he⟩ | ⟨-, -, he⟩ | ⟨-, -, he⟩ <;> rw [he]
    · simp [hs, hp]
    · simp [afterDoorbell]
    · obtain ⟨-, hring, hdone⟩ := (completes_raiseChannelBusy_sampleRead s).phase
      exact ⟨hring, fun h => by rw [hdone] at h; exact absurd h (by decide)⟩
  case poll =>
    refine ⟨?_, fun _ => rfl⟩
    rcases stepPoll_cases s with ⟨he, -⟩ | ⟨-, -, he⟩ | ⟨-, -, he⟩ <;> rw [he]
    · simp [hs, hp]
    · simp
    · exact (completes_complete ..).phase.2.1
  case resolve =>
    refine ⟨?_, fun _ => rfl⟩
    rcases stepResolve_cases s with ⟨-, he⟩ | ⟨-, he⟩ <;> rw [he] <;> exact (completes_complete ..).phase.2.1
  case t0 | lb | rdSt => exact ⟨by simp [stepT0, stepRdSt], fun _ => rfl⟩
  case wOp | wA0 | wA1 | wId | sb | ring => simp at h
  all_goals exact absurd ht (by decide)

/-- A payload position of a copy exists: it is inside the chunk, and a chunk is no longer than the buffer (R157). -/
theorem copyIndex_lt_cap {s : State} (hc : parametersOk s.cfg = true) (hs : SafeState s)
    (hp : s.eng.pc = .fCopyIn ∨ s.eng.pc = .fCopyOut) : s.eng.cIdx.toNat < s.cfg.payloadCap := by
  have hcap := ((parametersOk_iff s.cfg).1 hc).2.2.2.2.2.1
  have hl : inChunkLoop s.eng.pc = true := by rcases hp with hp | hp <;> rw [hp] <;> rfl
  have hb := hs.chunkBounds (hs.loopKind hl) (by rcases hp with hp | hp <;> rw [hp] <;> rfl)
  have hi := hs.copyIndex hp
  omega

/-- Every requester step keeps the pending stores fitting the phase. -/
theorem engineStep_pendingOk {s : State} (hc : parametersOk s.cfg = true) (hs : SafeState s) :
    PendingOk s.cfg (engineStep s).eng.pc (engineStep s).ord.pending := by
  have h := hs.pendingOk
  by_cases hmem : s.eng.pc ∈ [Pc.wOp, .wA0, .wA1, .wId, .sb, .ring, .fCopyIn]
  · simp only [List.mem_cons, List.not_mem_nil, or_false] at hmem
    rcases hmem with hp | hp | hp | hp | hp | hp | hp <;> rw [hp] at h
    · simp only [engineStep, hp]
      show PendingOk s.cfg .wA0 _
      exact h.push ⟨rfl, trivial⟩ (fieldValue_zextByte _ _ rfl) (fun hw => Bool.noConfusion hw) (by decide) rfl
    · simp only [engineStep, hp]
      unfold stepWA0
      show PendingOk s.cfg .wA1 _
      split
      · exact h.push ⟨rfl, trivial⟩ (fieldValue_of_word _ _ rfl) (fun hw => Bool.noConfusion hw) (by decide) rfl
      · exact h.mono (fun _ he => he) (by decide) (by decide) (by decide)
    · simp only [engineStep, hp]
      unfold stepWA1
      show PendingOk s.cfg .wId _
      split
      · exact h.push ⟨rfl, trivial⟩ (fieldValue_of_word _ _ rfl) (fun hw => Bool.noConfusion hw) (by decide) rfl
      · exact h.mono (fun _ he => he) (by decide) (by decide) (by decide)
    · simp only [engineStep, hp]
      show PendingOk s.cfg .sb _
      exact h.push ⟨rfl, trivial⟩ (fieldValue_of_word _ _ rfl) (fun hw => Bool.noConfusion hw) (by decide) rfl
    · simp only [engineStep, hp]
      show PendingOk s.cfg .ring (s.ord.pending.map fun e => { e with barriers := e.barriers + 1 })
      refine ⟨fun e he => ?_, fun hw => Bool.noConfusion hw, fun _ e he => ?_, fun hd => Bool.noConfusion hd,
        fun e he => ?_⟩ <;>
        obtain ⟨x, hx, rfl⟩ := List.mem_map.1 he
      · exact h.owned x hx
      · exact Nat.le_add_left 1 _
      · exact h.width x hx
    · simp only [engineStep, hp]
      have hnil : (stepRing s).ord.pending = [] := writeSignal_one_pending_nil (h.fenced rfl)
      rw [hnil]
      exact pendingOk_nil _ _
    · obtain ⟨-, hring, hdone⟩ := engineStep_outside_phase (by rw [hp]; rfl) (by simp [hp])
      have hpend : (engineStep s).ord.pending = s.ord.pending
          ++ [{ field := .payload s.eng.cIdx.toNat, val := zextByte (readOwn s (bufferAddr s)), barriers := 0 }] := by
        simp only [engineStep, hp, stepFCopyIn, copyNext_ord, storeField_ord]
      rw [hpend]
      exact h.push ⟨rfl, copyIndex_lt_cap hc hs (.inl hp)⟩ (fieldValue_zextByte _ _ rfl) (fun _ => ⟨rfl, rfl⟩) hring hdone
  · have hpend := engineStep_pending hmem
    rw [hpend]
    have hnot : inWritePhase s.eng.pc = false := by
      revert hmem
      cases s.eng.pc <;> simp [inWritePhase]
    by_cases ht : inTransaction s.eng.pc = true
    · obtain ⟨hring, hdone⟩ := engineStep_transaction_phase ht fun hin => hmem (by simp at hin ⊢; tauto)
      exact h.mono (fun _ he => he) (fun _ => hnot) (fun he => absurd he hring) hdone
    · by_cases hr : s.eng.pc = .rest
      · simp only [engineStep, hr]; rw [hr] at h; exact h
      · obtain ⟨-, hring, hdone⟩ := engineStep_outside_phase (by simpa using ht) hr
        exact h.mono (fun _ he => he) (fun _ => hnot) (fun he => absurd he hring) fun hd => by
          rw [hdone] at hd; exact absurd hd (by decide)

/-! ### Steps -/

theorem engineStep_wf {s : State} (hm : Memory.wf s.bus.mem = true) : Memory.wf (engineStep s).bus.mem = true := by
  by_cases hr : s.eng.pc = .ring
  · simp only [engineStep, hr]
    exact writeSignal_one_wf hm
  by_cases ho : s.eng.pc = .fCopyOut
  · simp only [engineStep, ho, stepFCopyOut_bus]
    exact Memory.wf_write hm
  · rw [engineStep_bus hr ho]
    exact hm

theorem engineStep_safe {s : State} (hc : parametersOk s.cfg = true) (hs : SafeState s) : SafeState (engineStep s) := by
  rw [safeState_iff, engineStep_cfg]
  exact ⟨engineStep_wf hs.memory, engineStep_engineOk hc hs.engineOk, engineStep_pendingOk hc hs⟩

/-- What an environment move may leave pending: what was, and at `REST` a payload store of the caller (R51). -/
theorem mem_pending_envMove {m : EnvMove} {s : State} {e : Store} (he : e ∈ (envMove m s).ord.pending) :
    e ∈ s.ord.pending ∨ (s.eng.pc = .rest
      ∧ ∃ i v, i < s.cfg.payloadCap ∧ e = { field := .payload i, val := zextByte v, barriers := 0 }) := by
  cases m with
  | scp m => exact .inl (by rw [envMove, scpMove_pending] at he; exact he)
  | clk n => exact .inl (by simpa [envMove] using he)
  | drain k => exact .inl (mem_pending_of_drain he)
  | early n => exact .inl he
  | statusHi v => exact .inl he
  | host m =>
    rw [envMove] at he
    rcases hostMove_cases m s with h | ⟨hr, ⟨i, v, hi, h⟩ | ⟨i, v, k, h⟩ | ⟨a, v, -, h⟩⟩ <;> rw [h] at he
    · exact .inl he
    · simp only [storeField_ord, List.mem_append, List.mem_singleton] at he
      exact he.imp id fun he => ⟨hr, i, v, hi, he⟩
    · exact .inl he
    · exact .inl he

theorem envMove_safe {m : EnvMove} {s : State} (hs : SafeState s) : SafeState (envMove m s) := by
  rw [safeState_iff, envMove_cfg, envMove_eng]
  refine ⟨envMove_wf hs.memory, hs.engineOk, ?_⟩
  have h := hs.pendingOk
  by_cases hr : s.eng.pc = .rest
  · have hpayload : ∀ e ∈ (envMove m s).ord.pending, e ∈ s.ord.pending ∨ (requesterOwned e.field = true
        ∧ fieldExists s.cfg e.field ∧ requestHeader e.field = false ∧ fieldValue e.field e.val = e.val) := fun e he =>
      (mem_pending_envMove he).imp id fun ⟨_, i, v, hi, hev⟩ => by
        rw [hev]; exact ⟨rfl, hi, rfl, fieldValue_zextByte _ _ rfl⟩
    rw [hr] at h ⊢
    exact
      { owned := fun e he => (hpayload e he).elim (h.owned e) fun hp => ⟨hp.1, hp.2.1⟩
        header := fun _ e he => (hpayload e he).elim (h.header rfl e) fun hp => hp.2.2.1
        fenced := by simp
        done := by simp [afterDoorbell]
        width := fun e he => (hpayload e he).elim (h.width e) fun hp => hp.2.2.2 }
  · exact h.mono (fun e he => (mem_pending_envMove he).resolve_right fun hp => hr hp.1) id id id

theorem envTurn_safe {s : State} (hs : SafeState s) : SafeState (envTurn s) :=
  envTurn_induction (fun _ _ => envMove_safe)
    (fun s bs h => by rw [safeState_iff] at h ⊢; exact h) hs

theorem tick_safe {s : State} (hc : parametersOk s.cfg = true) (hs : SafeState s) : SafeState (tick s) :=
  engineStep_safe (by simpa using hc) (envTurn_safe hs)

theorem run_safe {s : State} (hc : parametersOk s.cfg = true) (hs : SafeState s) (n : Nat) : SafeState (run n s) :=
  (run_induction (P := fun t => parametersOk t.cfg = true ∧ SafeState t)
    (fun _ h _ => ⟨by simpa using h.1, tick_safe h.1 h.2⟩) n ⟨hc, hs⟩).2

/-- The operands of a new transaction are latched at `REST`, where `SafeState` says nothing of them. -/
theorem latch_at_v_safe {s : State} (hs : SafeState s) (hr : s.eng.pc = .rest) (op : Byte) (x y : U32) :
    SafeState (goto .v (latch op x y s)) := by
  have hk := hs.restKind hr
  have hp := hs.pendingOk
  rw [hr] at hp
  have hv : PendingOk s.cfg .v s.ord.pending := hp.mono (fun _ he => he) (by decide) (by decide) (by decide)
  rw [safeState_iff]
  refine ⟨hs.memory, engineOk_in_transaction rfl (by simp [hk]) (fun h => Bool.noConfusion h) (by simp [hk])
    (by simp [hk]), hv⟩

/-- Step `V` reads no `pc`, so that a host's call starts as if the engine stood at `V`. -/
theorem stepV_latch (op : Byte) (x y : U32) {s : State} :
    stepV (latch op x y s) = engineStep (goto .v (latch op x y s)) := by
  show stepV (latch op x y s) = stepV (goto .v (latch op x y s))
  simp [stepV, raiseInvalidOperation, complete_eq, goto]

theorem stepV_latch_safe {s : State} (hc : parametersOk s.cfg = true) (hs : SafeState s) (hr : s.eng.pc = .rest)
    (op : Byte) (x y : U32) : SafeState (stepV (latch op x y s)) := by
  rw [stepV_latch]
  exact engineStep_safe hc (latch_at_v_safe hs hr op x y)

theorem chunkInit_safe {s : State} (hs : SafeState s) (hr : s.eng.pc = .rest) {k : ChunkKind} {buf : U64} {size : U32}
    (addr : U32)
    (hk : k = .erase ∨ ((k = .read ∨ k = .write) ∧ bufferClear s.cfg buf.toNat size.toNat = true)) :
    SafeState (chunkInit k addr buf size s) := by
  have hp := hs.pendingOk
  rw [hr] at hp
  have ht : PendingOk s.cfg .fTest s.ord.pending := hp.mono (fun _ he => he) (by decide) (by decide) (by decide)
  rw [safeState_iff]
  exact ⟨hs.memory, engineOk_chunkInit addr hk, ht⟩

theorem exec_safe {i : Instr} {s t : State} (hs : SafeState s) (h : exec i s = .next t) : SafeState t := by
  obtain ⟨hc, hr, hshape⟩ := exec_next h
  have hc' : parametersOk (envTurn s).cfg = true := by simpa using hc
  have hr' : (envTurn s).eng.pc = .rest := by simpa using hr
  have hs' := envTurn_safe hs
  rcases hshape with ⟨op, x, y, rfl⟩ | ⟨-, rfl⟩ | ⟨k, addr, buf, size, hk, rfl⟩
  · exact run_safe (by rw [stepV_latch]; simpa using hc) (stepV_latch_safe hc' hs' hr' op x y) _
  · rw [safeState_iff] at hs' ⊢
    exact hs'
  · exact run_safe (by simpa using hc) (chunkInit_safe hs' hr' addr (by simpa using hk)) _

/-- Everything a step can be: the environment's turn at `REST`, a host operation, or a requester step (R101). -/
theorem step_next {s t : State} (h : step s = .next t) :
    parametersOk s.cfg = true ∧
      ((s.eng.pc = .rest ∧ t = envTurn s) ∨ (s.eng.pc = .rest ∧ ∃ i rest, exec i (takeCall rest s) = .next t)
        ∨ (s.eng.pc ≠ .rest ∧ t = tick s)) := by
  unfold step at h
  split_ifs at h with hc hr ho
  · exact ⟨hc, .inl ⟨hr, by simpa using h.symm⟩⟩
  · refine ⟨hc, .inr (.inl ⟨hr, ?_⟩)⟩
    split at h
    · exact ⟨_, _, h⟩
    · rename_i op x y rest _
      exact ⟨.scpCmd op x y, rest, h⟩
    · exact absurd h (by simp)
  · exact ⟨hc, .inr (.inr ⟨hr, by simpa using h.symm⟩)⟩

/-- Settles O17: the environment's turn and the requester steps keep the three parts, so operations do. -/
theorem stepKeepsSafeState : Obligations.StepKeepsSafeState := by
  intro s t hs h
  obtain ⟨hc, ⟨-, rfl⟩ | ⟨-, i, rest, he⟩ | ⟨-, rfl⟩⟩ := step_next h
  · exact envTurn_safe hs
  · refine exec_safe ?_ he
    rw [safeState_iff] at hs ⊢
    exact hs
  · exact tick_safe hc hs

end Sys2Proof.Machine
end

section
/-! SUPPORT. What the environment's turn leaves alone (R33, R171, R172): the frame that every claim about all interleavings
uses. -/

namespace Sys2Proof.Machine

open Sys2Proof

/-- What the environment keeps: the engine, the message header as the requester sees it, the offers; it never sets `busy`,
gives a signal or turns the clock back; while an operation runs it adds no requester store, does not move the caller, and
leaves memory outside the mailbox where no oversize command was signalled (R229). -/
structure EnvKeeps (s t : State) : Prop where
  cfg : t.cfg = s.cfg
  eng : t.eng = s.eng
  offers : t.env.offers = s.env.offers
  retBuf : t.env.retBuf = s.env.retBuf
  clock : s.env.now.toNat ≤ t.env.now.toNat
  signals : t.bus.signals ≤ s.bus.signals
  busy : busyBit s.bus.dbStatus = false → busyBit t.bus.dbStatus = false
  oversize : t.bus.oversize = s.bus.oversize
  window : t.window = s.window ∨ t.window = 0
  pending : ∀ e ∈ t.ord.pending, e ∈ s.ord.pending ∨ (s.eng.pc = .rest ∧ isPayload e.field = true)
  header : ∀ f, requestHeader f = true → ownView t (.field f) = ownView s (.field f)
  hostSeen : s.eng.pc ≠ .rest → t.env.hostSeen = s.env.hostSeen
  outside : s.eng.pc ≠ .rest → s.bus.oversize = false →
    ∀ a, ¬ inMailbox s.cfg a → Memory.read t.bus.mem a = Memory.read s.bus.mem a

theorem EnvKeeps.refl (s : State) : EnvKeeps s s :=
  ⟨rfl, rfl, rfl, rfl, le_rfl, le_rfl, id, rfl, .inl rfl, fun _ => .inl, fun _ _ => rfl, fun _ => rfl, fun _ _ _ _ => rfl⟩

theorem EnvKeeps.trans {s t u : State} (h : EnvKeeps s t) (h' : EnvKeeps t u) : EnvKeeps s u where
  cfg := h'.cfg.trans h.cfg
  eng := h'.eng.trans h.eng
  offers := h'.offers.trans h.offers
  retBuf := h'.retBuf.trans h.retBuf
  clock := h.clock.trans h'.clock
  signals := h'.signals.trans h.signals
  busy := fun hb => h'.busy (h.busy hb)
  oversize := h'.oversize.trans h.oversize
  window := h'.window.elim (fun hw => h.window.imp hw.trans hw.trans) .inr
  pending := fun e he => (h'.pending e he).elim (h.pending e) fun hp => .inr (h.eng ▸ hp)
  header := fun f hf => (h'.header f hf).trans (h.header f hf)
  hostSeen := fun hp => (h'.hostSeen (h.eng ▸ hp)).trans (h.hostSeen hp)
  outside := fun hp ho a ha => (h'.outside (h.eng ▸ hp) (h.oversize ▸ ho) a (h.cfg ▸ ha)).trans (h.outside hp ho a ha)

theorem isPayload_of_payload {f : Field} {i : Nat} (h : f = .payload i) : isPayload f = true := by rw [h]; rfl

theorem scpEffect_window (m : ScpMove) (s : State) : (scpEffect m s).window = s.window ∨ (scpEffect m s).window = 0 := by
  rcases scpEffect_cases m s with ⟨f, v, -, h⟩ | h | ⟨i, b, -, -, -, h⟩ | ⟨w, n, k, h, -⟩ <;> rw [h]
  · rw [scpStore_window]; split <;> simp
  · exact .inl rfl
  · exact .inl rfl
  · exact .inl rfl

theorem scpMove_keeps {s : State} (hc : parametersOk s.cfg = true) (m : ScpMove) : EnvKeeps s (scpMove m s) where
  cfg := scpMove_cfg m s
  eng := scpMove_eng m s
  offers := scpMove_offers m s
  retBuf := scpMove_retBuf m s
  clock := by rw [scpMove_now]
  signals := scpMove_signals_le m s
  busy := scpMove_busy
  oversize := scpMove_oversize m s
  window := scpEffect_window m s
  pending := fun e he => .inl (scpMove_pending m s ▸ he)
  header := fun f hf => ownView_congr (scpMove_pending m s) (visible_scpMove_header hc m hf)
  hostSeen := fun _ => scpMove_hostSeen m s
  outside := fun _ ho a ha => read_scpMove_notMailbox hc m ha fun _ _ _ ho' => by rw [ho] at ho'; exact absurd ho' (by simp)

theorem clkMove_eq (n : Nat) (s : State) : ∃ v, clkMove n s = { s with env := { s.env with now := v } } := by
  unfold clkMove
  split
  · exact ⟨_, rfl⟩
  · exact ⟨s.env.now, rfl⟩

theorem clkMove_keeps (n : Nat) (s : State) : EnvKeeps s (clkMove n s) := by
  have hclock := clkMove_now_le n s
  obtain ⟨v, h⟩ := clkMove_eq n s
  rw [h] at hclock ⊢
  exact ⟨rfl, rfl, rfl, rfl, hclock, le_rfl, id, rfl, .inl rfl, fun _ => .inl, fun _ _ => rfl, fun _ => rfl, fun _ _ _ _ => rfl⟩

theorem drain_keeps {s : State} (hc : parametersOk s.cfg = true) (hs : SafeState s) (k : Nat) : EnvKeeps s (drain k s) where
  cfg := drain_cfg k s
  eng := drain_eng k s
  offers := by rw [drain_env]
  retBuf := by rw [drain_env]
  clock := by rw [drain_env]
  signals := by rw [drain_signals]
  busy := by rw [drain_dbStatus]; exact id
  oversize := drain_oversize k s
  window := .inl (drain_window k s)
  pending := fun e he => .inl (mem_pending_of_drain he)
  header := fun f _ => ownView_drain hc hs.memory hs.pendingWidth k f
  hostSeen := fun _ => by rw [drain_env]
  outside := fun _ _ a ha => read_drain_notMailbox hc (fun e he => (hs.pendingOwned e he).2) k ha

theorem hostMove_keeps {s : State} (hc : parametersOk s.cfg = true) (m : HostMove) : EnvKeeps s (hostMove m s) := by
  rcases hostMove_cases m s with h | ⟨hr, ⟨i, v, hi, h⟩ | ⟨i, v, k, h⟩ | ⟨a, v, ha, h⟩⟩ <;> rw [h]
  · exact .refl s
  · refine ⟨rfl, rfl, rfl, rfl, le_rfl, le_rfl, id, rfl, .inr rfl, fun e he => ?_, fun f hf => ?_,
      fun hp => absurd hr hp, fun hp => absurd hr hp⟩
    · simp only [storeField_ord, List.mem_append, List.mem_singleton] at he
      exact he.imp id fun he => ⟨hr, by rw [he]; rfl⟩
    · refine ownView_storeField_other (fun he => ?_) _ s
      cases he
      exact absurd hf (by simp [requestHeader])
  · exact ⟨rfl, rfl, rfl, rfl, le_rfl, le_rfl, id, rfl, .inl rfl, fun _ => .inl,
      fun f _ => ownView_congr rfl (visible_field_congr rfl rfl f), fun hp => absurd hr hp, fun hp => absurd hr hp⟩
  · exact ⟨rfl, rfl, rfl, rfl, le_rfl, le_rfl, id, rfl, .inl rfl, fun _ => .inl,
      fun f hf => ownView_congr (s := s) (t := writeOwn a v s) rfl (visible_writeOwn hc ha v (requestHeader_exists hf s.cfg)),
      fun hp => absurd hr hp, fun hp => absurd hr hp⟩

theorem envMove_keeps {s : State} (hc : parametersOk s.cfg = true) (hs : SafeState s) (m : EnvMove) :
    EnvKeeps s (envMove m s) := by
  cases m with
  | scp m => exact scpMove_keeps hc m
  | clk n => exact clkMove_keeps n s
  | drain k => exact drain_keeps hc hs k
  | early n =>
    exact ⟨rfl, rfl, rfl, rfl, le_rfl, le_rfl, id, rfl, .inl rfl, fun _ => .inl, fun _ _ => rfl, fun _ => rfl,
      fun _ _ _ _ => rfl⟩
  | statusHi v =>
    exact ⟨rfl, rfl, rfl, rfl, le_rfl, le_rfl, fun hb => (busyBit_statusHi v _).trans hb, rfl, .inl rfl, fun _ => .inl,
      fun _ _ => rfl, fun _ => rfl, fun _ _ _ _ => rfl⟩
  | host m => exact hostMove_keeps hc m

theorem envTurn_keeps {s : State} (hc : parametersOk s.cfg = true) (hs : SafeState s) : EnvKeeps s (envTurn s) := by
  have h := envTurn_induction (P := fun t => SafeState t ∧ EnvKeeps s t) (s := s)
    (fun m t ⟨hst, hk⟩ => ⟨envMove_safe hst, hk.trans (envMove_keeps (by rw [hk.cfg]; exact hc) hst m)⟩)
    (fun t bs ⟨hst, hk⟩ => ⟨by rw [safeState_iff] at hst ⊢; exact hst, hk.trans ⟨rfl, rfl, rfl, rfl, le_rfl, le_rfl, id, rfl, .inl rfl,
      fun _ => .inl, fun _ _ => rfl, fun _ => rfl, fun _ _ _ _ => rfl⟩⟩) ⟨hs, .refl s⟩
  exact h.2

/-- Where the requester has no store of a header field pending, the environment leaves the visible field (R171). -/
theorem EnvKeeps.visible_header {s t : State} (h : EnvKeeps s t) {f : Field} (hf : requestHeader f = true)
    (hp : ∀ e ∈ s.ord.pending, e.field ≠ f) : visible t (.field f) = visible s (.field f) := by
  have hs : ∀ e ∈ s.ord.pending, Loc.field f ≠ .field e.field := fun e he hfe => hp e he (Loc.field.inj hfe).symm
  have ht : ∀ e ∈ t.ord.pending, Loc.field f ≠ .field e.field := fun e he => by
    rcases h.pending e he with hin | ⟨-, hpay⟩
    · exact hs e hin
    · intro hfe
      rw [← Loc.field.inj hfe] at hpay
      cases f <;> simp [requestHeader, isPayload] at hf hpay
  rw [← ownView_of_not_pending hs, ← ownView_of_not_pending ht, h.header f hf]

/-! ### The message stays held -/

theorem MessageHeld.of_keeps {s t : State} (h : EnvKeeps s t) (hm : MessageHeld s) : MessageHeld t where
  op := by rw [h.eng, h.header _ rfl]; exact hm.op
  arg0 := by rw [h.eng, h.cfg, h.header _ rfl]; exact hm.arg0
  arg1 := by rw [h.eng, h.cfg, h.header _ rfl]; exact hm.arg1
  requestId := by rw [h.eng, h.header _ rfl]; exact hm.requestId

/-- The steps at which `MessageHeld` says something. -/
def holdingPcs : List Pc :=
  [.wA0, .wA1, .wId, .sb, .ring, .t0, .poll, .lb, .rdSt, .resolve]

theorem messageHeld_of_not_holding {s : State} (h : s.eng.pc ∉ holdingPcs) : MessageHeld s := by
  have hsub : ∀ l : List Pc, l ⊆ holdingPcs → s.eng.pc ∉ l := fun l hl hp => h (hl hp)
  exact
    { op := fun hp => absurd hp (hsub _ (by decide))
      arg0 := fun hp => absurd hp (hsub _ (by decide))
      arg1 := fun hp => absurd hp (hsub _ (by decide))
      requestId := fun hp => absurd hp (hsub _ (by decide)) }

/-- The whole message is written and the engine's own side sees it. -/
structure MessageSeen (s : State) : Prop where
  op : ownView s (.field .op) = zextByte s.eng.op
  arg0 : storesArgs s.cfg.gen s.eng.op = true → ownView s (.field .arg0) = s.eng.arg0
  arg1 : storesArgs s.cfg.gen s.eng.op = true → ownView s (.field .arg1) = s.eng.arg1
  requestId : ownView s (.field .requestId) = s.eng.nextId - 1#32

/-- From `SB` to the end of the transaction the whole message is held. -/
theorem MessageHeld.seen {s : State} (h : MessageHeld s) (hp : s.eng.pc ∈ [Pc.sb, .ring, .t0, .poll, .lb, .rdSt, .resolve]) :
    MessageSeen s := by
  have hsub : ∀ l : List Pc, [Pc.sb, .ring, .t0, .poll, .lb, .rdSt, .resolve] ⊆ l → s.eng.pc ∈ l := fun l hl => hl hp
  exact ⟨h.op (hsub _ (by decide)), h.arg0 (hsub _ (by decide)), h.arg1 (hsub _ (by decide)), h.requestId hp⟩

theorem MessageSeen.held {s : State} (h : MessageSeen s) : MessageHeld s :=
  ⟨fun _ => h.op, fun _ => h.arg0, fun _ => h.arg1, fun _ => h.requestId⟩

/-- A step that stores nothing leaves the message seen. -/
theorem MessageSeen.congr {s t : State} (h : MessageSeen s) (hc : t.cfg = s.cfg)
    (hv : ∀ f, ownView t (.field f) = ownView s (.field f)) (ho : t.eng.op = s.eng.op) (h0 : t.eng.arg0 = s.eng.arg0)
    (h1 : t.eng.arg1 = s.eng.arg1) (hn : t.eng.nextId = s.eng.nextId) : MessageSeen t := by
  constructor
  · rw [hv, ho]; exact h.op
  · rw [hv, hc, ho, h0]; exact h.arg0
  · rw [hv, hc, ho, h1]; exact h.arg1
  · rw [hv, hn]; exact h.requestId

/-- At `RING` a barrier has passed every pending store, so that the doorbell write makes visible what the engine's own side
saw (R51, R108). -/
theorem visible_ring {s : State} (hc : parametersOk s.cfg = true) (hs : SafeState s) (hr : s.eng.pc = .ring) (f : Field) :
    visible (writeSignal 1#32 s) (.field f) = ownView s (.field f) := by
  have hall : fenced s = s.ord.pending :=
    List.filter_eq_self.2 fun e he => by simpa using hs.pendingFenced hr e he
  rw [visible_writeSignal_one, hall, visible_commitAll hc hs.memory, ownView]
  cases ho : ownStore s.ord.pending (.field f) with
  | none => rfl
  | some v =>
    obtain ⟨e, he, hfe, rfl⟩ := ownStore_some ho
    rw [Loc.field.inj hfe]
    exact hs.pendingWidth e he

theorem ownView_ring {s : State} (hc : parametersOk s.cfg = true) (hs : SafeState s) (hr : s.eng.pc = .ring) (f : Field) :
    ownView (writeSignal 1#32 s) (.field f) = ownView s (.field f) := by
  have hnil := writeSignal_one_pending_nil (hs.pendingFenced hr)
  rw [ownView_of_not_pending (by simp [hnil]), visible_ring hc hs hr]

/-- A step that stores nothing and rings no doorbell leaves the engine's own view of every field. -/
theorem ownView_engineStep {s : State} (h : s.eng.pc ∉ [Pc.wOp, .wA0, .wA1, .wId, .sb, .ring, .fCopyIn, .fCopyOut]) (f : Field) :
    ownView (engineStep s) (.field f) = ownView s (.field f) := by
  simp only [List.mem_cons, List.not_mem_nil, or_false, not_or] at h
  refine ownView_congr (engineStep_pending (by simp; tauto)) (visible_field_congr (engineStep_cfg s) ?_ f)
  rw [engineStep_bus (by tauto) (by tauto)]

theorem not_holding_of_not_inTransaction {p : Pc} (h : inTransaction p = false) : p ∉ holdingPcs := by
  intro hp
  simp only [holdingPcs, List.mem_cons, List.not_mem_nil, or_false] at hp
  rcases hp with rfl | rfl | rfl | rfl | rfl | rfl | rfl | rfl | rfl | rfl <;> exact absurd h (by decide)

theorem Completes.not_inTransaction {code : BitVec 3} {s t : State} (h : Completes code s t) :
    inTransaction t.eng.pc = false := by
  rw [h.pc]
  rcases returnPc_cases code s.eng.cKind with ⟨hp, -⟩ | ⟨hp, -, -⟩ | ⟨hp, -, -⟩ <;> rw [hp] <;> rfl

/-- Before the message is being written, and outside a transaction, the next step holds no message yet. -/
theorem engineStep_not_holding {s : State} (h : s.eng.pc ∉ holdingPcs) (hw : s.eng.pc ≠ .wOp) :
    (engineStep s).eng.pc ∉ holdingPcs := by
  obtain ⟨a, x, o, hs, -⟩ := sampleRead_eq s
  cases hp : s.eng.pc <;> rw [hp] at h hw <;> simp only [engineStep, hp]
  case wOp => exact absurd rfl hw
  case wA0 | wA1 | wId | sb | ring | t0 | poll | lb | rdSt | resolve => exact absurd (by decide) h
  case v =>
    rcases stepV_cases s with ⟨-, he⟩ | ⟨-, he⟩ <;> rw [he]
    · simp [holdingPcs]
    · exact not_holding_of_not_inTransaction (completes_raiseInvalidOperation s).not_inTransaction
  case c =>
    rcases stepC_cases s with ⟨-, he⟩ | ⟨-, -, he⟩ | ⟨-, -, he⟩ <;> rw [he]
    · simp [hs, hp, holdingPcs]
    · simp [holdingPcs]
    · exact not_holding_of_not_inTransaction (completes_raiseChannelBusy_sampleRead s).not_inTransaction
  case fTest => rw [stepFTest_eq]; dsimp only; split <;> simp [holdingPcs]
  case fChunk => simp only [stepFChunk]; split <;> simp [holdingPcs]
  case fCopyIn => rw [stepFCopyIn, copyNext_eng]; split <;> simp [hp, holdingPcs]
  case fCopyOut => rw [stepFCopyOut, copyNext_eng]; split <;> simp [hp, holdingPcs]
  all_goals simp [stepFInit, stepFCmd, stepFAdv, holdingPcs, hp]

theorem stepWA0_held {s : State} (hp : s.eng.pc = .wA0) (h : MessageHeld s) : MessageHeld (stepWA0 s) := by
  have hop := h.op (by simp [hp])
  unfold stepWA0
  split
  · refine ⟨fun _ => ?_, fun _ _ => ownView_storeField_same .arg0 _ s, by simp, by simp⟩
    exact (ownView_storeField_other (by simp) _ s).trans hop
  · exact ⟨fun _ => hop, fun _ ha => absurd ha ‹_›, by simp, by simp⟩

theorem stepWA1_held {s : State} (hp : s.eng.pc = .wA1) (h : MessageHeld s) : MessageHeld (stepWA1 s) := by
  have hop := h.op (by simp [hp])
  have h0 := h.arg0 (by simp [hp])
  unfold stepWA1
  split
  · exact ⟨fun _ => (ownView_storeField_other (by simp) _ s).trans hop,
      fun _ ha => (ownView_storeField_other (by simp) _ s).trans (h0 ha),
      fun _ _ => ownView_storeField_same .arg1 _ s, by simp⟩
  · exact ⟨fun _ => hop, fun _ => h0, fun _ ha => absurd ha ‹_›, by simp⟩

theorem stepWId_seen {s : State} (hp : s.eng.pc = .wId) (h : MessageHeld s) : MessageSeen (stepWId s) where
  op := (ownView_storeField_other (by simp) _ s).trans (h.op (by simp [hp]))
  arg0 := fun ha => (ownView_storeField_other (by simp) _ s).trans (h.arg0 (by simp [hp]) ha)
  arg1 := fun ha => (ownView_storeField_other (by simp) _ s).trans (h.arg1 (by simp [hp]) ha)
  requestId := by
    refine (ownView_storeField_same .requestId _ s).trans ?_
    simp [stepWId]

/-- Every requester step keeps the message held. -/
theorem engineStep_held {s : State} (hc : parametersOk s.cfg = true) (hs : SafeState s) (h : MessageHeld s) :
    MessageHeld (engineStep s) := by
  by_cases hhold : s.eng.pc ∈ holdingPcs
  · by_cases hseen : s.eng.pc ∈ [Pc.t0, .poll, .lb, .rdSt, .resolve]
    · have ht : inTransaction s.eng.pc = true := by
        simp only [List.mem_cons, List.not_mem_nil, or_false] at hseen
        rcases hseen with hp | hp | hp | hp | hp <;> rw [hp] <;> rfl
      rcases engineStep_transaction ht with ⟨code, -, hend⟩ | ⟨-, hsame, -⟩
      · exact messageHeld_of_not_holding (not_holding_of_not_inTransaction hend.not_inTransaction)
      · have hnot : ∀ l : List Pc, (∀ p ∈ l, p ∉ [Pc.t0, .poll, .lb, .rdSt, .resolve]) → s.eng.pc ∉ l :=
          fun l hl hp => hl _ hp hseen
        refine ((h.seen (by simp at hseen ⊢; tauto)).congr (engineStep_cfg s)
          (ownView_engineStep (hnot _ (by decide))) hsame.op hsame.arg0 hsame.arg1 ?_).held
        rw [engineStep_nextId, if_neg fun hp => by simp [hp] at hseen]
    · simp only [holdingPcs, List.mem_cons, List.not_mem_nil, or_false] at hhold hseen
      have hp : s.eng.pc = .wA0 ∨ s.eng.pc = .wA1 ∨ s.eng.pc = .wId ∨ s.eng.pc = .sb ∨ s.eng.pc = .ring := by tauto
      rcases hp with hp | hp | hp | hp | hp
      · simp only [engineStep, hp]; exact stepWA0_held hp h
      · simp only [engineStep, hp]; exact stepWA1_held hp h
      · simp only [engineStep, hp]; exact (stepWId_seen hp h).held
      · simp only [engineStep, hp]
        exact (MessageSeen.congr (t := stepSb s) (h.seen (by simp [hp])) rfl (fun f => ownView_storeBarrier s (.field f))
          rfl rfl rfl rfl).held
      · simp only [engineStep, hp]
        refine (MessageSeen.congr (t := stepRing s) (h.seen (by simp [hp])) (writeSignal_one_cfg s)
          (ownView_ring hc hs hp) ?_ ?_ ?_ ?_).held <;> simp [stepRing]
  · by_cases hw : s.eng.pc = .wOp
    · simp only [engineStep, hw]
      exact ⟨fun _ => ownView_storeField_same .op _ s, by simp [stepWOp], by simp [stepWOp], by simp [stepWOp]⟩
    · exact messageHeld_of_not_holding (engineStep_not_holding hhold hw)

theorem tick_held {s : State} (hc : parametersOk s.cfg = true) (hs : SafeState s) (h : MessageHeld s) :
    MessageHeld (tick s) :=
  engineStep_held (by simpa using hc) (envTurn_safe hs) (h.of_keeps (envTurn_keeps hc hs))

theorem run_held {s : State} (hc : parametersOk s.cfg = true) (hs : SafeState s) (h : MessageHeld s) (n : Nat) :
    MessageHeld (run n s) :=
  (run_induction (P := fun t => parametersOk t.cfg = true ∧ SafeState t ∧ MessageHeld t)
    (fun _ h _ => ⟨by simpa using h.1, tick_safe h.1 h.2.1, tick_held h.1 h.2.1 h.2.2⟩) n ⟨hc, hs, h⟩).2.2

/-- An operation starts at a step that holds no message yet. -/
theorem exec_held {i : Instr} {s t : State} (hs : SafeState s) (h : exec i s = .next t) : MessageHeld t := by
  obtain ⟨hc, hr, hshape⟩ := exec_next h
  have hc' : parametersOk (envTurn s).cfg = true := by simpa using hc
  have hr' : (envTurn s).eng.pc = .rest := by simpa using hr
  have hs' := envTurn_safe hs
  rcases hshape with ⟨op, x, y, rfl⟩ | ⟨-, rfl⟩ | ⟨k, addr, buf, size, hk, rfl⟩
  · have hv := latch_at_v_safe hs' hr' op x y
    rw [stepV_latch]
    have hcv : parametersOk (goto .v (latch op x y (envTurn s))).cfg = true := hc'
    have hheld : MessageHeld (goto .v (latch op x y (envTurn s))) :=
      messageHeld_of_not_holding (show Pc.v ∉ holdingPcs by decide)
    exact run_held (by simpa using hc) (engineStep_safe hcv hv) (engineStep_held hcv hv hheld) _
  · exact messageHeld_of_not_holding (by simp [hr, holdingPcs])
  · exact run_held (by simpa using hc) (chunkInit_safe hs' hr' addr (by simpa using hk))
      (messageHeld_of_not_holding (by simp [holdingPcs])) _

/-- Settles O18: the environment leaves the header as the engine's own side sees it, and each requester step writes the
part of the message that the next step holds. -/
theorem stepKeepsMessageHeld : Obligations.StepKeepsMessageHeld := by
  intro s t hs hm h
  obtain ⟨hc, ⟨-, rfl⟩ | ⟨-, i, rest, he⟩ | ⟨-, rfl⟩⟩ := step_next h
  · exact hm.of_keeps (envTurn_keeps hc hs)
  · refine exec_held ?_ he
    rw [safeState_iff] at hs ⊢
    exact hs
  · exact tick_held hc hs hm

/-- Settles O29: the doorbell write makes the engine's own view of every field visible, and the message is what it holds. -/
theorem doorbellPublishesMessage : Obligations.DoorbellPublishesMessage := by
  intro s hs hm hc hp t
  have ht : t = goto .t0 (writeSignal 1#32 s) := by simp only [t, engineStep, hp, stepRing]
  have hvis : ∀ f, visible t (.field f) = ownView s (.field f) := fun f => by rw [ht]; exact visible_ring hc hs hp f
  have hseen := hm.seen (by simp [hp])
  refine ⟨by rw [ht]; rfl, by rw [ht]; exact writeSignal_one_pending_nil (hs.pendingFenced hp), fun f _ => hvis f,
    (hvis _).trans hseen.op, (hvis _).trans hseen.requestId,
    fun ha => ⟨(hvis _).trans (hseen.arg0 ha), (hvis _).trans (hseen.arg1 ha)⟩, ?_, ?_, ?_⟩
  · rw [ht, goto_bus, writeSignal_one_dbStatus, busyBit_or_one]
  · rw [ht, goto_bus, writeSignal_one_signals]
  · rw [ht, goto_bus, writeSignal_one_dbStatus]
    ext i hi
    simp

end Sys2Proof.Machine
end

section
/-! SUPPORT. Reset, the step by its cases, and the turns of the environment while the engine rests (R101, R170, R201, R220). -/

namespace Sys2Proof.Machine

open Sys2Proof

/-! ### Reset -/

/-- At `REST` with no chunk loop and nothing pending, canonical memory is all that a safe state asks. -/
theorem safeState_of_rest {s : State} (hm : Memory.wf s.bus.mem = true) (hp : s.eng.pc = .rest) (hk : s.eng.cKind = .none)
    (hpend : s.ord.pending = []) : SafeState s := by
  rw [safeState_iff, hpend]
  exact ⟨hm, engineOk_at_rest s.cfg hp hk, pendingOk_nil _ _⟩

theorem resetFrom_safe {u : State} (cfg : Config) (hm : Memory.wf u.bus.mem = true) : SafeState (State.resetFrom cfg u) :=
  safeState_of_rest (by simpa using hm) (by simp) (by simp) (by simp)

/-- Settles O11: reset puts the engine at `REST` and empties the pending stores, and memory is as it was. -/
theorem resetIsSafe : Obligations.ResetIsSafe :=
  ⟨fun cfg _ hc hm => ⟨resetFrom_safe cfg hm, by simpa using hc, by simp, by simp⟩,
    resetFrom_safe Config.refA rfl, messageHeld_of_not_holding (by decide), by decide, rfl, rfl⟩

/-! ### The step by its cases -/

theorem step_at_rest_idle {s : State} (hc : parametersOk s.cfg = true) (hr : s.eng.pc = .rest) (ho : s.env.offers = []) :
    step s = .next (envTurn s) := by
  simp [step, hc, hr, ho]

theorem step_busy {s : State} (hc : parametersOk s.cfg = true) (hr : s.eng.pc ≠ .rest) : step s = .next (tick s) := by
  simp [step, hc, hr]

theorem step_of_decode {s : State} {i : Instr} {rest : List Byte} (hc : parametersOk s.cfg = true) (hr : s.eng.pc = .rest)
    (hd : decode s.cfg.gen s.env.offers = .ok (i, rest)) : step s = exec i (takeCall rest s) := by
  have ho : s.env.offers ≠ [] := fun he => by rw [he] at hd; exact absurd hd (by simp [decode])
  simp [step, hc, hr, ho, hd]

theorem step_of_illegal {s : State} {op : Byte} {x y : U32} {rest : List Byte} (hc : parametersOk s.cfg = true)
    (hr : s.eng.pc = .rest) (hd : decode s.cfg.gen s.env.offers = .error (.illegalOpByte op x y rest)) :
    step s = exec (.scpCmd op x y) (takeCall rest s) := by
  have ho : s.env.offers ≠ [] := fun he => by rw [he] at hd; exact absurd hd (by simp [decode])
  simp only [step, hc, hr, List.isEmpty_iff, ho, hd, if_true, if_false]
  rfl

/-- Settles O12: the three branches of the step. -/
theorem stepRunsDecodedCall : Obligations.StepRunsDecodedCall :=
  fun _ hc => ⟨fun _ _ hr hd => step_of_decode hc hr hd, step_at_rest_idle hc, step_busy hc⟩

/-! ### The offers are the caller's -/

@[simp] theorem clkMove_offers (n : Nat) (s : State) : (clkMove n s).env.offers = s.env.offers := by
  obtain ⟨v, h⟩ := clkMove_eq n s
  rw [h]

@[simp] theorem hostMove_offers (m : HostMove) (s : State) : (hostMove m s).env.offers = s.env.offers := by
  rcases hostMove_cases m s with h | ⟨-, ⟨i, v, -, h⟩ | ⟨i, v, k, h⟩ | ⟨a, v, -, h⟩⟩ <;> simp [h]

@[simp] theorem envTurn_offers (s : State) : (envTurn s).env.offers = s.env.offers :=
  envTurn_induction (P := fun t => t.env.offers = s.env.offers)
    (fun m t h => by cases m <;> simpa [envMove, statusHiMove] using h) (fun _ _ h => h) rfl

/-- Settles O13: the bytes decode to an illegal op byte, whose answer is the transaction that step `V` ends. -/
theorem stepAnswersIllegalOpByte : Obligations.StepAnswersIllegalOpByte := by
  intro s op x y rest hready h5 hrec ho
  have ⟨hc, hr, hk⟩ := hready
  have hstep : step s = exec (.scpCmd op x y) (takeCall rest s) :=
    step_of_illegal hc hr (by rw [ho, decode_illegal h5 hrec])
  have hnext : exec (.scpCmd op x y) (takeCall rest s)
      = .next (raiseInvalidOperation (latch op x y (envTurn (takeCall rest s)))) :=
    transact_unrecognised (s := takeCall rest s) hready hrec x y
  refine ⟨_, hstep.trans hnext, hstep, ?_⟩
  rw [raiseInvalidOperation_at_rest (by simpa using hr) (by simpa using hk)]
  exact ⟨by simpa using hr, rfl, by simp⟩

/-! ### Which operations run -/

/-- Every instruction whose buffer is clear is one host operation (R100, R150, R178). -/
theorem exec_of_buffersClear {i : Instr} {s : State} (hb : buffersClear s.cfg i = true) :
    ∃ size first, exec i s = hostOperation size first s := by
  cases hcmd : commandOf i with
  | some c => exact ⟨0#32, _, exec_of_commandOf hcmd s⟩
  | none =>
    cases i with
    | scpBuf => exact ⟨0#32, returnBuf, rfl⟩
    | flashErase addr size => exact ⟨size, chunkInit .erase addr 0#64 size, rfl⟩
    | flashRead addr dst size => exact ⟨size, _, chunkedOn_of_clear hb⟩
    | flashWrite addr src size => exact ⟨size, _, chunkedOn_of_clear hb⟩
    | _ => exact absurd hcmd (by simp [commandOf])

/-- Settles O14: at `REST` a host operation answers a next state. -/
theorem everyOperationRuns : Obligations.EveryOperationRuns := by
  intro i s hc hr hb
  obtain ⟨size, first, h⟩ := exec_of_buffersClear hb
  exact ⟨_, h.trans (hostOperation_of_rest hc hr size first)⟩

theorem hostOperation_busy {s : State} (hc : parametersOk s.cfg = true) (hr : s.eng.pc ≠ .rest) (size : U32)
    (first : State → State) : hostOperation size first s = .fault .offeredWhileBusy := by
  simp [hostOperation, hc, hr]

theorem exec_offeredWhileBusy {i : Instr} {s : State} (hc : parametersOk s.cfg = true) (hr : s.eng.pc ≠ .rest)
    (hb : buffersClear s.cfg i = true) : exec i s = .fault .offeredWhileBusy := by
  obtain ⟨size, first, h⟩ := exec_of_buffersClear hb
  exact h.trans (hostOperation_busy hc hr size first)

theorem chunkedOn_overlapping {s : State} {buf : U64} {size : U32} (hc : parametersOk s.cfg = true)
    (hb : bufferClear s.cfg buf.toNat size.toNat = false) (k : ChunkKind) (addr : U32) :
    chunkedOn k addr buf size s = .fault .bufferOverlapsDevice := by
  simp [chunkedOn, hc, hb]

/-- Settles O15: only the two operations with a buffer can overlap, and every other offer while busy reaches the test of
`pc`. -/
theorem offersThatHaveNoStep : Obligations.OffersThatHaveNoStep := by
  intro i s hc
  refine ⟨fun hb hr => exec_offeredWhileBusy hc hr hb, fun hb => ?_⟩
  cases i with
  | flashRead addr dst size => exact chunkedOn_overlapping hc hb .read addr
  | flashWrite addr src size => exact chunkedOn_overlapping hc hb .write addr
  | _ => exact absurd hb (by simp [buffersClear, Instr.buffer])

/-! ### The configuration and the clock -/

theorem run_cfg (n : Nat) (s : State) : (run n s).cfg = s.cfg :=
  run_induction (P := fun t => t.cfg = s.cfg) (fun _ h _ => by simpa using h) n rfl

theorem run_now_le (n : Nat) (s : State) : s.env.now.toNat ≤ (run n s).env.now.toNat :=
  run_induction (P := fun t => s.env.now.toNat ≤ t.env.now.toNat) (fun t h _ => h.trans (tick_now_le t)) n le_rfl

@[simp] theorem stepV_latch_cfg (op : Byte) (x y : U32) (s : State) : (stepV (latch op x y s)).cfg = s.cfg := by
  rw [stepV_latch]
  simp

@[simp] theorem stepV_latch_env (op : Byte) (x y : U32) (s : State) : (stepV (latch op x y s)).env = s.env := by
  rw [stepV_latch]
  simp

theorem exec_cfg_clock {i : Instr} {s t : State} (h : exec i s = .next t) :
    t.cfg = s.cfg ∧ s.env.now.toNat ≤ t.env.now.toNat := by
  have hturn := envTurn_now_le s
  obtain ⟨-, -, ⟨op, x, y, rfl⟩ | ⟨-, rfl⟩ | ⟨k, addr, buf, size, -, rfl⟩⟩ := exec_next h
  · exact ⟨by rw [run_cfg]; simp, (hturn.trans_eq (by simp)).trans (run_now_le _ _)⟩
  · exact ⟨by simp, hturn.trans_eq (by simp)⟩
  · exact ⟨by rw [run_cfg]; simp, (hturn.trans_eq (by simp)).trans (run_now_le _ _)⟩

/-! ### The engine at rest -/

/-- The environment's turns one after the other, with no requester step between them. -/
def turns : Nat → State → State
  | 0, s => s
  | n + 1, s => turns n (envTurn s)

theorem steps_succ {s t : State} (h : step s = .next t) (n : Nat) : steps (n + 1) s = steps n t := by
  rw [steps.eq_def]
  simp only [h]

/-- While the engine rests and nothing is offered, the steps of the machine are the environment's turns (R101). -/
theorem steps_at_rest {s : State} (hc : parametersOk s.cfg = true) (hr : s.eng.pc = .rest) (ho : s.env.offers = [])
    (n : Nat) : steps n s = some (turns n s) := by
  induction n generalizing s with
  | zero => rfl
  | succ n ih =>
    have hrest := ih (s := envTurn s) (by simpa using hc) (by simpa using hr) (by simpa using ho)
    rw [steps_succ (step_at_rest_idle hc hr ho), turns, hrest]

theorem turns_add (m n : Nat) (s : State) : turns (m + n) s = turns n (turns m s) := by
  induction m generalizing s with
  | zero => simp [turns]
  | succ m ih => rw [Nat.succ_add]; exact ih (envTurn s)

@[simp] theorem turns_eng (n : Nat) (s : State) : (turns n s).eng = s.eng := by
  induction n generalizing s with
  | zero => rfl
  | succ n ih => rw [turns, ih, envTurn_eng]

theorem turns_sched (n : Nat) (s : State) : (turns n s).env.sched = s.env.sched.drop n := by
  induction n generalizing s with
  | zero => rfl
  | succ n ih => rw [turns, ih, envTurn_sched, List.drop_tail]

/-- After as many turns as there are batches, the schedule is used up. -/
theorem turns_sched_length (s : State) : (turns s.env.sched.length s).env.sched = [] := by
  rw [turns_sched, List.drop_length]

theorem clkMove_one_now {s : State} (h : s.env.now.toNat + 1 < 2 ^ 64) :
    (clkMove 1 s).env.now.toNat = s.env.now.toNat + 1 := by
  rw [clkMove, if_pos h]
  exact BitVec.toNat_add_of_lt (by simpa using h)

/-- With the schedule used up the resting engine's clock counts its turns, up to the last value (R201, U20; log 2). -/
theorem turns_now_le {s : State} (hr : s.eng.pc = .rest) (hs : s.env.sched = []) (n : Nat) :
    min (s.env.now.toNat + n) (2 ^ 64 - 1) ≤ (turns n s).env.now.toNat := by
  induction n generalizing s with
  | zero => simp [turns]
  | succ n ih =>
    have hn := ih (s := envTurn s) (by simpa using hr) (by simp [hs])
    have hturn : min (s.env.now.toNat + 1) (2 ^ 64 - 1) ≤ (envTurn s).env.now.toNat := by
      by_cases hlt : s.env.now.toNat + 1 < 2 ^ 64
      · rw [envTurn_at_rest hs hr, clkMove_one_now (by simpa using hlt), drain_env]
        omega
      · have := envTurn_now_le s
        omega
    rw [turns]
    omega

/-- Settles O19: no operation and no turn changes the parameters or turns the clock back, and the turns of a resting engine
count up once the schedule is used up. -/
theorem stepKeepsConfigurationAndClock : Obligations.StepKeepsConfigurationAndClock := by
  refine ⟨fun s t h => ?_, fun s v hc hr ho hv => ?_⟩
  · obtain ⟨-, ⟨-, rfl⟩ | ⟨-, i, rest, he⟩ | ⟨-, rfl⟩⟩ := step_next h
    · exact ⟨envTurn_cfg s, envTurn_now_le s⟩
    · exact exec_cfg_clock (s := takeCall rest s) he
    · exact ⟨tick_cfg s, tick_now_le s⟩
  · refine ⟨s.env.sched.length + (v + 1), _, steps_at_rest hc hr ho _, ?_⟩
    have hcount := turns_now_le (s := turns s.env.sched.length s) (by simpa using hr) (turns_sched_length s) (v + 1)
    rw [← turns_add] at hcount
    omega

/-! ### Pending stores at rest -/

/-- A store behind one to its own field, or behind one that a barrier separates from it, does not become visible
(R50 (a), R51). -/
theorem drain_blocked {s : State} {k : Nat} {e : Store} (he : s.ord.pending[k]? = some e)
    (h : ∃ x ∈ s.ord.pending.take k, x.field = e.field ∨ e.barriers < x.barriers) : drain k s = s := by
  obtain ⟨x, hx, hbefore⟩ := h
  have hno : mayCommit (s.ord.pending.take k) e = false := by
    rw [mayCommit, List.all_eq_false]
    refine ⟨x, hx, ?_⟩
    rcases hbefore with hfield | hbarrier
    · simp [hfield]
    · simp [Nat.not_le.2 hbarrier]
  simp [drain, he, hno]

/-- The oldest pending store becomes visible by the first drain. -/
theorem drain_zero_cons {s : State} {e : Store} {es : List Store} (h : s.ord.pending = e :: es) :
    drain 0 s = commit e { s with ord := { s.ord with pending := es } } := by
  simp [drain, h, mayCommit]

theorem envTurn_at_rest_pending {s : State} (hr : s.eng.pc = .rest) (hs : s.env.sched = []) :
    (envTurn s).ord.pending = s.ord.pending.drop 1 := by
  rw [envTurn_at_rest hs hr, clkMove_ord, drain_zero_pending]

/-- With the schedule used up each turn of a resting engine takes one store off the pending ones (R50 (e); log 2). -/
theorem turns_pending {s : State} (hr : s.eng.pc = .rest) (hs : s.env.sched = []) (n : Nat) :
    (turns n s).ord.pending = s.ord.pending.drop n := by
  induction n generalizing s with
  | zero => rfl
  | succ n ih =>
    rw [turns, ih (by simpa using hr) (by simp [hs]), envTurn_at_rest_pending hr hs, List.drop_drop, Nat.add_comm]

/-- Settles O27: a drain looks at the earlier stores alone, the oldest has none, and a resting engine's turns drain them one
by one once the schedule is used up. -/
theorem storesDrainInOrder : Obligations.StoresDrainInOrder := by
  refine ⟨fun s k e he => ⟨drain_blocked he, fun hk => ?_⟩, fun s hc hr ho => ?_, fun s e es hr hs hp => ?_⟩
  · subst hk
    refine ⟨drain_zero_pending s, fun hm => ?_⟩
    obtain ⟨es, hp⟩ : ∃ es, s.ord.pending = e :: es := by
      cases hp : s.ord.pending with
      | nil => simp [hp] at he
      | cons x xs => exact ⟨xs, by simpa [hp] using he⟩
    rw [drain_zero_cons hp]
    exact visible_commit_same hm e
  · refine ⟨s.env.sched.length + (turns s.env.sched.length s).ord.pending.length, _, steps_at_rest hc hr ho _, ?_⟩
    rw [turns_add, turns_pending (by simpa using hr) (turns_sched_length s), List.drop_length]
  · rw [envTurn_at_rest hs hr, drain_zero_cons hp]

end Sys2Proof.Machine
end

section
/-! SUPPORT. Loads that the memory system satisfies early (R50, R52; log 6): which older values a load leaves. -/

namespace Sys2Proof.Machine

open Sys2Proof

/-- The older values that loads may return, newest first (R30). -/
def olderValues (s : State) : List Older :=
  s.ord.stale ++ s.ord.passed

/-- A load of `l` that is satisfied `n` coprocessor stores back (R50). -/
theorem loadValue_early (n : Nat) (s : State) (l : Loc) :
    loadValue (envMove (.early n) s) l
      = (ownStore s.ord.pending l).getD (valueBack l ((olderValues s).take n) (visible s l)) := by
  have hv : visible (envMove (.early n) s) l = visible s l := visible_congr rfl rfl rfl l
  unfold loadValue
  rw [hv]
  show (match ownStore s.ord.pending l with | some v => v | none => _) = _
  cases ownStore s.ord.pending l <;> rfl

theorem olderValues_afterLoad (s : State) (l : Loc) :
    olderValues (afterLoad s l)
      = (olderValues s).take s.ord.loadPick ++ forget l ((olderValues s).drop s.ord.loadPick) :=
  afterLoad_older s l

/-- Taking values that `forget` left is taking some of all values and then forgetting. -/
theorem take_forget (l : Loc) (os : List Older) (j : Nat) : ∃ i, (forget l os).take j = forget l (os.take i) := by
  induction os generalizing j with
  | nil => exact ⟨0, by simp⟩
  | cons o os ih =>
    by_cases ho : o.loc = l
    · obtain ⟨i, hi⟩ := ih j
      exact ⟨i + 1, by simpa [forget, ho] using hi⟩
    · cases j with
      | zero => exact ⟨0, by simp⟩
      | succ j =>
        obtain ⟨i, hi⟩ := ih j
        exact ⟨i + 1, by simpa [forget, ho] using hi⟩

/-- Of the location just loaded nothing from before the load is left (R50 (a)). -/
theorem valueBack_afterLoad_same (s : State) (l : Loc) (m : Nat) (v : U32) :
    valueBack l ((olderValues (afterLoad s l)).take m) v
      = valueBack l ((olderValues s).take (min m s.ord.loadPick)) v := by
  rw [olderValues_afterLoad, List.take_append, valueBack_append, List.take_take]
  exact valueBack_of_none (fun o ho => (mem_forget.1 (List.mem_of_mem_take ho)).2) _

/-- Of another location every value that was possible stays possible, and none is added. -/
theorem valueBack_afterLoad_other {s : State} {l l' : Loc} (h : l' ≠ l) (v : U32) :
    (∀ m, ∃ m', valueBack l' ((olderValues (afterLoad s l)).take m) v = valueBack l' ((olderValues s).take m') v)
      ∧ ∀ m', ∃ m, valueBack l' ((olderValues (afterLoad s l)).take m) v = valueBack l' ((olderValues s).take m') v := by
  rw [olderValues_afterLoad]
  generalize hA : (olderValues s).take s.ord.loadPick = A
  generalize hB : (olderValues s).drop s.ord.loadPick = B
  have hsplit : olderValues s = A ++ B := by rw [← hA, ← hB, List.take_append_drop]
  have hforget : ∀ i, valueBack l' (A ++ forget l (B.take i)) v = valueBack l' ((olderValues s).take (A.length + i)) v :=
    fun i => by
      rw [hsplit, List.take_length_add_append, valueBack_append, valueBack_append, valueBack_forget_other h]
  refine ⟨fun m => ?_, fun m' => ?_⟩
  · rcases Nat.le_total m A.length with hm | hm
    · exact ⟨m, by rw [hsplit, List.take_append_of_le_length hm, List.take_append_of_le_length hm]⟩
    · obtain ⟨j, rfl⟩ := Nat.exists_eq_add_of_le hm
      obtain ⟨i, hi⟩ := take_forget l B j
      exact ⟨A.length + i, by rw [List.take_length_add_append, hi, hforget]⟩
  · rcases Nat.le_total m' A.length with hm | hm
    · exact ⟨m', by rw [hsplit, List.take_append_of_le_length hm, List.take_append_of_le_length hm]⟩
    · obtain ⟨i, rfl⟩ := Nat.exists_eq_add_of_le hm
      refine ⟨A.length + (forget l (B.take i)).length, ?_⟩
      have hB : forget l B = forget l (B.take i) ++ forget l (B.drop i) := by
        rw [← forget_append, List.take_append_drop]
      have hprefix : (forget l B).take (forget l (B.take i)).length = forget l (B.take i) := by
        rw [hB, List.take_left]
      rw [List.take_length_add_append, hprefix, hforget]

/-- Settles O28: a load cuts the older values of its own location at the point it was satisfied at, and only there. -/
theorem loadsNeverGoBack : Obligations.LoadsNeverGoBack := by
  intro s l t
  have hp : t.ord.pending = s.ord.pending := rfl
  refine ⟨fun m => ?_, fun l' hl => ?_⟩
  · rw [loadValue_early, loadValue_early, hp, visible_afterLoad, valueBack_afterLoad_same]
  · obtain ⟨hsub, hsup⟩ := valueBack_afterLoad_other (s := s) hl (visible s l')
    refine ⟨fun m => (hsub m).imp fun m' h => ?_, fun m' => (hsup m').imp fun m h => ?_⟩ <;>
      rw [loadValue_early, loadValue_early, hp, visible_afterLoad, h]

/-! ### The load barrier -/

@[simp] theorem loadAll_pending (ls : List (Nat × Loc)) (s : State) : (loadAll ls s).ord.pending = s.ord.pending := by
  induction ls generalizing s with
  | nil => rfl
  | cons p ls ih => exact (ih _).trans rfl

@[simp] theorem loadAll_eng (ls : List (Nat × Loc)) (s : State) : (loadAll ls s).eng = s.eng := by
  induction ls generalizing s with
  | nil => rfl
  | cons p ls ih => exact (ih _).trans rfl

@[simp] theorem visible_loadAll (ls : List (Nat × Loc)) (s : State) (l : Loc) : visible (loadAll ls s) l = visible s l := by
  induction ls generalizing s with
  | nil => rfl
  | cons p ls ih => exact (ih _).trans (visible_congr rfl rfl rfl l)

/-- A load leaves in `stale` only the values from after the point it was satisfied at, so a sequence of loads leaves those
from after the latest such point. -/
theorem loadAll_stale (ls : List (Nat × Loc)) (s : State) :
    ∃ q, (loadAll ls s).ord.stale = s.ord.stale.take q ∧ ∀ p ∈ ls, q ≤ p.1 := by
  induction ls generalizing s with
  | nil => exact ⟨s.ord.stale.length, by simp [loadAll], by simp⟩
  | cons p ls ih =>
    obtain ⟨q, hq, hle⟩ := ih (afterLoad (envMove (.early p.1) s) p.2)
    have hstale : (afterLoad (envMove (.early p.1) s) p.2).ord.stale = s.ord.stale.take p.1 := rfl
    refine ⟨min q p.1, by rw [loadAll, hq, hstale, List.take_take], fun x hx => ?_⟩
    rcases List.mem_cons.1 hx with rfl | hx
    · exact Nat.min_le_right q x.1
    · exact (Nat.min_le_left q p.1).trans (hle x hx)

/-- Settles O30: the barrier keeps of the older values those of `stale` alone, which are from after every load before it. -/
theorem loadBarrierFreshens : Obligations.LoadBarrierFreshens := by
  intro s loads n l0 l m hp hmem
  obtain ⟨q, hq, hle⟩ := loadAll_stale loads s
  have hstep : engineStep (loadAll loads s) = stepLb (loadAll loads s) := by
    simp only [engineStep, loadAll_eng, hp]
  have hvis : visible (stepLb (loadAll loads s)) l = visible s l :=
    (visible_congr rfl rfl rfl l).trans (visible_loadAll loads s l)
  have holder : olderValues (stepLb (loadAll loads s)) = s.ord.stale.take q := by
    simp [olderValues, hq]
  refine ⟨min (min m q) s.ord.stale.length, (by have := hle _ hmem; simp only at this; omega), ?_⟩
  have hpend : (stepLb (loadAll loads s)).ord.pending = s.ord.pending := by simp
  rw [hstep, loadValue_early, loadValue_early, hpend, hvis, holder, olderValues,
    List.take_append_of_le_length (Nat.min_le_right _ _), List.take_take, List.take_eq_take_min]

end Sys2Proof.Machine
end

section
/-! SUPPORT. Runs along which nothing moves but the engine: requester steps without their turns, and how a run follows them
(R23, R122; log 2). -/

namespace Sys2Proof.Machine

open Sys2Proof

/-! ### The schedule is the environment's -/

/-- The same state with another schedule. -/
def onSched (bs : List (List EnvMove)) (s : State) : State :=
  { s with env := { s.env with sched := bs } }

@[simp] theorem onSched_cfg (bs : List (List EnvMove)) (s : State) : (onSched bs s).cfg = s.cfg := rfl

@[simp] theorem onSched_eng (bs : List (List EnvMove)) (s : State) : (onSched bs s).eng = s.eng := rfl

@[simp] theorem onSched_bus (bs : List (List EnvMove)) (s : State) : (onSched bs s).bus = s.bus := rfl

@[simp] theorem onSched_ord (bs : List (List EnvMove)) (s : State) : (onSched bs s).ord = s.ord := rfl

@[simp] theorem onSched_env (bs : List (List EnvMove)) (s : State) :
    (onSched bs s).env = { s.env with sched := bs } := rfl

@[simp] theorem onSched_window (bs : List (List EnvMove)) (s : State) : (onSched bs s).window = s.window := rfl

@[simp] theorem onSched_freeCtr (bs : List (List EnvMove)) (s : State) : (onSched bs s).freeCtr = s.freeCtr := rfl

@[simp] theorem onSched_onSched (bs cs : List (List EnvMove)) (s : State) :
    onSched bs (onSched cs s) = onSched bs s := rfl

theorem onSched_self (s : State) : onSched s.env.sched s = s := rfl

@[simp] theorem visible_onSched (bs : List (List EnvMove)) (s : State) (l : Loc) : visible (onSched bs s) l = visible s l :=
  visible_congr rfl rfl rfl l

@[simp] theorem ownView_onSched (bs : List (List EnvMove)) (s : State) (l : Loc) : ownView (onSched bs s) l = ownView s l :=
  ownView_congr rfl (visible_onSched bs s l)

@[simp] theorem ownSample_onSched (bs : List (List EnvMove)) (s : State) : ownSample (onSched bs s) = ownSample s := by
  simp [ownSample]

theorem safe_onSched {s : State} (hs : SafeState s) (bs : List (List EnvMove)) : SafeState (onSched bs s) := by
  rw [safeState_iff] at hs ⊢
  exact hs

@[simp] theorem loadValue_onSched (bs : List (List EnvMove)) (s : State) (l : Loc) :
    loadValue (onSched bs s) l = loadValue s l := by
  unfold loadValue
  rw [visible_onSched]
  rfl

theorem afterLoad_onSched (bs : List (List EnvMove)) (s : State) (l : Loc) :
    afterLoad (onSched bs s) l = onSched bs (afterLoad s l) := rfl

theorem sampleRead_onSched (bs : List (List EnvMove)) (s : State) :
    sampleRead (onSched bs s) = onSched bs (sampleRead s) := by
  simp only [sampleRead, onSched_eng, loadValue_onSched, afterLoad_onSched]
  split <;> rfl

theorem complete_onSched (code : BitVec 3) (r x : U32) (st : Byte) (v : Bool) (bs : List (List EnvMove)) (s : State) :
    complete code r x st v (onSched bs s) = onSched bs (complete code r x st v s) := by
  rw [complete_eq, complete_eq]
  rfl

theorem commitAll_onSched (es : List Store) (bs : List (List EnvMove)) (s : State) :
    commitAll es (onSched bs s) = onSched bs (commitAll es s) := by
  induction es generalizing s with
  | nil => rfl
  | cons e es ih => exact ih (commit e s)

theorem writeSignal_one_onSched (bs : List (List EnvMove)) (s : State) :
    writeSignal 1#32 (onSched bs s) = onSched bs (writeSignal 1#32 s) := by
  have h := commitAll_onSched (fenced s) bs
    { s with ord := { s.ord with pending := s.ord.pending.filter (fun e => decide (e.barriers < 1)) } }
  have hover : ∀ u, oversizeMessage (onSched bs u) = oversizeMessage u := fun u => by
    simp only [oversizeMessage, visible_onSched, onSched_cfg]
  simp only [writeSignal_one]
  change (let s' := commitAll (fenced s) (onSched bs { s with ord := { s.ord with
      pending := s.ord.pending.filter (fun e => decide (e.barriers < 1)) } })
    ({ s' with
       bus := { s'.bus with
         dbStatus := s'.bus.dbStatus ||| 1#32
         signals := s'.bus.signals + 1
         oversize := s'.bus.oversize || oversizeMessage s' }
       ord := ownLocation .dbStatus s'.ord } : State)) = _
  rw [h]
  simp only [hover]
  rfl

theorem copyNext_onSched (p : Pc) (bs : List (List EnvMove)) (s : State) :
    copyNext p (onSched bs s) = onSched bs (copyNext p s) := by
  by_cases h : s.eng.cIdx.toNat + 1 < s.eng.cChunk.toNat <;> simp only [copyNext, onSched_eng, h, if_true, if_false] <;> rfl

/-- No requester step reads the schedule. -/
theorem engineStep_onSched (bs : List (List EnvMove)) (s : State) :
    engineStep (onSched bs s) = onSched bs (engineStep s) := by
  have hsr := sampleRead_onSched bs s
  cases hp : s.eng.pc <;> simp only [engineStep, onSched_eng, hp]
  case v =>
    by_cases h : recognised s.cfg.gen s.eng.op = true <;> simp only [stepV, onSched_cfg, onSched_eng, h, if_true]
    · rfl
    · exact complete_onSched _ _ _ _ _ bs { s with freeCtr := s.freeCtr + 2 }
  case c =>
    simp only [stepC, onSched_eng, hsr, raiseChannelBusy, complete_onSched]
    cases s.eng.sampleAt <;> try rfl
    cases idle (sampleRead s).eng.sample <;> rfl
  case poll =>
    simp only [stepPoll, onSched_eng, hsr, raiseTimeout, complete_onSched, onSched_cfg, onSched_env]
    cases s.eng.sampleAt <;> try rfl
    · cases idle (sampleRead s).eng.sample <;> rfl
    · cases expired s.env.now s.eng.t0 (timeoutTicks s.cfg) <;> rfl
  case resolve =>
    simp only [stepResolve, onSched_eng, returnOk, raiseFault, complete_onSched, apply_ite (onSched bs)]
  case wA0 => cases h : storesArgs s.cfg.gen s.eng.op <;> simp only [stepWA0, onSched_eng, onSched_cfg, h] <;> rfl
  case wA1 => cases h : storesArgs s.cfg.gen s.eng.op <;> simp only [stepWA1, onSched_eng, onSched_cfg, h] <;> rfl
  case ring => simp only [stepRing, writeSignal_one_onSched]; rfl
  case fTest => rw [stepFTest_eq, stepFTest_eq]; rfl
  case rdSt => simp only [stepRdSt, afterLoad_onSched, loadValue_onSched]; rfl
  case fCopyIn => exact copyNext_onSched .fCmd bs (storeField _ _ s)
  case fCopyOut =>
    rw [stepFCopyOut, loadValue_onSched]
    exact copyNext_onSched .fAdv bs (writeOwn _ _ (afterLoad s _))
  all_goals rfl

/-! ### Requester steps without turns -/

/-- `n` requester steps of the engine, without the environment's turns. -/
def esteps : Nat → State → State
  | 0, s => s
  | n + 1, s => esteps n (engineStep s)

theorem esteps_add (m n : Nat) (s : State) : esteps (m + n) s = esteps n (esteps m s) := by
  induction m generalizing s with
  | zero => simp [esteps]
  | succ m ih => rw [Nat.succ_add]; exact ih (engineStep s)

theorem ticks_add (m n : Nat) (s : State) : ticks (m + n) s = ticks n (ticks m s) := by
  induction m generalizing s with
  | zero => simp [ticks]
  | succ m ih => rw [Nat.succ_add]; exact ih (tick s)

theorem esteps_safe {s : State} (hc : parametersOk s.cfg = true) (hs : SafeState s) (n : Nat) : SafeState (esteps n s) := by
  induction n generalizing s with
  | zero => exact hs
  | succ n ih => exact ih (by simpa using hc) (engineStep_safe hc hs)

/-- The machine goes from `s` to `t` in `n` requester steps, and a run that has them to spend goes that way. -/
structure Goes (n : Nat) (s t : State) : Prop where
  ticks : ticks n s = t
  run : ∀ m, run (n + m) s = run m t

theorem Goes.refl (s : State) : Goes 0 s s := ⟨rfl, fun m => by rw [Nat.zero_add]⟩

theorem Goes.trans {m n : Nat} {s t u : State} (h : Goes m s t) (h' : Goes n t u) : Goes (m + n) s u :=
  ⟨by rw [ticks_add, h.ticks, h'.ticks], fun k => by rw [Nat.add_assoc, h.run, h'.run]⟩

theorem goes_one {s : State} (hp : s.eng.pc ≠ .rest) (hw : waiting s = false) : Goes 1 s (tick s) :=
  ⟨rfl, fun m => by rw [Nat.add_comm, run_step hp hw]⟩

/-- A run that reaches `REST` within its budget ends there. -/
theorem Goes.run_rest {n : Nat} {s t : State} (h : Goes n s t) (hr : t.eng.pc = .rest) {fuel : Nat} (hn : n ≤ fuel) :
    Machine.run fuel s = t := by
  obtain ⟨m, rfl⟩ := Nat.exists_eq_add_of_le hn
  rw [h.run, run_at_rest hr]

/-- The engine goes from `s` to `t` in `n` steps, and before each of them it neither rests nor stands at the deadline test of
a poll: there the clock moves by itself (log 2). -/
structure EPath (n : Nat) (s t : State) : Prop where
  eq : esteps n s = t
  busy : ∀ k < n, (esteps k s).eng.pc ≠ .rest ∧ ((esteps k s).eng.pc = .poll → (esteps k s).eng.sampleAt ≠ .rdNow)

theorem EPath.refl (s : State) : EPath 0 s s := ⟨rfl, fun k hk => absurd hk (Nat.not_lt_zero k)⟩

theorem EPath.trans {m n : Nat} {s t u : State} (h : EPath m s t) (h' : EPath n t u) : EPath (m + n) s u := by
  refine ⟨by rw [esteps_add, h.eq, h'.eq], fun k hk => ?_⟩
  rcases Nat.lt_or_ge k m with hkm | hkm
  · exact h.busy k hkm
  · obtain ⟨j, rfl⟩ := Nat.exists_eq_add_of_le hkm
    rw [esteps_add, h.eq]
    exact h'.busy j (by omega)

/-- One requester step other than at `POLL`. -/
theorem epath_one {s : State} (hr : s.eng.pc ≠ .rest) (hp : s.eng.pc ≠ .poll) : EPath 1 s (engineStep s) :=
  ⟨rfl, fun k hk => by obtain rfl : k = 0 := by omega
                       exact ⟨hr, fun h => absurd h hp⟩⟩

/-- One read of a sample in `POLL`. -/
theorem epath_poll {s : State} (hp : s.eng.pc = .poll) (ha : s.eng.sampleAt ≠ .rdNow) : EPath 1 s (stepPoll s) :=
  ⟨by simp only [esteps, engineStep, hp], fun k hk => by obtain rfl : k = 0 := by omega
                                                         exact ⟨by simp [esteps, hp], fun _ => ha⟩⟩

theorem ticksToDeadline_of_sampleAt {s : State} (h : s.eng.pc = .poll → s.eng.sampleAt ≠ .rdNow) : ticksToDeadline s = 0 := by
  unfold ticksToDeadline
  split
  · rename_i hp
    exact absurd hp.2.1 (h hp.1)
  · rfl

/-- A turn with an empty batch, or with the schedule used up where the clock has no reason to move, only takes the batch off
the schedule. -/
theorem envTurn_of_still {s : State} (hq : ∀ b ∈ s.env.sched.take 1, b = []) (hr : s.eng.pc ≠ .rest)
    (hp : s.eng.pc = .poll → s.eng.sampleAt ≠ .rdNow) : envTurn s = onSched s.env.sched.tail s := by
  cases hs : s.env.sched with
  | nil =>
    have hturn : envTurn s = clkMove 0 s := by
      simp [envTurn, fairTurn, hs, hr, ticksToDeadline_of_sampleAt hp]
    rw [hturn, clkMove_zero, List.tail_nil, ← hs, onSched_self]
  | cons b bs =>
    obtain rfl : b = [] := hq b (by simp [hs])
    exact envTurn_of_quiet hs

theorem tick_of_still {s : State} (hq : ∀ b ∈ s.env.sched.take 1, b = []) (hr : s.eng.pc ≠ .rest)
    (hp : s.eng.pc = .poll → s.eng.sampleAt ≠ .rdNow) : tick s = onSched s.env.sched.tail (engineStep s) := by
  rw [tick, envTurn_of_still hq hr hp, engineStep_onSched]

theorem waiting_of_sampleAt {s : State} (h : s.eng.pc = .poll → s.eng.sampleAt ≠ .rdNow) : waiting s = false := by
  simp [waiting, ticksToDeadline_of_sampleAt h]

/-- While the schedule has only empty batches the machine follows the engine. -/
theorem EPath.goes {n : Nat} {s t : State} (h : EPath n s t) (hq : ∀ b ∈ s.env.sched.take n, b = []) :
    Goes n s (onSched (s.env.sched.drop n) t) := by
  induction n generalizing s t with
  | zero =>
    obtain rfl : s = t := h.eq
    exact .refl s
  | succ n ih =>
    obtain ⟨hr, hp⟩ : s.eng.pc ≠ .rest ∧ (s.eng.pc = .poll → s.eng.sampleAt ≠ .rdNow) := h.busy 0 (Nat.succ_pos n)
    have hfirst : ∀ b ∈ s.env.sched.take 1, b = [] := fun b hb =>
      hq b ((List.take_subset_take_left s.env.sched (by omega)) hb)
    have htick := tick_of_still hfirst hr hp
    have hrest : EPath n (engineStep s) t := ⟨h.eq, fun k hk => h.busy (k + 1) (by omega)⟩
    have htail : EPath n (tick s) (onSched s.env.sched.tail t) := by
      have hcomm : ∀ k, esteps k (onSched s.env.sched.tail (engineStep s)) = onSched s.env.sched.tail (esteps k (engineStep s)) := by
        intro k
        generalize engineStep s = u
        induction k generalizing u with
        | zero => rfl
        | succ k ihk => rw [esteps, engineStep_onSched, ihk]; rfl
      refine ⟨by rw [htick, hcomm, hrest.eq], fun k hk => ?_⟩
      rw [htick, hcomm]
      exact hrest.busy k hk
    have hgo := ih htail (fun b hb => hq b (by
      rw [tick_sched] at hb
      cases hs : s.env.sched with
      | nil => simp [hs] at hb
      | cons c cs => rw [hs] at hb; simpa using Or.inr hb))
    have h1 := (goes_one hr (waiting_of_sampleAt hp)).trans hgo
    rw [Nat.add_comm] at h1
    simpa [tick_sched, List.drop_tail] using h1

end Sys2Proof.Machine
end

section
/-! SUPPORT. The parts of a transaction as paths of the engine (R102 to R114): the channel check, the message and its
doorbell, the answer. -/

namespace Sys2Proof.Machine

open Sys2Proof

/-! ### The sample -/

/-- The state after the four reads of `Idle()` with no load satisfied early (R104). -/
def sampled (s : State) : State :=
  { s with eng := { s.eng with sample := ownSample s, sampleAt := .rdNow }, ord := ordAfterSample s.ord }

theorem ownView_sampled (s : State) (l : Loc) : ownView (sampled s) l = ownView s l :=
  ownView_congr rfl (visible_congr rfl rfl rfl l)

theorem engineStep_read {s : State} (hp : s.eng.pc = .c ∨ s.eng.pc = .poll) (hs : s.eng.sampleAt ≠ .rdStatus)
    (hn : s.eng.sampleAt ≠ .rdNow) : engineStep s = sampleRead s := by
  rcases hp with hp | hp <;> simp only [engineStep, hp]
  · obtain ⟨-, h⟩ | ⟨h, -⟩ | ⟨h, -⟩ := stepC_cases s
    · exact h
    · exact absurd h hs
    · exact absurd h hs
  · obtain ⟨h, -⟩ | ⟨h, -⟩ | ⟨h, -⟩ := stepPoll_cases s
    · exact h
    · exact absurd h hs
    · exact absurd h hn

theorem sampleRead_pc (s : State) : (sampleRead s).eng.pc = s.eng.pc := by
  obtain ⟨a, x, o, h, -⟩ := sampleRead_eq s
  rw [h]

/-- A read of a sample, in `C` or in `POLL`. -/
theorem epath_read {s : State} (hp : s.eng.pc = .c ∨ s.eng.pc = .poll) (hs : s.eng.sampleAt ≠ .rdStatus)
    (hn : s.eng.sampleAt ≠ .rdNow) : EPath 1 s (sampleRead s) := by
  refine ⟨by rw [esteps, engineStep_read hp hs hn]; rfl, fun k hk => ?_⟩
  obtain rfl : k = 0 := by omega
  exact ⟨by rcases hp with hp | hp <;> simp [esteps, hp], fun _ => hn⟩

/-- The first three reads of a sample, in `C` or in `POLL`; the fourth comes with the idle test. -/
theorem epath_three_reads {s : State} (hp : s.eng.pc = .c ∨ s.eng.pc = .poll) (ha : s.eng.sampleAt = .rdBusy) :
    EPath 3 s (sampleRead (sampleRead (sampleRead s)))
      ∧ (sampleRead (sampleRead (sampleRead s))).eng.sampleAt = .rdStatus := by
  have h1 : (sampleRead s).eng.sampleAt = .rdExec := by rw [sampleRead_rdBusy ha]
  have h2 : (sampleRead (sampleRead s)).eng.sampleAt = .rdReq := by rw [sampleRead_rdExec h1]
  have h3 : (sampleRead (sampleRead (sampleRead s))).eng.sampleAt = .rdStatus := by rw [sampleRead_rdReq h2]
  refine ⟨(epath_read hp (by simp [ha]) (by simp [ha])).trans
    ((epath_read (by simpa [sampleRead_pc] using hp) (by simp [h1]) (by simp [h1])).trans
      (epath_read (by simpa [sampleRead_pc] using hp) (by simp [h2]) (by simp [h2]))), h3⟩

/-! ### The channel check -/

/-- Steps `V` and `C` with a recognised op and no load satisfied early: the four reads, then the busy check. -/
theorem epath_check {s : State} (hv : s.eng.pc = .v) (hrec : recognised s.cfg.gen s.eng.op = true)
    (hpick : s.ord.loadPick = 0) :
    EPath 5 s (if idle (ownSample s) then goto .wOp (sampled s) else raiseChannelBusy (sampled s)) := by
  obtain ⟨-, hV⟩ | ⟨hno, -⟩ := stepV_cases s
  swap
  · rw [hrec] at hno; exact absurd hno (by simp)
  set c := stepV s with hc
  have hfirst : EPath 1 s c := by
    have hone := epath_one (s := s) (by simp [hv]) (by simp [hv])
    simpa only [engineStep, hv] using hone
  have hcp : c.eng.pc = .c := by rw [hV]
  have hca : c.eng.sampleAt = .rdBusy := by rw [hV]
  obtain ⟨hthree, hst⟩ := epath_three_reads (.inl hcp) hca
  have hpc : (sampleRead (sampleRead (sampleRead c))).eng.pc = .c := by simp [sampleRead_pc, hcp]
  have hfour := sampleRead_four (s := c) (by rw [hV]; exact hpick) hca
  have hsample : ownSample c = ownSample s := by rw [hV]; rfl
  have hord : c.ord = s.ord := by rw [hV]
  have hlast : EPath 1 (sampleRead (sampleRead (sampleRead c))) (stepC (sampleRead (sampleRead (sampleRead c)))) := by
    have hone := epath_one (s := sampleRead (sampleRead (sampleRead c))) (by simp [hpc]) (by simp [hpc])
    simpa only [engineStep, hpc] using hone
  have hpath := hfirst.trans (hthree.trans hlast)
  have hend : stepC (sampleRead (sampleRead (sampleRead c)))
      = if idle (ownSample s) then goto .wOp (sampled s) else raiseChannelBusy (sampled s) := by
    simp only [stepC, hst, hfour, hsample]
    split
    · rw [hord, hV]; rfl
    · rw [hord, hV, raiseChannelBusy, raiseChannelBusy, complete_eq, complete_eq]; rfl
  rw [hend] at hpath
  exact hpath

theorem epath_check_idle {s : State} (hv : s.eng.pc = .v) (hrec : recognised s.cfg.gen s.eng.op = true)
    (hpick : s.ord.loadPick = 0) (hidle : idle (ownSample s) = true) : EPath 5 s (goto .wOp (sampled s)) := by
  simpa [hidle] using epath_check hv hrec hpick

theorem epath_check_busy {s : State} (hv : s.eng.pc = .v) (hrec : recognised s.cfg.gen s.eng.op = true)
    (hpick : s.ord.loadPick = 0) (hbusy : idle (ownSample s) = false) : EPath 5 s (raiseChannelBusy (sampled s)) := by
  simpa [hbusy] using epath_check hv hrec hpick

/-! ### The message and its doorbell -/

/-- Steps `W_OP` to `T0` (R105 to R110). -/
def sendMessage (s : State) : State :=
  stepT0 (stepRing (stepSb (stepWId (stepWA1 (stepWA0 (stepWOp s))))))

theorem stepRing_pc (s : State) : (stepRing s).eng.pc = .t0 := rfl

theorem epath_to_ring {s : State} (hp : s.eng.pc = .wOp) :
    EPath 5 s (stepSb (stepWId (stepWA1 (stepWA0 (stepWOp s))))) := by
  have h0 : EPath 1 s (stepWOp s) := by
    have hone := epath_one (s := s) (by simp [hp]) (by simp [hp])
    simpa only [engineStep, hp] using hone
  have h1 : EPath 1 (stepWOp s) (stepWA0 (stepWOp s)) := epath_one (by simp [stepWOp]) (by simp [stepWOp])
  have h2 : EPath 1 (stepWA0 (stepWOp s)) (stepWA1 (stepWA0 (stepWOp s))) :=
    epath_one (by simp [stepWA0]) (by simp [stepWA0])
  have h3 : EPath 1 (stepWA1 (stepWA0 (stepWOp s))) (stepWId (stepWA1 (stepWA0 (stepWOp s)))) :=
    epath_one (by simp [stepWA1]) (by simp [stepWA1])
  have h4 : EPath 1 (stepWId (stepWA1 (stepWA0 (stepWOp s)))) (stepSb (stepWId (stepWA1 (stepWA0 (stepWOp s))))) :=
    epath_one (by simp [stepWId]) (by simp [stepWId])
  exact h0.trans (h1.trans (h2.trans (h3.trans h4)))

theorem epath_ring {s : State} (hp : s.eng.pc = .ring) : EPath 1 s (stepRing s) := by
  have hone := epath_one (s := s) (by simp [hp]) (by simp [hp])
  simpa only [engineStep, hp] using hone

theorem epath_t0 {s : State} (hp : s.eng.pc = .t0) : EPath 1 s (stepT0 s) := by
  have hone := epath_one (s := s) (by simp [hp]) (by simp [hp])
  simpa only [engineStep, hp] using hone

theorem epath_sendMessage {s : State} (hp : s.eng.pc = .wOp) : EPath 7 s (sendMessage s) :=
  (epath_to_ring hp).trans ((epath_ring rfl).trans (epath_t0 rfl))

/-- What a message written from the state `s` shows in a field: the command in the header fields the opcode stores, the
engine's own view elsewhere (R76 to R79, R105 to R107). -/
def messageField (s : State) (f : Field) : U32 :=
  if f = .op then zextByte s.eng.op
  else if f = .requestId then s.eng.nextId
  else if f = .arg0 ∧ storesArgs s.cfg.gen s.eng.op = true then s.eng.arg0
  else if f = .arg1 ∧ storesArgs s.cfg.gen s.eng.op = true then s.eng.arg1
  else ownView s (.field f)

/-- What the engine's own side sees after the stores of a message. -/
theorem ownView_written (s : State) (f : Field) :
    ownView (stepSb (stepWId (stepWA1 (stepWA0 (stepWOp s))))) (.field f) = messageField s f := by
  have hgoto : ∀ (p : Pc) (u : State) (l : Loc), ownView (goto p u) l = ownView u l := fun _ _ _ => rfl
  have hsb : ownView (stepSb (stepWId (stepWA1 (stepWA0 (stepWOp s))))) (.field f)
      = ownView (storeField .requestId (stepWA1 (stepWA0 (stepWOp s))).eng.nextId (stepWA1 (stepWA0 (stepWOp s)))) (.field f) := by
    rw [stepSb, hgoto, ownView_storeBarrier]
    rfl
  have hstore : ∀ (g : Field) (v : U32) (u : State),
      ownView (storeField g v u) (.field f) = if f = g then v else ownView u (.field f) := fun g v u => by
    split
    · subst g; exact ownView_storeField_same f v u
    · exact ownView_storeField_other (by simpa using ‹_›) v u
  rw [hsb, hstore, messageField]
  cases ha : storesArgs s.cfg.gen s.eng.op
  · have h1 : stepWA1 (stepWA0 (stepWOp s)) = goto .wId (goto .wA1 (stepWOp s)) := by
      simp [stepWA1, stepWA0, stepWOp, ha]
    rw [h1, hgoto, hgoto, stepWOp, hgoto, hstore]
    by_cases hop : f = .op
    · simp [hop]
    · by_cases hid : f = .requestId <;> simp [hop, hid]
  · have h1 : stepWA1 (stepWA0 (stepWOp s))
        = goto .wId (storeField .arg1 s.eng.arg1 (goto .wA1 (storeField .arg0 s.eng.arg0 (stepWOp s)))) := by
      simp [stepWA1, stepWA0, stepWOp, ha]
    rw [h1, hgoto, hstore, hgoto, hstore, stepWOp, hgoto, hstore]
    cases f <;> simp

/-- The state after a message was sent from `s` (R105 to R110): the engine polls, every field is visible, nothing is pending,
`busy` is set, one more signal is given, and nothing else moved. -/
structure Sent (s t : State) : Prop where
  cfg : t.cfg = s.cfg
  env : t.env = s.env
  window : t.window = s.window
  freeCtr : t.freeCtr = s.freeCtr
  eng : t.eng = { s.eng with nextId := s.eng.nextId + 1#32, pc := .poll, t0 := s.env.now, sampleAt := .rdBusy }
  field : ∀ f, visible t (.field f) = messageField s f
  pending : t.ord.pending = []
  stale : s.ord.stale = [] → t.ord.stale = []
  loadPick : t.ord.loadPick = s.ord.loadPick
  dbStatus : t.bus.dbStatus = s.bus.dbStatus ||| 1#32
  signals : t.bus.signals = s.bus.signals + 1
  outside : ∀ a, ¬ inMailbox s.cfg a → Memory.read t.bus.mem a = Memory.read s.bus.mem a
  memory : Memory.wf t.bus.mem = true

/-- The stores of a message touch hidden state and engine registers alone. -/
theorem written_frame (s : State) :
    let u := stepSb (stepWId (stepWA1 (stepWA0 (stepWOp s))))
    u.cfg = s.cfg ∧ u.env = s.env ∧ u.bus = s.bus ∧ u.window = s.window ∧ u.freeCtr = s.freeCtr
      ∧ u.eng = { s.eng with nextId := s.eng.nextId + 1#32, pc := .ring }
      ∧ (s.ord.stale = [] → u.ord.stale = []) ∧ u.ord.loadPick = s.ord.loadPick := by
  cases ha : storesArgs s.cfg.gen s.eng.op <;>
    simp +contextual [stepSb, stepWId, stepWA1, stepWA0, stepWOp, ha, isPayload]

theorem commitAll_stale_nil {es : List Store} {s : State} (h : s.ord.stale = []) : (commitAll es s).ord.stale = [] := by
  induction es generalizing s with
  | nil => exact h
  | cons e es ih => exact ih (by simp [h])

theorem writeSignal_one_stale_nil {s : State} (h : s.ord.stale = []) : (writeSignal 1#32 s).ord.stale = [] := by
  rw [writeSignal_one]
  exact congrArg (forget .dbStatus) (commitAll_stale_nil (es := fenced s)
    (s := { s with ord := { s.ord with pending := s.ord.pending.filter (fun e => decide (e.barriers < 1)) } }) h)

@[simp] theorem writeSignal_one_loadPick (s : State) : (writeSignal 1#32 s).ord.loadPick = s.ord.loadPick := by
  simp [writeSignal_one]

theorem sendMessage_sent {s : State} (hc : parametersOk s.cfg = true) (hs : SafeState s) (hp : s.eng.pc = .wOp) :
    Sent s (sendMessage s) := by
  obtain ⟨hcfg, henv, hbus, hwin, hfree, heng, hstale, hpick⟩ := written_frame s
  have hown := ownView_written s
  have hsafe : SafeState (stepSb (stepWId (stepWA1 (stepWA0 (stepWOp s))))) := by
    rw [← (epath_to_ring hp).eq]
    exact esteps_safe hc hs 5
  set u := stepSb (stepWId (stepWA1 (stepWA0 (stepWOp s)))) with hu
  have hcu : parametersOk u.cfg = true := by rw [hcfg]; exact hc
  have hring : u.eng.pc = .ring := rfl
  have ht : sendMessage s = stepT0 (goto .t0 (writeSignal 1#32 u)) := rfl
  clear_value u
  rw [ht]
  have hvis : ∀ f, visible (stepT0 (goto .t0 (writeSignal 1#32 u))) (.field f) = visible (writeSignal 1#32 u) (.field f) :=
    fun f => visible_field_congr rfl rfl f
  refine ⟨(writeSignal_one_cfg u).trans hcfg, (writeSignal_one_env u).trans henv, (writeSignal_one_window u).trans hwin,
    (writeSignal_one_freeCtr u).trans hfree, ?_, fun f => ?_, writeSignal_one_pending_nil (hsafe.pendingFenced hring),
    fun h => writeSignal_one_stale_nil (hstale h), (writeSignal_one_loadPick u).trans hpick, ?_, ?_, fun a ha => ?_,
    writeSignal_one_wf hsafe.memory⟩
  · simp only [stepT0, goto_eng, goto_env, writeSignal_one_eng, writeSignal_one_env, henv, heng]
  · rw [hvis, visible_ring hcu hsafe hring, hown]
  · exact (writeSignal_one_dbStatus u).trans (by rw [hbus])
  · exact (writeSignal_one_signals u).trans (by rw [hbus])
  · show Memory.read (writeSignal 1#32 u).bus.mem a = _
    rw [writeSignal_one_mem, read_commitAll_notMailbox (es := fenced u) hcu
      (fun e he => (hsafe.pendingOwned e (List.mem_of_mem_filter he)).2) (by rw [hcfg]; exact ha), hbus]

/-! ### The answer -/

/-- The state in which a transaction hands control back whose first poll sample in `u` is idle (R111 to R114, R196). -/
def resolvedState (u : State) : State :=
  complete (if (ownSample u).st = statusGood then codeOk else codeFault) (ownSample u).req (ownSample u).exec (ownSample u).st true
    { u with
      eng := { u.eng with sample := ownSample u, sampleAt := .rdNow, rdSt := (ownSample u).st }
      ord := { u.ord with stale := [], passed := [], loadPick := 0 }
      window := responseLength u.cfg.payloadCap u.eng.op u.eng.arg1 }

/-- A poll sample with no load satisfied early: the idle test goes on to `LB`, or to the deadline test. -/
theorem epath_pollSample {u : State} (hp : u.eng.pc = .poll) (ha : u.eng.sampleAt = .rdBusy) (hpick : u.ord.loadPick = 0) :
    EPath 4 u (if idle (ownSample u) then goto .lb (sampled u) else sampled u) := by
  obtain ⟨hthree, hst⟩ := epath_three_reads (.inr hp) ha
  have hpc : (sampleRead (sampleRead (sampleRead u))).eng.pc = .poll := by simp [sampleRead_pc, hp]
  have hfour := sampleRead_four hpick ha
  have hpath := hthree.trans (epath_poll hpc (by simp [hst]))
  have hend : stepPoll (sampleRead (sampleRead (sampleRead u)))
      = if idle (ownSample u) then goto .lb (sampled u) else sampled u := by
    simp only [stepPoll, hst, hfour]
    rfl
  rw [hend] at hpath
  exact hpath

theorem epath_pollSample_busy {u : State} (hp : u.eng.pc = .poll) (ha : u.eng.sampleAt = .rdBusy)
    (hpick : u.ord.loadPick = 0) (hbusy : idle (ownSample u) = false) : EPath 4 u (sampled u) := by
  simpa [hbusy] using epath_pollSample hp ha hpick

/-- Steps `LB`, `RD_ST`, `RESOLVE` after an idle sample: the status is read again, and is the one the sample read. -/
theorem epath_resolve (u : State) : EPath 3 (goto .lb (sampled u)) (resolvedState u) := by
  have h0 : EPath 1 (goto .lb (sampled u)) (stepLb (sampled u)) := epath_one (by simp) (by simp)
  have h1 : EPath 1 (stepLb (sampled u)) (stepRdSt (stepLb (sampled u))) := epath_one (by simp) (by simp)
  have h2 : EPath 1 (stepRdSt (stepLb (sampled u))) (stepResolve (stepRdSt (stepLb (sampled u)))) :=
    epath_one (by simp [stepRdSt]) (by simp [stepRdSt])
  have hload : loadValue (stepLb (sampled u)) (.field .status) = ownView u (.field .status) := by
    rw [loadValue_of_pick_zero rfl]
    exact ownView_congr rfl (visible_congr rfl rfl rfl _)
  have hst : lowByte (loadValue (stepLb (sampled u)) (.field .status)) = (ownSample u).st := by rw [hload]; rfl
  have hrd : stepRdSt (stepLb (sampled u)) = { u with
      eng := { u.eng with sample := ownSample u, sampleAt := .rdNow, rdSt := (ownSample u).st, pc := .resolve }
      ord := { u.ord with stale := [], passed := [], loadPick := 0 }
      window := responseLength u.cfg.payloadCap u.eng.op u.eng.arg1 } := by
    rw [stepRdSt, hst, afterLoad_of_pick_zero rfl]
    rfl
  have hend : stepResolve (stepRdSt (stepLb (sampled u))) = resolvedState u := by
    rw [hrd, resolvedState]
    by_cases hg : (ownSample u).st = statusGood
    · simp only [stepResolve, hg, if_true, returnOk, complete_eq]
    · simp only [stepResolve, hg, if_false, raiseFault, complete_eq]
  rw [← hend]
  exact h0.trans (h1.trans h2)

/-- From a first poll read whose sample will be idle to the end of the transaction. -/
theorem epath_answered {u : State} (hp : u.eng.pc = .poll) (ha : u.eng.sampleAt = .rdBusy) (hpick : u.ord.loadPick = 0)
    (hidle : idle (ownSample u) = true) : EPath 7 u (resolvedState u) := by
  have hsample : EPath 4 u (goto .lb (sampled u)) := by simpa [hidle] using epath_pollSample hp ha hpick
  exact hsample.trans (epath_resolve u)

end Sys2Proof.Machine
end

section
/-! SUPPORT. A responder's answer, move by move (R172, R173), and what it leaves (R171). -/

namespace Sys2Proof.Machine

open Sys2Proof

/-! ### Moves of a responder that stays inside the mailbox -/

/-- What the responder's moves other than reads leave alone, as long as it stays in the mailbox: the engine, the requester's
stores, the clock and the interfaces, and every byte outside (R171); the memory keeps its one form. -/
structure ScpFrame (s t : State) : Prop where
  cfg : t.cfg = s.cfg
  eng : t.eng = s.eng
  freeCtr : t.freeCtr = s.freeCtr
  env : t.env = { s.env with scpPhase := t.env.scpPhase, conform := t.env.conform }
  pending : t.ord.pending = s.ord.pending
  passed : t.ord.passed = s.ord.passed
  loadPick : t.ord.loadPick = s.ord.loadPick
  oversize : t.bus.oversize = s.bus.oversize
  outside : ∀ a, ¬ inMailbox s.cfg a → Memory.read t.bus.mem a = Memory.read s.bus.mem a
  memory : Memory.wf s.bus.mem = true → Memory.wf t.bus.mem = true

theorem ScpFrame.refl (s : State) : ScpFrame s s :=
  ⟨rfl, rfl, rfl, rfl, rfl, rfl, rfl, rfl, fun _ _ => rfl, id⟩

theorem ScpFrame.trans {s t u : State} (h : ScpFrame s t) (h' : ScpFrame t u) : ScpFrame s u where
  cfg := h'.cfg.trans h.cfg
  eng := h'.eng.trans h.eng
  freeCtr := h'.freeCtr.trans h.freeCtr
  env := by rw [h'.env, h.env]
  pending := h'.pending.trans h.pending
  passed := h'.passed.trans h.passed
  loadPick := h'.loadPick.trans h.loadPick
  oversize := h'.oversize.trans h.oversize
  outside := fun a ha => (h'.outside a (h.cfg ▸ ha)).trans (h.outside a ha)
  memory := fun hm => h'.memory (h.memory hm)

/-- A responder's store to an existing field, as a move. -/
theorem scpFrame_of_store {s : State} (hc : parametersOk s.cfg = true) {m : ScpMove} {f : Field} {v : U32}
    (hf : fieldExists s.cfg f) (he : scpEffect m s = scpStore f v s) : ScpFrame s (scpMove m s) := by
  refine ⟨scpMove_cfg m s, scpMove_eng m s, ?_, ?_, scpMove_pending m s, ?_, ?_, scpMove_oversize m s, fun a ha => ?_, scpMove_wf⟩
  · simp only [scpMove, he]; rfl
  · simp only [scpMove, he]; rfl
  · rw [scpMove_ord, he]; rfl
  · rw [scpMove_ord, he]; rfl
  · rw [scpMove_bus, he]; exact read_writeField_notMailbox hc hf _ _ ha

theorem scpFrame_observe (s : State) : ScpFrame s (scpMove .observe s) :=
  ⟨rfl, rfl, rfl, rfl, rfl, rfl, rfl, rfl, fun _ _ => rfl, id⟩

theorem scpFrame_clearBusy (s : State) : ScpFrame s (scpMove .clearBusy s) :=
  ⟨rfl, rfl, rfl, rfl, rfl, rfl, rfl, rfl, fun _ _ => rfl, id⟩

theorem scpFrame_writeExec {s : State} (hc : parametersOk s.cfg = true) (v : U32) : ScpFrame s (scpMove (.writeExec v) s) :=
  scpFrame_of_store hc (f := .execId) trivial rfl

theorem scpFrame_writeStatus {s : State} (hc : parametersOk s.cfg = true) (v : Byte) :
    ScpFrame s (scpMove (.writeStatus v) s) :=
  scpFrame_of_store hc (f := .status) trivial rfl

/-- A payload position from `PAYLOAD_CAP` on does not exist, so that a write there does nothing (R18). -/
theorem scpFrame_writePayload {s : State} (hc : parametersOk s.cfg = true) (i : Nat) (v : Byte) :
    ScpFrame s (scpMove (.writePayload i v) s) := by
  by_cases hi : i < s.cfg.payloadCap
  · exact scpFrame_of_store hc (f := .payload i) (v := zextByte v) hi (by simp [scpEffect, hi])
  · have he : scpEffect (.writePayload i v) s = s := by simp [scpEffect, hi]
    exact ⟨by simp, by simp, by simp [scpMove, he], by simp [scpMove, he], scpMove_pending _ s, by simp [he], by simp [he],
      by simp [he], fun a _ => by simp [he], fun hm => by simpa [he] using hm⟩

/-! ### What the fields show after a move -/

theorem visible_scpStore {s : State} (hc : parametersOk s.cfg = true) (hm : Memory.wf s.bus.mem = true) (f g : Field) (v : U32) :
    visible (scpStore f v s) (.field g) = if g = f then fieldValue f v else visible s (.field g) := by
  split
  · subst g; exact visible_scpStore_same hm f v
  · exact visible_scpStore_other hc ‹_› v

theorem visible_writeExec {s : State} (hc : parametersOk s.cfg = true) (hm : Memory.wf s.bus.mem = true) (v : U32) (f : Field) :
    visible (scpMove (.writeExec v) s) (.field f) = if f = .execId then v else visible s (.field f) :=
  visible_scpStore hc hm .execId f v

theorem visible_writeStatus {s : State} (hc : parametersOk s.cfg = true) (hm : Memory.wf s.bus.mem = true) (v : Byte) (f : Field) :
    visible (scpMove (.writeStatus v) s) (.field f) = if f = .status then zextByte v else visible s (.field f) := by
  have h := visible_scpStore hc hm .status f (zextByte v)
  rwa [fieldValue_zextByte _ _ rfl] at h

theorem visible_writePayload {s : State} (hc : parametersOk s.cfg = true) (hm : Memory.wf s.bus.mem = true) (i : Nat) (v : Byte)
    {f : Field} (hf : fieldExists s.cfg f) :
    visible (scpMove (.writePayload i v) s) (.field f) = if f = .payload i then zextByte v else visible s (.field f) := by
  rw [visible_scpMove]
  by_cases hi : i < s.cfg.payloadCap
  · have h := visible_scpStore hc hm (.payload i) f (zextByte v)
    rw [fieldValue_zextByte _ _ rfl] at h
    simpa [scpEffect, hi] using h
  · have hne : f ≠ .payload i := fun he => hi (by subst he; exact hf)
    simp [scpEffect, hi, hne]

/-! ### The response bytes -/

/-- The byte `j` of a response `data`, or `old` where the response does not reach. -/
def answeredByte (data : List Byte) (j : Nat) (old : U32) : U32 :=
  (data[j]?.map zextByte).getD old

/-- What a payload position shows after the bytes `data` were written from position `i` on. -/
def payloadAfter (s : State) (i : Nat) (data : List Byte) (j : Nat) : U32 :=
  if j < i then visible s (.field (.payload j)) else answeredByte data (j - i) (visible s (.field (.payload j)))

/-- The moves that write the response leave everything but payload bytes (R173 clause 3). -/
theorem envMoves_payloadWrites (data : List Byte) (i : Nat) {s : State} (hc : parametersOk s.cfg = true)
    (hm : Memory.wf s.bus.mem = true) :
    let t := envMoves (payloadWrites i data) s
    ScpFrame s t ∧ t.bus.dbStatus = s.bus.dbStatus ∧ t.bus.signals = s.bus.signals
      ∧ (∀ f, isPayload f = false → visible t (.field f) = visible s (.field f))
      ∧ ∀ j, j < s.cfg.payloadCap → visible t (.field (.payload j)) = payloadAfter s i data j := by
  induction data generalizing i s with
  | nil =>
    refine ⟨.refl s, rfl, rfl, fun _ _ => rfl, fun j _ => ?_⟩
    simp [payloadWrites, envMoves, payloadAfter, answeredByte]
  | cons v data ih =>
    intro t
    have hframe := scpFrame_writePayload hc i v
    obtain ⟨hrest, hdb, hsig, hother, hpay⟩ := ih (i + 1) (s := scpMove (.writePayload i v) s) (by rw [hframe.cfg]; exact hc)
      (hframe.memory hm)
    have hbus : ∀ (u : State) , (scpEffect (.writePayload i v) u).bus.dbStatus = u.bus.dbStatus
        ∧ (scpEffect (.writePayload i v) u).bus.signals = u.bus.signals := fun u => by
      simp only [scpEffect]; split <;> exact ⟨rfl, rfl⟩
    refine ⟨hframe.trans hrest, hdb.trans (hbus s).1, hsig.trans (hbus s).2, fun f hf => ?_, fun j hj => ?_⟩
    · have hexists : fieldExists s.cfg f := by cases f <;> trivial
      refine (hother f hf).trans ?_
      rw [visible_writePayload hc hm i v hexists, if_neg]
      rintro rfl
      simp [isPayload] at hf
    · refine (hpay j (by rw [hframe.cfg]; exact hj)).trans ?_
      rw [payloadAfter, payloadAfter]
      have hv := visible_writePayload (f := .payload j) hc hm i v hj
      rcases Nat.lt_trichotomy j i with hlt | rfl | hgt
      · have hne : j ≠ i := by omega
        simp [hlt, show j < i + 1 by omega, hv, hne]
      · simp [hv, answeredByte]
      · have hne : j ≠ i := by omega
        obtain ⟨d, rfl⟩ := Nat.exists_eq_add_of_lt hgt
        have h1 : i + d + 1 - (i + 1) = d := by omega
        have h2 : i + d + 1 - i = d + 1 := by omega
        simp only [hv, h1, h2, answeredByte, Field.payload.injEq, hne, if_false, show ¬ i + d + 1 < i by omega,
          show ¬ i + d + 1 < i + 1 by omega, List.getElem?_cons_succ]

/-! ### A whole answer -/

/-- The state after a responder's answer (R172, R173): the responder's fields and the payload it wrote, `busy` clear, one
signal taken; nothing else moved. -/
structure AnswerEffect (id : U32) (data : List Byte) (final : Byte) (s t : State) : Prop where
  frame : ScpFrame s t
  dbStatus : t.bus.dbStatus = s.bus.dbStatus &&& 0xFFFFFFFE#32
  signals : t.bus.signals = s.bus.signals - 1
  execId : visible t (.field .execId) = id
  status : visible t (.field .status) = zextByte final
  header : ∀ f, requestHeader f = true → visible t (.field f) = visible s (.field f)
  payload : ∀ j, j < s.cfg.payloadCap → visible t (.field (.payload j)) = answeredByte data j (visible s (.field (.payload j)))

theorem envMoves_append (ms ns : List EnvMove) (s : State) : envMoves (ms ++ ns) s = envMoves ns (envMoves ms s) := by
  induction ms generalizing s with
  | nil => rfl
  | cons m ms ih => exact ih (envMove m s)

theorem envMoves_answer {s : State} (hc : parametersOk s.cfg = true) (hm : Memory.wf s.bus.mem = true) (id : U32)
    (data : List Byte) (final : Byte) : AnswerEffect id data final s (envMoves (answer id data final) s) := by
  rw [answer, envMoves_append, envMoves_append]
  set s1 := scpMove .observe s with h1
  set s2 := scpMove (.writeExec id) s1 with h2
  set s3 := scpMove (.writeStatus statusExecuting) s2 with h3
  have hstart : envMoves [.scp .observe, .scp (.writeExec id), .scp (.writeStatus statusExecuting)] s = s3 := rfl
  rw [hstart]
  have f1 : ScpFrame s s1 := scpFrame_observe s
  have c1 : parametersOk s1.cfg = true := by rw [f1.cfg]; exact hc
  have m1 := f1.memory hm
  have f2 : ScpFrame s1 s2 := scpFrame_writeExec c1 id
  have c2 : parametersOk s2.cfg = true := by rw [f2.cfg]; exact c1
  have m2 := f2.memory m1
  have f3 : ScpFrame s2 s3 := scpFrame_writeStatus c2 statusExecuting
  have c3 : parametersOk s3.cfg = true := by rw [f3.cfg]; exact c2
  have m3 := f3.memory m2
  have v1 : ∀ f, visible s1 (.field f) = visible s (.field f) := fun f => visible_field_congr rfl rfl f
  have v2 := visible_writeExec c1 m1 id
  have v3 := visible_writeStatus c2 m2 statusExecuting
  obtain ⟨f4, d4, g4, o4, p4⟩ := envMoves_payloadWrites data 0 c3 m3
  set s4 := envMoves (payloadWrites 0 data) s3 with h4
  have c4 : parametersOk s4.cfg = true := by rw [f4.cfg]; exact c3
  have m4 := f4.memory m3
  set s5 := scpMove (.writeStatus final) s4 with h5
  have f5 : ScpFrame s4 s5 := scpFrame_writeStatus c4 final
  have v5 := visible_writeStatus c4 m4 final
  have hend : envMoves [.scp (.writeStatus final), .scp .clearBusy] s4 = scpMove .clearBusy s5 := rfl
  rw [hend]
  have f6 := scpFrame_clearBusy s5
  have v6 : ∀ f, visible (scpMove .clearBusy s5) (.field f) = visible s5 (.field f) := fun f => visible_field_congr rfl rfl f
  have hframe : ScpFrame s s3 := f1.trans (f2.trans f3)
  have hv3 : ∀ f, f ≠ .execId → f ≠ .status → visible s3 (.field f) = visible s (.field f) := fun f he hs => by
    rw [v3, if_neg hs, v2, if_neg he, v1]
  refine ⟨hframe.trans (f4.trans (f5.trans f6)), ?_, ?_, ?_, ?_, fun f hf => ?_, fun j hj => ?_⟩
  · show s4.bus.dbStatus &&& _ = _
    rw [d4]; rfl
  · show s4.bus.signals = _
    rw [g4]; rfl
  · rw [v6, v5, if_neg (by simp), o4 _ rfl, v3, if_neg (by simp), v2, if_pos rfl]
  · rw [v6, v5, if_pos rfl]
  · have hne : f ≠ .execId ∧ f ≠ .status ∧ isPayload f = false := by cases f <;> simp [requestHeader, isPayload] at hf ⊢
    rw [v6, v5, if_neg hne.2.1, o4 f hne.2.2, hv3 f hne.1 hne.2.1]
  · rw [v6, v5, if_neg (by simp), p4 j (by rw [hframe.cfg]; exact hj), payloadAfter, if_neg (Nat.not_lt_zero j),
      hv3 _ (by simp) (by simp), Nat.sub_zero]

/-- With nothing pending the channel is idle exactly as its sample says (R28). -/
theorem ownSample_of_settled {s : State} (h : s.ord.pending = []) : ownSample s = visibleSample s := by
  have hv : ∀ l, ownView s l = visible s l := fun l => ownView_of_not_pending (by simp [h])
  simp only [ownSample, visibleSample, hv]
  rfl

/-- The sample of a channel on which the command with the visible id was answered. -/
theorem AnswerEffect.sample {id : U32} {data : List Byte} {final : Byte} {s t : State} (h : AnswerEffect id data final s t) :
    visibleSample t = { busy := false, exec := id, req := visible s (.field .requestId), st := final } := by
  rw [visibleSample, h.dbStatus, busyBit_clear, h.execId, h.status, h.header _ rfl, lowByte_zextByte]

theorem idle_answered {id : U32} {final : Byte} (hf : final = statusGood ∨ final = statusExecuting) :
    idle { busy := false, exec := id, req := id, st := final } = true := by
  rcases hf with rfl | rfl <;> simp [idle]

/-- Settles O49: the answer to the visible id makes the sample an idle one and leaves the requester's fields. -/
theorem lateAnswerFreesChannel : Obligations.LateAnswerFreesChannel := by
  intro s data final hc hm hf t
  have h := envMoves_answer hc hm (visible s (.field .requestId)) data final
  refine ⟨?_, h.frame.eng, h.header⟩
  rw [channelIdle, h.sample]
  exact idle_answered hf

end Sys2Proof.Machine
end

section
/-! SUPPORT. A transaction on an idle channel whose coprocessor answers at the first poll (R100, R121), from step `V` on. -/

namespace Sys2Proof.Machine

open Sys2Proof

/-! ### The message, from step `V` -/

/-- The engine stands at `V` with a recognised op byte, no load will be satisfied early, and it sees an idle channel. -/
structure AtCall (v : State) : Prop where
  params : parametersOk v.cfg = true
  safe : SafeState v
  atV : v.eng.pc = .v
  known : recognised v.cfg.gen v.eng.op = true
  loadPick : v.ord.loadPick = 0
  idle : Machine.idle (ownSample v) = true

/-- The state at the first poll of the transaction that starts in `v`, when nothing moves but the engine. -/
def delivered (v : State) : State :=
  sendMessage (goto .wOp (sampled v))

theorem AtCall.path {v : State} (h : AtCall v) : EPath 12 v (delivered v) :=
  (epath_check_idle h.atV h.known h.loadPick h.idle).trans (epath_sendMessage rfl)

/-- What stands at the first poll of a transaction that started in `v`, whatever is scheduled then: the message, `busy`, one
signal (R105 to R110). -/
structure Delivered (v m : State) : Prop where
  cfg : m.cfg = v.cfg
  env : m.env = { v.env with sched := m.env.sched }
  window : m.window = v.window
  freeCtr : m.freeCtr = v.freeCtr
  eng : m.eng = { v.eng with
    sample := m.eng.sample, nextId := v.eng.nextId + 1#32, pc := .poll, t0 := v.env.now, sampleAt := .rdBusy }
  field : ∀ f, visible m (.field f) = messageField v f
  pending : m.ord.pending = []
  stale : m.ord.stale = []
  loadPick : m.ord.loadPick = 0
  dbStatus : m.bus.dbStatus = v.bus.dbStatus ||| 1#32
  signals : m.bus.signals = v.bus.signals + 1
  outside : ∀ a, ¬ inMailbox v.cfg a → Memory.read m.bus.mem a = Memory.read v.bus.mem a
  memory : Memory.wf m.bus.mem = true

theorem Delivered.rescheduled {v m : State} (h : Delivered v m) (bs : List (List EnvMove)) : Delivered v (onSched bs m) :=
  ⟨h.cfg, by rw [onSched_env, h.env], h.window, h.freeCtr, h.eng, fun f => (visible_onSched bs m _).trans (h.field f),
    h.pending, h.stale, h.loadPick, h.dbStatus, h.signals, h.outside, h.memory⟩

theorem Delivered.pc {v m : State} (h : Delivered v m) : m.eng.pc = .poll := by rw [h.eng]

theorem Delivered.sampleAt {v m : State} (h : Delivered v m) : m.eng.sampleAt = .rdBusy := by rw [h.eng]

theorem messageField_sampled (v : State) (f : Field) : messageField (goto .wOp (sampled v)) f = messageField v f := by
  have hown : ownView (goto .wOp (sampled v)) (.field f) = ownView v (.field f) := ownView_sampled v (.field f)
  unfold messageField
  rw [hown]
  rfl

theorem AtCall.delivered {v : State} (h : AtCall v) : Delivered v (delivered v) := by
  have hsafe : SafeState (goto .wOp (sampled v)) := by
    rw [← (epath_check_idle h.atV h.known h.loadPick h.idle).eq]
    exact esteps_safe h.params h.safe 5
  have hs := sendMessage_sent (s := goto .wOp (sampled v)) h.params hsafe rfl
  have henv : (Machine.delivered v).env = v.env := hs.env
  have heng : (Machine.delivered v).eng = { v.eng with
      sample := (Machine.delivered v).eng.sample, nextId := v.eng.nextId + 1#32, pc := .poll, t0 := v.env.now
      sampleAt := .rdBusy } := by
    have hfull : (Machine.delivered v).eng = _ := hs.eng
    rw [hfull]
    rfl
  exact ⟨hs.cfg, by rw [henv], hs.window, hs.freeCtr, heng,
    fun f => (hs.field f).trans (messageField_sampled v f), hs.pending,
    hs.stale rfl, hs.loadPick.trans h.loadPick, hs.dbStatus, hs.signals, hs.outside, hs.memory⟩

/-- A turn with a batch, and a path of the engine from there. -/
theorem goes_batch {m t : State} {batch : List EnvMove} {bs : List (List EnvMove)} {n : Nat} (hp : m.eng.pc ≠ .rest)
    (hs : m.env.sched = batch :: bs) (h : EPath (n + 1) (envMoves batch (onSched bs m)) t) (hq : ∀ b ∈ bs.take n, b = []) :
    Goes (n + 1) m (onSched (bs.drop n) t) := by
  have htick : tick m = engineStep (envMoves batch (onSched bs m)) := by
    simp only [tick, envTurn, hs]
    rfl
  have hfirst := goes_one hp (waiting_of_sched hs)
  have hrest : EPath n (tick m) t := ⟨by rw [htick]; exact h.eq, fun k hk => by rw [htick]; exact h.busy (k + 1) (by omega)⟩
  have hsched : (tick m).env.sched = bs := by rw [tick_sched, hs]; rfl
  have hgo := hrest.goes (by rwa [hsched])
  rw [hsched] at hgo
  rw [Nat.add_comm]
  exact hfirst.trans hgo

theorem quiet_empty {n k : Nat} {bs : List (List EnvMove)} {b : List EnvMove} (hk : k ≤ n) (hb : b ∈ (quiet n ++ bs).take k) :
    b = [] := by
  rw [List.take_append_of_le_length (by simpa [quiet] using hk)] at hb
  exact (List.mem_replicate.1 (List.mem_of_mem_take hb)).2

theorem quiet_drop (n : Nat) (bs : List (List EnvMove)) : (quiet n ++ bs).drop n = bs := by
  rw [List.drop_left' (by simp [quiet])]

/-- From `V` over 12 empty batches to the first poll. -/
theorem AtCall.goes_delivered {v : State} (h : AtCall v) {bs : List (List EnvMove)} (hs : v.env.sched = quiet 12 ++ bs) :
    ∃ m, Goes 12 v m ∧ Delivered v m ∧ m.env.sched = bs := by
  have hgo := h.path.goes (fun b hb => quiet_empty le_rfl (hs ▸ hb))
  rw [hs, quiet_drop] at hgo
  exact ⟨_, hgo, h.delivered.rescheduled bs, rfl⟩

/-! ### The answer and the return -/

/-- The engine after the transaction that starts in `v` came back with the status `final` (R107, R110, R114, R196). -/
def returnedEngine (v : State) (final : Byte) : Engine :=
  let code := if final = statusGood then codeOk else codeFault
  { v.eng with
    nextId := v.eng.nextId + 1#32
    t0 := v.env.now
    res := code
    diag :=
      { kind := code, op := v.eng.op, arg0 := v.eng.arg0, arg1 := v.eng.arg1, req := v.eng.nextId, exec := v.eng.nextId
        status := final, valid := true }
    sampleAt := .rdNow
    sample := { busy := false, exec := v.eng.nextId, req := v.eng.nextId, st := final }
    rdSt := final
    pc := returnPc code v.eng.cKind
    cKind := if code = codeOk then v.eng.cKind else .none
    cIdx := if code = codeOk ∧ v.eng.cKind = .read then 0#32 else v.eng.cIdx }

/-- The state after the transaction that starts in `v` was answered with `data` and `final` (R121). -/
structure Returned (v t : State) (data : List Byte) (final : Byte) : Prop where
  cfg : t.cfg = v.cfg
  env : t.env = { v.env with sched := t.env.sched, scpPhase := t.env.scpPhase, conform := t.env.conform }
  freeCtr : t.freeCtr = v.freeCtr
  eng : t.eng = returnedEngine v final
  header : ∀ f, requestHeader f = true → visible t (.field f) = messageField v f
  execId : visible t (.field .execId) = v.eng.nextId
  status : visible t (.field .status) = zextByte final
  payload : ∀ j, j < v.cfg.payloadCap → visible t (.field (.payload j)) = answeredByte data j (ownView v (.field (.payload j)))
  window : t.window = if final = statusGood then responseLength v.cfg.payloadCap v.eng.op v.eng.arg1 else 0
  busy : busyBit t.bus.dbStatus = false
  signals : t.bus.signals = v.bus.signals
  settled : Settled t
  outside : ∀ a, ¬ inMailbox v.cfg a → Memory.read t.bus.mem a = Memory.read v.bus.mem a
  memory : Memory.wf t.bus.mem = true

/-- The sample at the end of an answered transaction. -/
theorem AnswerEffect.ownSample {v m u : State} {data : List Byte} {final : Byte} (hm : Delivered v m)
    (ha : AnswerEffect v.eng.nextId data final m u) :
    Machine.ownSample u = { busy := false, exec := v.eng.nextId, req := v.eng.nextId, st := final } := by
  rw [ownSample_of_settled (ha.frame.pending.trans hm.pending), ha.sample, hm.field]
  rfl

/-- The return of an answered transaction whose first poll sample comes after the answer. -/
theorem Delivered.returned {v m u : State} {data : List Byte} {final : Byte} (hm : Delivered v m)
    (ha : AnswerEffect v.eng.nextId data final m u) : Returned v (resolvedState u) data final := by
  have hsample := ha.ownSample hm
  have hcfg := ha.frame.cfg.trans hm.cfg
  have heng := ha.frame.eng.trans hm.eng
  have hvis : ∀ l, visible (resolvedState u) l = visible u l := fun l => visible_complete ..
  have hbus : (resolvedState u).bus = u.bus := complete_bus ..
  have hfree : (resolvedState u).freeCtr = u.freeCtr := complete_freeCtr ..
  have hpay : ∀ j, messageField v (.payload j) = ownView v (.field (.payload j)) := fun j => by simp [messageField]
  refine ⟨(complete_cfg ..).trans hcfg, ?_, (hfree.trans ha.frame.freeCtr).trans hm.freeCtr, ?_,
    fun f hf => ?_, (hvis _).trans ha.execId, (hvis _).trans ha.status, fun j hj => ?_, ?_, ?_, ?_, ?_, fun a hna => ?_, ?_⟩
  · have henv : (resolvedState u).env = u.env := complete_env ..
    rw [henv, ha.frame.env, hm.env]
  · simp only [resolvedState, complete_eq, hsample, heng, returnedEngine]
  · rw [hvis, ha.header f hf, hm.field]
  · rw [hvis, ha.payload j (by rw [hm.cfg]; exact hj), hm.field, hpay]
  · simp only [resolvedState, complete_window, hsample, hcfg, heng]
    by_cases hg : final = statusGood <;> simp [hg]
    exact fun h => absurd h (by decide)
  · rw [hbus, ha.dbStatus, busyBit_clear]
  · rw [hbus, ha.signals, hm.signals]; rfl
  · have hord : (resolvedState u).ord = { u.ord with stale := [], passed := [], loadPick := 0 } := complete_ord ..
    rw [Settled, hord]
    exact ⟨ha.frame.pending.trans hm.pending, rfl, rfl, rfl⟩
  · rw [hbus, ha.frame.outside a (by rw [hm.cfg]; exact hna), hm.outside a hna]
  · rw [hbus]; exact ha.frame.memory hm.memory

/-- A transaction on an idle channel that is answered at its first poll, from `V` to its return. -/
theorem AtCall.goes_returned {v : State} (h : AtCall v) {data : List Byte} {final : Byte}
    (hf : final = statusGood ∨ final = statusExecuting) {bs : List (List EnvMove)}
    (hs : v.env.sched = quiet 12 ++ answer v.eng.nextId data final :: bs) (hq : ∀ b ∈ bs.take 6, b = []) :
    ∃ t, Goes 19 v t ∧ Returned v t data final ∧ t.env.sched = bs.drop 6 := by
  obtain ⟨m, hgo, hm, hms⟩ := h.goes_delivered hs
  have hm' := hm.rescheduled bs
  have ha := envMoves_answer (s := onSched bs m) (by rw [onSched_cfg, hm.cfg]; exact h.params) hm'.memory v.eng.nextId data final
  set u := envMoves (answer v.eng.nextId data final) (onSched bs m) with hu
  have hpath : EPath 7 u (resolvedState u) := epath_answered (by rw [ha.frame.eng, hm'.pc]) (by rw [ha.frame.eng, hm'.sampleAt])
    (by rw [ha.frame.loadPick, hm'.loadPick]) (by rw [ha.ownSample hm']; exact idle_answered hf)
  have hend := goes_batch (n := 6) (by rw [hm.pc]; simp) hms hpath hq
  have hr := hm'.returned ha
  exact ⟨_, hgo.trans hend, ⟨hr.cfg, by rw [onSched_env, hr.env], hr.freeCtr, hr.eng,
    fun f hf => (visible_onSched _ _ _).trans (hr.header f hf), hr.execId, hr.status, hr.payload, hr.window, hr.busy, hr.signals,
    hr.settled, hr.outside, hr.memory⟩, rfl⟩

end Sys2Proof.Machine
end

section
/-! SUPPORT. A command as a host operation (R100, R101), and what it reports on an idle channel that answers (R121). -/

namespace Sys2Proof.Machine

open Sys2Proof

/-! ### From the call to step `V` -/

/-- The engine at `V` with the operands of a call latched. -/
def called (op : Byte) (x y : U32) (s : State) : State :=
  goto .v (latch op x y s)

theorem tick_called {op : Byte} {x y : U32} {s u : State} (h : envTurn (called op x y s) = called op x y u) :
    tick (called op x y s) = stepV (latch op x y u) := by
  rw [tick, h, stepV_latch]
  rfl

/-- With an empty batch before the call, its first step is that of the engine at `V` with the batch before it. -/
theorem tick_called_quiet {op : Byte} {x y : U32} {s : State} {bs : List (List EnvMove)} (h : s.env.sched = [] :: bs) :
    tick (called op x y s) = stepV (latch op x y (envTurn s)) := by
  rw [envTurn_of_quiet h]
  exact tick_called (envTurn_of_quiet (s := called op x y s) h)

/-- With the schedule used up, the turn before the call is all there is. -/
theorem tick_called_used_up {op : Byte} {x y : U32} {s : State} (h : s.env.sched = []) :
    tick (called op x y s) = stepV (latch op x y s) :=
  tick_called (envTurn_of_nil (s := called op x y s) h (by simp [called]) (by simp [called]))

/-- A command that comes to `REST` along a known way ends there. -/
theorem exec_command {i : Instr} {op : Byte} {x y : U32} {s v t : State} {n : Nat} (hi : commandOf i = some (op, x, y))
    (hs : Ready s) (hv : tick v = stepV (latch op x y (envTurn s))) (hp : v.eng.pc = .v) (h : Goes (n + 1) v t)
    (ht : t.eng.pc = .rest) (hn : n ≤ budget 0#32 s) : exec i s = .next t := by
  obtain ⟨hc, hr, -⟩ := hs
  rw [exec_of_commandOf hi, transact, hostOperation_of_rest hc hr, ← hv]
  have hrun : run (budget 0#32 s) (tick v) = run (budget 0#32 s + 1) v :=
    (run_step (by simp [hp]) (waiting_of_pc (by simp [hp])) _).symm
  rw [hrun, h.run_rest ht (by omega)]

theorem le_budget {n : Nat} (h : n ≤ 64) (size : U32) (s : State) : n ≤ budget size s := by
  unfold budget
  omega

theorem called_atCall {op : Byte} {x y : U32} {s : State} (hs : ReadyIdle s) (h : recognised s.cfg.gen op = true) :
    AtCall (called op x y s) := by
  obtain ⟨⟨hc, hr, hk⟩, ⟨hp, -, -, hl⟩, hidle, hm⟩ := hs
  refine ⟨hc, latch_at_v_safe (safeState_of_rest hm hr hk (by simp [hp])) hr op x y, rfl, h, hl, ?_⟩
  have hsample : ownSample (called op x y s) = visibleSample s := ownSample_of_settled (s := s) hp
  rw [hsample]
  exact hidle

/-! ### The answer -/

theorem headerWritten_of_message {op : Byte} {x y : U32} {s t : State} (hp : s.ord.pending = [])
    (h : ∀ f, requestHeader f = true → visible t (.field f) = messageField (called op x y s) f) : headerWritten s t op x y := by
  have hown : ∀ f, ownView (called op x y s) (.field f) = visible s (.field f) := fun f =>
    ownView_of_not_pending (s := s) (by simp [hp])
  have hcfg : (called op x y s).cfg = s.cfg := rfl
  have heng : (called op x y s).eng = { s.eng with op := op, arg0 := x, arg1 := y, pc := .v } := rfl
  refine ⟨?_, ?_, ?_, ?_⟩ <;> rw [h _ rfl] <;> simp [messageField, hown, hcfg, heng]

/-- What a direct call leaves that was answered (R121). -/
theorem Returned.answered {op : Byte} {x y : U32} {s t : State} {data : List Byte} {final : Byte} (hr : Ready s)
    (hp : s.ord.pending = []) (h : Returned (called op x y s) t data final) : Answered s t op x y data final := by
  obtain ⟨-, hrest, hkind⟩ := hr
  have hown : ∀ f, ownView (called op x y s) (.field f) = visible s (.field f) := fun f =>
    ownView_of_not_pending (s := s) (by simp [hp])
  have heng : t.eng = answeredEngine s op x y final := by
    rw [h.eng]
    simp [returnedEngine, answeredEngine, called, hkind]
  refine ⟨heng, headerWritten_of_message hp h.header, h.execId, h.status, fun j hj => ?_, h.window, h.busy, h.signals, h.settled,
    ⟨h.cfg, ?_, ?_, ?_, ?_, ?_, h.freeCtr⟩, h.outside⟩
  · rw [h.payload j hj, hown, answeredByte]
    cases data[j]? <;> rfl
  all_goals rw [h.env]; rfl

/-- A command on an idle channel whose coprocessor answers at the first poll. -/
theorem command_completes {i : Instr} {op : Byte} {x y : U32} {s : State} {data : List Byte} {final : Byte}
    (hi : commandOf i = some (op, x, y)) (hs : ReadyIdle s) (hrec : recognised s.cfg.gen op = true)
    (hf : final = statusGood ∨ final = statusExecuting) (hsched : s.env.sched = answeredSched s.eng.nextId data final) :
    ∃ t, exec i s = .next t ∧ Answered s t op x y data final := by
  obtain ⟨t, hgo, hret, -⟩ := (called_atCall (x := x) (y := y) hs hrec).goes_returned hf (bs := []) hsched (by simp)
  have hans := hret.answered hs.1 hs.2.1.1
  exact ⟨t, exec_command hi hs.1 (tick_called_quiet hsched) rfl hgo (by rw [hans.1]; rfl) (le_budget (by omega) _ _), hans⟩

/-- Settles O31: each row is the command of its byte, which stores both arguments. -/
theorem argumentOpcodesCompleteA : Obligations.ArgumentOpcodesCompleteA := by
  intro i op x y s data hi hg hs _ hsched
  have hcases : commandOf i = some (op, x, y) ∧ recognised .a op = true ∧ storesArgs .a op = true := by
    simp only [List.mem_cons, Prod.mk.injEq, List.not_mem_nil, or_false] at hi
    obtain ⟨rfl, rfl⟩ | ⟨rfl, rfl⟩ | ⟨rfl, rfl⟩ | ⟨rfl, rfl⟩ | ⟨rfl, rfl⟩ := hi <;> exact ⟨rfl, by decide, by decide⟩
  obtain ⟨hcmd, hrec, hargs⟩ := hcases
  exact ⟨hg ▸ hargs, command_completes hcmd hs (hg ▸ hrec) (.inl rfl) hsched⟩

/-- Settles O32: each row is the command of its byte, which stores no argument. -/
theorem plainOpcodesCompleteA : Obligations.PlainOpcodesCompleteA := by
  intro i op x y s data hi hg hs _ hsched
  have hcases : commandOf i = some (op, x, y) ∧ recognised .a op = true ∧ storesArgs .a op = false := by
    simp only [List.mem_cons, Prod.mk.injEq, List.not_mem_nil, or_false] at hi
    obtain ⟨rfl, rfl⟩ | ⟨rfl, rfl⟩ | ⟨rfl, rfl⟩ | ⟨rfl, rfl⟩ | ⟨rfl, rfl⟩ := hi <;> exact ⟨rfl, by decide, by decide⟩
  obtain ⟨hcmd, hrec, hargs⟩ := hcases
  exact ⟨hg ▸ hargs, command_completes hcmd hs (hg ▸ hrec) (.inl rfl) hsched⟩

/-- Settles O33: each row is the command of its byte; generation B stores both words whatever the byte. -/
theorem opcodesCompleteB : Obligations.OpcodesCompleteB := by
  intro i op x y s data hi hg hs _ hsched
  have hcases : commandOf i = some (op, x, y) ∧ recognised .b op = true := by
    simp only [List.mem_cons, Prod.mk.injEq, List.not_mem_nil, or_false] at hi
    obtain ⟨rfl, rfl⟩ | ⟨rfl, rfl⟩ | ⟨rfl, rfl⟩ := hi <;> exact ⟨rfl, by decide⟩
  obtain ⟨hcmd, hrec⟩ := hcases
  exact ⟨by rw [hg]; rfl, command_completes hcmd hs (hg ▸ hrec) (.inl rfl) hsched⟩

/-- Settles O34: the result of an answered call is the one its final status decodes to (R81). -/
theorem scpCmdCompletes : Obligations.ScpCmdCompletes := by
  intro op x y s data final hrec hf hs _ hsched
  obtain ⟨t, hexec, hans⟩ := command_completes (i := .scpCmd op x y) rfl hs hrec hf hsched
  refine ⟨t, hexec, hans, fun h => ?_, fun h => ?_⟩ <;> rw [hans.1, h] <;> rfl

end Sys2Proof.Machine
end

section
/-! SUPPORT. Commands that do not complete: the busy channel and the deadline (R103, R111, R192, R193). -/

namespace Sys2Proof.Machine

open Sys2Proof

/-! ### The busy channel -/

theorem raiseChannelBusy_sampled {op : Byte} {x y : U32} {s : State} (hk : s.eng.cKind = .none) :
    raiseChannelBusy (sampled (called op x y s)) = busyState s op x y := by
  have hsample : ownSample (called op x y s) = ownSample s := rfl
  have hcode : codeChannelBusy ≠ codeOk := by decide
  rw [raiseChannelBusy, complete_eq]
  simp only [sampled, hsample, hcode, false_and, if_false, busyState, busyEngine]
  simp [called, hk]

/-- A recognised command on a channel that is not idle, with nothing scheduled (R103, R192). -/
theorem exec_busy {i : Instr} {op : Byte} {x y : U32} {s : State} (hi : commandOf i = some (op, x, y)) (hs : Ready s)
    (hrec : recognised s.cfg.gen op = true) (hsched : s.env.sched = []) (hpick : (envTurn s).ord.loadPick = 0)
    (hbusy : idle (ownSample (envTurn s)) = false) : exec i s = .next (busyState (envTurn s) op x y) := by
  have hnil : (envTurn s).env.sched = [] := by simp [hsched]
  have hpath : EPath 5 (called op x y (envTurn s)) (raiseChannelBusy (sampled (called op x y (envTurn s)))) :=
    epath_check_busy rfl (by simpa [called] using hrec) hpick hbusy
  have hgo := hpath.goes (fun b hb => by simp [called, hsched] at hb)
  have hend : onSched ((called op x y (envTurn s)).env.sched.drop 5) (raiseChannelBusy (sampled (called op x y (envTurn s))))
      = busyState (envTurn s) op x y := by
    have hsame : (called op x y (envTurn s)).env.sched.drop 5 = (busyState (envTurn s) op x y).env.sched := by
      simp [called, hsched, busyState]
    rw [raiseChannelBusy_sampled (by simpa using hs.2.2), hsame, onSched_self]
  rw [hend] at hgo
  exact exec_command (v := called op x y (envTurn s)) hi hs (tick_called_used_up hnil) rfl hgo rfl (le_budget (by omega) _ _)

@[simp] theorem fairTurn_loadPick (s : State) : (fairTurn s).ord.loadPick = s.ord.loadPick := by
  unfold fairTurn
  split
  · rw [clkMove_ord]
    obtain h | ⟨_, _, _, -, -, h⟩ := drain_cases 0 s <;> simp [h]
  · simp

/-- Settles O42: the channel check is five steps in which nothing but the hidden state moves. -/
theorem channelBusy : Obligations.ChannelBusy := by
  intro i op x y s hi hs hrec hsched hpick hbusy
  refine exec_busy hi hs hrec hsched ?_ hbusy
  have hturn : envTurn s = fairTurn s := by simp [envTurn, hsched]
  rw [hturn, fairTurn_loadPick, hpick]

/-- A channel that stays busy while only the clock moves: nothing scheduled or pending, and the sample not idle. -/
structure StuckBusy (t : State) : Prop where
  ready : Ready t
  sched : t.env.sched = []
  pending : t.ord.pending = []
  loadPick : t.ord.loadPick = 0
  busy : idle (ownSample t) = false

theorem StuckBusy.turn {t : State} (h : StuckBusy t) : envTurn t = clkMove 1 t :=
  envTurn_of_settled h.sched h.ready.2.1 h.pending

theorem ownSample_clkMove (n : Nat) (s : State) : ownSample (clkMove n s) = ownSample s := by
  obtain ⟨v, hv⟩ := clkMove_eq n s
  rw [hv]
  rfl

/-- Every later command reports `ChannelBusy`, exactly. -/
theorem StuckBusy.exec {t : State} (h : StuckBusy t) {j : Instr} {op : Byte} {x y : U32} (hj : commandOf j = some (op, x, y))
    (hrec : recognised t.cfg.gen op = true) : exec j t = .next (busyState (envTurn t) op x y) :=
  exec_busy hj h.ready hrec h.sched (by rw [h.turn, clkMove_ord, h.loadPick])
    (by rw [h.turn, ownSample_clkMove, h.busy])

theorem StuckBusy.after {t : State} (h : StuckBusy t) (op : Byte) (x y : U32) : StuckBusy (busyState (envTurn t) op x y) := by
  obtain ⟨hc, -, hk⟩ := h.ready
  refine ⟨⟨by simpa [busyState] using hc, rfl, by simpa [busyState, busyEngine] using hk⟩, ?_, ?_, ?_, ?_⟩
  · simp [busyState, h.sched]
  · simp [busyState, ordAfterSample, h.turn, h.pending]
  · simp [busyState, ordAfterSample, h.turn, h.loadPick]
  · have hsample : ownSample (busyState (envTurn t) op x y) = ownSample (envTurn t) := rfl
    rw [hsample, h.turn, ownSample_clkMove, h.busy]

theorem execAll_cons {i : Instr} {is : List Instr} {s t : State} (h : Machine.exec i s = .next t) :
    execAll (i :: is) s = execAll is t := by
  rw [execAll.eq_def]
  simp only [h]

theorem StuckBusy.stays {t : State} (h : StuckBusy t) : StaysBusy t := by
  intro js
  induction js generalizing t with
  | nil => intro hne; exact absurd rfl hne
  | cons j js ih =>
    intro _ hall
    obtain ⟨op, x, y, hj, hrec⟩ := hall j List.mem_cons_self
    set u := busyState (envTurn t) op x y with hu
    have hexec := h.exec hj hrec
    have hturn := h.turn
    have hlast : u = { t with eng := u.eng, ord := u.ord, env := { t.env with now := u.env.now }, window := 0 } := by
      obtain ⟨v, hv⟩ := clkMove_eq 1 t
      rw [hu, hturn, hv]
      rfl
    have hreg : u.eng.pc = .rest ∧ u.eng.res = codeChannelBusy ∧ u.eng.nextId = t.eng.nextId :=
      ⟨rfl, rfl, by simp [hu, busyState, busyEngine]⟩
    rw [execAll_cons hexec]
    by_cases hjs : js = []
    · subst hjs
      exact ⟨u, rfl, hlast, hreg⟩
    · have hcfg : u.cfg = t.cfg := by simp [hu, busyState]
      obtain ⟨w, hw, hframe, hpc, hres, hid⟩ := ih (h.after op x y) hjs
        (fun i hi => by rw [← hu, hcfg]; exact hall i (List.mem_cons_of_mem j hi))
      refine ⟨w, hw, ?_, hpc, hres, hid.trans hreg.2.2⟩
      rw [← hu] at hframe
      rw [hframe, hlast]

/-! ### The deadline -/

/-- The deadline test of a poll that only the clock can end, with the schedule used up: the clock moves to the deadline and the
transaction times out (R111, R193; log 2). -/
theorem goes_timeout {w : State} (hp : w.eng.pc = .poll) (ha : w.eng.sampleAt = .rdNow) (hs : w.env.sched = [])
    (hbusy : idle (ownSample w) = false) (hle : w.eng.t0.toNat ≤ w.env.now.toNat)
    (hfit : w.env.now.toNat + ticksToDeadline w < 2 ^ 64) :
    Goes 1 w (raiseTimeout (clkMove (ticksToDeadline w) w)) := by
  have hturn : envTurn w = clkMove (ticksToDeadline w) w := by simp [envTurn, fairTurn, hs, hp]
  have hticks : ticksToDeadline w = timeoutTicks w.cfg - (w.env.now - w.eng.t0).toNat := by
    simp [ticksToDeadline, hp, ha, hbusy]
  have hdiff : (w.env.now - w.eng.t0).toNat = w.env.now.toNat - w.eng.t0.toNat := BitVec.toNat_sub_of_le hle
  have hwait : waiting w = false := by
    rw [Bool.eq_false_iff, ne_eq, waiting_iff]
    omega
  have hexp : expired (clkMove (ticksToDeadline w) w).env.now w.eng.t0 (timeoutTicks w.cfg) = true := by
    have hnow : (clkMove (ticksToDeadline w) w).env.now.toNat = w.env.now.toNat + ticksToDeadline w := by
      rw [clkMove, if_pos hfit]
      simp only [BitVec.toNat_add, BitVec.toNat_ofNat]
      omega
    rw [expired, decide_eq_true_eq, BitVec.toNat_sub_of_le (by rw [BitVec.le_def, hnow]; omega), hnow]
    omega
  have htick : tick w = raiseTimeout (clkMove (ticksToDeadline w) w) := by
    rw [tick, hturn]
    simp only [engineStep, clkMove_eng, hp, stepPoll, ha, clkMove_cfg, hexp, if_true]
  have hgo := goes_one (by simp [hp]) hwait
  rwa [htick] at hgo

/-- A poll whose first sample is not idle, with the schedule used up: the clock moves to the deadline, and the transaction
times out with the values of that sample (R111, R193). -/
theorem goes_pollTimeout {u : State} (hsample : EPath 4 u (sampled u)) (hs : u.env.sched = []) (hp : u.eng.pc = .poll)
    (hbusy : idle (ownSample u) = false) (hle : u.eng.t0.toNat ≤ u.env.now.toNat)
    (hfit : u.env.now.toNat + ticksToDeadline (sampled u) < 2 ^ 64) :
    Goes 5 u (raiseTimeout (clkMove (ticksToDeadline (sampled u)) (sampled u))) := by
  have hgo := hsample.goes (by simp [hs])
  have hself : onSched (u.env.sched.drop 4) (sampled u) = sampled u := by
    have hnil : u.env.sched.drop 4 = (sampled u).env.sched := by simp [hs, sampled]
    rw [hnil, onSched_self]
  rw [hself] at hgo
  have hown : ownSample (sampled u) = ownSample u := by simp only [ownSample, ownView_sampled]
  exact hgo.trans (goes_timeout hp rfl hs (by rw [hown]; exact hbusy) hle hfit)

/-- What a direct call leaves that timed out. -/
structure TimedOut (op : Byte) (x y : U32) (s u t : State) : Prop where
  cfg : t.cfg = s.cfg
  eng : t.eng = timedOutEngine s op x y (ownSample u).exec (ownSample u).st (ownSample u).busy
  bus : t.bus = u.bus
  env : t.env = { u.env with now := t.env.now }
  now : t.env.now.toNat = s.env.now.toNat + timeoutTicks s.cfg
  stuck : StuckBusy t

/-- From a first poll that sees no idle channel, with the schedule used up, to the deadline. -/
theorem Delivered.timesOut {op : Byte} {x y : U32} {s m u : State} (hr : Ready s) (hm : Delivered (called op x y s) m)
    (hcfg : u.cfg = m.cfg) (heng : u.eng = m.eng) (hsched : u.env.sched = []) (hpend : u.ord.pending = [])
    (hpick : u.ord.loadPick = 0) (hle : s.env.now.toNat ≤ u.env.now.toNat)
    (hdue : u.env.now.toNat ≤ s.env.now.toNat + timeoutTicks s.cfg) (hfit : s.env.now.toNat + timeoutTicks s.cfg < 2 ^ 64)
    (hreq : (ownSample u).req = s.eng.nextId) (hbusy : idle (ownSample u) = false) :
    ∃ t, Goes 5 u t ∧ TimedOut op x y s u t := by
  obtain ⟨hc, -, hk⟩ := hr
  have hp : u.eng.pc = .poll := by rw [heng, hm.pc]
  have ht0 : u.eng.t0 = s.env.now := by rw [heng, hm.eng]; rfl
  have hown : ownSample (sampled u) = ownSample u := by simp only [ownSample, ownView_sampled]
  have hcfg' : u.cfg = s.cfg := hcfg.trans hm.cfg
  have hticks : ticksToDeadline (sampled u) = s.env.now.toNat + timeoutTicks s.cfg - u.env.now.toNat := by
    have hall : (sampled u).eng.pc = .poll ∧ (sampled u).eng.sampleAt = .rdNow ∧ idle (ownSample (sampled u)) = false :=
      ⟨hp, rfl, by rw [hown]; exact hbusy⟩
    rw [ticksToDeadline, if_pos hall]
    have hdiff : ((sampled u).env.now - (sampled u).eng.t0).toNat = u.env.now.toNat - s.env.now.toNat := by
      have hsame : (sampled u).eng.t0 = s.env.now := ht0
      rw [hsame]
      exact BitVec.toNat_sub_of_le hle
    have htime : timeoutTicks (sampled u).cfg = timeoutTicks s.cfg := congrArg timeoutTicks hcfg'
    rw [hdiff, htime]
    omega
  set k := ticksToDeadline (sampled u) with hkdef
  have hgo := goes_pollTimeout (epath_pollSample_busy hp (by rw [heng, hm.sampleAt]) hpick hbusy) hsched hp hbusy
    (by rw [ht0]; exact hle) (by omega)
  have hnow : (clkMove k (sampled u)).env.now.toNat = s.env.now.toNat + timeoutTicks s.cfg := by
    have hroom : (sampled u).env.now.toNat + k < 2 ^ 64 := by
      show u.env.now.toNat + k < 2 ^ 64
      omega
    rw [clkMove, if_pos hroom]
    show (u.env.now + BitVec.ofNat 64 k).toNat = _
    simp only [BitVec.toNat_add, BitVec.toNat_ofNat]
    omega
  obtain ⟨now, hclk⟩ := clkMove_eq k (sampled u)
  have hend : (raiseTimeout (clkMove k (sampled u))).eng
      = timedOutEngine s op x y (ownSample u).exec (ownSample u).st (ownSample u).busy := by
    have hcode : codeTimeout ≠ codeOk := by decide
    rw [raiseTimeout, complete_eq, clkMove_eng]
    have hu : u.eng = _ := heng.trans hm.eng
    simp only [sampled, hu, hcode, false_and, if_false, timedOutEngine]
    generalize ownSample u = x at hreq
    obtain ⟨b, e, r, st⟩ := x
    obtain rfl : r = s.eng.nextId := hreq
    simp [called, hk]
  refine ⟨_, hgo, ?_⟩
  refine ⟨(complete_cfg ..).trans ((clkMove_cfg ..).trans hcfg'), hend, ?_, ?_, ?_, ?_⟩
  · exact (complete_bus ..).trans (clkMove_bus ..)
  · have henv : (raiseTimeout (clkMove k (sampled u))).env = (clkMove k (sampled u)).env := complete_env ..
    rw [henv, hclk]
    rfl
  · have henv : (raiseTimeout (clkMove k (sampled u))).env = (clkMove k (sampled u)).env := complete_env ..
    rw [henv, hnow]
  · have hord : (raiseTimeout (clkMove k (sampled u))).ord = ordAfterSample u.ord := (complete_ord ..).trans (clkMove_ord ..)
    have hlast : (raiseTimeout (clkMove k (sampled u))).cfg = s.cfg := (complete_cfg ..).trans ((clkMove_cfg ..).trans hcfg')
    have hrt : ownSample (raiseTimeout (clkMove k (sampled u))) = ownSample u := by
      have hv : ∀ l, ownView (raiseTimeout (clkMove k (sampled u))) l = ownView u l := fun l =>
        ownView_congr (by rw [hord]; rfl) ((visible_complete ..).trans (by rw [hclk]; exact visible_congr rfl rfl rfl l))
      simp only [ownSample, hv]
    refine ⟨⟨hlast ▸ hc, by rw [hend]; rfl, by rw [hend]; exact hk⟩, ?_, ?_, ?_, ?_⟩
    · have hsame : (raiseTimeout (clkMove k (sampled u))).env.sched = (clkMove k (sampled u)).env.sched :=
        congrArg Environment.sched (complete_env ..)
      rw [hsame, clkMove_sched]
      exact hsched
    · rw [hord]; exact hpend
    · rw [hord]; exact hpick
    · rw [hrt]; exact hbusy

end Sys2Proof.Machine
end

section
/-! SUPPORT. What a coprocessor that does not answer, or answers badly or late, makes a command report (R111, R177, R193). -/

namespace Sys2Proof.Machine

open Sys2Proof

/-- The last scheduled batch, before the first read of a poll: the run goes on as from the state after the batch. -/
theorem Goes.after_lastBatch {n : Nat} {m t : State} {batch : List EnvMove} (hp : m.eng.pc = .poll)
    (ha : m.eng.sampleAt = .rdBusy) (hs : m.env.sched = [batch]) (h : Goes (n + 1) (envMoves batch (onSched [] m)) t) :
    Goes (n + 1) m t := by
  set u := envMoves batch (onSched [] m) with hu
  have hnil : u.env.sched = [] := by simp [hu]
  have hup : u.eng.pc = .poll := by simp [hu, hp]
  have hua : u.eng.pc = .poll → u.eng.sampleAt ≠ .rdNow := fun _ => by simp [hu, ha]
  have hu1 : tick u = engineStep u := by
    have htail : u.env.sched.tail = u.env.sched := by rw [hnil]; rfl
    rw [tick, envTurn_of_still (by simp [hnil]) (by simp [hup]) hua, htail, onSched_self]
  have hm1 : tick m = tick u := by
    rw [hu1]
    simp only [tick, envTurn, hs]
    rfl
  refine ⟨?_, fun k => ?_⟩
  · rw [← h.ticks]
    exact congrArg (Machine.ticks n) hm1
  · rw [← h.run, Nat.succ_add, run_step (by simp [hp]) (waiting_of_sched hs), hm1,
      run_step (by simp [hup]) (waiting_of_sampleAt hua)]

theorem Delivered.busy {v m : State} (h : Delivered v m) : busyBit m.bus.dbStatus = true := by
  rw [h.dbStatus, busyBit_or_one]

theorem not_idle_of_busy {x : Sample} (h : x.busy = true) : idle x = false := by simp [idle, h]

theorem Delivered.ownSample_busy {v m : State} (h : Delivered v m) : (ownSample m).busy = true := by
  rw [ownSample_of_settled h.pending]
  exact h.busy

theorem Delivered.ownSample_req {v m : State} (h : Delivered v m) : (ownSample m).req = v.eng.nextId := by
  rw [ownSample_of_settled h.pending]
  exact (h.field .requestId).trans (by simp [messageField])

/-- What a message of a direct call leaves in the fields that it does not write. -/
theorem messageField_called_other {op : Byte} {x y : U32} {s : State} (hp : s.ord.pending = []) {f : Field}
    (hf : requestHeader f = false) : messageField (called op x y s) f = visible s (.field f) := by
  have hown : ownView (called op x y s) (.field f) = visible s (.field f) :=
    ownView_of_not_pending (s := s) (by simp [hp])
  cases f <;> simp_all [messageField, requestHeader]

/-- The sample of a poll that nothing answers. -/
theorem Delivered.unansweredSample {op : Byte} {x y : U32} {s m : State} (h : Delivered (called op x y s) m)
    (hp : s.ord.pending = []) :
    ownSample m = { busy := true, exec := visible s (.field .execId), req := s.eng.nextId
                    st := lowByte (visible s (.field .status)) } := by
  have hx := (h.field .execId).trans (messageField_called_other hp rfl)
  have hst := (h.field .status).trans (messageField_called_other hp rfl)
  have hid : visible m (.field .requestId) = s.eng.nextId := h.field .requestId
  rw [ownSample_of_settled h.pending, visibleSample, h.busy, hx, hst, hid]

theorem clkMove_now {n : Nat} {s : State} (h : s.env.now.toNat + n < 2 ^ 64) :
    (clkMove n s).env.now.toNat = s.env.now.toNat + n := by
  rw [clkMove, if_pos h]
  simp only [BitVec.toNat_add, BitVec.toNat_ofNat]
  omega

theorem Delivered.now {v m : State} (h : Delivered v m) : m.env.now = v.env.now := by rw [h.env]

/-- From the doorbell to the deadline when only the clock moves. -/
theorem Delivered.hangs {op : Byte} {x y : U32} {s m : State} (hr : Ready s) (hm : Delivered (called op x y s) m)
    (hms : m.env.sched = [[.clk (timeoutTicks s.cfg)]]) (hfit : s.env.now.toNat + timeoutTicks s.cfg < 2 ^ 64) :
    ∃ t, Goes 5 m t ∧ TimedOut op x y s (clkMove (timeoutTicks s.cfg) (onSched [] m)) t := by
  have hm' := hm.rescheduled []
  set u := clkMove (timeoutTicks s.cfg) (onSched [] m) with hu
  have hnow : u.env.now.toNat = s.env.now.toNat + timeoutTicks s.cfg := by
    have hstart : (onSched [] m).env.now = s.env.now := hm'.now
    rw [hu, clkMove_now (by rw [hstart]; exact hfit), hstart]
  have hsample : ownSample u = ownSample (onSched [] m) := ownSample_clkMove ..
  obtain ⟨t, hend, ht⟩ := hm'.timesOut (u := u) hr (clkMove_cfg ..) (clkMove_eng ..) (clkMove_sched ..)
    (by rw [hu, clkMove_ord]; exact hm'.pending) (by rw [hu, clkMove_ord]; exact hm'.loadPick) (by omega) hnow.le hfit
    (by rw [hsample]; exact hm'.ownSample_req) (by rw [hsample]; exact not_idle_of_busy hm'.ownSample_busy)
  exact ⟨t, Goes.after_lastBatch (n := 4) hm.pc hm.sampleAt hms hend, ht⟩

/-- Settles O43: nothing but the clock moves after the doorbell, so that the sample at the deadline shows the channel busy. -/
theorem hungCoprocessorTimesOut : Obligations.HungCoprocessorTimesOut := by
  intro i op x y s hi hs hrec hsched hfit
  have hp := hs.2.1.1
  obtain ⟨m, hgo, hm, hms⟩ := (called_atCall (x := x) (y := y) hs hrec).goes_delivered hsched
  obtain ⟨t, hend, ht⟩ := hm.hangs hs.1 hms hfit
  have hsample : ownSample (clkMove (timeoutTicks s.cfg) (onSched [] m)) = _ :=
    (ownSample_clkMove ..).trans ((hm.rescheduled []).unansweredSample hp)
  have hbus : t.bus = m.bus := ht.bus.trans (clkMove_bus ..)
  have hvis : ∀ f, visible t (.field f) = messageField (called op x y s) f := fun f =>
    (visible_field_congr (ht.cfg.trans hm.cfg.symm) (congrArg Bus.mem hbus) f).trans (hm.field f)
  refine ⟨t, exec_command (n := 16) hi hs.1 (tick_called_quiet hsched) rfl (hgo.trans hend) ht.stuck.ready.2.1
    (le_budget (by omega) _ _), by rw [ht.eng, hsample],
    headerWritten_of_message hp fun f _ => hvis f, (hvis _).trans (messageField_called_other hp rfl),
    (hvis _).trans (messageField_called_other hp rfl), fun j _ => (hvis _).trans (messageField_called_other hp rfl),
    fun a ha => by rw [hbus]; exact hm.outside a ha, by rw [hbus]; exact hm.busy, by rw [hbus]; exact hm.signals, ht.now,
    fun j op' x' y' hj hrec' => ht.stuck.exec hj (by rw [ht.cfg]; exact hrec'), ht.stuck.stays⟩

/-- Settles O44: the sample at the deadline shows a status that is neither `'G'` nor `'E'`. -/
theorem markerStatusTimesOut : Obligations.MarkerStatusTimesOut := by
  intro i op x y s data marker hi hs hrec hG hE _ hfit hsched
  have hp := hs.2.1.1
  obtain ⟨m, hgo, hm, hms⟩ := (called_atCall (x := x) (y := y) hs hrec).goes_delivered hsched
  have hm' := hm.rescheduled []
  have ha := envMoves_answer (s := onSched [] m) (by rw [hm'.cfg]; exact hs.1.1) hm'.memory s.eng.nextId data marker
  set w := envMoves (answer s.eng.nextId data marker) (onSched [] m) with hw
  set u := clkMove (timeoutTicks s.cfg) w with hu
  have hbatch : envMoves (answer s.eng.nextId data marker ++ [.clk (timeoutTicks s.cfg)]) (onSched [] m) = u := by
    rw [envMoves_append]; rfl
  have hstart : w.env.now = s.env.now := by rw [ha.frame.env]; exact hm'.now
  have hnow : u.env.now.toNat = s.env.now.toNat + timeoutTicks s.cfg := by
    rw [hu, clkMove_now (by rw [hstart]; exact hfit), hstart]
  have hsample := ha.ownSample hm'
  rw [← ownSample_clkMove (timeoutTicks s.cfg), ← hu] at hsample
  have hid : (called op x y s).eng.nextId = s.eng.nextId := rfl
  have hord : u.ord = w.ord := clkMove_ord ..
  obtain ⟨t, hend, ht⟩ := hm'.timesOut (u := u) hs.1 ((clkMove_cfg ..).trans ha.frame.cfg) ((clkMove_eng ..).trans ha.frame.eng)
    (by rw [hu, clkMove_sched, ha.frame.env]; rfl) (by rw [hord, ha.frame.pending]; exact hm'.pending)
    (by rw [hord, ha.frame.loadPick]; exact hm'.loadPick) (by omega) hnow.le hfit
    (by rw [hsample]; rfl) (by rw [hsample]; simp [idle, hG, hE])
  have hbus : t.bus = w.bus := ht.bus.trans (clkMove_bus ..)
  have hst : visible t (.field .status) = zextByte marker :=
    (visible_field_congr (ht.cfg.trans (ha.frame.cfg.trans hm'.cfg).symm) (congrArg Bus.mem hbus) _).trans ha.status
  rw [← hbatch] at hend
  refine ⟨t, exec_command (n := 16) hi hs.1 (tick_called_quiet hsched) rfl
    (hgo.trans (Goes.after_lastBatch (n := 4) hm.pc hm.sampleAt hms hend)) ht.stuck.ready.2.1 (le_budget (by omega) _ _), ?_, hst, ?_,
    fun j op' x' y' hj hrec' => ht.stuck.exec hj (by rw [ht.cfg]; exact hrec'), ht.stuck.stays⟩
  · rw [ht.eng, hsample, hid]
  · rw [hbus, ha.dbStatus, busyBit_clear]

/-- Settles O45: the sample comes before the deadline test. -/
theorem idleSampleWinsOverDeadline : Obligations.IdleSampleWinsOverDeadline := by
  intro i op x y s data n hi hs hrec _ hlate hfit hsched
  have hp := hs.2.1.1
  obtain ⟨m, hgo, hm, hms⟩ := (called_atCall (x := x) (y := y) hs hrec).goes_delivered hsched
  have hm' := hm.rescheduled []
  have ha := envMoves_answer (s := onSched [] m) (by rw [hm'.cfg]; exact hs.1.1) hm'.memory s.eng.nextId data statusGood
  set w := envMoves (answer s.eng.nextId data statusGood) (onSched [] m) with hw
  set u := clkMove n w with hu
  have hbatch : envMoves (answer s.eng.nextId data statusGood ++ [.clk n]) (onSched [] m) = u := by
    rw [envMoves_append]; rfl
  have hstart : w.env.now = s.env.now := by rw [ha.frame.env]; exact hm'.now
  have hnow : u.env.now.toNat = s.env.now.toNat + n := by
    rw [hu, clkMove_now (by rw [hstart]; exact hfit), hstart]
  have hsample := ha.ownSample hm'
  have hsampleU : ownSample u = ownSample w := ownSample_clkMove ..
  have heng : u.eng = w.eng := clkMove_eng ..
  have hpath : EPath 7 u (resolvedState u) := epath_answered (by rw [heng, ha.frame.eng, hm'.pc])
    (by rw [heng, ha.frame.eng, hm'.sampleAt]) (by rw [hu, clkMove_ord, ha.frame.loadPick, hm'.loadPick])
    (by rw [hsampleU, hsample]; exact idle_answered (.inl rfl))
  rw [← hbatch] at hpath
  have hend := goes_batch (n := 6) (by rw [hm.pc]; simp) hms hpath (by simp)
  rw [hbatch] at hend
  have hret : (resolvedState u).eng = answeredEngine s op x y statusGood := by
    have hans := ((hm'.returned ha).answered hs.1 hp).1
    rw [← hans, resolvedState, resolvedState, complete_eq, complete_eq]
    simp only [hsampleU, heng]
  have henv : (resolvedState u).env = u.env := complete_env ..
  refine ⟨onSched [] (resolvedState u), exec_command (n := 18) hi hs.1 (tick_called_quiet hsched) rfl (hgo.trans hend)
    (by rw [onSched_eng, hret]; rfl) (le_budget (by omega) _ _), hret, ?_⟩
  rw [onSched_eng, onSched_env, onSched_cfg, hret, henv]
  have hcfgU : (resolvedState u).cfg = u.cfg := complete_cfg ..
  have hcfg : (resolvedState u).cfg = s.cfg := hcfgU.trans (((clkMove_cfg ..).trans ha.frame.cfg).trans hm'.cfg)
  have hdiff : (u.env.now - s.env.now).toNat = n := by
    rw [BitVec.toNat_sub_of_le (by rw [BitVec.le_def]; omega)]
    omega
  show decide (timeoutTicks (resolvedState u).cfg ≤ (u.env.now - s.env.now).toNat) = true
  rw [hdiff, hcfg]
  exact decide_eq_true hlate

end Sys2Proof.Machine
end

section
/-! SUPPORT. A poll that goes on while nothing moves (R111), and schedules that bring about each result (R172). -/

namespace Sys2Proof.Machine

open Sys2Proof

/-! ### Poll iterations -/

/-- The state after one poll iteration that found no idle channel. -/
def pollAgain (m : State) : State :=
  sampleRead (sampled m)

theorem pollAgain_delivered {v m : State} (h : Delivered v m) : Delivered v (pollAgain m) := by
  have heq : pollAgain m
      = { m with eng := { m.eng with sample := ownSample m, sampleAt := .rdBusy }, ord := ordAfterSample m.ord } :=
    sampleRead_rdNow rfl
  have hvis : ∀ l, visible (pollAgain m) l = visible m l := fun l => by rw [heq]; exact visible_congr rfl rfl rfl l
  refine ⟨?_, ?_, ?_, ?_, ?_, fun f => (hvis _).trans (h.field f), ?_, ?_, ?_, ?_, ?_, fun a ha => ?_, ?_⟩ <;> rw [heq]
  · exact h.cfg
  · exact h.env
  · exact h.window
  · exact h.freeCtr
  · have hm := h.eng
    generalize m.eng.sample = old at hm
    simp only [hm]
  · exact h.pending
  · rfl
  · exact h.loadPick
  · exact h.dbStatus
  · exact h.signals
  · exact h.outside a ha
  · exact h.memory

theorem not_expired_at_once {now : U64} {n : Nat} (hn : 1 ≤ n) : expired now now n = false := by
  simp only [expired, decide_eq_false_iff_not, BitVec.sub_self, BitVec.toNat_zero]
  omega

theorem timeoutTicks_pos {cfg : Config} (h : parametersOk cfg = true) : 1 ≤ timeoutTicks cfg := by
  obtain ⟨-, -, -, -, -, -, -, htick⟩ := (parametersOk_iff cfg).1 h
  exact htick

/-- The deadline test with an empty batch before it, in the tick of the doorbell. -/
theorem goes_pollAgain {v m : State} (hc : parametersOk v.cfg = true) (h : Delivered v m) {bs : List (List EnvMove)}
    (hs : m.env.sched = [] :: bs) : Goes 1 (sampled m) (onSched bs (pollAgain m)) := by
  have hp : (sampled m).eng.pc = .poll := h.pc
  have hgo := goes_one (s := sampled m) (by rw [hp]; simp) (waiting_of_sched hs)
  have hturn : envTurn (sampled m) = onSched bs (sampled m) := envTurn_of_quiet (s := sampled m) hs
  have hexp : expired m.env.now m.eng.t0 (timeoutTicks m.cfg) = false := by
    have ht0 : m.eng.t0 = m.env.now := by rw [h.eng, h.now]
    rw [ht0, h.cfg]
    exact not_expired_at_once (timeoutTicks_pos hc)
  have hstep : engineStep (sampled m) = pollAgain m := by
    have hsame : expired (sampled m).env.now (sampled m).eng.t0 (timeoutTicks (sampled m).cfg) = false := hexp
    have hat : (sampled m).eng.sampleAt = .rdNow := rfl
    simp only [engineStep, hp, stepPoll, hat, hsame]
    rfl
  have htick : tick (sampled m) = onSched bs (pollAgain m) := by rw [tick, hturn, engineStep_onSched, hstep]
  rwa [htick] at hgo

theorem quiet_succ (n : Nat) : quiet (n + 1) = [] :: quiet n := rfl

theorem quiet_add (m n : Nat) : quiet (m + n) = quiet m ++ quiet n := (List.replicate_append_replicate ..).symm

/-- One poll iteration with nothing moving: the engine polls on, and what the coprocessor sees is as it was. -/
theorem goes_pollRound {v m : State} (hc : parametersOk v.cfg = true) (h : Delivered v m) {bs : List (List EnvMove)}
    (hs : m.env.sched = quiet 5 ++ bs) : ∃ m', Goes 5 m m' ∧ Delivered v m' ∧ m'.env.sched = bs ∧ m'.bus = m.bus := by
  have hpath := epath_pollSample_busy h.pc h.sampleAt h.loadPick (not_idle_of_busy h.ownSample_busy)
  have hgo := hpath.goes (fun b hb => quiet_empty (n := 5) (by omega) (hs ▸ hb))
  have hdrop : m.env.sched.drop 4 = [] :: bs := by rw [hs]; rfl
  rw [hdrop] at hgo
  have hlast := goes_pollAgain hc (h.rescheduled ([] :: bs)) (bs := bs) rfl
  refine ⟨_, hgo.trans hlast, (pollAgain_delivered (h.rescheduled ([] :: bs))).rescheduled bs, rfl, ?_⟩
  rw [onSched_bus, pollAgain, sampleRead_bus]
  rfl

theorem goes_pollRounds {v m : State} (hc : parametersOk v.cfg = true) (h : Delivered v m) (n : Nat)
    (hs : m.env.sched = quiet (5 * n)) : ∃ m', Goes (5 * n) m m' ∧ Delivered v m' ∧ m'.env.sched = [] ∧ m'.bus = m.bus := by
  induction n generalizing m with
  | zero => exact ⟨m, .refl m, h, hs, rfl⟩
  | succ n ih =>
    rw [Nat.mul_succ, Nat.add_comm, quiet_add] at hs
    obtain ⟨m1, hgo1, hm1, hs1, hb1⟩ := goes_pollRound hc h hs
    obtain ⟨m2, hgo2, hm2, hs2, hb2⟩ := ih hm1 hs1
    rw [Nat.mul_succ, Nat.add_comm]
    exact ⟨m2, hgo1.trans hgo2, hm2, hs2, hb2.trans hb1⟩

/-- Settles O46: each poll iteration leads back to the state after the doorbell but for the sample and the hidden state. -/
theorem pollWaitsForTheResponder : Obligations.PollWaitsForTheResponder := by
  intro i op x y s n hi hs hrec hsched t
  have hp := hs.2.1.1
  have hc := hs.1.1
  have hcall := called_atCall (x := x) (y := y) hs hrec
  rw [quiet_add] at hsched
  obtain ⟨m, hgo, hm, hms⟩ := hcall.goes_delivered hsched
  obtain ⟨w, hpoll, hw, hws, hwb⟩ := goes_pollRounds (v := called op x y s) hc hm n hms
  have hall := hgo.trans hpoll
  have hfirst : tick (called op x y s) = stepV (latch op x y (envTurn s)) := tick_called_quiet hsched
  have ht : t = w := by
    rw [← hall.ticks, show 12 + 5 * n = (11 + 5 * n) + 1 by omega]
    exact congrArg (ticks (11 + 5 * n)) hfirst.symm
  clear_value t
  subst ht
  have hres : t.eng.res = s.eng.res ∧ t.eng.diag = s.eng.diag ∧ t.eng.nextId = s.eng.nextId + 1#32 ∧ t.eng.t0 = s.env.now := by
    refine ⟨?_, ?_, ?_, ?_⟩ <;> rw [hw.eng] <;> rfl
  obtain ⟨hr, hd, hid, ht0⟩ := hres
  have hcfg : t.cfg = s.cfg := hw.cfg
  refine ⟨hw.pc, hw.sampleAt, hr, hd, hid, ht0, hw.now, headerWritten_of_message hp (fun f _ => hw.field f), hw.busy, hw.signals,
    hw.pending, fun j hj => exec_offeredWhileBusy (by rw [hcfg]; exact hc) (by rw [hw.pc]; simp) hj, fun hfit => ?_⟩
  have hsample := hw.unansweredSample hp
  have hnow : t.env.now = s.env.now := hw.now
  obtain ⟨u, hend, hu⟩ := hw.timesOut hs.1 rfl rfl hws hw.pending hw.loadPick (by rw [hnow]) (by rw [hnow]; omega) hfit
    (by rw [hsample]) (by rw [hsample]; exact not_idle_of_busy rfl)
  have htotal : Goes (16 + 5 * n + 1) (called op x y s) u := by
    have h := hall.trans hend
    rwa [show 12 + 5 * n + 5 = 16 + 5 * n + 1 by omega] at h
  have hbudget : 16 + 5 * n ≤ budget 0#32 s := by
    simp only [budget, hsched, quiet, List.length_append, List.length_replicate]
    omega
  exact ⟨u, exec_command hi hs.1 hfirst rfl htotal hu.stuck.ready.2.1 hbudget, by rw [hu.eng, hsample], hu.bus, hu.now⟩

/-! ### Every result -/

theorem envMoves_safe {s : State} (hs : SafeState s) (ms : List EnvMove) : SafeState (envMoves ms s) :=
  envMoves_induction (fun _ _ => envMove_safe) ms hs

/-- Outside the write phase no field that a sample reads is pending. -/
theorem ownSample_of_safe {s : State} (hs : SafeState s) (hp : inWritePhase s.eng.pc = false) : ownSample s = visibleSample s := by
  have hown : ∀ f, isPayload f = false → ownView s (.field f) = visible s (.field f) := by
    refine fun f hf => ownView_of_not_pending fun e he hfe => ?_
    obtain rfl : f = e.field := by simpa using hfe
    have hhead := hs.pendingHeader hp e he
    obtain ⟨howned, -⟩ := hs.pendingOwned e he
    cases hfield : e.field <;> simp [hfield, requestHeader, requesterOwned, isPayload] at hhead howned hf
  simp only [ownSample, visibleSample, hown _ (rfl : isPayload .execId = false), hown _ (rfl : isPayload .requestId = false),
    hown _ (rfl : isPayload .status = false), ownView_dbStatus]

/-- A command whose turn makes the moves `batch`, along a known way from `V` with an empty batch in its place. -/
theorem exec_after_batch {i : Instr} {op : Byte} {x y : U32} {s t : State} {batch : List EnvMove} {rest : List (List EnvMove)}
    {n : Nat} (hi : commandOf i = some (op, x, y)) (hs : Ready s)
    (h : Goes (n + 1) (called op x y (onSched ([] :: rest) (envMoves batch (onSched rest s)))) t) (ht : t.eng.pc = .rest)
    (hn : n ≤ 64) : exec i (onSched (batch :: rest) s) = .next t := by
  set u := envMoves batch (onSched rest s) with hu
  have hsched : onSched rest u = u := by
    have hrest : rest = u.env.sched := by simp [hu]
    rw [hrest, onSched_self]
  have hfirst : tick (called op x y (onSched ([] :: rest) u)) = stepV (latch op x y (envTurn (onSched (batch :: rest) s))) := by
    have hturn : envTurn (called op x y (onSched ([] :: rest) u)) = called op x y (onSched rest u) := envTurn_of_quiet rfl
    rw [tick_called (u := onSched rest u) hturn, hsched]
    rfl
  exact exec_command hi hs hfirst rfl h ht (le_budget hn _ _)

/-- A turn after which the engine sees an idle channel: the visible command is answered, and no load satisfied early. -/
def idleBatch (s : State) : List EnvMove :=
  answer (visible s (.field .requestId)) [] statusGood ++ [.early 0]

/-- A turn after which the engine sees a channel that is not idle: the status is none of the two. -/
def busyBatch : List EnvMove :=
  [.scp (.writeStatus 0#8), .early 0]

theorem idleBatch_atCall {op : Byte} {x y : U32} {s : State} (hs : SafeState s) (hr : Ready s)
    (hrec : recognised s.cfg.gen op = true) (rest : List (List EnvMove)) :
    AtCall (called op x y (onSched ([] :: rest) (envMoves (idleBatch s) (onSched rest s))))
      ∧ (envMoves (idleBatch s) (onSched rest s)).env.now = s.env.now := by
  obtain ⟨hc, hrest, hk⟩ := hr
  have ha := envMoves_answer (s := onSched rest s) hc hs.memory (visible s (.field .requestId)) [] statusGood
  have hsafe := envMoves_safe (safe_onSched hs rest) (answer (visible s (.field .requestId)) [] statusGood)
  set w := envMoves (answer (visible s (.field .requestId)) [] statusGood) (onSched rest s) with hw
  have hu : envMoves (idleBatch s) (onSched rest s) = { w with ord := { w.ord with loadPick := 0 } } := by
    rw [idleBatch, envMoves_append]; rfl
  have hpc : w.eng.pc = .rest := by rw [ha.frame.eng]; exact hrest
  have hsafe' : SafeState (envMoves (idleBatch s) (onSched rest s)) := envMoves_safe (safe_onSched hs rest) _
  refine ⟨⟨by simpa [called] using hc, latch_at_v_safe (safe_onSched hsafe' _) (by simpa using hrest) op x y, rfl,
    by simpa [called] using hrec, by rw [hu]; rfl, ?_⟩, by rw [hu, ha.frame.env]; rfl⟩
  have hsample : ownSample (called op x y (onSched ([] :: rest) (envMoves (idleBatch s) (onSched rest s)))) = ownSample w := by
    rw [hu]
    rfl
  rw [hsample, ownSample_of_safe hsafe (by rw [hpc]; rfl), ha.sample]
  exact idle_answered (.inl rfl)

/-- An answered command from any ready state: `'G'` is `OK`, `'E'` is `Fault`. -/
theorem reaches_answered {op : Byte} {x y : U32} {s : State} (hs : SafeState s) (hr : Ready s)
    (hrec : recognised s.cfg.gen op = true) {final : Byte} (hf : final = statusGood ∨ final = statusExecuting) :
    ∃ sched t, exec (.scpCmd op x y) (onSched sched s) = .next t ∧ t.eng.pc = .rest
      ∧ t.eng.res = if final = statusGood then codeOk else codeFault := by
  set rest := quiet 11 ++ [answer s.eng.nextId [] final] with hrest
  obtain ⟨hcall, -⟩ := idleBatch_atCall (x := x) (y := y) hs hr hrec rest
  obtain ⟨t, hgo, hret, -⟩ := hcall.goes_returned (data := []) hf (bs := []) (by simp [called, rest, quiet_succ]) (by simp)
  have hkind : (called op x y (onSched ([] :: rest) (envMoves (idleBatch s) (onSched rest s)))).eng.cKind = .none := by
    simpa [called] using hr.2.2
  have hpc : t.eng.pc = .rest := by rw [hret.eng, returnedEngine, hkind]; rfl
  exact ⟨_, t, exec_after_batch (n := 18) rfl hr hgo hpc (by omega), hpc, by rw [hret.eng]; rfl⟩

theorem reaches_timeout {op : Byte} {x y : U32} {s : State} (hs : SafeState s) (hr : Ready s)
    (hrec : recognised s.cfg.gen op = true) (hfit : s.env.now.toNat + timeoutTicks s.cfg < 2 ^ 64) :
    ∃ sched t, exec (.scpCmd op x y) (onSched sched s) = .next t ∧ t.eng.pc = .rest ∧ t.eng.res = codeTimeout := by
  set rest := quiet 11 ++ [[.clk (timeoutTicks s.cfg)]] with hrest
  obtain ⟨hcall, hnow⟩ := idleBatch_atCall (x := x) (y := y) hs hr hrec rest
  set u := onSched ([] :: rest) (envMoves (idleBatch s) (onSched rest s)) with hu
  obtain ⟨m, hgo, hm, hms⟩ := hcall.goes_delivered (bs := [[.clk (timeoutTicks s.cfg)]]) (by simp [hu, called, rest, quiet_succ])
  have hcfg : u.cfg = s.cfg := by simp [hu]
  have hready : Ready u := ⟨by rw [hcfg]; exact hr.1, by simpa [hu] using hr.2.1, by simpa [hu] using hr.2.2⟩
  have hnowU : u.env.now = s.env.now := hnow
  obtain ⟨t, hend, ht⟩ := hm.hangs hready (by rw [hcfg]; exact hms) (by rw [hcfg, hnowU]; exact hfit)
  exact ⟨_, t, exec_after_batch (n := 16) rfl hr (hgo.trans hend) ht.stuck.ready.2.1 (by omega), ht.stuck.ready.2.1,
    by rw [ht.eng]; rfl⟩

theorem reaches_busy {op : Byte} {x y : U32} {s : State} (hs : SafeState s) (hr : Ready s)
    (hrec : recognised s.cfg.gen op = true) :
    ∃ sched t, exec (.scpCmd op x y) (onSched sched s) = .next t ∧ t.eng.pc = .rest ∧ t.eng.res = codeChannelBusy := by
  obtain ⟨hc, hrest, hk⟩ := hr
  set w := scpMove (.writeStatus 0#8) (onSched [] s) with hw
  have hst : visible w (.field .status) = zextByte 0#8 := by
    rw [hw, visible_writeStatus (s := onSched [] s) hc hs.memory, if_pos rfl]
  have hsafe : SafeState w := envMove_safe (m := .scp (.writeStatus 0#8)) (safe_onSched hs [])
  set u := onSched [[]] (envMoves busyBatch (onSched [] s)) with hu
  have hbusy : idle (ownSample (called op x y u)) = false := by
    have hsample : ownSample (called op x y u) = ownSample w := rfl
    rw [hsample, ownSample_of_safe hsafe (by rw [scpMove_eng]; exact hrest ▸ rfl), visibleSample, hst]
    simp [idle, statusGood, statusExecuting]
  have hpath : EPath 5 (called op x y u) (raiseChannelBusy (sampled (called op x y u))) :=
    epath_check_busy rfl (by simpa [hu, called] using hrec) rfl hbusy
  have hgo := hpath.goes (fun b hb => by simpa [hu, called] using hb)
  have hend := complete_error (code := codeChannelBusy) (by decide) (sampled (called op x y u)).eng.sample.req
    (sampled (called op x y u)).eng.sample.exec (sampled (called op x y u)).eng.sample.st true (sampled (called op x y u))
  exact ⟨_, _, exec_after_batch (batch := busyBatch) (rest := []) (n := 4) rfl ⟨hc, hrest, hk⟩ hgo hend.1 (by omega), hend.1,
    by rw [onSched_eng, raiseChannelBusy, complete_eq]⟩

/-- Settles O50: the answers `'G'` and `'E'`, a second of silence, and a status that is not idle. -/
theorem everyResultIsReachable : Obligations.EveryResultIsReachable := by
  intro op x y s code hs hr hrec hfit hcode
  simp only [List.mem_cons, List.not_mem_nil, or_false] at hcode
  obtain rfl | rfl | rfl | rfl := hcode
  · exact reaches_answered hs hr hrec (.inl rfl)
  · exact reaches_busy hs hr hrec
  · exact reaches_timeout hs hr hrec hfit
  · exact reaches_answered hs hr hrec (.inr rfl)

end Sys2Proof.Machine
end

section
/-! SUPPORT. The reference responder (R176): the flash it writes, and its moves beside the monitor of R173. -/

namespace Sys2Proof.Machine

open Sys2Proof

/-! ### The flash -/

theorem Memory.writeList_twice {m : Memory} (hm : Memory.wf m = true) (a : Nat) (vs : List Byte) :
    Memory.writeList (Memory.writeList m a vs) a vs = Memory.writeList m a vs := by
  have hw := Memory.wf_writeList (vs := vs) (a := a) hm
  refine memoryFormIsCanonical _ _ (Memory.wf_writeList hw) hw fun x => ?_
  by_cases hx : x < a ∨ a + vs.length ≤ x
  · rw [Memory.read_writeList_outside _ _ _ _ hx]
  · obtain ⟨i, rfl⟩ := Nat.exists_eq_add_of_le (show a ≤ x by omega)
    have hi : i < vs.length := by omega
    rw [Memory.read_writeList_inside hw a i hi, Memory.read_writeList_inside hm a i hi]

theorem refFlash_write {r : RefScp} {j : RefJob} (hop : j.op = 0x57#8) (hperf : j.entry.script = .perform) (payload : List Byte) :
    refFlash r j payload
      = Memory.writeList r.flash j.arg0.toNat (payload.take (flashCount r.flashSize j.arg0 j.arg1)) := by
  simp [refFlash, hperf, hop]

/-- Settles O60: the second write writes the bytes that are there, and neither reaches `FLASH_SIZE`. -/
theorem flashWriteIsContentIdempotent : Obligations.FlashWriteIsContentIdempotent := by
  intro r j payload hm hop hperf once stored
  have honce : once.flash = Memory.writeList r.flash j.arg0.toNat stored := refFlash_write hop hperf payload
  refine ⟨?_, fun k hk => ?_, fun a ha => ?_⟩
  · rw [refFlash_write hop hperf, honce]
    exact Memory.writeList_twice hm _ _
  · rw [honce]
    exact Memory.read_writeList_inside hm _ k hk
  · rw [honce, Memory.read_writeList_outside]
    have hlen : stored.length ≤ r.flashSize - j.arg0.toNat := by
      simp only [stored, List.length_take, flashCount]
      omega
    omega

/-! ### The monitor along the responder's moves -/

theorem conform_scpMove (m : ScpMove) (s : State) :
    (scpMove m s).env.conform = (s.env.conform && scpAllowed m s.env.scpPhase) := rfl

theorem scpPhase_scpMove (m : ScpMove) (s : State) : (scpMove m s).env.scpPhase = scpNextPhase m s := rfl

/-- What the doorbell's moves of the reference responder leave (R173 clauses 1 and 2, R176). -/
theorem refStart_effect {s : State} (hc : parametersOk s.cfg = true) (hm : Memory.wf s.bus.mem = true)
    (hq : s.env.scpPhase = .quiet) (hsig : 1 ≤ s.bus.signals) :
    let id := visible s (.field .requestId)
    let t := envMoves (refStart id) s
    t.env.conform = s.env.conform
      ∧ t.env.scpPhase = .started id true true
          (responseOwed s.cfg.payloadCap (lowByte (visible s (.field .op))) (visible s (.field .arg1)))
      ∧ t.bus.signals + 1 = s.bus.signals
      ∧ visible t (.field .execId) = id ∧ visible t (.field .status) = zextByte statusExecuting
      ∧ t.bus.dbStatus = s.bus.dbStatus := by
  intro id t
  set s1 := scpMove .observe s with h1
  set s2 := scpMove (.writeExec id) s1 with h2
  have ht : t = scpMove (.writeStatus statusExecuting) s2 := rfl
  have f1 := scpFrame_observe s
  have c1 : parametersOk s1.cfg = true := by rw [f1.cfg]; exact hc
  have m1 := f1.memory hm
  have f2 := scpFrame_writeExec c1 id
  have c2 : parametersOk s2.cfg = true := by rw [f2.cfg]; exact c1
  have m2 := f2.memory m1
  have p1 : s1.env.scpPhase = scpStart s := by
    rw [h1, scpPhase_scpMove]
    simp [scpNextPhase, hq, show s.bus.signals ≠ 0 by omega]
  have p2 : s2.env.scpPhase = .started id true false
      (responseOwed s.cfg.payloadCap (lowByte (visible s (.field .op))) (visible s (.field .arg1))) := by
    rw [h2, scpPhase_scpMove]
    simp [scpNextPhase, p1, scpStart, id]
  refine ⟨?_, ?_, ?_, ?_, ?_, ?_⟩
  · rw [ht, conform_scpMove, p2, h2, conform_scpMove, p1, h1, conform_scpMove, hq]
    simp [scpAllowed, scpStart, id]
  · rw [ht, scpPhase_scpMove]
    simp [scpNextPhase, p2]
  · show s.bus.signals - 1 + 1 = s.bus.signals
    omega
  · rw [ht, visible_writeStatus c2 m2, if_neg (by simp), h2, visible_writeExec c1 m1, if_pos rfl]
  · rw [ht, visible_writeStatus c2 m2, if_pos rfl]
  · rfl

/-- The response is written in the phase after the in-progress status, and pays what is owed of it (R173 clause 3). -/
theorem payloadWrites_monitor (data : List Byte) (i : Nat) {s : State} {id : U32} {owed : List Nat}
    (hp : s.env.scpPhase = .started id true true owed) :
    let t := envMoves (payloadWrites i data) s
    t.env.conform = s.env.conform
      ∧ t.env.scpPhase = .started id true true (owed.filter (fun k => ¬ (i ≤ k ∧ k < i + data.length))) := by
  induction data generalizing i s owed with
  | nil =>
    refine ⟨rfl, ?_⟩
    have hall : owed.filter (fun k => ¬ (i ≤ k ∧ k < i + ([] : List Byte).length)) = owed :=
      List.filter_eq_self.2 fun k _ => by simp
    rw [hall]
    exact hp
  | cons v data ih =>
    have hnext : (scpMove (.writePayload i v) s).env.scpPhase = .started id true true (owed.filter (· ≠ i)) := by
      rw [scpPhase_scpMove]
      simp [scpNextPhase, hp]
    obtain ⟨hconf, hphase⟩ := ih (i + 1) hnext
    refine ⟨hconf.trans ?_, hphase.trans ?_⟩
    · rw [conform_scpMove, hp]
      simp [scpAllowed]
    · rw [List.filter_filter]
      congr 1
      refine List.filter_congr fun k _ => ?_
      simp only [List.length_cons, ← Bool.decide_and, decide_eq_decide]
      omega

theorem length_flashBytes (r : RefScp) (a n : Nat) : (flashBytes r a n).length = n := by
  induction n generalizing a with
  | zero => rfl
  | succ n ih => simp [flashBytes, ih]

theorem getElem?_flashBytes (r : RefScp) (a n k : Nat) :
    (flashBytes r a n)[k]? = if k < n then some (flashByte r (a + k)) else none := by
  induction n generalizing a k with
  | zero => simp [flashBytes]
  | succ n ih =>
    cases k with
    | zero => simp [flashBytes]
    | succ k => simp [flashBytes, ih, Nat.add_assoc, Nat.add_comm 1 k]

/-- What the end of a command leaves that the reference responder performs or fails, with the response `data` written. -/
theorem refEnd_effect {u : State} (hc : parametersOk u.cfg = true) (hm : Memory.wf u.bus.mem = true) {id : U32} {owed : List Nat}
    (hp : u.env.scpPhase = .started id true true owed) (data : List Byte) (hpaid : ∀ k ∈ owed, k < data.length) :
    let v := envMoves (payloadWrites 0 data ++ [.scp (.writeStatus statusGood), .scp .clearBusy]) u
    v.env.conform = u.env.conform ∧ v.env.scpPhase = .quiet ∧ v.bus.signals = u.bus.signals
      ∧ visible v (.field .execId) = visible u (.field .execId) ∧ visible v (.field .status) = zextByte statusGood
      ∧ busyBit v.bus.dbStatus = false
      ∧ ∀ k, k < u.cfg.payloadCap → visible v (.field (.payload k)) = answeredByte data k (visible u (.field (.payload k))) := by
  intro v
  obtain ⟨hframe, hdb, hsig, hother, hpay⟩ := envMoves_payloadWrites data 0 hc hm
  obtain ⟨hconf, hphase⟩ := payloadWrites_monitor data 0 hp
  set w := envMoves (payloadWrites 0 data) u with hw
  have hv : v = scpMove .clearBusy (scpMove (.writeStatus statusGood) w) := by
    simp only [v, envMoves_append]
    rfl
  have cw : parametersOk w.cfg = true := by rw [hframe.cfg]; exact hc
  have mw := hframe.memory hm
  have hnone : owed.filter (fun k => ¬ (0 ≤ k ∧ k < 0 + data.length)) = [] :=
    List.filter_eq_nil_iff.2 fun k hk => by simpa using hpaid k hk
  rw [hnone] at hphase
  have hfinal : (scpMove (.writeStatus statusGood) w).env.scpPhase = .final := by
    rw [scpPhase_scpMove]
    simp [scpNextPhase, hphase]
  have hvis : ∀ f, visible v (.field f) = if f = .status then zextByte statusGood else visible w (.field f) := fun f => by
    rw [hv]
    exact (visible_field_congr rfl rfl f).trans (visible_writeStatus cw mw statusGood f)
  refine ⟨?_, ?_, ?_, ?_, ?_, ?_, fun k hk => ?_⟩
  · rw [hv, conform_scpMove, hfinal, conform_scpMove, hphase, hconf]
    simp [scpAllowed]
  · rw [hv, scpPhase_scpMove]
    simp [scpNextPhase]
  · rw [hv]; exact hsig
  · rw [hvis, if_neg (by simp), hother _ rfl]
  · rw [hvis, if_pos rfl]
  · rw [hv]; exact busyBit_clear _
  · rw [hvis, if_neg (by simp), hpay k hk, payloadAfter, if_neg (Nat.not_lt_zero k), Nat.sub_zero]

/-- The whole response of a performed command is paid: `'R'` writes what it owes, nothing else owes anything (R176, U3). -/
theorem owed_paid (cap : Nat) (op : Byte) (x : U32) (data : List Byte)
    (h : op = 0x52#8 → data.length = min x.toNat cap) : ∀ k ∈ responseOwed cap op x, k < data.length := by
  intro k hk
  unfold responseOwed at hk
  split at hk
  · rename_i hop
    rw [h hop.1]
    have hlt := List.mem_range.1 hk
    omega
  · simp at hk

/-- Settles O59: the moves at the doorbell and at the end go through the phases of the monitor. -/
theorem refScpConforms : Obligations.RefScpConforms := by
  intro r s u hc hm hq hsig hjob j owed r1 t
  have hsig0 : s.bus.signals ≠ 0 := by omega
  have hstart : refTurn r s = ({ r with script := r.script.tail, job := some j }, refStart (visible s (.field .requestId))) := by
    simp [refTurn, hjob, hsig0, j]
  have hr1 : r1 = { r with script := r.script.tail, job := some j } := by simp only [r1, hstart]
  have ht : t = envMoves (refStart (visible s (.field .requestId))) s := by simp only [t, hstart]
  obtain ⟨hconf, hphase, hsignals, hx, hst, hdb⟩ := refStart_effect hc hm hq hsig
  rw [← ht] at hconf hphase hsignals hx hst hdb
  refine ⟨hr1, rfl, hconf, hphase, hsignals, hx, hst, by rw [hdb], fun hwait => ?_, fun hcu hmu hpu hdue hrun => ?_⟩
  · have hcond : j.entry.script = .hang ∨ u.env.now.toNat < j.due := hwait.symm
    rw [hr1]
    simp [refTurn, hcond]
  · intro r2 v
    have hcond : ¬ (j.entry.script = .hang ∨ u.env.now.toNat < j.due) := by
      rintro (h | h)
      · exact hrun h
      · omega
    have hturn : refTurn r1 u = ({ r1 with flash := refFlash r1 j (jobPayload u j), job := none },
        refFinish u.cfg.payloadCap r1 j) := by
      rw [hr1]
      simp [refTurn, hcond]
    have hv : v = envMoves (refFinish u.cfg.payloadCap r1 j) u := by simp only [v, hturn]
    have hflash : r2.flash = refFlash r j (jobPayload u j) := by
      simp only [r2, hturn]
      rw [hr1]
      rfl
    refine ⟨by simp only [r2, hturn], hflash, ?_⟩
    cases hscript : j.entry.script with
    | hang => exact absurd hscript hrun
    | fail =>
      have hfail : v = scpMove .clearBusy u := by
        rw [hv, refFinish, hscript]
        rfl
      have hvis : ∀ f, visible v (.field f) = visible u (.field f) := fun f => by rw [hfail]; exact visible_field_congr rfl rfl f
      refine ⟨?_, ?_, by rw [hfail]; rfl, hvis _, by simp [hvis], by rw [hfail]; exact busyBit_clear _, fun k _ => by simp [hvis]⟩
      · rw [hfail, conform_scpMove, hpu]
        simp [scpAllowed]
      · rw [hfail, scpPhase_scpMove]
        simp [scpNextPhase]
    | perform =>
      set data := if j.op = 0x52#8 then flashBytes r1 j.arg0.toNat (min j.arg1.toNat u.cfg.payloadCap) else [] with hdata
      have hmoves : refFinish u.cfg.payloadCap r1 j
          = payloadWrites 0 data ++ [.scp (.writeStatus statusGood), .scp .clearBusy] := by
        rw [refFinish, hscript, hdata]
        by_cases hop : j.op = 0x52#8 <;> simp [hop, payloadWrites]
      have hpaid := owed_paid u.cfg.payloadCap j.op j.arg1 data (fun hop => by simp [hdata, hop, length_flashBytes])
      obtain ⟨hconf2, hphase2, hsig2, hx2, hst2, hbusy2, hpay2⟩ := refEnd_effect hcu hmu hpu data hpaid
      rw [← hmoves, ← hv] at hconf2 hphase2 hsig2 hx2 hst2 hbusy2 hpay2
      refine ⟨hconf2, hphase2, hsig2, hx2, by rw [hst2, if_pos rfl], hbusy2, fun k hk => ?_⟩
      rw [hpay2 k hk, hdata]
      by_cases hop : j.op = 0x52#8
      · have hbyte : flashByte r1 (j.arg0.toNat + k) = flashByte r (j.arg0.toNat + k) := by rw [hr1]; rfl
        by_cases hlt : k < j.arg1.toNat
        · simp [hop, answeredByte, getElem?_flashBytes, hlt, hk, hbyte]
        · simp [hop, answeredByte, getElem?_flashBytes, hlt]
      · simp [hop, answeredByte]

end Sys2Proof.Machine
end

section
/-! SUPPORT. The steps of the chunk loop as paths of the engine (R151): to the command of a chunk, the copies, the advance. -/

namespace Sys2Proof.Machine

open Sys2Proof

/-! ### To the command of a chunk -/

/-- The engine with the next chunk chosen and its first copy index (R151). -/
def chosen (p : Pc) (s : State) : State :=
  { s with eng := { s.eng with cChunk := chunkOf s.cfg s.eng.cSize, cIdx := 0#32, pc := p } }

/-- The engine at `V` with the command of the chunk (R151). -/
def chunkCalled (s : State) : State :=
  called (chunkOpcode s.eng.cKind) s.eng.cAddr s.eng.cChunk s

theorem epath_choose {s : State} (hp : s.eng.pc = .fTest) (hs : s.eng.cSize ≠ 0#32) :
    EPath 2 s (chosen (if s.eng.cKind = .write then .fCopyIn else .fCmd) s) := by
  have h0 : EPath 1 s (goto .fChunk s) := by
    have hone := epath_one (s := s) (by simp [hp]) (by simp [hp])
    simpa only [engineStep, hp, stepFTest, hs, if_false] using hone
  exact h0.trans (epath_one (s := goto .fChunk s) (by simp) (by simp))

theorem epath_call {s : State} (hp : s.eng.pc = .fCmd) : EPath 1 s (chunkCalled s) := by
  have hone := epath_one (s := s) (by simp [hp]) (by simp [hp])
  simp only [engineStep, hp] at hone
  exact hone

/-- To the command of a chunk that copies nothing in. -/
theorem epath_toCall {s : State} (hp : s.eng.pc = .fTest) (hs : s.eng.cSize ≠ 0#32) (hk : s.eng.cKind ≠ .write) :
    EPath 3 s (chunkCalled (chosen .fCmd s)) := by
  have h := epath_choose hp hs
  rw [if_neg hk] at h
  exact h.trans (epath_call rfl)

/-! ### The copy-in -/

/-- A field that holds no byte of the first `n` payload positions. -/
def outsideChunk (n : Nat) (f : Field) : Prop :=
  ∀ j, j < n → f ≠ .payload j

/-- What the copy-in of a chunk leaves from the state `s` with some of it still to copy (R151, R154): the engine's own side sees
the bytes, and nothing shared has moved. -/
structure CopiedIn (s t : State) : Prop where
  cfg : t.cfg = s.cfg
  env : t.env = s.env
  bus : t.bus = s.bus
  freeCtr : t.freeCtr = s.freeCtr
  eng : t.eng = { s.eng with cIdx := 0#32, pc := .fCmd }
  loadPick : t.ord.loadPick = s.ord.loadPick
  copied : ∀ j, s.eng.cIdx.toNat ≤ j → j < s.eng.cChunk.toNat → ownView t (.field (.payload j))
    = zextByte (Memory.read s.bus.mem (s.eng.cBuf.toNat + s.eng.cCur.toNat + j))
  kept : ∀ f, (∀ j, s.eng.cIdx.toNat ≤ j → j < s.eng.cChunk.toNat → f ≠ .payload j) →
    ownView t (.field f) = ownView s (.field f)

theorem ownView_copyNext (p : Pc) (s : State) (l : Loc) : ownView (copyNext p s) l = ownView s l :=
  ownView_congr (by simp) (visible_congr (by simp) (by simp) (by simp) l)

/-- One byte copied in. -/
theorem stepFCopyIn_own (s : State) (f : Field) :
    ownView (stepFCopyIn s) (.field f) = if f = .payload s.eng.cIdx.toNat then zextByte (readOwn s (bufferAddr s))
      else ownView s (.field f) := by
  rw [stepFCopyIn, ownView_copyNext]
  split
  · subst f; exact ownView_storeField_same _ _ s
  · exact ownView_storeField_other (by simpa using ‹_›) _ s

theorem succ_index {i c : U32} (h : i.toNat + 1 < c.toNat) : (i + 1#32).toNat = i.toNat + 1 := by
  have := c.isLt
  simp only [BitVec.toNat_add, BitVec.toNat_ofNat]
  omega

theorem stepFCopyIn_frame (s : State) :
    (stepFCopyIn s).cfg = s.cfg ∧ (stepFCopyIn s).env = s.env ∧ (stepFCopyIn s).bus = s.bus
      ∧ (stepFCopyIn s).freeCtr = s.freeCtr ∧ (stepFCopyIn s).ord.loadPick = s.ord.loadPick := by
  refine ⟨?_, ?_, ?_, ?_, ?_⟩ <;> simp [stepFCopyIn]

/-- The copy-in of the `n + 1` bytes that are left of a chunk. -/
theorem epath_copyIn (n : Nat) {s : State} (hp : s.eng.pc = .fCopyIn) (hn : s.eng.cChunk.toNat = s.eng.cIdx.toNat + n + 1) :
    ∃ t, EPath (n + 1) s t ∧ CopiedIn s t := by
  have hfirst : EPath 1 s (stepFCopyIn s) := by
    have hone := epath_one (s := s) (by simp [hp]) (by simp [hp])
    simpa only [engineStep, hp] using hone
  obtain ⟨hcfg, henv, hbus, hfree, hpick⟩ := stepFCopyIn_frame s
  have hown := stepFCopyIn_own s
  induction n generalizing s with
  | zero =>
    have heng : (stepFCopyIn s).eng = { s.eng with cIdx := 0#32, pc := .fCmd } := by
      have hlast : ¬ s.eng.cIdx.toNat + 1 < s.eng.cChunk.toNat := by omega
      simp [stepFCopyIn, copyNext, hlast]
    refine ⟨stepFCopyIn s, hfirst, hcfg, henv, hbus, hfree, heng, hpick, fun j hj hlt => ?_, fun f hf => ?_⟩
    · obtain rfl : j = s.eng.cIdx.toNat := by omega
      rw [hown, if_pos rfl]
      rfl
    · rw [hown, if_neg (hf _ le_rfl (by omega))]
  | succ n ih =>
    have hmore : s.eng.cIdx.toNat + 1 < s.eng.cChunk.toNat := by omega
    have heng : (stepFCopyIn s).eng = { s.eng with cIdx := s.eng.cIdx + 1#32 } := by
      simp [stepFCopyIn, copyNext, hmore]
    have hidx : (stepFCopyIn s).eng.cIdx.toNat = s.eng.cIdx.toNat + 1 := by rw [heng]; exact succ_index hmore
    have hchunk : (stepFCopyIn s).eng.cChunk = s.eng.cChunk := by rw [heng]
    have hbuf : (stepFCopyIn s).eng.cBuf = s.eng.cBuf ∧ (stepFCopyIn s).eng.cCur = s.eng.cCur := by rw [heng]; exact ⟨rfl, rfl⟩
    have hnext : (stepFCopyIn s).eng.pc = .fCopyIn := by rw [heng]; exact hp
    have hone : EPath 1 (stepFCopyIn s) (stepFCopyIn (stepFCopyIn s)) := by
      have hone := epath_one (s := stepFCopyIn s) (by simp [hnext]) (by simp [hnext])
      simpa only [engineStep, hnext] using hone
    obtain ⟨hc', he', hb', hf', hl'⟩ := stepFCopyIn_frame (stepFCopyIn s)
    obtain ⟨t, hpath, ht⟩ := ih hnext (by rw [hchunk, hidx]; omega) hone hc' he' hb' hf' hl' (stepFCopyIn_own _)
    refine ⟨t, by rw [Nat.add_comm]; exact hfirst.trans hpath, ht.cfg.trans hcfg, ht.env.trans henv, ht.bus.trans hbus,
      ht.freeCtr.trans hfree, by rw [ht.eng, heng], ht.loadPick.trans hpick, fun j hj hlt => ?_, fun f hf => ?_⟩
    · rcases Nat.eq_or_lt_of_le hj with rfl | hgt
      · rw [ht.kept _ (fun j hj _ he => by simp only [Field.payload.injEq] at he; omega), hown, if_pos rfl]
        rfl
      · rw [ht.copied j (by omega) (by rw [hchunk]; exact hlt), hbus, hbuf.1, hbuf.2]
    · rw [ht.kept f (fun j hj hlt => hf j (by omega) (by rw [hchunk] at hlt; exact hlt)), hown, if_neg (hf _ le_rfl (by omega))]

/-! ### The copy-out -/

/-- What the copy-out of a chunk leaves from the settled state `s` with some of it still to copy (R151, R153): the bytes of the
payload in the buffer, and every other byte of memory as it was. -/
structure CopiedOut (s t : State) : Prop where
  cfg : t.cfg = s.cfg
  env : t.env = s.env
  freeCtr : t.freeCtr = s.freeCtr
  window : t.window = s.window
  eng : t.eng = { s.eng with cIdx := 0#32, pc := .fAdv }
  bus : t.bus = { s.bus with mem := t.bus.mem }
  settled : Settled t
  field : ∀ f, fieldExists s.cfg f → visible t (.field f) = visible s (.field f)
  copied : ∀ j, s.eng.cIdx.toNat ≤ j → j < s.eng.cChunk.toNat →
    Memory.read t.bus.mem (s.eng.cBuf.toNat + s.eng.cCur.toNat + j) = lowByte (visible s (.field (.payload j)))
  kept : ∀ a, (∀ j, s.eng.cIdx.toNat ≤ j → j < s.eng.cChunk.toNat → a ≠ s.eng.cBuf.toNat + s.eng.cCur.toNat + j) →
    Memory.read t.bus.mem a = Memory.read s.bus.mem a

/-- What one step of the copy-out leaves. -/
structure CopiedByte (s t : State) : Prop where
  cfg : t.cfg = s.cfg
  env : t.env = s.env
  freeCtr : t.freeCtr = s.freeCtr
  window : t.window = s.window
  bus : t.bus = { s.bus with mem := Memory.write s.bus.mem (bufferAddr s) (lowByte (visible s (.field (.payload s.eng.cIdx.toNat)))) }
  settled : Settled t
  field : ∀ f, fieldExists s.cfg f → visible t (.field f) = visible s (.field f)

theorem stepFCopyOut_copied {s : State} (hc : parametersOk s.cfg = true) (hs : SafeState s) (hp : s.eng.pc = .fCopyOut)
    (hset : Settled s) : CopiedByte s (stepFCopyOut s) := by
  obtain ⟨hpend, hst, hpa, hl⟩ := hset
  have hload : loadValue s (.field (.payload s.eng.cIdx.toNat)) = visible s (.field (.payload s.eng.cIdx.toNat)) := by
    rw [loadValue_of_pick_zero hl, ownView_of_not_pending (by simp [hpend])]
  have hbus := stepFCopyOut_bus s
  rw [hload] at hbus
  have hcfg : (stepFCopyOut s).cfg = s.cfg := by simp [stepFCopyOut]
  refine ⟨hcfg, by simp [stepFCopyOut], by simp [stepFCopyOut], by rw [stepFCopyOut, copyNext_window]; rfl, hbus, ?_,
    fun f hf => ?_⟩
  · simp [stepFCopyOut, Settled, hpend, hst, hpa, hl]
  · simp only [visible, hcfg, hbus]
    exact readField_write_notMailbox hc hf s.bus.mem _ (bufferAddr_notMailbox hs (.inr hp))

/-- The copy-out of the `n + 1` bytes that are left of a chunk. -/
theorem epath_copyOut (n : Nat) {s : State} (hc : parametersOk s.cfg = true) (hs : SafeState s) (hset : Settled s)
    (hp : s.eng.pc = .fCopyOut) (hn : s.eng.cChunk.toNat = s.eng.cIdx.toNat + n + 1) :
    ∃ t, EPath (n + 1) s t ∧ CopiedOut s t := by
  have hfirst : EPath 1 s (stepFCopyOut s) := by
    have hone := epath_one (s := s) (by simp [hp]) (by simp [hp])
    simpa only [engineStep, hp] using hone
  have hsafe : SafeState (stepFCopyOut s) := by
    have h := engineStep_safe hc hs
    rwa [engineStep, hp] at h
  have hb := stepFCopyOut_copied hc hs hp hset
  have hat : ∀ a, a ≠ bufferAddr s → Memory.read (stepFCopyOut s).bus.mem a = Memory.read s.bus.mem a := fun a ha => by
    rw [hb.bus]; exact Memory.read_write_other _ _ ha
  have hself : Memory.read (stepFCopyOut s).bus.mem (bufferAddr s) = lowByte (visible s (.field (.payload s.eng.cIdx.toNat))) := by
    rw [hb.bus]; exact Memory.read_write_same hs.memory _ _
  obtain ⟨-, hmax, -⟩ := hs.chunkBounds (by rw [hs.copyOutKind hp]; simp) (by rw [hp]; decide)
  obtain ⟨-, -, -, -, -, hcap, -⟩ := (parametersOk_iff s.cfg).1 hc
  have haddr : bufferAddr s = s.eng.cBuf.toNat + s.eng.cCur.toNat + s.eng.cIdx.toNat := rfl
  induction n generalizing s with
  | zero =>
    have heng : (stepFCopyOut s).eng = { s.eng with cIdx := 0#32, pc := .fAdv } := by
      have hlast : ¬ s.eng.cIdx.toNat + 1 < s.eng.cChunk.toNat := by omega
      simp [stepFCopyOut, copyNext, hlast]
    refine ⟨stepFCopyOut s, hfirst, hb.cfg, hb.env, hb.freeCtr, hb.window, heng, by rw [hb.bus], hb.settled, hb.field,
      fun j hj hlt => ?_, fun a ha => hat a (ha _ le_rfl (by omega))⟩
    obtain rfl : j = s.eng.cIdx.toNat := by omega
    exact hself
  | succ n ih =>
    have hmore : s.eng.cIdx.toNat + 1 < s.eng.cChunk.toNat := by omega
    have heng : (stepFCopyOut s).eng = { s.eng with cIdx := s.eng.cIdx + 1#32 } := by
      simp [stepFCopyOut, copyNext, hmore]
    have hidx : (stepFCopyOut s).eng.cIdx.toNat = s.eng.cIdx.toNat + 1 := by rw [heng]; exact succ_index hmore
    have hchunk : (stepFCopyOut s).eng.cChunk = s.eng.cChunk := by rw [heng]
    have hbuf : (stepFCopyOut s).eng.cBuf = s.eng.cBuf ∧ (stepFCopyOut s).eng.cCur = s.eng.cCur := by rw [heng]; exact ⟨rfl, rfl⟩
    have hnext : (stepFCopyOut s).eng.pc = .fCopyOut := by rw [heng]; exact hp
    have hone : EPath 1 (stepFCopyOut s) (stepFCopyOut (stepFCopyOut s)) := by
      have hone := epath_one (s := stepFCopyOut s) (by simp [hnext]) (by simp [hnext])
      simpa only [engineStep, hnext] using hone
    have hc1 : parametersOk (stepFCopyOut s).cfg = true := by rw [hb.cfg]; exact hc
    have hb1 := stepFCopyOut_copied hc1 hsafe hnext hb.settled
    have hsafe1 : SafeState (stepFCopyOut (stepFCopyOut s)) := by
      have h := engineStep_safe hc1 hsafe
      rwa [engineStep, hnext] at h
    obtain ⟨t, hpath, ht⟩ := ih hc1 hsafe hb.settled hnext (by rw [hchunk, hidx]; omega) hone hsafe1 hb1
      (fun a ha => by rw [hb1.bus]; exact Memory.read_write_other _ _ ha)
      (by rw [hb1.bus]; exact Memory.read_write_same hsafe.memory _ _) (by rw [hchunk, hb.cfg]; exact hmax)
      (by rw [hb.cfg]; exact hcap) rfl
    refine ⟨t, by rw [Nat.add_comm]; exact hfirst.trans hpath, ht.cfg.trans hb.cfg, ht.env.trans hb.env,
      ht.freeCtr.trans hb.freeCtr, ht.window.trans hb.window, by rw [ht.eng, heng], ?_, ht.settled,
      fun f hf => (ht.field f (by rw [hb.cfg]; exact hf)).trans (hb.field f hf), fun j hj hlt => ?_, fun a ha => ?_⟩
    · rw [ht.bus, hb.bus]
    · rcases Nat.eq_or_lt_of_le hj with rfl | hgt
      · rw [ht.kept _ (fun j hj _ => by rw [hbuf.1, hbuf.2]; omega), ← haddr]
        exact hself
      · have h := ht.copied j (by omega) (by rw [hchunk]; exact hlt)
        rw [hbuf.1, hbuf.2] at h
        have hfield : fieldExists s.cfg (.payload j) := show j < s.cfg.payloadCap by omega
        rw [h, hb.field _ hfield]
    · rw [ht.kept a (fun j hj hlt => by
        rw [hbuf.1, hbuf.2]
        rw [hchunk] at hlt
        exact ha j (by omega) hlt), hat a (ha _ le_rfl (by omega))]

end Sys2Proof.Machine
end

section
/-! SUPPORT. Chunked operations up to the doorbell or the check of their first chunk (R151, R154, R165, R228). -/

namespace Sys2Proof.Machine

open Sys2Proof

/-! ### The operation and its way -/

/-- A chunked operation that comes to `REST` along a known way ends there. -/
theorem chunked_goes {k : ChunkKind} {addr : U32} {buf : U64} {size : U32} {s t : State} {n : Nat} (hs : Ready s)
    (h : Goes n (chunkInit k addr buf size (envTurn s)) t) (ht : t.eng.pc = .rest) (hn : n ≤ budget size s) :
    chunked k addr buf size s = .next t := by
  rw [chunked, hostOperation_of_rest hs.1 hs.2.1, h.run_rest ht hn]

/-- The instruction that is the chunked operation of kind `k` on the buffer `buf`, when the buffer is clear. -/
structure IsChunked (i : Instr) (k : ChunkKind) (addr : U32) (buf : U64) (size : U32) (cfg : Config) : Prop where
  kind : k ≠ .none
  exec : ∀ s, s.cfg = cfg → Machine.exec i s = chunked k addr buf size s
  clear : k = .erase ∨ ((k = .read ∨ k = .write) ∧ bufferClear cfg buf.toNat size.toNat = true)

theorem isChunked_erase (addr size : U32) (cfg : Config) :
    IsChunked (.flashErase addr size) .erase addr 0#64 size cfg :=
  ⟨by simp, fun _ _ => rfl, .inl rfl⟩

theorem isChunked_read (addr : U32) {dst : U64} {size : U32} {cfg : Config}
    (h : bufferClear cfg dst.toNat size.toNat = true) : IsChunked (.flashRead addr dst size) .read addr dst size cfg :=
  ⟨by simp, fun s hc => chunkedOn_of_clear (by rw [hc]; exact h), .inr ⟨.inl rfl, h⟩⟩

theorem isChunked_write (addr : U32) {src : U64} {size : U32} {cfg : Config}
    (h : bufferClear cfg src.toNat size.toNat = true) : IsChunked (.flashWrite addr src size) .write addr src size cfg :=
  ⟨by simp, fun s hc => chunkedOn_of_clear (by rw [hc]; exact h), .inr ⟨.inr rfl, h⟩⟩

theorem EPath.goes_of_nil {n : Nat} {s t : State} (h : EPath n s t) (hs : s.env.sched = []) (ht : t.env.sched = []) : Goes n s t := by
  have hgo := h.goes (fun b hb => by simp [hs] at hb)
  have hself : onSched (s.env.sched.drop n) t = t := by
    have hnil : s.env.sched.drop n = t.env.sched := by simp [hs, ht]
    rw [hnil, onSched_self]
  rwa [hself] at hgo

/-! ### An erase in generation B -/

/-- Settles O47: the erase comes to step `V` with an op byte outside `OPSET(B)`, and nothing was stored on the way. -/
theorem eraseInGenerationB : Obligations.EraseInGenerationB := by
  intro addr size s hs hg hsize hsched
  set w := chunkInit .erase addr 0#64 size (envTurn s) with hw
  set v := chunkCalled (chosen .fCmd w) with hv
  have hto : EPath 3 w v := epath_toCall rfl hsize (by simp [hw])
  have hno : recognised v.cfg.gen v.eng.op = false := by
    have hgen : v.cfg.gen = .b := by simp [hv, hw, chunkCalled, called, chosen, hg]
    rw [hgen]
    rfl
  have hlast : EPath 1 v (raiseInvalidOperation v) := by
    have hone := epath_one (s := v) (by simp [hv, chunkCalled, called]) (by simp [hv, chunkCalled, called])
    have hstep : engineStep v = raiseInvalidOperation v := stepV_unrecognised hno
    rwa [hstep] at hone
  have hgo := (hto.trans hlast).goes_of_nil (by simp [hw, hsched])
    (by simp [raiseInvalidOperation, hv, hw, chunkCalled, called, chosen, hsched])
  have hcode : codeInvalidOperation ≠ codeOk := by decide
  have hend := complete_error hcode (Config.freeWord v.freeCtr) (Config.freeWord (v.freeCtr + 1))
    (Config.freeByte v.freeCtr) false { v with freeCtr := v.freeCtr + 2 }
  refine ⟨raiseInvalidOperation v, ?_, ?_, ?_, ?_, ?_, ?_, hend.1, hend.2, ?_⟩
  · rw [(isChunked_erase addr size s.cfg).exec s rfl]
    exact chunked_goes hs hgo hend.1 (le_budget (by omega) _ _)
  · simp [raiseInvalidOperation, hv, hw, chunkCalled, called, chosen]
  · simp [raiseInvalidOperation, hv, hw, chunkCalled, called, chosen]
  · simp [raiseInvalidOperation, hv, hw, chunkCalled, called, chosen]
  · simp [raiseInvalidOperation, hv, hw, chunkCalled, called, chosen]
  · simp [raiseInvalidOperation, hcode]
  · simp [raiseInvalidOperation, complete_eq, hv, hw, chunkCalled, called, chosen, chunkOpcode, chunkOf]

/-! ### The copy-in and the call of a write -/

/-- From the first copy-in step of a chunk to step `V` of its command. -/
theorem epath_copyInCall {s : State} (hp : s.eng.pc = .fCopyIn) (hi : s.eng.cIdx = 0#32) (hc : 1 ≤ s.eng.cChunk.toNat) :
    ∃ t, EPath (s.eng.cChunk.toNat + 1) s (chunkCalled t) ∧ CopiedIn s t := by
  have hi0 : s.eng.cIdx.toNat = 0 := by rw [hi]; rfl
  obtain ⟨t, hpath, ht⟩ := epath_copyIn (s.eng.cChunk.toNat - 1) hp (by omega)
  rw [Nat.sub_add_cancel hc] at hpath
  exact ⟨t, hpath.trans (epath_call (by rw [ht.eng])), ht⟩

theorem ownView_chunkCalled (s : State) (l : Loc) : ownView (chunkCalled s) l = ownView s l := rfl

/-- The copy-in leaves every field but payload bytes as the engine sees them. -/
theorem CopiedIn.other {s t : State} (h : CopiedIn s t) {f : Field} (hf : isPayload f = false) :
    ownView t (.field f) = ownView s (.field f) :=
  h.kept f fun j _ _ he => by rw [he] at hf; exact Bool.noConfusion hf

theorem CopiedIn.ownSample {s t : State} (h : CopiedIn s t) : Machine.ownSample (chunkCalled t) = Machine.ownSample s := by
  have hdb : ownView t .dbStatus = ownView s .dbStatus := by rw [ownView_dbStatus, ownView_dbStatus, h.bus]
  simp only [Machine.ownSample, ownView_chunkCalled, h.other (rfl : isPayload .execId = false),
    h.other (rfl : isPayload .requestId = false), h.other (rfl : isPayload .status = false), hdb]

theorem recognised_write (g : Gen) : recognised g (chunkOpcode .write) = true := by cases g <;> rfl

theorem messageField_op (v : State) : messageField v .op = zextByte v.eng.op := by simp [messageField]

theorem messageField_requestId (v : State) : messageField v .requestId = v.eng.nextId := by simp [messageField]

theorem messageField_arg0 {v : State} (h : storesArgs v.cfg.gen v.eng.op = true) : messageField v .arg0 = v.eng.arg0 := by
  simp [messageField, h]

theorem messageField_arg1 {v : State} (h : storesArgs v.cfg.gen v.eng.op = true) : messageField v .arg1 = v.eng.arg1 := by
  simp [messageField, h]

theorem messageField_payload (v : State) (j : Nat) : messageField v (.payload j) = ownView v (.field (.payload j)) := by
  simp [messageField]

/-- From `V` to the state right after the doorbell write, of which step `T0` makes the first poll's. -/
theorem AtCall.rung {v : State} (h : AtCall v) :
    ∃ r, EPath 11 v r ∧ Delivered v (stepT0 r) ∧ r.eng.pc = .t0 ∧ r.env = v.env := by
  have hsafe : SafeState (goto .wOp (sampled v)) := by
    rw [← (epath_check_idle h.atV h.known h.loadPick h.idle).eq]
    exact esteps_safe h.params h.safe 5
  have hsent := sendMessage_sent (s := goto .wOp (sampled v)) h.params hsafe rfl
  exact ⟨_, (epath_check_idle h.atV h.known h.loadPick h.idle).trans ((epath_to_ring rfl).trans (epath_ring rfl)), h.delivered,
    rfl, hsent.env⟩

/-- Settles O40: the copied bytes and the message are what the engine sees when the doorbell makes it visible. -/
theorem flashWriteChunkIsPublished : Obligations.FlashWriteChunkIsPublished := by
  intro s hs hc hset hidle hsched hp hi t
  have hkind := hs.copyInKind hp
  obtain ⟨hchunk, -, -⟩ := hs.chunkBounds (by rw [hkind]; simp) (by rw [hp]; rfl)
  have hi0 : s.eng.cIdx.toNat = 0 := by rw [hi]; rfl
  obtain ⟨w, hcall, hw⟩ := epath_copyInCall hp hi hchunk
  set v := chunkCalled w with hv
  have hveng : v.eng = { s.eng with cIdx := 0#32, pc := .v, op := 0x57#8, arg0 := s.eng.cAddr, arg1 := s.eng.cChunk } := by
    simp [hv, chunkCalled, called, hw.eng, hkind, chunkOpcode]
  have hvcfg : v.cfg = s.cfg := hw.cfg
  have hat : AtCall v := by
    refine ⟨by rw [hvcfg]; exact hc, ?_, rfl, ?_, hw.loadPick.trans hset.2.2.2, ?_⟩
    · rw [← hcall.eq]
      exact esteps_safe hc hs _
    · rw [hveng, hvcfg]
      exact recognised_write s.cfg.gen
    · rw [hv, hw.ownSample, ownSample_of_settled hset.1]
      exact hidle
  obtain ⟨r, hring, hd, hrpc, hrenv⟩ := hat.rung
  have hpath : EPath (s.eng.cChunk.toNat + 1 + 11) s r := hcall.trans hring
  have hvsched : v.env.sched = [] := (congrArg Environment.sched hw.env).trans hsched
  have hgo := hpath.goes_of_nil hsched (by rw [hrenv, hvsched])
  have ht : t = r := (congrArg (fun n => ticks n s) (by omega)).trans hgo.ticks
  clear_value t
  subst ht
  have hfield : ∀ f, visible t (.field f) = messageField v f := hd.field
  have hargs : storesArgs v.cfg.gen v.eng.op = true := by
    rw [hveng]
    cases v.cfg.gen <;> rfl
  have heng := hd.eng
  refine ⟨hrpc, hd.pending, hd.signals.trans (by rw [show v.bus = s.bus from hw.bus]), hd.busy, fun j hj => ?_, ?_, ?_, ?_, ?_, ?_⟩
  · rw [hfield]
    rw [messageField_payload, hv, ownView_chunkCalled, hw.copied j (by omega) hj]
  · rw [hfield, messageField_op, hveng]
  · rw [hfield, messageField_arg0 hargs, hveng]
  · rw [hfield, messageField_arg1 hargs, hveng]
  · rw [hfield, messageField_requestId, hveng]
  · have hid : (stepT0 t).eng.nextId = v.eng.nextId + 1#32 := by rw [heng]
    rw [hveng] at hid
    exact hid

/-! ### A write on a busy channel -/

/-- A store that becomes visible leaves a field whose own view has its width (R43, R50 (b)). -/
theorem ownView_drain_zero {s : State} (hc : parametersOk s.cfg = true) (hm : Memory.wf s.bus.mem = true) {f : Field} {v : U32}
    (hv : fieldValue f v = v) (h : ownView s (.field f) = v) : ownView (drain 0 s) (.field f) = v := by
  cases hp : s.ord.pending with
  | nil => rwa [drain_of_nil hp]
  | cons e es =>
    rw [drain_zero_cons hp]
    rw [ownView, hp, ownStore] at h
    rw [ownView, commit_ord, ownLocation_pending]
    cases hes : ownStore es (.field f) with
    | some w =>
      rw [hes] at h
      exact h
    | none =>
      rw [hes] at h
      by_cases hf : f = e.field
      · subst hf
        rw [if_pos rfl] at h
        obtain rfl : e.val = v := h
        exact (visible_commit_same hm e).trans hv
      · have hne : Loc.field f ≠ Loc.field e.field := by simpa using hf
        rw [if_neg hne] at h
        exact (visible_commit_other (s := { s with ord := { s.ord with pending := es } }) hc hf).trans h

/-- While nothing is offered or scheduled every turn at `REST` keeps such a field. -/
theorem ownView_turns {s : State} (hc : parametersOk s.cfg = true) (hr : s.eng.pc = .rest) (hs : s.env.sched = [])
    (hm : Memory.wf s.bus.mem = true) {f : Field} {v : U32} (hv : fieldValue f v = v) (n : Nat)
    (h : ownView s (.field f) = v) : ownView (turns n s) (.field f) = v := by
  induction n generalizing s with
  | zero => exact h
  | succ n ih =>
    refine ih (by simpa using hc) (by simpa using hr) (by simp [hs]) (envTurn_wf hm) ?_
    rw [envTurn_at_rest hs hr]
    obtain ⟨now, hclk⟩ := clkMove_eq 1 (drain 0 s)
    rw [hclk]
    exact ownView_drain_zero hc hm hv h

/-- Settles O48: the copy-in comes before the check, and its stores are the newest to their positions. -/
theorem flashWriteOnBusyChannel : Obligations.FlashWriteOnBusyChannel := by
  intro addr src size s hs hsched hpick hsize hclear hbusy u
  have hc := hs.1
  set w := chunkInit .write addr src size u with hw
  have hchoose : EPath 2 w (chosen .fCopyIn w) := epath_choose rfl hsize
  have hbounds := chunkOf_bounds (cfg := s.cfg) hc hsize
  have hlen := chunkOf_toNat s.cfg size
  have hchunk : (chosen .fCopyIn w).eng.cChunk = chunkOf s.cfg size := by simp [chosen, hw, u]
  obtain ⟨x, hcall, hx⟩ := epath_copyInCall (s := chosen .fCopyIn w) rfl rfl (by rw [hchunk]; exact hbounds.1)
  set v := chunkCalled x with hv
  have hown : ∀ f, ownView (chosen .fCopyIn w) (.field f) = ownView u (.field f) := fun _ => rfl
  have hsample : ownSample v = ownSample u := hx.ownSample
  have hpickU : u.ord.loadPick = 0 := by
    have hturn : u = fairTurn s := by simp [u, envTurn, hsched]
    rw [hturn, fairTurn_loadPick, hpick]
  have hveng : v.eng = { s.eng with
      cKind := .write, cAddr := addr, cSize := size, cCur := 0#32, cBuf := src, cChunk := chunkOf s.cfg size, cIdx := 0#32
      pc := .v, op := 0x57#8, arg0 := addr, arg1 := chunkOf s.cfg size } := by
    simp [hv, chunkCalled, called, hx.eng, chosen, hw, u, chunkOpcode]
  have hcfg : v.cfg = s.cfg := hx.cfg.trans (envTurn_cfg s)
  have hcheck : EPath 5 v (raiseChannelBusy (sampled v)) :=
    epath_check_busy rfl (by rw [hveng, hcfg]; exact recognised_write s.cfg.gen) (hx.loadPick.trans hpickU)
      (by rw [hsample]; exact hbusy)
  set t := raiseChannelBusy (sampled v) with ht
  have hsched0 : w.env.sched = [] := by simp [hw, u, hsched]
  have henv : t.env = u.env := (complete_env ..).trans hx.env
  have hgo := (hchoose.trans (hcall.trans hcheck)).goes_of_nil hsched0 (by rw [henv]; exact hsched0)
  have hcode : codeChannelBusy ≠ codeOk := by decide
  have hend := complete_error hcode (sampled v).eng.sample.req (sampled v).eng.sample.exec (sampled v).eng.sample.st true (sampled v)
  have hrest : t.eng.pc = .rest := hend.1
  have hexec : exec (.flashWrite addr src size) s = .next t := by
    rw [(isChunked_write addr hclear).exec s rfl]
    refine chunked_goes hs hgo hrest ?_
    rw [hchunk, hlen, budget]
    omega
  have hownT : ∀ f, ownView t (.field f) = ownView x (.field f) := fun f =>
    ownView_congr (by rw [ht, raiseChannelBusy, complete_ord]; rfl) ((visible_complete ..).trans (visible_congr rfl rfl rfl _))
  have hbytes : ∀ j, j < min size.toNat s.cfg.maxChunk →
      ownView t (.field (.payload j)) = zextByte (Memory.read u.bus.mem (src.toNat + j)) := fun j hj => by
    rw [hownT, hx.copied j (Nat.zero_le j) (by rw [hchunk, hlen]; exact hj)]
    simp [chosen, hw]
  have hbus : t.bus = u.bus := (complete_bus ..).trans hx.bus
  have hdiag : t.eng.diag.op = 0x57#8 ∧ t.eng.diag.arg0 = addr ∧ t.eng.nextId = s.eng.nextId := by
    rw [ht, raiseChannelBusy, complete_eq]
    simp [sampled, hveng]
  refine ⟨t, hexec, hrest, by rw [ht, raiseChannelBusy, complete_eq], hdiag.1, hdiag.2.1, hdiag.2.2, hbus, hbytes,
    fun f hf => ?_, fun hm hoffers => ?_⟩
  · rw [hownT, hx.kept f (fun j _ hj => hf j (by rw [hchunk, hlen] at hj; exact hj)), hown]
  · have hct : parametersOk t.cfg = true := by
      have hcfgT : t.cfg = s.cfg := (complete_cfg ..).trans hcfg
      rw [hcfgT]; exact hc
    have hschedT : t.env.sched = [] := by rw [henv]; exact hsched0
    refine ⟨turns t.ord.pending.length t, steps_at_rest hct hrest (by rw [henv]; simp [u, hoffers]) _, ?_, fun j hj => ?_⟩
    · rw [turns_pending hrest hschedT]
      simp
    · have hv' := ownView_turns hct hrest hschedT (by rw [hbus]; exact envTurn_wf hm) (fieldValue_zextByte (.payload j) _ rfl)
        t.ord.pending.length (hbytes j hj)
      rwa [ownView_of_not_pending (by rw [turns_pending hrest hschedT]; simp)] at hv'

end Sys2Proof.Machine
end

section
/-! SUPPORT. One chunk of the chunk loop whose command is answered with `'G'` (R151 to R154, R156). -/

namespace Sys2Proof.Machine

open Sys2Proof

/-! ### To the chunk's command -/

/-- The length of the next chunk. -/
def nextChunk (w : State) : Nat :=
  min w.eng.cSize.toNat w.cfg.maxChunk

/-- The engine at step `V` of the next chunk's command, that its state `w` at the loop's head leads to (R151). -/
structure ChunkCall (w v : State) : Prop where
  cfg : v.cfg = w.cfg
  env : v.env = { w.env with sched := v.env.sched }
  bus : v.bus = w.bus
  freeCtr : v.freeCtr = w.freeCtr
  eng : v.eng = { w.eng with
    cChunk := chunkOf w.cfg w.eng.cSize, cIdx := 0#32, pc := .v, op := chunkOpcode w.eng.cKind, arg0 := w.eng.cAddr
    arg1 := chunkOf w.cfg w.eng.cSize }
  loadPick : v.ord.loadPick = w.ord.loadPick
  sample : ownSample v = ownSample w
  payload : ∀ j, ownView v (.field (.payload j)) = if w.eng.cKind = .write ∧ j < nextChunk w then
      zextByte (Memory.read w.bus.mem (w.eng.cBuf.toNat + w.eng.cCur.toNat + j))
    else ownView w (.field (.payload j))

theorem ChunkCall.rescheduled {w v : State} (h : ChunkCall w v) (bs : List (List EnvMove)) : ChunkCall w (onSched bs v) :=
  ⟨h.cfg, by rw [onSched_env, h.env], h.bus, h.freeCtr, h.eng, h.loadPick, (ownSample_onSched bs v).trans h.sample,
    fun j => (ownView_onSched bs v _).trans (h.payload j)⟩

theorem AtCall.rescheduled {v : State} (h : AtCall v) (bs : List (List EnvMove)) : AtCall (onSched bs v) :=
  ⟨h.params, safe_onSched h.safe bs, h.atV, h.known, h.loadPick, by rw [ownSample_onSched]; exact h.idle⟩

theorem epath_chunkCall {w : State} (hc : parametersOk w.cfg = true) (hp : w.eng.pc = .fTest) (hsize : w.eng.cSize ≠ 0#32) :
    ∃ v, EPath ((if w.eng.cKind = .write then nextChunk w else 0) + 3) w v ∧ ChunkCall w v := by
  have hlen : (chunkOf w.cfg w.eng.cSize).toNat = nextChunk w := chunkOf_toNat w.cfg w.eng.cSize
  by_cases hk : w.eng.cKind = .write
  · have hchoose := epath_choose hp hsize
    rw [if_pos hk] at hchoose
    obtain ⟨x, hcall, hx⟩ := epath_copyInCall (s := chosen .fCopyIn w) rfl rfl (chunkOf_bounds hc hsize).1
    have hchunk : (chosen .fCopyIn w).eng.cChunk.toNat = nextChunk w := hlen
    rw [hchunk] at hcall
    refine ⟨chunkCalled x, ?_, hx.cfg, ?_, hx.bus, hx.freeCtr, ?_, hx.loadPick, hx.ownSample, fun j => ?_⟩
    · rw [if_pos hk, show nextChunk w + 3 = 2 + (nextChunk w + 1) by omega]
      exact hchoose.trans hcall
    · have henv : (chunkCalled x).env = w.env := hx.env
      rw [henv]
    · simp [chunkCalled, called, hx.eng, chosen]
    · rw [ownView_chunkCalled]
      by_cases hj : j < nextChunk w
      · rw [if_pos ⟨hk, hj⟩, hx.copied j (Nat.zero_le j) (by rw [hchunk]; exact hj)]
        rfl
      · rw [if_neg (fun h => hj h.2), hx.kept _ fun i _ hi he => by
          simp only [Field.payload.injEq] at he
          rw [hchunk] at hi
          omega]
        rfl
  · refine ⟨chunkCalled (chosen .fCmd w), by rw [if_neg hk, Nat.zero_add]; exact epath_toCall hp hsize hk, rfl, rfl, rfl, rfl, rfl, rfl, rfl, fun j => ?_⟩
    rw [if_neg (fun h => hk h.1)]
    rfl

/-! ### The chunk as a whole -/

/-- The engine's registers after a chunk that was answered with `'G'` (R114, R151). -/
def chunkEngine (w : State) : Engine :=
  let c := chunkOf w.cfg w.eng.cSize
  { w.eng with
    nextId := w.eng.nextId + 1#32
    op := chunkOpcode w.eng.cKind
    arg0 := w.eng.cAddr
    arg1 := c
    t0 := w.env.now
    res := codeOk
    diag :=
      { kind := codeOk, op := chunkOpcode w.eng.cKind, arg0 := w.eng.cAddr, arg1 := c, req := w.eng.nextId
        exec := w.eng.nextId, status := statusGood, valid := true }
    sampleAt := .rdNow
    sample := { busy := false, exec := w.eng.nextId, req := w.eng.nextId, st := statusGood }
    rdSt := statusGood
    pc := .fTest
    cChunk := c
    cIdx := 0#32
    cAddr := w.eng.cAddr + c
    cCur := w.eng.cCur + c
    cSize := w.eng.cSize - c }

/-- What one chunk leaves whose command was answered with `data` and `'G'`, from the loop's head to the loop's head. -/
structure ChunkStep (w t : State) (data : List Byte) : Prop where
  cfg : t.cfg = w.cfg
  env : t.env = { w.env with sched := t.env.sched, scpPhase := t.env.scpPhase, conform := t.env.conform }
  freeCtr : t.freeCtr = w.freeCtr
  eng : t.eng = chunkEngine w
  op : visible t (.field .op) = zextByte (chunkOpcode w.eng.cKind)
  arg0 : visible t (.field .arg0) = w.eng.cAddr
  arg1 : visible t (.field .arg1) = chunkOf w.cfg w.eng.cSize
  requestId : visible t (.field .requestId) = w.eng.nextId
  execId : visible t (.field .execId) = w.eng.nextId
  status : visible t (.field .status) = zextByte statusGood
  payload : ∀ j, j < w.cfg.payloadCap → visible t (.field (.payload j)) = answeredByte data j
    (if w.eng.cKind = .write ∧ j < nextChunk w then
        zextByte (Memory.read w.bus.mem (w.eng.cBuf.toNat + w.eng.cCur.toNat + j))
      else visible w (.field (.payload j)))
  window : t.window = responseLength w.cfg.payloadCap (chunkOpcode w.eng.cKind) (chunkOf w.cfg w.eng.cSize)
  busy : busyBit t.bus.dbStatus = false
  signals : t.bus.signals = w.bus.signals
  settled : Settled t
  outside : ∀ a, ¬ inMailbox w.cfg a → Memory.read t.bus.mem a =
    if w.eng.cKind = .read ∧ w.eng.cBuf.toNat + w.eng.cCur.toNat ≤ a ∧ a < w.eng.cBuf.toNat + w.eng.cCur.toNat + nextChunk w then
      lowByte (visible t (.field (.payload (a - (w.eng.cBuf.toNat + w.eng.cCur.toNat)))))
    else Memory.read w.bus.mem a

theorem Goes.safe {n : Nat} {s t : State} (h : Goes n s t) (hc : parametersOk s.cfg = true) (hs : SafeState s) : SafeState t := by
  rw [← h.ticks]
  clear h
  induction n generalizing s with
  | zero => exact hs
  | succ n ih => exact ih (by simpa [tick] using hc) (tick_safe hc hs)

/-- After the command of a chunk came back with `OK`: the copy-out of a read. -/
structure ChunkCopied (r x : State) : Prop where
  cfg : x.cfg = r.cfg
  env : x.env = { r.env with sched := x.env.sched }
  freeCtr : x.freeCtr = r.freeCtr
  window : x.window = r.window
  eng : x.eng = { r.eng with cIdx := 0#32, pc := .fAdv }
  bus : x.bus = { r.bus with mem := x.bus.mem }
  settled : Settled x
  field : ∀ f, fieldExists r.cfg f → visible x (.field f) = visible r (.field f)
  outside : ∀ a, Memory.read x.bus.mem a =
    if r.eng.cKind = .read ∧ r.eng.cBuf.toNat + r.eng.cCur.toNat ≤ a
        ∧ a < r.eng.cBuf.toNat + r.eng.cCur.toNat + r.eng.cChunk.toNat then
      lowByte (visible r (.field (.payload (a - (r.eng.cBuf.toNat + r.eng.cCur.toNat)))))
    else Memory.read r.bus.mem a

theorem epath_chunkCopied {r : State} (hc : parametersOk r.cfg = true) (hs : SafeState r) (hset : Settled r)
    (hidx : r.eng.cIdx = 0#32) (hp : r.eng.pc = returnPc codeOk r.eng.cKind) (hk : r.eng.cKind ≠ .none) :
    ∃ x, EPath (if r.eng.cKind = .read then r.eng.cChunk.toNat else 0) r x ∧ ChunkCopied r x := by
  by_cases hread : r.eng.cKind = .read
  · have hout : r.eng.pc = .fCopyOut := by rw [hp, hread]; rfl
    obtain ⟨hchunk, -, -⟩ := hs.chunkBounds hk (by rw [hout]; rfl)
    obtain ⟨x, hpath, hx⟩ := epath_copyOut (r.eng.cChunk.toNat - 1) hc hs hset hout (by rw [hidx]; show _ = 0 + _ + 1; omega)
    rw [Nat.sub_add_cancel hchunk] at hpath
    refine ⟨x, by rw [if_pos hread]; exact hpath, hx.cfg, by rw [hx.env], hx.freeCtr, hx.window, hx.eng, hx.bus, hx.settled,
      hx.field, fun a => ?_⟩
    split
    · rename_i ha
      obtain ⟨j, rfl⟩ := Nat.exists_eq_add_of_le ha.2.1
      rw [hx.copied j (by rw [hidx]; exact Nat.zero_le j) (by omega), Nat.add_sub_cancel_left]
    · rename_i ha
      exact hx.kept a fun j _ hj he => ha ⟨hread, by omega, by omega⟩
  · have hadv : r.eng.pc = .fAdv := by
      rw [hp]
      cases hkind : r.eng.cKind
      · exact absurd hkind hk
      · rfl
      · exact absurd hkind hread
      · rfl
    refine ⟨r, by rw [if_neg hread]; exact .refl r, rfl, rfl, rfl, rfl, ?_, rfl, hset, fun _ _ => rfl, fun a => ?_⟩
    · rw [← hidx, ← hadv]
    · rw [if_neg (fun h => hread h.1)]

theorem storesArgs_chunk {g : Gen} {k : ChunkKind} (hk : k ≠ .none) (h : recognised g (chunkOpcode k) = true) :
    storesArgs g (chunkOpcode k) = true := by
  cases g <;> cases k <;> first | rfl | exact absurd rfl hk

/-- The parts of a chunk's stay in the loop put together. -/
theorem chunkStep_of_parts {w v r x : State} {data : List Byte} (hc : parametersOk w.cfg = true) (hset : Settled w)
    (hk : w.eng.cKind ≠ .none) (hrec : recognised w.cfg.gen (chunkOpcode w.eng.cKind) = true) (hv : ChunkCall w v)
    (hr : Returned v r data statusGood) (hx : ChunkCopied r x) (bs : List (List EnvMove)) :
    ChunkStep w (onSched bs (stepFAdv x)) data := by
  have hcfg : r.cfg = w.cfg := hr.cfg.trans hv.cfg
  have hlen : (chunkOf w.cfg w.eng.cSize).toNat = nextChunk w := chunkOf_toNat w.cfg w.eng.cSize
  have hargs : storesArgs v.cfg.gen v.eng.op = true := by
    rw [hv.cfg, hv.eng]
    exact storesArgs_chunk hk hrec
  have hvis : ∀ f, fieldExists w.cfg f → visible (onSched bs (stepFAdv x)) (.field f) = visible r (.field f) := fun f hf => by
    rw [visible_onSched]
    exact (visible_field_congr rfl rfl f).trans (hx.field f (by rw [hcfg]; exact hf))
  have hown : ∀ f, ownView w (.field f) = visible w (.field f) := fun f => ownView_of_not_pending (by simp [hset.1])
  have hreng : r.eng = returnedEngine v statusGood := hr.eng
  have hregs : r.eng.cKind = w.eng.cKind ∧ r.eng.cChunk = chunkOf w.cfg w.eng.cSize ∧ r.eng.cBuf = w.eng.cBuf
      ∧ r.eng.cCur = w.eng.cCur := by
    rw [hreng]
    simp [returnedEngine, hv.eng]
  obtain ⟨hkind, hchunk, hbuf, hcur⟩ := hregs
  obtain ⟨-, -, -, -, -, hcap, -⟩ := (parametersOk_iff w.cfg).1 hc
  refine ⟨hx.cfg.trans hcfg, ?_, hx.freeCtr.trans (hr.freeCtr.trans hv.freeCtr), ?_, ?_, ?_, ?_, ?_, ?_, ?_, fun j hj => ?_, ?_,
    ?_, ?_, hx.settled, fun a ha => ?_⟩
  · show { x.env with sched := bs } = { w.env with sched := bs, scpPhase := x.env.scpPhase, conform := x.env.conform }
    rw [hx.env, hr.env, hv.env]
  · have henv : v.env.now = w.env.now := by rw [hv.env]
    show (stepFAdv x).eng = _
    simp [stepFAdv, hx.eng, hreng, returnedEngine, hv.eng, henv, chunkEngine]
  · rw [hvis .op trivial, hr.header _ rfl, messageField_op, hv.eng]
  · rw [hvis .arg0 trivial, hr.header _ rfl, messageField_arg0 hargs, hv.eng]
  · rw [hvis .arg1 trivial, hr.header _ rfl, messageField_arg1 hargs, hv.eng]
  · rw [hvis .requestId trivial, hr.header _ rfl, messageField_requestId, hv.eng]
  · rw [hvis .execId trivial, hr.execId, hv.eng]
  · rw [hvis .status trivial, hr.status]
  · rw [hvis (.payload j) hj, hr.payload j (by rw [hv.cfg]; exact hj), hv.payload, hown]
  · have hwin : (onSched bs (stepFAdv x)).window = r.window := hx.window
    rw [hwin, hr.window, if_pos rfl, hv.cfg, hv.eng]
  · show busyBit x.bus.dbStatus = false
    rw [hx.bus]
    exact hr.busy
  · show x.bus.signals = _
    rw [hx.bus, ← hv.bus]
    exact hr.signals
  · show Memory.read x.bus.mem a = _
    rw [hx.outside a, hkind, hchunk, hbuf, hcur, hlen, hr.outside a (by rw [hv.cfg]; exact ha), hv.bus]
    split
    · rename_i hin
      have hexists : fieldExists w.cfg (.payload (a - (w.eng.cBuf.toNat + w.eng.cCur.toNat))) := by
        show _ < w.cfg.payloadCap
        have hle : nextChunk w ≤ w.cfg.maxChunk := Nat.min_le_right _ _
        omega
      rw [hvis _ hexists]
    · rfl

/-- A stay of the loop for one chunk that is answered at the first poll of its command. -/
theorem goes_chunk {w : State} {data : List Byte} {bs : List (List EnvMove)} (hc : parametersOk w.cfg = true) (hs : SafeState w)
    (hset : Settled w) (hidle : channelIdle w) (hp : w.eng.pc = .fTest) (hsize : w.eng.cSize ≠ 0#32)
    (hrec : recognised w.cfg.gen (chunkOpcode w.eng.cKind) = true)
    (hsched : w.env.sched = quiet (stepsToPoll w.eng.cKind (nextChunk w)) ++ [answer w.eng.nextId data statusGood]
      ++ quiet (stepsToTest w.eng.cKind (nextChunk w)) ++ bs) :
    ∃ t, Goes (stepsToPoll w.eng.cKind (nextChunk w) + 1 + stepsToTest w.eng.cKind (nextChunk w)) w t
      ∧ ChunkStep w t data ∧ t.env.sched = bs := by
  have hk := hs.loopKind (by rw [hp]; rfl)
  have hlen : (chunkOf w.cfg w.eng.cSize).toNat = nextChunk w := chunkOf_toNat w.cfg w.eng.cSize
  -- to the command
  obtain ⟨v0, hto, hv0⟩ := epath_chunkCall hc hp hsize
  set a := (if w.eng.cKind = .write then nextChunk w else 0) + 3 with ha
  set b := (if w.eng.cKind = .read then nextChunk w else 0) with hb
  have hpoll : stepsToPoll w.eng.cKind (nextChunk w) = a + 12 := rfl
  have htest : stepsToTest w.eng.cKind (nextChunk w) = b + 7 := rfl
  rw [hpoll, htest, quiet_add, List.append_assoc, List.append_assoc, List.append_assoc] at hsched
  have hgo1 := hto.goes (fun x hx => quiet_empty le_rfl (hsched ▸ hx))
  rw [hsched, quiet_drop] at hgo1
  set rest := quiet 12 ++ ([answer w.eng.nextId data statusGood] ++ (quiet (b + 7) ++ bs)) with hrest
  have hv := hv0.rescheduled rest
  set v := onSched rest v0 with hvdef
  have hvpend : ownSample v = visibleSample w := hv.sample.trans (ownSample_of_settled hset.1)
  have hat : AtCall v := ⟨by rw [hv.cfg]; exact hc, hgo1.safe hc hs, by rw [hv.eng], by rw [hv.eng, hv.cfg]; exact hrec,
    hv.loadPick.trans hset.2.2.2, by rw [hvpend]; exact hidle⟩
  -- the transaction
  have hid : v.eng.nextId = w.eng.nextId := by rw [hv.eng]
  obtain ⟨r, hgo2, hr, hrs⟩ := hat.goes_returned (data := data) (final := statusGood) (.inl rfl) (bs := quiet (b + 7) ++ bs)
    (by rw [hid]; rfl) (fun x hx => quiet_empty (by omega) hx)
  have hrsched : r.env.sched = quiet (b + 1) ++ bs := by
    rw [hrs, show b + 7 = 6 + (b + 1) by omega, quiet_add, List.append_assoc, quiet_drop]
  have hreng : r.eng = returnedEngine v statusGood := hr.eng
  have hrkind : r.eng.cKind = w.eng.cKind := by rw [hreng]; simp [returnedEngine, hv.eng]
  have hrregs : r.eng.cChunk = chunkOf w.cfg w.eng.cSize ∧ r.eng.cIdx = 0#32 ∧ r.eng.cBuf = w.eng.cBuf ∧ r.eng.cCur = w.eng.cCur
      ∧ r.eng.pc = returnPc codeOk r.eng.cKind := by
    rw [hrkind, hreng]
    simp [returnedEngine, hv.eng]
  obtain ⟨hrchunk, hridx, hrbuf, hrcur, hrpc⟩ := hrregs
  have hcr : parametersOk r.cfg = true := by rw [hr.cfg, hv.cfg]; exact hc
  -- the copy-out and the advance
  obtain ⟨x, hcopy, hx⟩ := epath_chunkCopied hcr (hgo2.safe hat.params hat.safe) hr.settled hridx hrpc (by rw [hrkind]; exact hk)
  rw [hrkind, hrchunk, hlen] at hcopy
  have hadv : EPath 1 x (stepFAdv x) := by
    have hpc : x.eng.pc = .fAdv := by rw [hx.eng]
    have hone := epath_one (s := x) (by rw [hpc]; simp) (by rw [hpc]; simp)
    simpa only [engineStep, hpc] using hone
  have hgo3 := (hcopy.trans hadv).goes (fun y hy => quiet_empty le_rfl (hrsched ▸ hy))
  rw [hrsched, quiet_drop] at hgo3
  refine ⟨onSched bs (stepFAdv x), ?_, ?_, rfl⟩
  · have hall := hgo1.trans (hgo2.trans hgo3)
    rwa [show a + (19 + (b + 1)) = a + 12 + 1 + (b + 7) by omega] at hall
  exact chunkStep_of_parts hc hset hk hrec hv hr hx bs

end Sys2Proof.Machine
end

section
/-! SUPPORT. The chunk loop as a whole while every chunk is answered with `'G'` (R151, R156, R160, R161). -/

namespace Sys2Proof.Machine

open Sys2Proof

/-! ### The byte of the range that a payload position holds -/

theorem lastCopied_new {j m c i : Nat} (hi : i < c) (hc : c ≤ m) : lastCopied (j * m + c) m i = j * m + i := by
  have hdiv : (j * m + c - 1 - i) / m = j := by
    rw [show j * m + c - 1 - i = c - 1 - i + j * m by omega, Nat.add_mul_div_right _ _ (by omega),
      Nat.div_eq_of_lt (by omega), Nat.zero_add]
  rw [lastCopied, hdiv, Nat.mul_comm, Nat.add_comm]

theorem lastCopied_old {j m c i : Nat} (hi : c ≤ i) (hm : i < m) : lastCopied (j * m + c) m i = lastCopied (j * m) m i := by
  cases j with
  | zero => 
    have h1 : 0 * m + c - 1 - i = 0 := by omega
    have h2 : 0 * m - 1 - i = 0 := by omega
    rw [lastCopied, lastCopied, h1, h2]
  | succ j =>
    have hdiv : ∀ e, e ≤ i → ((j + 1) * m + e - 1 - i) / m = j := fun e he => by
      rw [Nat.succ_mul, show j * m + m + e - 1 - i = (m - 1 - (i - e)) + j * m by omega, Nat.add_mul_div_right _ _ (by omega),
        Nat.div_eq_of_lt (by omega), Nat.zero_add]
    have h0 := hdiv 0 (Nat.zero_le i)
    rw [Nat.add_zero] at h0
    rw [lastCopied, lastCopied, hdiv c hi, h0]

theorem chunkKind_cases {k : ChunkKind} (h : k ≠ .none) : k = .erase ∨ k = .read ∨ k = .write := by
  cases k with
  | none => exact absurd rfl h
  | erase => exact .inl rfl
  | read => exact .inr (.inl rfl)
  | write => exact .inr (.inr rfl)

/-! ### The invariant of the loop -/

/-- What the chunk number `n` of an operation leaves in the mailbox and the record (R151, R196). -/
structure ChunkRecord (s w : State) (k : ChunkKind) (addr size : U32) (n : Nat) : Prop where
  diag : w.eng.diag =
    { kind := codeOk, op := chunkOpcode k, arg0 := addr + BitVec.ofNat 32 (n * s.cfg.maxChunk)
      arg1 := BitVec.ofNat 32 (min (size.toNat - n * s.cfg.maxChunk) s.cfg.maxChunk)
      req := s.eng.nextId + BitVec.ofNat 32 n, exec := s.eng.nextId + BitVec.ofNat 32 n, status := statusGood, valid := true }
  op : visible w (.field .op) = zextByte (chunkOpcode k)
  arg0 : visible w (.field .arg0) = w.eng.diag.arg0
  arg1 : visible w (.field .arg1) = w.eng.diag.arg1
  requestId : visible w (.field .requestId) = w.eng.diag.req
  execId : visible w (.field .execId) = w.eng.diag.req
  status : visible w (.field .status) = zextByte statusGood
  window : w.window = responseLength s.cfg.payloadCap (chunkOpcode k) w.eng.diag.arg1

/-- The loop's head after `n` chunks of an operation that started in `s`, whose byte `x` of the range is `moved x`: all of them
were answered with `'G'` and nothing else moved. -/
structure Progress (k : ChunkKind) (addr : U32) (buf : U64) (size : U32) (moved : Nat → Byte) (s w : State) (n : Nat) : Prop where
  safe : SafeState w
  settled : Settled w
  idle : channelIdle w
  caller : callerUnchanged s w
  pc : w.eng.pc = .fTest
  kind : w.eng.cKind = k
  buffer : w.eng.cBuf = buf
  begun : n = 0 ∨ (n - 1) * s.cfg.maxChunk < size.toNat
  done : w.eng.cCur.toNat = min (n * s.cfg.maxChunk) size.toNat
  left : w.eng.cSize.toNat = size.toNat - min (n * s.cfg.maxChunk) size.toNat
  address : w.eng.cAddr = addr + w.eng.cCur
  nextId : w.eng.nextId = s.eng.nextId + BitVec.ofNat 32 n
  signals : w.bus.signals = s.bus.signals
  record : 0 < n → ChunkRecord s w k addr size (n - 1)
  fresh : n = 0 → w.eng.diag = s.eng.diag ∧ w.window = s.window ∧ ∀ f, visible w (.field f) = visible s (.field f)
  payload : ∀ i, i < s.cfg.payloadCap → visible w (.field (.payload i)) =
    if k ≠ .erase ∧ i < min w.eng.cCur.toNat s.cfg.maxChunk then
      zextByte (moved (lastCopied w.eng.cCur.toNat s.cfg.maxChunk i))
    else visible s (.field (.payload i))
  outside : ∀ a, ¬ inMailbox s.cfg a → Memory.read w.bus.mem a =
    if k = .read ∧ buf.toNat ≤ a ∧ a < buf.toNat + w.eng.cCur.toNat then moved (a - buf.toNat) else Memory.read s.bus.mem a

/-- The operation at its first test. -/
theorem progress_start {k : ChunkKind} {buf : U64} {size : U32} {s : State} (hs : ReadyIdle s) (addr : U32)
    (moved : Nat → Byte) (hk : k = .erase ∨ ((k = .read ∨ k = .write) ∧ bufferClear s.cfg buf.toNat size.toNat = true))
    (bs : List (List EnvMove)) : Progress k addr buf size moved s (chunkInit k addr buf size (onSched bs s)) 0 := by
  obtain ⟨⟨hc, hr, hkind⟩, hset, hidle, hm⟩ := hs
  have hsafe : SafeState s := safeState_of_rest hm hr hkind hset.1
  have hvis : ∀ f, visible (chunkInit k addr buf size (onSched bs s)) (.field f) = visible s (.field f) := fun f =>
    visible_field_congr rfl rfl f
  refine ⟨chunkInit_safe (safe_onSched hsafe bs) hr addr hk, hset, ?_, ⟨rfl, rfl, rfl, rfl, rfl, rfl, rfl⟩, rfl, rfl, rfl, .inl rfl,
    by simp, by simp, by simp, by simp, rfl, fun h => absurd h (by simp), fun _ => ⟨rfl, rfl, hvis⟩, fun i _ => ?_, fun a _ => ?_⟩
  · have hsample : visibleSample (chunkInit k addr buf size (onSched bs s)) = visibleSample s := rfl
    rw [channelIdle, hsample]
    exact hidle
  · rw [hvis, if_neg]
    rintro ⟨-, h⟩
    simp at h
  · rw [if_neg]
    · rfl
    · rintro ⟨-, h1, h2⟩
      simp only [chunkInit_eng, BitVec.toNat_ofNat, Nat.zero_mod] at h2
      omega

/-- The response of chunk `n` is the bytes of the range that a read moves. -/
structure ChunkData (k : ChunkKind) (moved : Nat → Byte) (start len : Nat) (data : List Byte) : Prop where
  read : k = .read → ∀ i, data[i]? = if i < len then some (moved (start + i)) else none
  other : k ≠ .read → data = []

/-- The source of a write is the bytes of the range. -/
def SourceOf (k : ChunkKind) (buf : U64) (size : U32) (moved : Nat → Byte) (s : State) : Prop :=
  k = .write → bufferClear s.cfg buf.toNat size.toNat = true
    ∧ ∀ x, x < size.toNat → Memory.read s.bus.mem (buf.toNat + x) = moved x

/-- Where the loop stands before a chunk: the number of bytes done, and the length of the chunk (R156, R160). -/
theorem Progress.position {k : ChunkKind} {addr : U32} {buf : U64} {size : U32} {moved : Nat → Byte} {s w : State} {n : Nat}
    (h : Progress k addr buf size moved s w n) (hsize : w.eng.cSize ≠ 0#32) :
    n * s.cfg.maxChunk < size.toNat ∧ w.eng.cCur.toNat = n * s.cfg.maxChunk
      ∧ nextChunk w = min (size.toNat - n * s.cfg.maxChunk) s.cfg.maxChunk := by
  have hpos : w.eng.cSize.toNat ≠ 0 := fun e => hsize (BitVec.eq_of_toNat_eq (by simpa using e))
  have hdone := h.done
  have hleft := h.left
  refine ⟨by omega, by omega, ?_⟩
  rw [nextChunk, h.caller.1, hleft]
  congr 1
  omega

/-- One more chunk. -/
theorem Progress.next {k : ChunkKind} {addr : U32} {buf : U64} {size : U32} {moved : Nat → Byte} {s w t : State} {n : Nat}
    {data : List Byte} (h : Progress k addr buf size moved s w n) (hc : parametersOk s.cfg = true) (hk : k ≠ .none)
    (hsize : w.eng.cSize ≠ 0#32) (ht : ChunkStep w t data) (hsafe : SafeState t)
    (hdata : ChunkData k moved w.eng.cCur.toNat (nextChunk w) data) (hsrc : SourceOf k buf size moved s) :
    Progress k addr buf size moved s t (n + 1) := by
  obtain ⟨hcfg, hnow, hoff, hret, hseen, hscp, hfree⟩ := h.caller
  obtain ⟨-, -, -, -, hmax, hcap, -⟩ := (parametersOk_iff s.cfg).1 hc
  obtain ⟨hnm, hcur, hnext⟩ := h.position hsize
  have hdone := h.done
  have hleft := h.left
  have hsucc : (n + 1) * s.cfg.maxChunk = n * s.cfg.maxChunk + s.cfg.maxChunk := Nat.succ_mul ..
  have hlen : (chunkOf w.cfg w.eng.cSize).toNat = nextChunk w := chunkOf_toNat w.cfg w.eng.cSize
  have hlt := size.isLt
  have hcurT : t.eng.cCur.toNat = w.eng.cCur.toNat + nextChunk w := by
    rw [ht.eng]
    show (w.eng.cCur + chunkOf w.cfg w.eng.cSize).toNat = _
    rw [BitVec.toNat_add, hlen]
    omega
  have hleftT : t.eng.cSize.toNat = w.eng.cSize.toNat - nextChunk w := by
    rw [ht.eng]
    show (w.eng.cSize - chunkOf w.cfg w.eng.cSize).toNat = _
    have hle : chunkOf w.cfg w.eng.cSize ≤ w.eng.cSize := by
      rw [BitVec.le_def, hlen]
      exact Nat.min_le_left _ _
    rw [BitVec.toNat_sub_of_le hle, hlen]
  have hcurEq : w.eng.cCur = BitVec.ofNat 32 (n * s.cfg.maxChunk) :=
    BitVec.eq_of_toNat_eq (by rw [hcur, BitVec.toNat_ofNat, Nat.mod_eq_of_lt (by omega)])
  have hchunkEq : chunkOf w.cfg w.eng.cSize = BitVec.ofNat 32 (min (size.toNat - n * s.cfg.maxChunk) s.cfg.maxChunk) :=
    BitVec.eq_of_toNat_eq (by rw [hlen, hnext, BitVec.toNat_ofNat, Nat.mod_eq_of_lt (by omega)])
  have hcallT : callerUnchanged s t := by
    refine ⟨ht.cfg.trans hcfg, ?_, ?_, ?_, ?_, ?_, ht.freeCtr.trans hfree⟩ <;> rw [ht.env] <;> assumption
  have hkinds := chunkKind_cases hk
  refine ⟨hsafe, ht.settled, ?_, hcallT, ?_, ?_, ?_, .inr hnm, by omega, by omega, ?_, ?_, ht.signals.trans h.signals,
    fun _ => ?_, fun h0 => absurd h0 (Nat.succ_ne_zero n), fun i hi => ?_, fun a ha => ?_⟩
  · have hsample : visibleSample t = { busy := false, exec := w.eng.nextId, req := w.eng.nextId, st := statusGood } := by
      rw [visibleSample, ht.busy, ht.execId, ht.requestId, ht.status, lowByte_zextByte]
    rw [channelIdle, hsample]
    exact idle_answered (.inl rfl)
  · rw [ht.eng]; rfl
  · rw [ht.eng]; exact h.kind
  · rw [ht.eng]; exact h.buffer
  · rw [ht.eng]
    show w.eng.cAddr + chunkOf w.cfg w.eng.cSize = addr + (w.eng.cCur + chunkOf w.cfg w.eng.cSize)
    rw [h.address, BitVec.add_assoc]
  · rw [ht.eng]
    show w.eng.nextId + 1#32 = _
    rw [h.nextId, BitVec.ofNat_add, BitVec.add_assoc]
  · have hdiag : t.eng.diag =
        { kind := codeOk, op := chunkOpcode k, arg0 := w.eng.cAddr, arg1 := chunkOf w.cfg w.eng.cSize
          req := w.eng.nextId, exec := w.eng.nextId, status := statusGood, valid := true } := by
      rw [ht.eng, ← h.kind]
      rfl
    refine ⟨?_, by rw [ht.op, h.kind], by rw [ht.arg0, hdiag], by rw [ht.arg1, hdiag], by rw [ht.requestId, hdiag],
      by rw [ht.execId, hdiag], ht.status, by rw [ht.window, hdiag, hcfg, h.kind]⟩
    rw [hdiag, h.address, hchunkEq, hcurEq, h.nextId, Nat.add_sub_cancel]
  · rw [ht.payload i (by rw [hcfg]; exact hi), hcurT, hcur, hnext, h.kind]
    have hold := h.payload i hi
    rw [hcur] at hold
    have hdr := hdata.read
    have hdo := hdata.other
    rw [hcur, hnext] at hdr
    by_cases hin : i < min (size.toNat - n * s.cfg.maxChunk) s.cfg.maxChunk
    · rw [lastCopied_new hin (Nat.min_le_right _ _)]
      have hbound : i < min (n * s.cfg.maxChunk + min (size.toNat - n * s.cfg.maxChunk) s.cfg.maxChunk) s.cfg.maxChunk := by omega
      rcases hkinds with rfl | rfl | rfl
      · simpa [hdo, answeredByte] using hold
      · simp [answeredByte, hdr rfl, hin, hbound]
      · obtain ⟨hclear, hbytes⟩ := hsrc rfl
        have hsource : Memory.read w.bus.mem (buf.toNat + n * s.cfg.maxChunk + i) = moved (n * s.cfg.maxChunk + i) := by
          rw [h.outside _ (bufferClear_notMailbox hclear (by omega) (by omega)), if_neg (by simp), Nat.add_assoc,
            hbytes _ (by omega)]
        simp [hdo, answeredByte, hin, hbound, h.buffer, hsource]
    · have hkeep : answeredByte data i (visible w (.field (.payload i))) = visible w (.field (.payload i)) := by
        by_cases hread : k = .read
        · simp [answeredByte, hdr hread, hin]
        · simp [answeredByte, hdo hread]
      have hwhole : n = 0 ∨ s.cfg.maxChunk ≤ n * s.cfg.maxChunk := by
        rcases Nat.eq_zero_or_pos n with h0 | h0
        · exact .inl h0
        · exact .inr (Nat.le_mul_of_pos_left _ h0)
      have hsame : i < min (n * s.cfg.maxChunk + min (size.toNat - n * s.cfg.maxChunk) s.cfg.maxChunk) s.cfg.maxChunk
          ↔ i < min (n * s.cfg.maxChunk) s.cfg.maxChunk := by
        rcases hwhole with rfl | hwhole <;> omega
      rw [if_neg (fun h => hin h.2), hkeep, hold]
      simp only [hsame]
      split
      · rename_i hi'
        rw [lastCopied_old (by omega) (by omega)]
      · rfl
  · rw [ht.outside a (by rw [hcfg]; exact ha), h.kind, h.buffer, hcurT]
    by_cases hread : k = .read
    · have hold := h.outside a ha
      by_cases hin : buf.toNat + w.eng.cCur.toNat ≤ a ∧ a < buf.toNat + w.eng.cCur.toNat + nextChunk w
      · obtain ⟨i, rfl⟩ := Nat.exists_eq_add_of_le hin.1
        have hi : i < nextChunk w := by omega
        have hbyte : visible t (.field (.payload i)) = zextByte (moved (w.eng.cCur.toNat + i)) := by
          rw [ht.payload i (by rw [hcfg]; omega), answeredByte, hdata.read hread i, if_pos hi]
          rfl
        rw [if_pos ⟨hread, hin⟩, if_pos ⟨hread, by omega, by omega⟩, Nat.add_sub_cancel_left, hbyte, lowByte_zextByte]
        congr 1
        omega
      · rw [if_neg (fun h => hin h.2), hold]
        refine if_congr ⟨fun h => ⟨h.1, h.2.1, by omega⟩, fun h => ⟨h.1, h.2.1, by omega⟩⟩ rfl rfl
    · rw [if_neg (fun h => hread h.1), if_neg (fun h => hread h.1), h.outside a ha, if_neg (fun h => hread h.1)]

/-! ### The loop along its schedule -/

theorem chunkSched_zero (k : ChunkKind) (m n : Nat) (id : U32) (data : List Byte) : chunkSched k m n 0 id data = [] := by
  cases n <;> simp [chunkSched]

theorem chunkSched_succ (k : ChunkKind) (m n : Nat) {size : Nat} (hs : size ≠ 0) (id : U32) (data : List Byte) :
    chunkSched k m (n + 1) size id data
      = quiet (stepsToPoll k (min size m)) ++ [answer id (data.take (min size m)) statusGood]
        ++ quiet (stepsToTest k (min size m))
        ++ chunkSched k m n (size - min size m) (id + 1#32) (data.drop (min size m)) := by
  rw [chunkSched, if_neg hs]

/-- The schedule's data for the next `total` bytes of the range. -/
structure LoopData (k : ChunkKind) (moved : Nat → Byte) (start total : Nat) (data : List Byte) : Prop where
  read : k = .read → ∀ i, data[i]? = if i < total then some (moved (start + i)) else none
  other : k ≠ .read → data = []

theorem LoopData.take {k : ChunkKind} {moved : Nat → Byte} {start total : Nat} {data : List Byte}
    (h : LoopData k moved start total data) {c : Nat} (hc : c ≤ total) : ChunkData k moved start c (data.take c) := by
  refine ⟨fun hk i => ?_, fun hk => by rw [h.other hk, List.take_nil]⟩
  rw [List.getElem?_take]
  split
  · rw [h.read hk, if_pos (by omega)]
  · rfl

theorem LoopData.drop {k : ChunkKind} {moved : Nat → Byte} {start total : Nat} {data : List Byte}
    (h : LoopData k moved start total data) (c : Nat) : LoopData k moved (start + c) (total - c) (data.drop c) := by
  refine ⟨fun hk i => ?_, fun hk => by rw [h.other hk, List.drop_nil]⟩
  rw [List.getElem?_drop, h.read hk]
  refine if_congr (by omega) ?_ rfl
  rw [Nat.add_assoc]

/-- Along the schedule of whole chunks, or of all that is left, every chunk is answered. -/
theorem goes_chunks {k : ChunkKind} {addr : U32} {buf : U64} {size : U32} {moved : Nat → Byte} {s : State}
    (hc : parametersOk s.cfg = true) (hk : k ≠ .none) (hrec : recognised s.cfg.gen (chunkOpcode k) = true)
    (hsrc : SourceOf k buf size moved s) (fuel : Nat) {total n : Nat} {w : State} {data : List Byte}
    {tail : List (List EnvMove)} (h : Progress k addr buf size moved s w n) (hfuel : total ≤ fuel)
    (hle : total ≤ w.eng.cSize.toNat) (hwhole : total = w.eng.cSize.toNat ∨ s.cfg.maxChunk ∣ total)
    (hdata : LoopData k moved w.eng.cCur.toNat total data)
    (hsched : w.env.sched = chunkSched k s.cfg.maxChunk fuel total w.eng.nextId data ++ tail) :
    ∃ t m, Goes (chunkSched k s.cfg.maxChunk fuel total w.eng.nextId data).length w t ∧ Progress k addr buf size moved s t m
      ∧ t.env.sched = tail ∧ t.eng.cCur.toNat = w.eng.cCur.toNat + total := by
  induction fuel generalizing total n w data with
  | zero =>
    obtain rfl : total = 0 := by omega
    exact ⟨w, n, .refl w, h, by rw [hsched]; rfl, rfl⟩
  | succ fuel ih =>
    by_cases htotal : total = 0
    · subst htotal
      rw [chunkSched_zero] at hsched ⊢
      exact ⟨w, n, .refl w, h, hsched, rfl⟩
    · have hcfg : w.cfg = s.cfg := h.caller.1
      obtain ⟨-, -, -, -, hmax, hcap, -⟩ := (parametersOk_iff s.cfg).1 hc
      have hchunk : min total s.cfg.maxChunk = nextChunk w := by
        rw [nextChunk, hcfg]
        rcases hwhole with rfl | hdvd
        · rfl
        · have hbig := Nat.le_of_dvd (by omega) hdvd
          omega
      have hsize : w.eng.cSize ≠ 0#32 := fun h0 => by simp [h0] at hle; exact htotal hle
      rw [chunkSched_succ k _ _ htotal, hchunk] at hsched ⊢
      have hdrop := hdata.drop (nextChunk w)
      have hchunkLe : nextChunk w ≤ total := by rw [← hchunk]; exact Nat.min_le_left _ _
      rw [← h.kind, List.append_assoc] at hsched
      obtain ⟨u, hgo, hu, hus⟩ := goes_chunk (by rw [hcfg]; exact hc) h.safe h.settled h.idle h.pc hsize
        (by rw [hcfg, h.kind]; exact hrec) hsched
      have hprog := h.next hc hk hsize hu (hgo.safe (by rw [hcfg]; exact hc) h.safe) (hdata.take hchunkLe) hsrc
      have hid : u.eng.nextId = w.eng.nextId + 1#32 := by rw [hu.eng]; rfl
      obtain ⟨hnm, hcurW, hnext⟩ := h.position hsize
      have hsucc : (n + 1) * s.cfg.maxChunk = n * s.cfg.maxChunk + s.cfg.maxChunk := Nat.succ_mul ..
      have hdoneU := hprog.done
      have hleftU := hprog.left
      have hleftW := h.left
      have hcur : u.eng.cCur.toNat = w.eng.cCur.toNat + nextChunk w := by omega
      have hleft : u.eng.cSize.toNat = w.eng.cSize.toNat - nextChunk w := by omega
      rw [← hcur] at hdrop
      have hwhole' : total - nextChunk w = u.eng.cSize.toNat ∨ s.cfg.maxChunk ∣ total - nextChunk w := by
        rcases hwhole with rfl | hdvd
        · exact .inl hleft.symm
        · have hfull : nextChunk w = s.cfg.maxChunk := by
            have hbig := Nat.le_of_dvd (by omega) hdvd
            omega
          rw [hfull]
          exact .inr (Nat.dvd_sub hdvd dvd_rfl)
      obtain ⟨t, m, hgo', hprog', hts, htc⟩ := ih hprog (total := total - nextChunk w) (data := data.drop (nextChunk w)) (by omega)
        (by omega) hwhole' hdrop (by rw [hus, hid, h.kind])
      refine ⟨t, m, ?_, hprog', hts, by omega⟩
      rw [hid] at hgo'
      have hall := hgo.trans hgo'
      rw [h.kind] at hall
      refine (congrArg (fun n => Goes n w t) ?_).mp hall
      simp only [quiet, List.length_append, List.length_replicate, List.length_singleton]

/-! ### The end of the operation -/

theorem chunkCount_eq {size m n : Nat} (hm : 1 ≤ m) (hlo : n = 0 ∨ (n - 1) * m < size) (hhi : size ≤ n * m) :
    chunkCount size m = n := by
  rw [chunkCount, Nat.div_eq_iff (by omega)]
  rcases Nat.eq_zero_or_pos n with rfl | hpos
  · omega
  · obtain ⟨j, rfl⟩ : ∃ j, n = j + 1 := ⟨n - 1, by omega⟩
    have hsucc : (j + 1) * m = j * m + m := Nat.succ_mul ..
    rw [Nat.add_sub_cancel] at hlo
    omega

/-- The last test of an operation all of whose bytes are done (R151, R155). -/
theorem Progress.finished {k : ChunkKind} {addr : U32} {buf : U64} {size : U32} {moved : Nat → Byte} {s w : State} {n : Nat}
    (h : Progress k addr buf size moved s w n) (hc : parametersOk s.cfg = true) (hsched : w.env.sched = [])
    (hall : w.eng.cCur.toNat = size.toNat) :
    Goes 1 w (stepFTest w) ∧ ChunksDone s (stepFTest w) k addr size := by
  obtain ⟨-, -, -, -, hmax, -, -⟩ := (parametersOk_iff s.cfg).1 hc
  have hdone := h.done
  have hleft := h.left
  have hzero : w.eng.cSize = 0#32 := BitVec.eq_of_toNat_eq (by rw [hleft]; simp; omega)
  have hend : stepFTest w = { w with eng := { w.eng with cKind := .none, res := codeOk, pc := .rest } } := by
    simp [stepFTest, hzero]
  have hgo : Goes 1 w (stepFTest w) := by
    have hone := epath_one (s := w) (by rw [h.pc]; simp) (by rw [h.pc]; simp)
    have hstep : engineStep w = stepFTest w := by simp only [engineStep, h.pc]
    rw [hstep] at hone
    exact hone.goes_of_nil hsched (by rw [hend]; exact hsched)
  have hcount : chunkCount size.toNat s.cfg.maxChunk = n := chunkCount_eq hmax h.begun (by omega)
  have hcur : w.eng.cCur = size := BitVec.eq_of_toNat_eq hall
  have hsize : size = 0#32 ↔ n = 0 := by
    constructor
    · rintro rfl
      rcases h.begun with h0 | h0
      · exact h0
      · simp at h0
    · rintro rfl
      exact BitVec.eq_of_toNat_eq (by simp; omega)
  have hrecord : n ≠ 0 → ChunkRecord s w k addr size (n - 1) := fun hn => h.record (by omega)
  have hlast : n ≠ 0 → w.eng.diag = lastChunkDiag s k addr size.toNat := fun hn => by
    rw [(hrecord hn).diag, lastChunkDiag, hcount]
    have hsucc : n * s.cfg.maxChunk = (n - 1) * s.cfg.maxChunk + s.cfg.maxChunk := by
      rw [← Nat.succ_mul, Nat.succ_eq_add_one, Nat.sub_add_cancel (by omega)]
    rw [Nat.min_eq_left (by omega)]
  refine ⟨hgo, ?_⟩
  rw [hend]
  have hvis : ∀ f, visible { w with eng := { w.eng with cKind := .none, res := codeOk, pc := .rest } } (.field f)
      = visible w (.field f) := fun f => visible_field_congr rfl rfl f
  refine ⟨rfl, rfl, rfl, by rw [hcount]; exact h.nextId, hzero, hcur, by rw [← hcur]; exact h.address, ?_, ⟨fun h0 f _ => ?_, fun h0 => ?_⟩,
    ?_, h.signals, h.settled, h.idle, h.caller⟩
  · by_cases h0 : size = 0#32
    · rw [if_pos h0]
      exact (h.fresh (hsize.1 h0)).1
    · rw [if_neg h0]
      exact hlast (fun hn => h0 (hsize.2 hn))
  · rw [hvis]
    exact (h.fresh (hsize.1 h0)).2.2 f
  · have hn : n ≠ 0 := fun hn => h0 (hsize.2 hn)
    have hr := hrecord hn
    have hexec : (lastChunkDiag s k addr size.toNat).req = w.eng.diag.req := by rw [hlast hn]
    refine ⟨(hvis _).trans hr.op, ?_, ?_, ?_, ?_, (hvis _).trans hr.status⟩
    · rw [hvis, hr.arg0, hlast hn]
    · rw [hvis, hr.arg1, hlast hn]
    · rw [hvis, hr.requestId, hexec]
    · rw [hvis, hr.execId, hexec]
  · by_cases h0 : size = 0#32
    · rw [if_pos h0]
      exact (h.fresh (hsize.1 h0)).2.1
    · have hn : n ≠ 0 := fun hn => h0 (hsize.2 hn)
      rw [if_neg h0, ← hlast hn]
      exact (hrecord hn).window

/-- A chunked operation every chunk of which is answered with `'G'`. -/
theorem chunked_completes {i : Instr} {k : ChunkKind} {addr : U32} {buf : U64} {size : U32} {s : State} {data : List Byte}
    {moved : Nat → Byte} (hi : IsChunked i k addr buf size s.cfg) (hs : ReadyIdle s)
    (hrec : recognised s.cfg.gen (chunkOpcode k) = true) (hsrc : SourceOf k buf size moved s)
    (hdata : LoopData k moved 0 size.toNat data)
    (hsched : s.env.sched = chunkedSched k s.cfg.maxChunk size.toNat s.eng.nextId data) :
    ∃ t w n, exec i s = .next t ∧ ChunksDone s t k addr size ∧ Progress k addr buf size moved s w n
      ∧ w.eng.cCur.toNat = size.toNat ∧ t.bus = w.bus ∧ t.cfg = w.cfg := by
  have hc := hs.1.1
  have hturn : envTurn s = onSched (chunkSched k s.cfg.maxChunk size.toNat size.toNat s.eng.nextId data) s :=
    envTurn_of_quiet hsched
  have hstart := progress_start (addr := addr) (moved := moved) hs hi.clear
    (chunkSched k s.cfg.maxChunk size.toNat size.toNat s.eng.nextId data)
  rw [← hturn] at hstart
  set w0 := chunkInit k addr buf size (envTurn s) with hw0
  have hsched0 : w0.env.sched = chunkSched k s.cfg.maxChunk size.toNat size.toNat w0.eng.nextId data ++ [] := by
    simp [hw0, hsched, chunkedSched]
  obtain ⟨w, n, hgo, hprog, hws, hcur⟩ := goes_chunks hc hi.kind hrec hsrc size.toNat hstart le_rfl le_rfl (.inl rfl)
    hdata hsched0
  have hall : w.eng.cCur.toNat = size.toNat := by rw [hcur]; simp [hw0]
  obtain ⟨hlast, hdone⟩ := hprog.finished hc hws hall
  have hend : stepFTest w = { w with eng := (stepFTest w).eng } := by rw [stepFTest_eq]
  refine ⟨stepFTest w, w, n, ?_, hdone, hprog, hall, by rw [hend], by rw [hend]⟩
  rw [hi.exec s rfl]
  refine chunked_goes hs.1 (hgo.trans hlast) hdone.1 ?_
  have hlen : s.env.sched.length = (chunkSched k s.cfg.maxChunk size.toNat size.toNat s.eng.nextId data).length + 1 := by
    rw [hsched, chunkedSched, List.length_cons]
  have hid : w0.eng.nextId = s.eng.nextId := by simp [hw0]
  rw [hid, budget, hlen]
  omega

theorem ChunksDone.caller {s t : State} {k : ChunkKind} {addr size : U32} (h : ChunksDone s t k addr size) :
    callerUnchanged s t := by
  obtain ⟨-, -, -, -, -, -, -, -, -, -, -, -, -, hcaller⟩ := h
  exact hcaller

/-- Settles O36: an erase moves no byte, and generation A recognises its opcode. -/
theorem flashEraseCompletes : Obligations.FlashEraseCompletes := by
  intro addr size s hg hs hsched
  obtain ⟨t, w, n, hexec, hdone, hprog, -, hbus, hcfg⟩ := chunked_completes (moved := fun _ => 0#8)
    (isChunked_erase addr size s.cfg) hs (by rw [hg]; rfl) (fun h => by simp at h)
    ⟨fun h => by simp at h, fun _ => rfl⟩ hsched
  refine ⟨t, hexec, hdone, fun i hi => ?_, hdone.caller, fun a ha => ?_⟩
  · rw [visible_field_congr hcfg (congrArg Bus.mem hbus), hprog.payload i hi, if_neg (fun h => h.1 rfl)]
  · rw [hbus, hprog.outside a ha, if_neg (by simp)]

theorem recognised_read (g : Gen) : recognised g (chunkOpcode .read) = true := by cases g <;> rfl

/-- Settles O37: what a read moves is the answered data. -/
theorem flashReadCompletes : Obligations.FlashReadCompletes := by
  intro addr dst size data s hs hclear hlen hsched
  have hdata : LoopData .read (fun x => data.getD x 0#8) 0 size.toNat data := by
    refine ⟨fun _ i => ?_, fun h => absurd rfl h⟩
    split
    · rename_i hi
      simp [List.getD_eq_getElem?_getD, List.getElem?_eq_getElem (show i < data.length by omega)]
    · rw [List.getElem?_eq_none (by omega)]
  obtain ⟨t, w, n, hexec, hdone, hprog, hall, hbus, hcfg⟩ := chunked_completes (isChunked_read addr hclear) hs
    (recognised_read s.cfg.gen) (fun h => by simp at h) hdata hsched
  refine ⟨t, hexec, hdone, fun j hj => ?_, fun i hi => ?_, fun a ha hout => ?_⟩
  · rw [hbus, hprog.outside _ (bufferClear_notMailbox hclear (by omega) (by omega)), if_pos ⟨rfl, by omega, by omega⟩,
      Nat.add_sub_cancel_left, List.getD_eq_getElem?_getD, List.getElem?_eq_getElem hj]
    rfl
  · rw [visible_field_congr hcfg (congrArg Bus.mem hbus), hprog.payload i hi, hall]
    simp
  · rw [hbus, hprog.outside a ha, hall, if_neg (fun h => hout h.2)]

/-- Settles O38: what a write moves is the source, which stays. -/
theorem flashWriteCompletes : Obligations.FlashWriteCompletes := by
  intro addr src size s hs hclear hsched
  obtain ⟨t, w, n, hexec, hdone, hprog, hall, hbus, hcfg⟩ := chunked_completes
    (moved := fun x => Memory.read s.bus.mem (src.toNat + x)) (isChunked_write addr hclear) hs
    (recognised_write s.cfg.gen) (fun _ => ⟨hclear, fun _ _ => rfl⟩) ⟨fun h => by simp at h, fun _ => rfl⟩ hsched
  refine ⟨t, hexec, hdone, fun i hi => ?_, hdone.caller, fun a ha => ?_⟩
  · rw [visible_field_congr hcfg (congrArg Bus.mem hbus), hprog.payload i hi, hall]
    simp
  · rw [hbus, hprog.outside a ha, if_neg (by simp)]

end Sys2Proof.Machine
end

section
/-! SUPPORT. The arithmetic of the chunk loop along every run (R151, R156, R157, R160, R161). -/

namespace Sys2Proof.Machine

open Sys2Proof

/-- A transaction takes its id at step `W_ID` and keeps it taken (R107). -/
theorem idTaken_engineStep {s : State} (ht : inTransaction s.eng.pc = true) (ho : opChecked (engineStep s).eng.pc = true) :
    idTaken (engineStep s).eng.pc = (idTaken s.eng.pc || decide (s.eng.pc = .wId)) := by
  obtain ⟨a, x, o, hs, -⟩ := sampleRead_eq s
  have hend : ∀ {code t}, Completes code s t → opChecked t.eng.pc = false := fun {code t} h => by
    cases hopc : opChecked t.eng.pc with
    | false => rfl
    | true => exact absurd (inTransaction_of_opChecked hopc) (by simp [h.not_inTransaction])
  cases hp : s.eng.pc <;> rw [hp] at ht <;> simp only [engineStep, hp] at ho ⊢
  case v =>
    rcases stepV_cases s with ⟨-, he⟩ | ⟨-, he⟩ <;> rw [he] at ho ⊢
    · rfl
    · exact absurd ho (by simp [hend (completes_raiseInvalidOperation s)])
  case c =>
    rcases stepC_cases s with ⟨-, he⟩ | ⟨-, -, he⟩ | ⟨-, -, he⟩ <;> rw [he] at ho ⊢
    · simp [hs, hp, idTaken]
    · rfl
    · exact absurd ho (by simp [hend (completes_raiseChannelBusy_sampleRead s)])
  case poll =>
    rcases stepPoll_cases s with ⟨he, -⟩ | ⟨-, -, he⟩ | ⟨-, -, he⟩ <;> rw [he] at ho ⊢
    · simp [hs, hp, idTaken]
    · rfl
    · exact absurd ho (by simp [hend (completes_complete codeTimeout ..), raiseTimeout])
  case resolve =>
    rcases stepResolve_cases s with ⟨-, he⟩ | ⟨-, he⟩ <;> rw [he] at ho
    · exact absurd ho (by simp [hend (completes_complete codeOk ..), returnOk])
    · exact absurd ho (by simp [hend (completes_complete codeFault ..), raiseFault])
  case wOp | wA0 | wA1 | wId | sb | ring | t0 | lb | rdSt => rfl
  all_goals exact absurd ht (by decide)

/-- The chunk loop of an operation that started with the id counter at `id`, while it is active (R151). -/
structure LoopInv (cfg : Config) (k : ChunkKind) (addr : U32) (buf : U64) (size id : U32) (e : Engine) : Prop where
  kind : e.cKind = k
  buffer : e.cBuf = buf
  begun : e.pc ≠ .fInit ∧ e.pc ≠ .rest
  range : e.cCur.toNat + e.cSize.toNat = size.toNat
  address : e.cAddr = addr + e.cCur
  whole : e.cSize = 0#32 ∨ e.cCur.toNat % cfg.maxChunk = 0
  sizeLeft : e.pc = .fChunk → e.cSize ≠ 0#32
  chunk : chunkChosen e.pc = true → e.cChunk.toNat = min e.cSize.toNat cfg.maxChunk ∧ e.cSize ≠ 0#32
  ids : e.nextId = id + BitVec.ofNat 32 (chunkCount e.cCur.toNat cfg.maxChunk + if idTaken e.pc then 1 else 0)

/-- The registers of the loop that a step leaves alone. -/
theorem LoopInv.congr {cfg : Config} {k : ChunkKind} {addr : U32} {buf : U64} {size id : U32} {e e' : Engine}
    (h : LoopInv cfg k addr buf size id e) (hk : e'.cKind = e.cKind) (hb : e'.cBuf = e.cBuf) (hcur : e'.cCur = e.cCur)
    (hsize : e'.cSize = e.cSize) (haddr : e'.cAddr = e.cAddr) (hp : e'.pc ≠ .fInit ∧ e'.pc ≠ .rest)
    (hleft : e'.pc = .fChunk → e.cSize ≠ 0#32)
    (hchunk : chunkChosen e'.pc = true → e'.cChunk.toNat = min e.cSize.toNat cfg.maxChunk ∧ e.cSize ≠ 0#32)
    (hids : e'.nextId = id + BitVec.ofNat 32 (chunkCount e.cCur.toNat cfg.maxChunk + if idTaken e'.pc then 1 else 0)) :
    LoopInv cfg k addr buf size id e' :=
  ⟨hk.trans h.kind, hb.trans h.buffer, hp, by rw [hcur, hsize]; exact h.range, by rw [haddr, hcur]; exact h.address,
    by rw [hsize, hcur]; exact h.whole, fun hpc => by rw [hsize]; exact hleft hpc, fun hpc => by rw [hsize]; exact hchunk hpc,
    by rw [hcur]; exact hids⟩

/-- Only `RESOLVE` ends a transaction with `OK` (R114). -/
theorem endsAt_ok {p : Pc} (h : endsAt p codeOk) : p = .resolve := by
  cases p <;> simp [endsAt, codeOk, codeInvalidOperation, codeChannelBusy, codeTimeout] at h ⊢

/-- A loop that is over. -/
def LoopOver (e : Engine) : Prop :=
  e.pc = .rest ∧ e.cKind = .none

theorem LoopInv.transaction {k : ChunkKind} {addr : U32} {buf : U64} {size id : U32} {s : State}
    (h : LoopInv s.cfg k addr buf size id s.eng) (hk : k ≠ .none) (ht : inTransaction s.eng.pc = true) :
    LoopOver (engineStep s).eng ∨ LoopInv s.cfg k addr buf size id (engineStep s).eng := by
  have hchunk := h.chunk (chunkChosen_of_inTransaction ht)
  have hids := h.ids
  have hnext := engineStep_nextId s
  rcases engineStep_transaction ht with ⟨code, hat, hend⟩ | ⟨ho, hsame, -⟩
  · by_cases hok : code = codeOk
    · have hres : s.eng.pc = .resolve := by
        exact endsAt_ok (hok ▸ hat)
      rw [hres, if_neg (by simp)] at hnext
      have hpc := hend.pc
      rw [h.kind] at hpc
      have hto : (engineStep s).eng.pc = .fCopyOut ∨ (engineStep s).eng.pc = .fAdv := by
        rw [hpc]
        rcases chunkKind_cases hk with rfl | rfl | rfl <;> simp [returnPc, hok]
      refine .inr (h.congr (by rw [hend.cKind, if_pos hok]) hend.cBuf hend.cCur hend.cSize hend.cAddr ?_ ?_ (fun _ => ?_) ?_)
      · rcases hto with h | h <;> rw [h] <;> simp
      · rcases hto with h | h <;> rw [h] <;> simp
      · rw [hend.cChunk]
        exact hchunk
      · rw [hnext, hids, hres]
        rcases hto with h | h <;> rw [h] <;> rfl
    · exact .inl ⟨by rw [hend.pc, returnPc_error hok], by rw [hend.cKind, if_neg hok]⟩
  · have ht' := inTransaction_of_opChecked ho
    refine .inr (h.congr hsame.cKind hsame.cBuf hsame.cCur hsame.cSize hsame.cAddr ?_ ?_ (fun _ => ?_) ?_)
    · exact ⟨fun hp => by rw [hp] at ht'; exact absurd ht' (by decide), fun hp => by rw [hp] at ht'; exact absurd ht' (by decide)⟩
    · exact fun hp => by rw [hp] at ht'; exact absurd ht' (by decide)
    · rw [hsame.cChunk]
      exact hchunk
    · rw [hnext, idTaken_engineStep ht ho]
      by_cases hw : s.eng.pc = .wId
      · rw [if_pos hw, hids, hw]
        simp [idTaken, BitVec.ofNat_add, BitVec.add_assoc]
      · rw [if_neg hw, hids]
        simp [hw]

theorem chunkCount_advance {done c m : Nat} (hm : 1 ≤ m) (hd : done % m = 0) (h1 : 1 ≤ c) (h2 : c ≤ m) :
    chunkCount (done + c) m = chunkCount done m + 1 := by
  obtain ⟨q, rfl⟩ : ∃ q, done = q * m := ⟨done / m, (Nat.div_mul_cancel (Nat.dvd_of_mod_eq_zero hd)).symm⟩
  have hq : chunkCount (q * m) m = q := by
    rw [chunkCount, show q * m + m - 1 = m - 1 + q * m by omega, Nat.add_mul_div_right _ _ hm, Nat.div_eq_of_lt (by omega), Nat.zero_add]
  rw [hq, chunkCount, show q * m + c + m - 1 = c - 1 + (q + 1) * m by rw [Nat.succ_mul]; omega, Nat.add_mul_div_right _ _ hm,
    Nat.div_eq_of_lt (by omega), Nat.zero_add]

/-- The advance to the next chunk (R151, R156). -/
theorem LoopInv.advance {k : ChunkKind} {addr : U32} {buf : U64} {size id : U32} {s : State} (hc : parametersOk s.cfg = true)
    (h : LoopInv s.cfg k addr buf size id s.eng) (hp : s.eng.pc = .fAdv) : LoopInv s.cfg k addr buf size id (stepFAdv s).eng := by
  obtain ⟨-, -, -, -, hmax, -, -⟩ := (parametersOk_iff s.cfg).1 hc
  obtain ⟨hchunk, hsize⟩ := h.chunk (by rw [hp]; rfl)
  have hpos : s.eng.cSize.toNat ≠ 0 := fun e => hsize (BitVec.eq_of_toNat_eq (by simpa using e))
  have hrange := h.range
  have hlt := size.isLt
  have hcur : (s.eng.cCur + s.eng.cChunk).toNat = s.eng.cCur.toNat + s.eng.cChunk.toNat := BitVec.toNat_add_of_lt (by omega)
  have hleft : (s.eng.cSize - s.eng.cChunk).toNat = s.eng.cSize.toNat - s.eng.cChunk.toNat :=
    BitVec.toNat_sub_of_le (by rw [BitVec.le_def]; omega)
  have hmod : s.eng.cCur.toNat % s.cfg.maxChunk = 0 := h.whole.resolve_left hsize
  have hids := h.ids
  have hnot : chunkChosen .fTest = false := rfl
  refine ⟨h.kind, h.buffer, ⟨by simp [stepFAdv], by simp [stepFAdv]⟩, ?_, ?_, ?_, fun hpc => by simp [stepFAdv] at hpc,
    fun hpc => absurd hpc (by simp [stepFAdv, hnot]), ?_⟩
  · show (s.eng.cCur + s.eng.cChunk).toNat + (s.eng.cSize - s.eng.cChunk).toNat = _
    omega
  · show s.eng.cAddr + s.eng.cChunk = addr + (s.eng.cCur + s.eng.cChunk)
    rw [h.address, BitVec.add_assoc]
  · show s.eng.cSize - s.eng.cChunk = 0#32 ∨ (s.eng.cCur + s.eng.cChunk).toNat % s.cfg.maxChunk = 0
    rw [hcur]
    by_cases hfull : s.cfg.maxChunk ≤ s.eng.cSize.toNat
    · right
      rw [show s.eng.cChunk.toNat = s.cfg.maxChunk by omega, Nat.add_mod_right, hmod]
    · left
      exact BitVec.eq_of_toNat_eq (by rw [hleft]; simp; omega)
  · show s.eng.nextId = _
    have hcount := chunkCount_advance (c := s.eng.cChunk.toNat) hmax hmod (by omega) (by omega)
    rw [hids, hp]
    show _ = id + BitVec.ofNat 32 (chunkCount (s.eng.cCur + s.eng.cChunk).toNat s.cfg.maxChunk + 0)
    rw [hcur, hcount]
    rfl

/-- Every requester step of an active loop keeps its arithmetic, or ends it. -/
theorem LoopInv.step {k : ChunkKind} {addr : U32} {buf : U64} {size id : U32} {s : State} (hc : parametersOk s.cfg = true)
    (h : LoopInv s.cfg k addr buf size id s.eng) (hk : k ≠ .none) :
    LoopOver (engineStep s).eng ∨ LoopInv s.cfg k addr buf size id (engineStep s).eng := by
  by_cases ht : inTransaction s.eng.pc = true
  · exact h.transaction hk ht
  have hids := h.ids
  cases hp : s.eng.pc <;> rw [hp] at ht hids <;> simp only [engineStep, hp]
  case fTest =>
    rw [stepFTest_eq]
    dsimp only
    split
    · exact .inl ⟨rfl, rfl⟩
    · exact .inr (h.congr rfl rfl rfl rfl rfl (by simp) (fun _ => ‹_›)
        (by simp [chunkChosen, inTransaction, beforeCheck, opChecked]) hids)
  case fChunk =>
    have hsize := h.sizeLeft hp
    have hto : (stepFChunk s).eng.pc = .fCopyIn ∨ (stepFChunk s).eng.pc = .fCmd := by
      simp only [stepFChunk]
      split
      · exact .inl rfl
      · exact .inr rfl
    refine .inr (h.congr rfl rfl rfl rfl rfl ?_ ?_ (fun _ => ⟨chunkOf_toNat _ _, hsize⟩) ?_)
    · rcases hto with h | h <;> rw [h] <;> simp
    · rcases hto with h | h <;> rw [h] <;> simp
    · rcases hto with h | h <;> rw [h] <;> exact hids
  case fCopyIn =>
    have hchunk := h.chunk (by rw [hp]; rfl)
    rw [stepFCopyIn, copyNext_eng]
    split
    · exact .inr (h.congr rfl rfl rfl rfl rfl h.begun h.sizeLeft (fun _ => hchunk) h.ids)
    · exact .inr (h.congr rfl rfl rfl rfl rfl (by simp) (by simp) (fun _ => hchunk) hids)
  case fCopyOut =>
    have hchunk := h.chunk (by rw [hp]; rfl)
    rw [stepFCopyOut, copyNext_eng]
    split
    · exact .inr (h.congr rfl rfl rfl rfl rfl h.begun h.sizeLeft (fun _ => hchunk) h.ids)
    · exact .inr (h.congr rfl rfl rfl rfl rfl (by simp) (by simp) (fun _ => hchunk) hids)
  case fCmd =>
    exact .inr (h.congr rfl rfl rfl rfl rfl (by simp [stepFCmd]) (by simp [stepFCmd]) (fun _ => h.chunk (by rw [hp]; rfl)) hids)
  case fAdv => exact .inr (h.advance hc hp)
  case rest => exact absurd hp h.begun.2
  case fInit => exact absurd hp h.begun.1
  all_goals exact absurd rfl ht

theorem loopInv_chunkInit {k : ChunkKind} (addr : U32) (buf : U64) (size : U32) (s : State) :
    LoopInv s.cfg k addr buf size s.eng.nextId (chunkInit k addr buf size s).eng := by
  refine ⟨rfl, rfl, by simp, by simp, by simp, .inr (by simp), by simp,
    by simp [chunkChosen, inTransaction, beforeCheck, opChecked], ?_⟩
  have hzero : chunkCount 0 s.cfg.maxChunk = 0 := by
    rw [chunkCount, Nat.div_eq_zero_iff]
    omega
  simp [hzero, idTaken]

theorem LoopOver.tick {s : State} (h : LoopOver s.eng) : LoopOver (tick s).eng := by
  have hp : (envTurn s).eng.pc = .rest := by rw [envTurn_eng]; exact h.1
  have hstay : engineStep (envTurn s) = envTurn s := by simp only [engineStep, hp]
  rw [Machine.tick, hstay, envTurn_eng]
  exact h

/-- The loop after any number of requester steps: over, or within its arithmetic. -/
theorem loop_ticks {k : ChunkKind} {addr : U32} {buf : U64} {size id : U32} {s : State} (hc : parametersOk s.cfg = true)
    (hk : k ≠ .none) (h : LoopOver s.eng ∨ LoopInv s.cfg k addr buf size id s.eng) (n : Nat) :
    LoopOver (ticks n s).eng ∨ LoopInv s.cfg k addr buf size id (ticks n s).eng := by
  induction n generalizing s with
  | zero => exact h
  | succ n ih =>
    have hcfg : (tick s).cfg = s.cfg := tick_cfg s
    have hnext := ih (s := tick s) (by rw [hcfg]; exact hc)
    rw [hcfg] at hnext
    refine hnext ?_
    rcases h with h | h
    · exact .inl h.tick
    · have hstep := LoopInv.step (s := envTurn s) (k := k) (addr := addr) (buf := buf) (size := size) (id := id)
        (by simpa using hc) (by simpa using h) hk
      rwa [envTurn_cfg] at hstep

/-- Settles O55: the invariant of the loop at any point of the run. -/
theorem chunksCoverTheRange : Obligations.ChunksCoverTheRange := by
  intro k addr buf size s n hk hc t hactive
  have hloop : LoopOver t.eng ∨ LoopInv s.cfg k addr buf size s.eng.nextId t.eng :=
    loop_ticks (s := chunkInit k addr buf size s) hc hk (.inr (loopInv_chunkInit addr buf size s)) n
  rcases hloop with h | h
  · exact absurd h.2 hactive
  · obtain ⟨-, -, -, -, hmax, hcap, -⟩ := (parametersOk_iff s.cfg).1 hc
    have hrange := h.range
    refine ⟨h.kind, h.buffer, hrange, h.address, h.whole, fun hpc => ?_, h.ids⟩
    obtain ⟨hchunk, hsize⟩ := h.chunk hpc
    have hpos : t.eng.cSize.toNat ≠ 0 := fun e => hsize (BitVec.eq_of_toNat_eq (by simpa using e))
    have hlen : chunkLength s.cfg size.toNat t.eng.cCur.toNat = t.eng.cChunk.toNat := by
      rw [chunkLength, hchunk]
      congr 1
      omega
    exact ⟨hlen.symm, by omega, by omega⟩

end Sys2Proof.Machine
end

section
/-! SUPPORT. What a transaction comes back with, for every interleaving (R116, R118, R121, R190, R195, R196). -/

namespace Sys2Proof.Machine

open Sys2Proof

/-! ### A transaction under way and its end -/

/-- From `v`, at step `V`, nothing of the message has been written up to `t`, no signal given, `busy` not set (R118). -/
structure Unwritten (v t : State) : Prop where
  nextId : t.eng.nextId = v.eng.nextId
  header : ∀ f, requestHeader f = true → visible t (.field f) = visible v (.field f)
  signals : t.bus.signals ≤ v.bus.signals
  busy : busyBit v.bus.dbStatus = false → busyBit t.bus.dbStatus = false
  t0 : t.eng.t0 = v.eng.t0
  rdSt : t.eng.rdSt = v.eng.rdSt

/-- The transaction that stood at step `V` in `v` is under way in `w`. -/
structure CallTrack (v w : State) : Prop where
  cfg : w.cfg = v.cfg
  inside : inTransaction w.eng.pc = true
  command : SameCommand v.eng w.eng
  known : w.eng.pc ≠ .v → recognised v.cfg.gen v.eng.op = true
  nextId : w.eng.nextId = if idTaken w.eng.pc then v.eng.nextId + 1#32 else v.eng.nextId
  unwritten : beforeCheck w.eng.pc = true → Unwritten v w
  idleSeen : w.eng.pc = .lb ∨ w.eng.pc = .rdSt ∨ w.eng.pc = .resolve → idle w.eng.sample = true
  busySeen : w.eng.pc = .poll → w.eng.sampleAt = .rdNow → idle w.eng.sample = false
  window : w.eng.pc = .rdSt ∨ w.eng.pc = .resolve →
    w.window = responseLength v.cfg.payloadCap v.eng.op v.eng.arg1 ∨ w.window = 0

/-- How a transaction can have ended, with what its caller then sees (R190 to R196). -/
inductive CallEnd (v t : State) : Prop
  | invalid (res : t.eng.res = codeInvalidOperation) (unknown : recognised v.cfg.gen v.eng.op = false)
      (valid : t.eng.diag.valid = false) (unwritten : Unwritten v t)
  | busy (res : t.eng.res = codeChannelBusy) (seen : idle t.eng.sample = false) (status : t.eng.diag.status = t.eng.sample.st)
      (unwritten : Unwritten v t)
  | timeout (res : t.eng.res = codeTimeout) (seen : idle t.eng.sample = false) (status : t.eng.diag.status = t.eng.sample.st)
      (late : timeoutTicks v.cfg ≤ (t.env.now - t.eng.t0).toNat)
  | resolved (res : t.eng.res = if t.eng.diag.status = statusGood then codeOk else codeFault)
      (seen : idle t.eng.sample = true)
      (window : t.eng.res = codeOk → t.window = responseLength v.cfg.payloadCap v.eng.op v.eng.arg1 ∨ t.window = 0)

/-- The transaction that stood at step `V` in `v` has just handed control back in `t` (R196). -/
structure CallResult (v t : State) : Prop where
  completes : ∃ w, CallTrack v w ∧ Completes t.eng.res w t
  ends : CallEnd v t
  sampled : t.eng.res ≠ codeInvalidOperation → recognised v.cfg.gen v.eng.op = true ∧ t.eng.diag.valid = true
    ∧ t.eng.diag.req = t.eng.sample.req ∧ t.eng.diag.exec = t.eng.sample.exec
  consumed : t.eng.res ≠ codeInvalidOperation → t.eng.res ≠ codeChannelBusy →
    t.eng.nextId = v.eng.nextId + 1#32 ∧ visible t (.field .requestId) = v.eng.nextId

theorem Unwritten.refl (v : State) : Unwritten v v := ⟨rfl, fun _ _ => rfl, le_rfl, id, rfl, rfl⟩

theorem Unwritten.trans {s t u : State} (h : Unwritten s t) (h' : Unwritten t u) : Unwritten s u :=
  ⟨h'.nextId.trans h.nextId, fun f hf => (h'.header f hf).trans (h.header f hf), h'.signals.trans h.signals,
    fun hb => h'.busy (h.busy hb), h'.t0.trans h.t0, h'.rdSt.trans h.rdSt⟩

theorem Unwritten.of_keeps {v w u : State} (h : Unwritten v w) (hk : EnvKeeps w u)
    (hp : ∀ e ∈ w.ord.pending, requestHeader e.field = false) : Unwritten v u := by
  refine h.trans ⟨by rw [hk.eng], fun f hf => hk.visible_header hf fun e he hfe => ?_, hk.signals, hk.busy, by rw [hk.eng],
    by rw [hk.eng]⟩
  rw [← hfe, hp e he] at hf
  exact Bool.noConfusion hf

theorem not_inWritePhase_of_beforeCheck {p : Pc} (h : beforeCheck p = true) : inWritePhase p = false := by
  revert h
  cases p <;> decide

theorem callTrack_start {v : State} (hv : v.eng.pc = .v) : CallTrack v v :=
  ⟨rfl, by rw [hv]; rfl, by constructor <;> rfl, fun h => absurd hv h, by rw [hv]; rfl, fun _ => .refl v, by simp [hv], by simp [hv],
    by simp [hv]⟩

/-- The environment's turn in a transaction. -/
theorem CallTrack.of_keeps {v w u : State} (h : CallTrack v w) (hs : SafeState w) (hk : EnvKeeps w u) : CallTrack v u where
  cfg := hk.cfg.trans h.cfg
  inside := by rw [hk.eng]; exact h.inside
  command := by rw [hk.eng]; exact h.command
  known := by rw [hk.eng]; exact h.known
  nextId := by rw [hk.eng]; exact h.nextId
  unwritten := by
    rw [hk.eng]
    exact fun hb => (h.unwritten hb).of_keeps hk (hs.pendingHeader (not_inWritePhase_of_beforeCheck hb))
  idleSeen := by rw [hk.eng]; exact h.idleSeen
  busySeen := by rw [hk.eng]; exact h.busySeen
  window := by
    rw [hk.eng]
    exact fun hp => hk.window.elim (fun hw => by rw [hw]; exact h.window hp) .inr

theorem SameCommand.trans {e e' e'' : Engine} (h : SameCommand e e') (h' : SameCommand e' e'') : SameCommand e e'' :=
  ⟨h'.op.trans h.op, h'.arg0.trans h.arg0, h'.arg1.trans h.arg1, h'.cKind.trans h.cKind, h'.cAddr.trans h.cAddr,
    h'.cSize.trans h.cSize, h'.cCur.trans h.cCur, h'.cChunk.trans h.cChunk, h'.cIdx.trans h.cIdx, h'.cBuf.trans h.cBuf,
    h'.res.trans h.res, h'.diag.trans h.diag⟩

theorem Unwritten.of_completes {code : BitVec 3} {v w t : State} (h : Unwritten v w) (hend : Completes code w t) :
    Unwritten v t :=
  h.trans ⟨hend.nextId, fun f _ => visible_field_congr hend.cfg (by rw [hend.bus]) f, by rw [hend.bus],
    by rw [hend.bus]; exact id, hend.t0, hend.rdSt⟩

/-- A result past the channel check comes from `POLL` or `RESOLVE` (R190). -/
theorem endsAt_afterDoorbell {p : Pc} {code : BitVec 3} (h : endsAt p code) (hi : code ≠ codeInvalidOperation)
    (hb : code ≠ codeChannelBusy) : p = .poll ∨ p = .resolve := by
  cases p <;> simp only [endsAt, reduceCtorEq, or_self, or_true, true_or] at h ⊢
  · exact hi h
  · exact hb h

/-- Past the doorbell the coprocessor sees the id that the transaction took (R107, R121). -/
theorem CallTrack.id_visible {v w : State} (h : CallTrack v w) (hs : SafeState w) (hm : MessageHeld w)
    (hp : w.eng.pc ∈ [Pc.t0, .poll, .lb, .rdSt, .resolve]) :
    w.eng.nextId = v.eng.nextId + 1#32 ∧ visible w (.field .requestId) = v.eng.nextId := by
  have hsub : w.eng.pc ∈ [Pc.sb, .ring, .t0, .poll, .lb, .rdSt, .resolve] :=
    (by decide : [Pc.t0, .poll, .lb, .rdSt, .resolve] ⊆ [Pc.sb, .ring, .t0, .poll, .lb, .rdSt, .resolve]) hp
  have hdone : afterDoorbell w.eng.pc = true := by
    simp only [List.mem_cons, List.not_mem_nil, or_false] at hp
    rcases hp with hp | hp | hp | hp | hp <;> rw [hp] <;> rfl
  have htaken : idTaken w.eng.pc = true := by
    simp only [List.mem_cons, List.not_mem_nil, or_false] at hp
    rcases hp with hp | hp | hp | hp | hp <;> rw [hp] <;> rfl
  have hid : w.eng.nextId = v.eng.nextId + 1#32 := by rw [h.nextId, htaken, if_pos rfl]
  have hown := (hm.seen hsub).requestId
  rw [ownView_of_not_pending (by simp [hs.pendingDone hdone]), hid, BitVec.add_sub_cancel] at hown
  exact ⟨hid, hown⟩

/-- A completion of a transaction under way, once its end and its record are known. -/
theorem CallTrack.ended {code : BitVec 3} {v w t : State} (h : CallTrack v w) (hs : SafeState w) (hm : MessageHeld w)
    (hat : endsAt w.eng.pc code) (hend : Completes code w t) (hcall : CallEnd v t)
    (hrec : code ≠ codeInvalidOperation → t.eng.diag.valid = true ∧ t.eng.diag.req = t.eng.sample.req
      ∧ t.eng.diag.exec = t.eng.sample.exec) : CallResult v t where
  completes := ⟨w, h, by rw [hend.res]; exact hend⟩
  ends := hcall
  sampled := by
    rw [hend.res]
    refine fun hi => ⟨h.known fun hv => hi ?_, hrec hi⟩
    rw [hv] at hat
    exact hat
  consumed := by
    rw [hend.res]
    intro hi hb
    have hp : w.eng.pc ∈ [Pc.t0, .poll, .lb, .rdSt, .resolve] := by
      rcases endsAt_afterDoorbell hat hi hb with hp | hp <;> simp [hp]
    obtain ⟨hid, hvis⟩ := h.id_visible hs hm hp
    exact ⟨hend.nextId.trans hid, (visible_field_congr hend.cfg (by rw [hend.bus]) _).trans hvis⟩

/-- What a transaction that goes on has seen so far of the channel and of its response. -/
structure Seen (v t : State) : Prop where
  inside : inTransaction t.eng.pc = true
  early : beforeCheck t.eng.pc = true → Unwritten v t
  idleSeen : t.eng.pc = .lb ∨ t.eng.pc = .rdSt ∨ t.eng.pc = .resolve → idle t.eng.sample = true
  busySeen : t.eng.pc = .poll → t.eng.sampleAt = .rdNow → idle t.eng.sample = false
  window : t.eng.pc = .rdSt ∨ t.eng.pc = .resolve →
    t.window = responseLength v.cfg.payloadCap v.eng.op v.eng.arg1 ∨ t.window = 0

/-- At the steps of the write phase and at `T0` nothing has been seen that still matters. -/
theorem seen_of_pc {v t : State} (h : t.eng.pc ∈ [Pc.wOp, .wA0, .wA1, .wId, .sb, .ring, .t0]) : Seen v t := by
  simp only [List.mem_cons, List.not_mem_nil, or_false] at h
  have hin : inTransaction t.eng.pc = true := by rcases h with h | h | h | h | h | h | h <;> rw [h] <;> rfl
  refine ⟨hin, ?_, ?_, ?_, ?_⟩ <;> intro hp <;> rcases h with h | h | h | h | h | h | h <;> simp [h, beforeCheck] at hp

theorem CallTrack.step_c {v w : State} (h : CallTrack v w) (hs : SafeState w) (hm : MessageHeld w) (hp : w.eng.pc = .c) :
    CallResult v (stepC w) ∨ Seen v (stepC w) := by
  obtain ⟨a, x, o, hsample, ho⟩ := sampleRead_eq w
  rcases stepC_cases w with ⟨-, he⟩ | ⟨-, -, he⟩ | ⟨-, hidle, he⟩ <;> rw [he]
  · refine .inr ⟨by rw [hsample]; exact h.inside, fun _ => (h.unwritten (by rw [hp]; rfl)).trans ?_, ?_, ?_, ?_⟩
    · rw [hsample]
      exact ⟨rfl, fun f _ => visible_field_congr rfl rfl f, le_rfl, id, rfl, rfl⟩
    all_goals rw [hsample]; simp [hp]
  · exact .inr (seen_of_pc (by simp))
  · have hend := completes_raiseChannelBusy_sampleRead w
    refine .inl (h.ended hs hm (by rw [hp]; rfl) hend (.busy hend.res ?_ ?_ ((h.unwritten (by rw [hp]; rfl)).of_completes hend))
      fun _ => ?_)
    · rw [raiseChannelBusy, complete_eq]; exact hidle
    all_goals rw [raiseChannelBusy, complete_eq]
    exact ⟨rfl, rfl, rfl⟩

theorem CallTrack.step_poll {v w : State} (h : CallTrack v w) (hs : SafeState w) (hm : MessageHeld w) (hp : w.eng.pc = .poll) :
    CallResult v (stepPoll w) ∨ Seen v (stepPoll w) := by
  obtain ⟨a, x, o, hsample, -⟩ := sampleRead_eq w
  rcases stepPoll_cases w with ⟨he, -, hbusy⟩ | ⟨-, hidle, he⟩ | ⟨hat, hlate, he⟩ <;> rw [he]
  · refine .inr ⟨by rw [hsample]; exact h.inside, fun hb => ?_, ?_, fun _ hnow => ?_, ?_⟩
    · rw [hsample] at hb; simp [hp, beforeCheck] at hb
    · rw [hsample]; simp [hp]
    · refine hbusy ?_
      cases ha : w.eng.sampleAt <;> simp [sampleRead, ha] at hnow ⊢
    · rw [hsample]; simp [hp]
  · exact .inr ⟨rfl, fun hb => Bool.noConfusion hb, fun _ => hidle, by simp, by simp⟩
  · have hend : Completes codeTimeout w (raiseTimeout w) := completes_complete ..
    refine .inl (h.ended hs hm (by rw [hp]; rfl) hend (.timeout hend.res ?_ ?_ ?_) fun _ => ?_)
    · rw [raiseTimeout, complete_eq]; exact h.busySeen hp hat
    · rw [raiseTimeout, complete_eq]
    · rw [hend.env, hend.t0, ← h.cfg]
      simpa [expired] using hlate
    · rw [raiseTimeout, complete_eq]; exact ⟨rfl, rfl, rfl⟩

theorem CallTrack.step_resolve {v w : State} (h : CallTrack v w) (hs : SafeState w) (hm : MessageHeld w)
    (hp : w.eng.pc = .resolve) : CallResult v (stepResolve w) := by
  have hidle := h.idleSeen (by simp [hp])
  have hwin := h.window (by simp [hp])
  rcases stepResolve_cases w with ⟨hst, he⟩ | ⟨hst, he⟩ <;> rw [he]
  · have hend : Completes codeOk w (returnOk w) := completes_complete ..
    refine h.ended hs hm (by rw [hp]; exact .inl rfl) hend (.resolved ?_ ?_ fun _ => ?_) fun _ => ?_
    · rw [hend.res, returnOk, complete_eq]; exact (if_pos hst).symm
    · rw [returnOk, complete_eq]; exact hidle
    · rw [hend.window, if_pos rfl]; exact hwin
    · rw [returnOk, complete_eq]; exact ⟨rfl, rfl, rfl⟩
  · have hend : Completes codeFault w (raiseFault w) := completes_complete ..
    refine h.ended hs hm (by rw [hp]; exact .inr rfl) hend (.resolved ?_ ?_ fun hok => ?_) fun _ => ?_
    · rw [hend.res, raiseFault, complete_eq]; exact (if_neg hst).symm
    · rw [raiseFault, complete_eq]; exact hidle
    · rw [hend.res] at hok; exact absurd hok (by decide)
    · rw [raiseFault, complete_eq]; exact ⟨rfl, rfl, rfl⟩

theorem CallTrack.step_v {v w : State} (h : CallTrack v w) (hs : SafeState w) (hm : MessageHeld w) (hp : w.eng.pc = .v) :
    CallResult v (stepV w) ∨ Seen v (stepV w) := by
  have hun := h.unwritten (by rw [hp]; rfl)
  rcases stepV_cases w with ⟨-, he⟩ | ⟨hr, he⟩ <;> rw [he]
  · exact .inr ⟨rfl, fun _ => hun.trans ⟨rfl, fun f _ => visible_field_congr rfl rfl f, le_rfl, id, rfl, rfl⟩, by simp, by simp, by simp⟩
  · have hend := completes_raiseInvalidOperation w
    rw [h.cfg, h.command.op] at hr
    refine .inl (h.ended hs hm (by rw [hp]; rfl) hend (.invalid hend.res hr ?_ (hun.of_completes hend))
      fun hne => absurd rfl hne)
    rw [raiseInvalidOperation, complete_eq]

/-- What each step of a transaction sees, or how it ends the transaction. -/
theorem CallTrack.step_sees {v w : State} (h : CallTrack v w) (hs : SafeState w) (hm : MessageHeld w) :
    CallResult v (engineStep w) ∨ Seen v (engineStep w) := by
  have hin := h.inside
  cases hp : w.eng.pc <;> rw [hp] at hin <;> simp only [engineStep, hp]
  case v => exact h.step_v hs hm hp
  case c => exact h.step_c hs hm hp
  case poll => exact h.step_poll hs hm hp
  case resolve => exact .inl (h.step_resolve hs hm hp)
  case wA0 => exact .inr (seen_of_pc (by simp [stepWA0]))
  case wA1 => exact .inr (seen_of_pc (by simp [stepWA1]))
  case wOp | wId | sb | ring => exact .inr (seen_of_pc (by simp [stepWOp, stepWId, stepSb, stepRing]))
  case t0 => exact .inr ⟨rfl, fun hb => Bool.noConfusion hb, by simp [stepT0], by simp [stepT0], by simp [stepT0]⟩
  case lb =>
    refine .inr ⟨rfl, fun hb => Bool.noConfusion hb, fun _ => h.idleSeen (.inl hp), by simp [stepLb], fun _ => .inl ?_⟩
    rw [stepLb_window, h.cfg, h.command.op, h.command.arg1]
  case rdSt =>
    exact .inr ⟨rfl, fun hb => Bool.noConfusion hb, fun _ => h.idleSeen (.inr (.inl hp)), by simp [stepRdSt],
      fun _ => h.window (.inl hp)⟩
  all_goals exact absurd hin (by decide)

/-- Every step of a transaction keeps the track, or ends the transaction. -/
theorem CallTrack.step {v w : State} (h : CallTrack v w) (hs : SafeState w) (hm : MessageHeld w) :
    CallResult v (engineStep w) ∨ CallTrack v (engineStep w) := by
  rcases h.step_sees hs hm with hres | ⟨hin, hearly, hidle, hbusy, hwin⟩
  · exact .inl hres
  rcases engineStep_transaction h.inside with ⟨code, -, hend⟩ | ⟨ho, hsame, hrec⟩
  · rw [hend.not_inTransaction] at hin
    exact Bool.noConfusion hin
  · refine .inr ⟨(engineStep_cfg w).trans h.cfg, inTransaction_of_opChecked ho, h.command.trans hsame, fun _ => ?_, ?_, hearly, hidle,
      hbusy, hwin⟩
    · by_cases hv : w.eng.pc = .v
      · rw [← h.cfg, ← h.command.op]; exact hrec hv
      · exact h.known hv
    · rw [engineStep_nextId, idTaken_engineStep h.inside ho]
      have hid := h.nextId
      by_cases hw : w.eng.pc = .wId
      · rw [if_pos hw, hid, hw]; rfl
      · rw [if_neg hw, hid]; simp [hw]

end Sys2Proof.Machine
end

section
/-! SUPPORT. Every completed call, for every interleaving: ids, what a failed check leaves, the report (R116, R118, R121, R190). -/

namespace Sys2Proof.Machine

open Sys2Proof

theorem CallResult.not_inTransaction {v t : State} (h : CallResult v t) : inTransaction t.eng.pc = false := by
  obtain ⟨w, -, hend⟩ := h.completes
  exact hend.not_inTransaction

/-- A turn of the environment and a requester step, in a transaction under way. -/
theorem CallTrack.tick {v w : State} (hc : parametersOk w.cfg = true) (h : CallTrack v w) (hs : SafeState w)
    (hm : MessageHeld w) : CallResult v (tick w) ∨ CallTrack v (tick w) := by
  have hk := envTurn_keeps hc hs
  exact (h.of_keeps hs hk).step (envTurn_safe hs) (hm.of_keeps hk)

/-- A transaction of no chunk loop along a run: under way, or over with the engine at `REST`. -/
structure CallRun (v w : State) : Prop where
  parameters : parametersOk w.cfg = true
  safe : SafeState w
  held : MessageHeld w
  call : CallTrack v w ∨ (CallResult v w ∧ w.eng.pc = .rest)

theorem CallResult.pc_rest {v t : State} (h : CallResult v t) (hk : v.eng.cKind = .none) : t.eng.pc = .rest := by
  obtain ⟨w, htrack, hend⟩ := h.completes
  rw [hend.pc, htrack.command.cKind, hk]
  rfl

theorem CallRun.step {v u : State} (hk : v.eng.cKind = .none) (hc : parametersOk u.cfg = true) (hs : SafeState u)
    (hm : MessageHeld u) (h : CallTrack v u) : CallRun v (engineStep u) :=
  ⟨by simpa using hc, engineStep_safe hc hs, engineStep_held hc hs hm,
    (h.step hs hm).symm.imp_right fun hres => ⟨hres, hres.pc_rest hk⟩⟩

theorem CallRun.tick {v w : State} (hk : v.eng.cKind = .none) (h : CallRun v w) (hp : w.eng.pc ≠ .rest) :
    CallRun v (tick w) := by
  obtain ⟨hc, hs, hm, htrack | ⟨-, hrest⟩⟩ := h
  · have hkeep := envTurn_keeps hc hs
    exact CallRun.step hk (by simpa using hc) (envTurn_safe hs) (hm.of_keeps hkeep) (htrack.of_keeps hs hkeep)
  · exact absurd hrest hp

/-- A command, from the engine's first step on: it is under way, or has ended with what its caller sees. -/
theorem exec_call {i : Instr} {op : Byte} {x y : U32} {s t : State} (hi : commandOf i = some (op, x, y)) (hs : SafeState s)
    (h : exec i s = .next t) : CallRun (called op x y (envTurn s)) t := by
  rw [exec_of_commandOf hi] at h
  obtain ⟨hc, hr, rfl⟩ := hostOperation_next h
  have hc' : parametersOk (envTurn s).cfg = true := by simpa using hc
  have hr' : (envTurn s).eng.pc = .rest := by simpa using hr
  have hkind : (called op x y (envTurn s)).eng.cKind = .none := (envTurn_safe hs).restKind hr'
  refine run_induction (P := CallRun (called op x y (envTurn s))) (fun w hw hp => hw.tick hkind hp) _ ?_
  rw [stepV_latch]
  exact CallRun.step hkind hc' (latch_at_v_safe (envTurn_safe hs) hr' op x y)
    (messageHeld_of_not_holding (by simp [holdingPcs])) (callTrack_start rfl)

/-- A command that has come back to `REST` has its result. -/
theorem CallRun.result {v w : State} (h : CallRun v w) (hr : w.eng.pc = .rest) : CallResult v w := by
  rcases h.call with htrack | ⟨hres, -⟩
  · have hin := htrack.inside
    rw [hr] at hin
    exact Bool.noConfusion hin
  · exact hres

/-- A call's engine compared with the engine it was made to: the operands are latched, the header is as it was (R33, R102). -/
theorem unwritten_called {s : State} (hc : parametersOk s.cfg = true) (hs : SafeState s) (hr : s.eng.pc = .rest) (op : Byte)
    (x y : U32) : Unwritten s (called op x y (envTurn s)) := by
  have hk := envTurn_keeps hc hs
  have hp := hs.pendingHeader (by rw [hr]; rfl)
  refine Unwritten.trans ((Unwritten.refl s).of_keeps hk hp) ⟨rfl, fun f _ => visible_field_congr rfl rfl f, le_rfl, id, rfl, rfl⟩

theorem CallResult.unwritten {v t : State} (h : CallResult v t)
    (hcode : t.eng.res = codeInvalidOperation ∨ t.eng.res = codeChannelBusy) : Unwritten v t := by
  rcases h.ends with ⟨-, -, -, hun⟩ | ⟨-, -, -, hun⟩ | ⟨hres, -⟩ | ⟨hres, -⟩
  · exact hun
  · exact hun
  · rw [hres] at hcode
    exact absurd hcode (by decide)
  · rw [hres] at hcode
    split at hcode <;> exact absurd hcode (by decide)

/-- An `OK`, a `Timeout` and a `Fault` are no failed check. -/
theorem not_failedCheck {code : BitVec 3} (h : code = codeOk ∨ code = codeTimeout ∨ code = codeFault) :
    code ≠ codeInvalidOperation ∧ code ≠ codeChannelBusy := by
  rcases h with rfl | rfl | rfl <;> decide

theorem callRun_result {v : State} (fuel : Nat) {w t : State} (hc : parametersOk w.cfg = true) (hs : SafeState w)
    (hm : MessageHeld w) (h : CallTrack v w) (hrun : callRun fuel w = some t) : CallResult v t := by
  induction fuel generalizing w with
  | zero => exact absurd hrun (by simp [callRun])
  | succ fuel ih =>
    rw [callRun] at hrun
    rcases h.tick hc hs hm with hres | htrack
    · rw [if_neg (by simp [hres.not_inTransaction])] at hrun
      rw [← Option.some.inj hrun]
      exact hres
    · rw [if_pos htrack.inside] at hrun
      exact ih (by simpa using hc) (tick_safe hc hs) (tick_held hc hs hm) htrack hrun

/-- Settles O51: a failed check leaves header and counter, every other end comes after `W_ID`. -/
theorem idConsumption : Obligations.IdConsumption := by
  unfold Obligations.IdConsumption
  intro consumed
  have hconsumed : ∀ {s v t : State}, Unwritten s v → CallResult v t → consumed s t := fun {s v t} hun hres =>
    ⟨fun hcode => ⟨(hun.trans (hres.unwritten hcode)).nextId, (hun.trans (hres.unwritten hcode)).header _ rfl⟩, fun hcode => by
      obtain ⟨hi, hb⟩ := not_failedCheck hcode
      rw [← hun.nextId]
      exact hres.consumed hi hb⟩
  refine ⟨fun i ⟨op, x, y⟩ s t hi hs h hr => ?_, fun fuel s t hs hc hp hrun => ?_⟩
  · obtain ⟨hc, hrest, -⟩ := exec_next h
    exact hconsumed (unwritten_called hc hs hrest op x y) ((exec_call hi hs h).result hr)
  · exact hconsumed (.refl s) (callRun_result fuel hc hs (messageHeld_of_not_holding (by simp [hp, holdingPcs])) (callTrack_start hp)
      hrun)

/-- Settles O52: up to the failed check nothing of the message is written, and at `REST` no header store is pending. -/
theorem failedCheckWritesNothing : Obligations.FailedCheckWritesNothing := by
  intro i ⟨op, x, y⟩ s t hi hs h hr hcode
  obtain ⟨hc, hrest, -⟩ := exec_next h
  have hun := (unwritten_called hc hs hrest op x y).trans (((exec_call hi hs h).result hr).unwritten hcode)
  refine ⟨hun.header, hun.signals, fun hb => ?_, (exec_safe hs h).pendingHeader (by rw [hr]; rfl)⟩
  by_contra hnot
  rw [hun.busy (Bool.eq_false_of_not_eq_true hnot)] at hb
  exact Bool.noConfusion hb

/-- The record names the call (R196). -/
theorem CallResult.record {v t : State} (h : CallResult v t) :
    t.eng.diag.kind = t.eng.res ∧ t.eng.diag.op = v.eng.op ∧ t.eng.diag.arg0 = v.eng.arg0 ∧ t.eng.diag.arg1 = v.eng.arg1 := by
  obtain ⟨w, htrack, hend⟩ := h.completes
  exact ⟨hend.diagKind, hend.diagOp.trans htrack.command.op, hend.diagArg0.trans htrack.command.arg0,
    hend.diagArg1.trans htrack.command.arg1⟩

/-- No response is left in the payload window after an error (R57, R227). -/
theorem CallResult.window_error {v t : State} (h : CallResult v t) (hcode : t.eng.res ≠ codeOk) : t.window = 0 := by
  obtain ⟨w, -, hend⟩ := h.completes
  rw [hend.window, if_neg hcode]

/-- Settles O53: the four ends of a transaction, each with its record. -/
theorem resultAndRecord : Obligations.ResultAndRecord := by
  intro i op x y s t hi hs h hr
  have hres := (exec_call hi hs h).result hr
  have hcfg : (called op x y (envTurn s)).cfg = s.cfg := envTurn_cfg s
  obtain ⟨hkind, hop, harg0, harg1⟩ := hres.record
  have hrec : t.eng.res ≠ codeInvalidOperation → recognised s.cfg.gen op = true ∧ t.eng.diag.valid = true
      ∧ t.eng.diag.req = t.eng.sample.req ∧ t.eng.diag.exec = t.eng.sample.exec := fun hcode => by
    rw [← hcfg]
    exact hres.sampled hcode
  have hwin := hres.window_error
  have hends := hres.ends
  refine ⟨?_, hkind, hop, harg0, harg1, ?_⟩
  · rcases hends with ⟨hcode, -⟩ | ⟨hcode, -⟩ | ⟨hcode, -⟩ | ⟨hcode, -⟩ <;> rw [hcode]
    · decide
    · decide
    · decide
    · split <;> decide
  rcases hends with ⟨hcode, hunknown, hvalid, -⟩ | ⟨hcode, hseen, hstatus, -⟩ | ⟨hcode, hseen, hstatus, hlate⟩ | ⟨hcode, hseen, hresp⟩
  · have hunknown : recognised s.cfg.gen op = false := hcfg ▸ hunknown
    have hwindow : t.window = 0 := hwin (by rw [hcode]; decide)
    simp [hcode, hunknown, hvalid, hwindow, codeOk, codeInvalidOperation, codeChannelBusy, codeTimeout, codeFault]
  · obtain ⟨hknown, hvalid, hreq, hexec⟩ := hrec (by rw [hcode]; decide)
    have hwindow : t.window = 0 := hwin (by rw [hcode]; decide)
    simp [hcode, hknown, hvalid, hreq, hexec, hseen, hstatus, hwindow, codeOk, codeInvalidOperation, codeChannelBusy, codeTimeout, codeFault]
  · obtain ⟨hknown, hvalid, hreq, hexec⟩ := hrec (by rw [hcode]; decide)
    have hwindow : t.window = 0 := hwin (by rw [hcode]; decide)
    rw [hcfg] at hlate
    simp [hcode, hknown, hvalid, hreq, hexec, hseen, hstatus, hwindow, codeOk, codeInvalidOperation, codeChannelBusy, codeTimeout, codeFault]
    simpa using hlate
  · rw [hcfg] at hresp
    by_cases hst : t.eng.diag.status = statusGood
    · rw [if_pos hst] at hcode
      obtain ⟨hknown, hvalid, hreq, hexec⟩ := hrec (by rw [hcode]; decide)
      have hwindow := hresp hcode
      simp [hcode, hknown, hvalid, hreq, hexec, hseen, hst, codeOk, codeInvalidOperation, codeChannelBusy, codeTimeout, codeFault]
      exact hwindow
    · rw [if_neg hst] at hcode
      obtain ⟨hknown, hvalid, hreq, hexec⟩ := hrec (by rw [hcode]; decide)
      have hwindow : t.window = 0 := hwin (by rw [hcode]; decide)
      simp [hcode, hknown, hvalid, hreq, hexec, hseen, hst, hwindow, codeOk, codeInvalidOperation, codeChannelBusy, codeTimeout, codeFault]

end Sys2Proof.Machine
end

section
/-! SUPPORT. What a chunked operation reports at its end, for every interleaving (R158, R159, R160, R166). -/

namespace Sys2Proof.Machine

open Sys2Proof

/-! ### A chunked operation's run -/

theorem IsChunked.next {i : Instr} {k : ChunkKind} {addr : U32} {buf : U64} {size : U32} {s t : State}
    (hi : IsChunked i k addr buf size s.cfg) (h : Machine.exec i s = .next t) :
    parametersOk s.cfg = true ∧ s.eng.pc = .rest ∧ t = run (budget size s) (chunkInit k addr buf size (envTurn s)) := by
  rw [hi.exec s rfl] at h
  exact hostOperation_next h

theorem isChunked_read_of_next {addr : U32} {dst : U64} {size : U32} {s t : State}
    (h : exec (.flashRead addr dst size) s = .next t) : IsChunked (.flashRead addr dst size) .read addr dst size s.cfg :=
  isChunked_read addr (chunkedOn_next h).1

theorem isChunked_of_next {i : Instr} {k : ChunkKind} {addr size : U32} {s t : State}
    (hi : chunkedCall i = some (k, addr, size)) (h : exec i s = .next t) :
    ∃ buf, IsChunked i k addr buf size s.cfg ∧ (k = .read → i = .flashRead addr buf size) := by
  cases i with
  | flashErase a n =>
    simp only [chunkedCall, Option.some.injEq, Prod.mk.injEq] at hi
    obtain ⟨rfl, rfl, rfl⟩ := hi
    exact ⟨0#64, isChunked_erase a n s.cfg, by simp⟩
  | flashRead a dst n =>
    simp only [chunkedCall, Option.some.injEq, Prod.mk.injEq] at hi
    obtain ⟨rfl, rfl, rfl⟩ := hi
    exact ⟨dst, isChunked_read_of_next h, fun _ => rfl⟩
  | flashWrite a src n =>
    simp only [chunkedCall, Option.some.injEq, Prod.mk.injEq] at hi
    obtain ⟨rfl, rfl, rfl⟩ := hi
    exact ⟨src, isChunked_write a (chunkedOn_next h).1, by simp⟩
  | _ => exact absurd hi (by simp [chunkedCall])

/-! ### The report -/

/-- A chunk loop that ended with the record of its chunk `j` (R158, R159). -/
structure FailedAt (cfg : Config) (k : ChunkKind) (addr size id : U32) (e : Engine) (j : Nat) : Prop where
  chunk : j < chunkCount size.toNat cfg.maxChunk
  kind : e.diag.kind = e.res
  op : e.diag.op = chunkOpcode k
  arg0 : e.diag.arg0 = addr + BitVec.ofNat 32 (j * cfg.maxChunk)
  arg1 : e.diag.arg1.toNat = chunkLength cfg size.toNat (j * cfg.maxChunk)
  done : (e.diag.arg0 - addr).toNat = e.cCur.toNat
  ids : e.nextId = id
    + BitVec.ofNat 32 (j + if e.res = codeInvalidOperation ∨ e.res = codeChannelBusy then 0 else 1)
  invalid : e.res = codeInvalidOperation → j = 0 ∧ k = .erase ∧ cfg.gen = .b

/-- What the end of a chunk loop reports (R158, R160). -/
structure LoopReport (cfg : Config) (k : ChunkKind) (addr size id : U32) (e : Engine) : Prop where
  ended : LoopOver e
  ok : e.res = codeOk → e.nextId = id + BitVec.ofNat 32 (chunkCount size.toNat cfg.maxChunk) ∧ e.cSize = 0#32 ∧ e.cCur = size
  failed : e.res ≠ codeOk → ∃ j, FailedAt cfg k addr size id e j

/-- Past the first chunk's `V` the loop's op byte is recognised (R159). -/
def LoopKnown (cfg : Config) (k : ChunkKind) (e : Engine) : Prop :=
  e.cCur ≠ 0#32 ∨ e.pc = .fCopyOut ∨ e.pc = .fAdv → recognised cfg.gen (chunkOpcode k) = true

/-- Of the chunk loops' op bytes generation B lacks `'E'` alone (R74, R165). -/
theorem chunkOpcode_unrecognised {g : Gen} {k : ChunkKind} (hk : k ≠ .none) (h : recognised g (chunkOpcode k) = false) :
    k = .erase ∧ g = .b := by
  cases k with
  | none => exact absurd rfl hk
  | erase =>
    cases g with
    | a => exact absurd h (by decide)
    | b => exact ⟨rfl, rfl⟩
  | read => cases g <;> exact absurd h (by decide)
  | write => cases g <;> exact absurd h (by decide)

/-- Only an op byte outside the set ends a transaction in `InvalidOperation` (R102). -/
theorem unrecognised_of_invalid {s : State} (hat : endsAt s.eng.pc codeInvalidOperation)
    (hend : Completes codeInvalidOperation s (engineStep s)) : recognised s.cfg.gen s.eng.op = false := by
  have hp : s.eng.pc = .v := by
    cases hp : s.eng.pc <;> simp [hp, endsAt, codeInvalidOperation, codeChannelBusy, codeTimeout, codeOk, codeFault] at hat ⊢
  rcases stepV_cases s with ⟨-, he⟩ | ⟨h, -⟩
  · have hin := hend.not_inTransaction
    simp only [engineStep, hp, he] at hin
    exact absurd hin (by decide)
  · exact h

theorem idTaken_of_endsAt {p : Pc} {code : BitVec 3} (h : endsAt p code) :
    (if idTaken p then 1 else 0) = if code = codeInvalidOperation ∨ code = codeChannelBusy then 0 else 1 := by
  cases p <;> simp only [endsAt] at h
  · subst h; rfl
  · subst h; rfl
  · subst h; rfl
  · rcases h with rfl | rfl <;> rfl

theorem chunkCount_whole {done m : Nat} (hm : 1 ≤ m) (hd : done % m = 0) : chunkCount done m * m = done := by
  obtain ⟨q, rfl⟩ : ∃ q, done = q * m := ⟨done / m, (Nat.div_mul_cancel (Nat.dvd_of_mod_eq_zero hd)).symm⟩
  rw [chunkCount, show q * m + m - 1 = m - 1 + q * m by omega, Nat.add_mul_div_right _ _ hm, Nat.div_eq_of_lt (by omega), Nat.zero_add]

theorem lt_chunkCount {j size m : Nat} (hm : 1 ≤ m) (h : j * m < size) : j < chunkCount size m := by
  rw [chunkCount, Nat.lt_iff_add_one_le, Nat.le_div_iff_mul_le hm, Nat.succ_mul]
  omega

/-- A chunk that fails ends the loop with its record (R158, R159). -/
theorem LoopInv.fails {k : ChunkKind} {addr : U32} {buf : U64} {size id : U32} {s t : State} {code : BitVec 3}
    (hc : parametersOk s.cfg = true) (hs : SafeState s) (h : LoopInv s.cfg k addr buf size id s.eng) (hk : k ≠ .none)
    (hknown : LoopKnown s.cfg k s.eng) (ht : inTransaction s.eng.pc = true) (hat : endsAt s.eng.pc code)
    (hend : Completes code s t) (hcode : code ≠ codeOk)
    (hinv : code = codeInvalidOperation → recognised s.cfg.gen s.eng.op = false) :
    LoopReport s.cfg k addr size id t.eng := by
  obtain ⟨-, -, -, -, hmax, -⟩ := (parametersOk_iff s.cfg).1 hc
  obtain ⟨hchunk, hsize⟩ := h.chunk (chunkChosen_of_inTransaction ht)
  obtain ⟨hop, harg0, harg1⟩ := hs.chunkCommand (by rw [h.kind]; exact hk) ht
  have hwhole := chunkCount_whole hmax (h.whole.resolve_left hsize)
  have hpos : s.eng.cSize.toNat ≠ 0 := fun e => hsize (BitVec.eq_of_toNat_eq (by simpa using e))
  have hrange := h.range
  refine ⟨⟨by rw [hend.pc, returnPc_error hcode], by rw [hend.cKind, if_neg hcode]⟩,
    fun hok => absurd (hend.res.symm.trans hok) hcode, fun _ => ⟨chunkCount s.eng.cCur.toNat s.cfg.maxChunk, ?_, ?_, ?_, ?_, ?_, ?_, ?_, ?_⟩⟩
  · exact lt_chunkCount hmax (by omega)
  · rw [hend.diagKind, hend.res]
  · rw [hend.diagOp, hop, h.kind]
  · rw [hend.diagArg0, harg0, h.address, hwhole]; simp
  · rw [hend.diagArg1, harg1, hwhole, chunkLength, hchunk]
    congr 1
    omega
  · rw [hend.diagArg0, harg0, hend.cCur, h.address, BitVec.add_comm, BitVec.add_sub_cancel]
  · rw [hend.nextId, hend.res, h.ids, idTaken_of_endsAt hat]
  · rw [hend.res]
    intro hi
    have hun := hinv hi
    rw [hop, h.kind] at hun
    have hzero : s.eng.cCur = 0#32 := by
      by_contra hne
      rw [hknown (.inl hne)] at hun
      exact Bool.noConfusion hun
    obtain ⟨rfl, hg⟩ := chunkOpcode_unrecognised hk hun
    refine ⟨?_, rfl, hg⟩
    rw [hzero] at hwhole ⊢
    exact (Nat.mul_eq_zero.1 hwhole).resolve_right (by omega)

/-- Outside a transaction only the test of an empty rest ends the loop (R155). -/
theorem stepFTest_of_ends {s : State} (ht : inTransaction s.eng.pc = false) (hr : s.eng.pc ≠ .rest)
    (hend : (engineStep s).eng.pc = .rest) : s.eng.pc = .fTest ∧ s.eng.cSize = 0#32 := by
  cases hp : s.eng.pc <;> rw [hp] at ht hr <;> simp only [engineStep, hp] at hend
  case fTest =>
    rw [stepFTest_eq] at hend
    dsimp only at hend
    split at hend
    · exact ⟨rfl, ‹_›⟩
    · exact absurd hend (by simp)
  case rest => exact absurd rfl hr
  case fChunk => simp only [stepFChunk] at hend; split at hend <;> simp at hend
  case fCopyIn => rw [stepFCopyIn, copyNext_eng] at hend; split at hend <;> simp [hp] at hend
  case fCopyOut => rw [stepFCopyOut, copyNext_eng] at hend; split at hend <;> simp [hp] at hend
  case fInit | fCmd | fAdv => simp [stepFInit, stepFCmd, stepFAdv] at hend
  all_goals exact absurd ht (by decide)

theorem LoopInv.completes {k : ChunkKind} {addr : U32} {buf : U64} {size id : U32} {s : State}
    (h : LoopInv s.cfg k addr buf size id s.eng) (hp : s.eng.pc = .fTest) (hz : s.eng.cSize = 0#32) :
    LoopReport s.cfg k addr size id (engineStep s).eng := by
  have hids := h.ids
  have hrange := h.range
  have hcur : s.eng.cCur = size := BitVec.eq_of_toNat_eq (by simpa [hz] using hrange)
  simp only [engineStep, hp, stepFTest_eq, if_pos hz]
  refine ⟨⟨rfl, rfl⟩, fun _ => ⟨?_, hz, hcur⟩, fun hne => absurd rfl hne⟩
  rw [hids, hcur, hp]
  rfl

/-- Where the loop goes on, its op byte stays known. -/
theorem LoopKnown.step {k : ChunkKind} {addr : U32} {buf : U64} {size id : U32} {s : State} (hs : SafeState s)
    (h : LoopInv s.cfg k addr buf size id s.eng) (hk : k ≠ .none) (hknown : LoopKnown s.cfg k s.eng) :
    LoopKnown s.cfg k (engineStep s).eng := by
  by_cases ht : inTransaction s.eng.pc = true
  · rcases engineStep_transaction ht with ⟨code, hat, hend⟩ | ⟨ho, hsame, -⟩
    · intro hp
      rw [hend.cCur] at hp
      rcases hp with hp | hp
      · exact hknown (.inl hp)
      · have hok : code = codeOk := by
          by_contra hne
          rw [hend.pc, returnPc_error hne] at hp
          simp at hp
        have hres : s.eng.pc = .resolve := endsAt_ok (hok ▸ hat)
        obtain ⟨hop, -, -⟩ := hs.chunkCommand (by rw [h.kind]; exact hk) ht
        rw [← h.kind, ← hop]
        exact hs.opRecognised (by rw [hres]; rfl)
    · have ht' := inTransaction_of_opChecked ho
      intro hp
      rw [hsame.cCur] at hp
      refine hknown (.inl (hp.resolve_right fun hp => ?_))
      rcases hp with hp | hp <;> rw [hp] at ht' <;> exact absurd ht' (by decide)
  · unfold LoopKnown at hknown ⊢
    cases hp : s.eng.pc <;> rw [hp] at ht hknown <;> simp only [engineStep, hp]
    case fTest => rw [stepFTest_eq]; dsimp only; split <;> simpa using hknown
    case fChunk => simp only [stepFChunk]; split <;> simpa using hknown
    case fCopyIn => rw [stepFCopyIn, copyNext_eng]; split <;> simpa [hp] using hknown
    case fCopyOut => exact fun _ => hknown (.inr (.inl rfl))
    case fAdv => exact fun _ => hknown (.inr (.inr rfl))
    case fCmd => simpa [stepFCmd] using hknown
    case rest => exact absurd hp h.begun.2
    case fInit => exact absurd hp h.begun.1
    all_goals exact absurd rfl ht

/-- A chunk loop at any point of a run: active with its arithmetic, or over with its report. -/
def LoopRun (cfg : Config) (k : ChunkKind) (addr : U32) (buf : U64) (size id : U32) (e : Engine) : Prop :=
  (LoopInv cfg k addr buf size id e ∧ LoopKnown cfg k e) ∨ LoopReport cfg k addr size id e

theorem LoopRun.step {k : ChunkKind} {addr : U32} {buf : U64} {size id : U32} {s : State} (hc : parametersOk s.cfg = true)
    (hs : SafeState s) (hk : k ≠ .none) (h : LoopRun s.cfg k addr buf size id s.eng) (hr : s.eng.pc ≠ .rest) :
    LoopRun s.cfg k addr buf size id (engineStep s).eng := by
  rcases h with ⟨hinv, hknown⟩ | hrep
  · rcases hinv.step hc hk with hover | hnext
    · refine .inr ?_
      by_cases ht : inTransaction s.eng.pc = true
      · rcases engineStep_transaction ht with ⟨code, hat, hend⟩ | ⟨ho, -⟩
        · refine hinv.fails hc hs hk hknown ht hat hend (fun hok => ?_) fun hi => ?_
          · have hpc := hend.pc
            rw [hover.1, hinv.kind, hok] at hpc
            rcases chunkKind_cases hk with rfl | rfl | rfl <;> simp [returnPc] at hpc
          · subst hi
            exact unrecognised_of_invalid hat hend
        · rw [hover.1] at ho
          exact absurd ho (by decide)
      · obtain ⟨hp, hz⟩ := stepFTest_of_ends (by simpa using ht) hr hover.1
        exact hinv.completes hp hz
    · exact .inl ⟨hnext, hknown.step hs hinv hk⟩
  · exact absurd hrep.ended.1 hr

/-- Any run from the start of a chunk loop. -/
theorem loopRun_run {k : ChunkKind} {addr : U32} {buf : U64} {size : U32} {s : State} (hc : parametersOk s.cfg = true)
    (hs : SafeState (chunkInit k addr buf size s)) (hk : k ≠ .none) (n : Nat) :
    LoopRun s.cfg k addr buf size s.eng.nextId (run n (chunkInit k addr buf size s)).eng := by
  refine (run_induction (s := chunkInit k addr buf size s) (P := fun w => w.cfg = s.cfg ∧ SafeState w ∧ LoopRun s.cfg k addr buf size s.eng.nextId w.eng)
    (fun w ⟨hcfg, hsafe, hrun⟩ hp => ?_) n ⟨rfl, hs, .inl ⟨loopInv_chunkInit addr buf size s, ?_⟩⟩).2.2
  · have hcw : parametersOk (envTurn w).cfg = true := by rw [envTurn_cfg, hcfg]; exact hc
    refine ⟨by simpa using hcfg, tick_safe (by rw [hcfg]; exact hc) hsafe, ?_⟩
    have hcfg' : (envTurn w).cfg = s.cfg := (envTurn_cfg w).trans hcfg
    rw [← hcfg'] at hrun ⊢
    exact LoopRun.step (s := envTurn w) hcw (envTurn_safe hsafe) hk (by rwa [envTurn_eng]) (by simpa using hp)
  · intro h
    simp at h

/-- Settles O56: along every run the loop is within its arithmetic, and it ends with what that arithmetic says. -/
theorem chunkedOperationReports : Obligations.ChunkedOperationReports := by
  intro i k addr size s t hi hs h hr
  obtain ⟨buf, hloop, -⟩ := isChunked_of_next hi h
  obtain ⟨hc, hrest, rfl⟩ := hloop.next h
  have hsafe : SafeState (chunkInit k addr buf size (envTurn s)) :=
    chunkInit_safe (envTurn_safe hs) (by simpa using hrest) addr (by simpa using hloop.clear)
  have hrun := loopRun_run (by simpa using hc) hsafe hloop.kind (budget size s)
  rw [envTurn_cfg, envTurn_eng] at hrun
  rcases hrun with ⟨hinv, -⟩ | hrep
  · exact absurd hr hinv.begun.2
  · refine ⟨hrep.ok, fun hcode => ?_⟩
    obtain ⟨j, hchunk, hkind, hop, harg0, harg1, hdone, hids, hinvalid⟩ := hrep.failed hcode
    exact ⟨j, hchunk, hkind, hop, harg0, harg1, hdone, hids, hinvalid⟩

end Sys2Proof.Machine
end

section
/-! SUPPORT. What no operation touches outside the mailbox, for every interleaving (R33, R43, R152 to R154, R158). -/

namespace Sys2Proof.Machine

open Sys2Proof

/-! ### The bytes that a read has copied out -/

/-- How many bytes of its range a `FLASH_READ` has stored in `dst` so far (R151, R153). -/
def copied (e : Engine) : Nat :=
  e.cCur.toNat + if e.pc = .fCopyOut then e.cIdx.toNat else if e.pc = .fAdv then e.cChunk.toNat else 0

theorem copied_of_pc {e : Engine} (ho : e.pc ≠ .fCopyOut) (ha : e.pc ≠ .fAdv) : copied e = e.cCur.toNat := by
  rw [copied, if_neg ho, if_neg ha, Nat.add_zero]

theorem le_copied {e : Engine} {n : Nat} (h : e.cCur.toNat = n) : n ≤ copied e := h ▸ Nat.le_add_right _ _

/-- What every requester step keeps of the loop's caller, buffer and progress. -/
structure Grows (e e' : Engine) : Prop where
  kind : e'.cKind = e.cKind ∨ LoopOver e'
  buffer : e'.cBuf = e.cBuf
  begun : e'.pc ≠ .fInit
  copied : e.cKind = .read → copied e ≤ copied e'

theorem copied_of_inTransaction {e : Engine} (h : inTransaction e.pc = true) : copied e = e.cCur.toNat :=
  copied_of_pc (fun hp => by rw [hp] at h; exact Bool.noConfusion h) fun hp => by rw [hp] at h; exact Bool.noConfusion h

theorem grows_transaction {s : State} (ht : inTransaction s.eng.pc = true) : Grows s.eng (engineStep s).eng := by
  rcases engineStep_transaction ht with ⟨code, -, hend⟩ | ⟨ho, hsame, -⟩
  · refine ⟨?_, hend.cBuf, ?_, fun _ => ?_⟩
    · by_cases hok : code = codeOk
      · exact .inl (by rw [hend.cKind, if_pos hok])
      · exact .inr ⟨by rw [hend.pc, returnPc_error hok], by rw [hend.cKind, if_neg hok]⟩
    · rw [hend.pc]
      rcases returnPc_cases code s.eng.cKind with ⟨hp, -⟩ | ⟨hp, -⟩ | ⟨hp, -⟩ <;> rw [hp] <;> simp
    · rw [copied_of_inTransaction ht, ← hend.cCur]
      exact le_copied rfl
  · have ht' := inTransaction_of_opChecked ho
    refine ⟨.inl hsame.cKind, hsame.cBuf, fun hp => ?_, fun _ => ?_⟩
    · rw [hp] at ht'; exact Bool.noConfusion ht'
    · rw [copied_of_inTransaction ht, copied_of_inTransaction ht', hsame.cCur]

theorem stepFCopyOut_eng (s : State) :
    (stepFCopyOut s).eng =
      if s.eng.cIdx.toNat + 1 < s.eng.cChunk.toNat then { s.eng with cIdx := s.eng.cIdx + 1#32 }
      else { s.eng with cIdx := 0#32, pc := .fAdv } :=
  copyNext_eng _ _

/-- The copy-out stores one byte more (R153). -/
theorem copied_stepFCopyOut {s : State} (hs : SafeState s) (hp : s.eng.pc = .fCopyOut) :
    copied (stepFCopyOut s).eng = copied s.eng + 1 := by
  have hidx := hs.copyIndex (.inr hp)
  have hlt := s.eng.cChunk.isLt
  rw [stepFCopyOut_eng]
  by_cases hmore : s.eng.cIdx.toNat + 1 < s.eng.cChunk.toNat
  · rw [if_pos hmore]
    have hnext : (s.eng.cIdx + 1#32).toNat = s.eng.cIdx.toNat + 1 := BitVec.toNat_add_of_lt (by simp; omega)
    simp only [copied, hp, if_true, hnext]
    rfl
  · rw [if_neg hmore]
    simp only [copied, hp, if_true, reduceCtorEq, if_false]
    omega

theorem grows_loop {s : State} (hs : SafeState s) (ht : inTransaction s.eng.pc = false) (hi : s.eng.pc ≠ .fInit) :
    Grows s.eng (engineStep s).eng := by
  cases hp : s.eng.pc <;> rw [hp] at ht hi <;> simp only [engineStep, hp]
  case rest => exact ⟨.inl rfl, rfl, by simp [hp], fun _ => le_rfl⟩
  case fTest =>
    have hcur := copied_of_pc (e := s.eng) (by simp [hp]) (by simp [hp])
    rw [stepFTest_eq]
    dsimp only
    split
    · exact ⟨.inr ⟨rfl, rfl⟩, rfl, by simp, fun _ => by rw [hcur]; exact le_copied rfl⟩
    · exact ⟨.inl rfl, rfl, by simp, fun _ => by rw [hcur]; exact le_copied rfl⟩
  case fChunk =>
    have hcur := copied_of_pc (e := s.eng) (by simp [hp]) (by simp [hp])
    refine ⟨.inl rfl, rfl, ?_, fun _ => by rw [hcur]; exact le_copied (e := (stepFChunk s).eng) rfl⟩
    simp only [stepFChunk]
    split <;> simp
  case fCopyIn =>
    have hcur := copied_of_pc (e := s.eng) (by simp [hp]) (by simp [hp])
    rw [stepFCopyIn, copyNext_eng]
    split
    · exact ⟨.inl rfl, rfl, by simp [hp], fun _ => by rw [hcur]; exact le_copied rfl⟩
    · exact ⟨.inl rfl, rfl, by simp, fun _ => by rw [hcur]; exact le_copied rfl⟩
  case fCmd =>
    have hcur := copied_of_pc (e := s.eng) (by simp [hp]) (by simp [hp])
    exact ⟨.inl rfl, rfl, by simp [stepFCmd], fun _ => by rw [hcur]; exact le_copied (e := (stepFCmd s).eng) rfl⟩
  case fCopyOut =>
    have hcopied := copied_stepFCopyOut hs hp
    refine ⟨.inl ?_, ?_, ?_, fun _ => by omega⟩ <;> rw [stepFCopyOut_eng] <;> split <;> simp [hp]
  case fAdv =>
    refine ⟨.inl rfl, rfl, by simp [stepFAdv], fun hk => ?_⟩
    obtain ⟨-, -, hchunk⟩ := hs.chunkBounds (by simp [hk]) (by rw [hp]; rfl)
    obtain ⟨-, hlt⟩ := hs.bufferStaysClear (.inl hk)
    have hcur : (s.eng.cCur + s.eng.cChunk).toNat = s.eng.cCur.toNat + s.eng.cChunk.toNat := BitVec.toNat_add_of_lt (by omega)
    rw [copied_of_pc (e := (stepFAdv s).eng) (by simp [stepFAdv]) (by simp [stepFAdv])]
    simp only [copied, hp, reduceCtorEq, if_false, if_true]
    exact hcur.ge
  case fInit => exact absurd rfl hi
  all_goals exact Bool.noConfusion ht

theorem engineStep_grows {s : State} (hs : SafeState s) (hi : s.eng.pc ≠ .fInit) : Grows s.eng (engineStep s).eng := by
  by_cases ht : inTransaction s.eng.pc = true
  · exact grows_transaction ht
  · exact grows_loop hs (by simpa using ht) hi

/-! ### No oversize command -/

/-- The command of the transaction in progress is no oversize one (R178 item 3, R229). -/
def Small (s : State) : Prop :=
  inTransaction s.eng.pc = true → oversizeCommand s.cfg.payloadCap s.eng.op s.eng.arg1 = false

/-- Only `F_CMD` starts a transaction within an operation. -/
theorem engineStep_starts {s : State} (ht : inTransaction s.eng.pc = false) (ht' : inTransaction (engineStep s).eng.pc = true) :
    s.eng.pc = .fCmd := by
  cases hp : s.eng.pc <;> rw [hp] at ht <;> simp only [engineStep, hp] at ht'
  case fTest => rw [stepFTest_eq] at ht'; dsimp only at ht'; split at ht' <;> exact Bool.noConfusion ht'
  case fChunk => simp only [stepFChunk] at ht'; split at ht' <;> exact Bool.noConfusion ht'
  case fCopyIn => rw [stepFCopyIn, copyNext_eng] at ht'; split at ht' <;> simp [hp, inTransaction, beforeCheck, opChecked] at ht'
  case fCopyOut => rw [stepFCopyOut, copyNext_eng] at ht'; split at ht' <;> simp [hp, inTransaction, beforeCheck, opChecked] at ht'
  case rest => exact Bool.noConfusion ht'
  case fInit | fAdv => exact Bool.noConfusion ht'
  all_goals exact Bool.noConfusion ht

/-- A chunk's command is within the payload (R157). -/
theorem engineStep_small {s : State} (hc : parametersOk s.cfg = true) (hs : SafeState s) (h : Small s) : Small (engineStep s) := by
  obtain ⟨-, -, -, -, -, hcap, -⟩ := (parametersOk_iff s.cfg).1 hc
  intro ht'
  rw [engineStep_cfg]
  by_cases ht : inTransaction s.eng.pc = true
  · rcases engineStep_transaction ht with ⟨code, -, hend⟩ | ⟨-, hsame, -⟩
    · rw [hend.not_inTransaction] at ht'; exact Bool.noConfusion ht'
    · rw [hsame.op, hsame.arg1]; exact h ht
  · have hp := engineStep_starts (by simpa using ht) ht'
    obtain ⟨-, hmax, -⟩ := hs.chunkBounds (hs.loopKind (by rw [hp]; rfl)) (by rw [hp]; rfl)
    simp only [engineStep, hp]
    show oversizeCommand s.cfg.payloadCap (chunkOpcode s.eng.cKind) s.eng.cChunk = false
    rw [oversizeCommand, decide_eq_false (by omega), Bool.and_false]

/-- `'R'` and `'W'` store their arguments in both generations (R76, R77), so that the coprocessor sees the command's own length. -/
theorem storesArgs_of_oversize {g : Gen} {cap : Nat} {op : Byte} {x : U32} (h : oversizeCommand cap op x = true) :
    storesArgs g op = true := by
  simp only [oversizeCommand, Bool.and_eq_true, Bool.or_eq_true, beq_iff_eq] at h
  obtain ⟨rfl | rfl, -⟩ := h <;> cases g <;> rfl

theorem writeSignal_one_oversize (s : State) :
    (writeSignal 1#32 s).bus.oversize = (s.bus.oversize || oversizeMessage (writeSignal 1#32 s)) := by
  simp [writeSignal_one, oversizeMessage, visible]

/-- A doorbell write of a held message within the payload signals no oversize command (R229). -/
theorem ring_oversize {s : State} (hc : parametersOk s.cfg = true) (hs : SafeState s) (hm : MessageHeld s) (hp : s.eng.pc = .ring)
    (hsmall : Small s) : (writeSignal 1#32 s).bus.oversize = s.bus.oversize := by
  obtain ⟨hop, -, harg1, -⟩ := hm.seen (by simp [hp])
  have hmessage : oversizeMessage (writeSignal 1#32 s) = false := by
    rw [oversizeMessage, writeSignal_one_cfg, visible_ring hc hs hp, visible_ring hc hs hp, hop, lowByte_zextByte]
    by_contra hover
    have hover := Bool.eq_true_of_not_eq_false hover
    rw [harg1 (storesArgs_of_oversize hover), hsmall (by rw [hp]; rfl)] at hover
    exact Bool.noConfusion hover
  rw [writeSignal_one_oversize, hmessage, Bool.or_false]

theorem engineStep_oversize {s : State} (hc : parametersOk s.cfg = true) (hs : SafeState s) (hm : MessageHeld s)
    (hsmall : Small s) : (engineStep s).bus.oversize = s.bus.oversize := by
  by_cases hr : s.eng.pc = .ring
  · simp only [engineStep, hr, stepRing, goto_bus]
    exact ring_oversize hc hs hm hr hsmall
  by_cases ho : s.eng.pc = .fCopyOut
  · simp only [engineStep, ho, stepFCopyOut_bus]
  · rw [engineStep_bus hr ho]

/-! ### The frame along a run -/

/-- The byte at `a` is one of `dst` that the read of the loop has stored by now (R153). -/
def Stored (k : ChunkKind) (buf : U64) (e : Engine) (a : Nat) : Prop :=
  k = .read ∧ buf.toNat ≤ a ∧ a < buf.toNat + copied e

/-- From `v` on, in an operation whose chunk loop (if any) is of kind `k` on the buffer `buf`: no oversize command is signalled,
and outside the mailbox only `dst` has changed. -/
structure Clean (v : State) (k : ChunkKind) (buf : U64) (w : State) : Prop where
  cfg : w.cfg = v.cfg
  safe : SafeState w
  held : MessageHeld w
  kind : w.eng.cKind = k ∨ LoopOver w.eng
  buffer : w.eng.cBuf = buf
  begun : w.eng.pc ≠ .fInit
  small : Small w
  oversize : w.bus.oversize = false
  outside : ∀ a, ¬ inMailbox v.cfg a → ¬ Stored k buf w.eng a → Memory.read w.bus.mem a = Memory.read v.bus.mem a

theorem Clean.of_keeps {v w u : State} {k : ChunkKind} {buf : U64} (h : Clean v k buf w) (hk : EnvKeeps w u) (hu : SafeState u)
    (hp : w.eng.pc ≠ .rest) : Clean v k buf u where
  cfg := hk.cfg.trans h.cfg
  safe := hu
  held := h.held.of_keeps hk
  kind := by rw [hk.eng]; exact h.kind
  buffer := by rw [hk.eng]; exact h.buffer
  begun := by rw [hk.eng]; exact h.begun
  small := by unfold Small; rw [hk.eng, hk.cfg]; exact h.small
  oversize := hk.oversize.trans h.oversize
  outside := fun a ha hs => by
    rw [hk.eng] at hs
    exact (hk.outside hp h.oversize a (by rw [h.cfg]; exact ha)).trans (h.outside a ha hs)

theorem Clean.step {v w : State} {k : ChunkKind} {buf : U64} (hc : parametersOk w.cfg = true) (h : Clean v k buf w)
    (hp : w.eng.pc ≠ .rest) : Clean v k buf (engineStep w) := by
  obtain ⟨hcfg, hs, hm, hkind, hbuf, hbegun, hsmall, hover, hout⟩ := h
  have hactive : w.eng.cKind = k := hkind.resolve_right fun ho => hp ho.1
  have hgrow := engineStep_grows hs hbegun
  obtain ⟨-, -, -, -, hframe, -⟩ := engineKeepsOwnership w hs hc
  refine ⟨(engineStep_cfg w).trans hcfg, engineStep_safe hc hs, engineStep_held hc hs hm, ?_, hgrow.buffer.trans hbuf, hgrow.begun,
    engineStep_small hc hs hsmall, (engineStep_oversize hc hs hm hsmall).trans hover, fun a ha hstored => ?_⟩
  · exact hgrow.kind.imp_left (·.trans hactive)
  · have hnot : ¬ Stored k buf w.eng a := fun ⟨hk, hlo, hhi⟩ =>
      hstored ⟨hk, hlo, hhi.trans_le (Nat.add_le_add_left (hgrow.copied (hactive.trans hk)) _)⟩
    refine (hframe a (by rw [hcfg]; exact ha) fun hpo heq => hstored ?_).trans (hout a ha hnot)
    have hread := hs.copyOutKind hpo
    have hmore : copied (engineStep w).eng = copied w.eng + 1 := by
      simp only [engineStep, hpo]
      exact copied_stepFCopyOut hs hpo
    have haddr : bufferAddr w = buf.toNat + copied w.eng := by
      rw [bufferAddr, copied, if_pos hpo, hbuf, Nat.add_assoc]
    exact ⟨hactive.symm.trans hread, by omega, by omega⟩

theorem Clean.tick {v w : State} {k : ChunkKind} {buf : U64} (hc : parametersOk w.cfg = true) (h : Clean v k buf w)
    (hp : w.eng.pc ≠ .rest) : Clean v k buf (tick w) := by
  refine Clean.step (by simpa using hc) (h.of_keeps (envTurn_keeps hc h.safe) (envTurn_safe h.safe) hp) ?_
  rw [envTurn_eng]
  exact hp

theorem Clean.run {v w : State} {k : ChunkKind} {buf : U64} (hc : parametersOk v.cfg = true) (h : Clean v k buf w) (n : Nat) :
    Clean v k buf (run n w) :=
  run_induction (P := Clean v k buf) (fun w hw hp => hw.tick (by rw [hw.cfg]; exact hc) hp) n h

theorem clean_chunkInit {k : ChunkKind} {addr : U32} {buf : U64} {size : U32} {v : State}
    (hs : SafeState (chunkInit k addr buf size v)) (ho : v.bus.oversize = false) :
    Clean v k buf (chunkInit k addr buf size v) :=
  ⟨rfl, hs, messageHeld_of_not_holding (by simp [holdingPcs]), .inl rfl, rfl, by simp, fun h => by simp [inTransaction, beforeCheck, opChecked] at h,
    ho, fun _ _ _ => rfl⟩

theorem clean_called {op : Byte} {x y : U32} {v : State} (hs : SafeState v) (hr : v.eng.pc = .rest) (ho : v.bus.oversize = false)
    (hop : oversizeCommand v.cfg.payloadCap op y = false) : Clean v .none v.eng.cBuf (called op x y v) :=
  ⟨rfl, latch_at_v_safe hs hr op x y, messageHeld_of_not_holding (by simp [called, holdingPcs]), .inl (hs.restKind hr), rfl, by simp [called], fun _ => hop, ho,
    fun _ _ _ => rfl⟩

end Sys2Proof.Machine
end

section
/-! SUPPORT. The frame of every operation, and what a failed `FLASH_READ` leaves of `dst` (R101, R153, R158). -/

namespace Sys2Proof.Machine

open Sys2Proof

/-! ### The caller and the offers -/

/-- The offers and what was handed to the caller are as in `v`. -/
structure SameCaller (v w : State) : Prop where
  offers : w.env.offers = v.env.offers
  retBuf : w.env.retBuf = v.env.retBuf
  hostSeen : w.env.hostSeen = v.env.hostSeen

theorem SameCaller.tick {v w : State} (hc : parametersOk w.cfg = true) (hs : SafeState w) (h : SameCaller v w)
    (hp : w.eng.pc ≠ .rest) : SameCaller v (tick w) := by
  have hk := envTurn_keeps hc hs
  constructor
  · rw [Machine.tick, engineStep_env, hk.offers, h.offers]
  · rw [Machine.tick, engineStep_env, hk.retBuf, h.retBuf]
  · rw [Machine.tick, engineStep_env, hk.hostSeen hp, h.hostSeen]

/-- While an operation runs the caller is blocked (R101). -/
theorem run_sameCaller {v w : State} (hc : parametersOk w.cfg = true) (hs : SafeState w) (he : w.env = v.env) (n : Nat) :
    SameCaller v (run n w) :=
  (run_induction (P := fun u => parametersOk u.cfg = true ∧ SafeState u ∧ SameCaller v u)
    (fun _ ⟨hcu, hsu, hu⟩ hp => ⟨by simpa using hcu, tick_safe hcu hsu, hu.tick hcu hsu hp⟩) n
    ⟨hc, hs, by rw [he], by rw [he], by rw [he]⟩).2.2

/-! ### The two kinds of operation -/

/-- Every instruction is `SCP_BUF`, a command or a chunked operation. -/
theorem instr_cases (i : Instr) :
    i = .scpBuf ∨ (∃ op x y, commandOf i = some (op, x, y)) ∨ ∃ k addr size, chunkedCall i = some (k, addr, size) := by
  cases i with
  | scpBuf => exact .inl rfl
  | flashErase | flashRead | flashWrite => exact .inr (.inr ⟨_, _, _, rfl⟩)
  | _ => exact .inr (.inl ⟨_, _, _, rfl⟩)

theorem commandOf_of_chunkedCall {i : Instr} {c : ChunkKind × U32 × U32} (h : chunkedCall i = some c) : commandOf i = none := by
  cases i with
  | flashErase | flashRead | flashWrite => rfl
  | _ => exact absurd h (by simp [chunkedCall])

theorem IsChunked.safe_start {i : Instr} {k : ChunkKind} {addr : U32} {buf : U64} {size : U32} {s : State}
    (hi : IsChunked i k addr buf size s.cfg) (hs : SafeState s) (hr : s.eng.pc = .rest) :
    SafeState (chunkInit k addr buf size (envTurn s)) :=
  chunkInit_safe (envTurn_safe hs) (by simpa using hr) addr (by simpa using hi.clear)

theorem exec_sameCaller {i : Instr} {s t : State} (hs : SafeState s) (hi : i ≠ .scpBuf) (h : exec i s = .next t) :
    SameCaller (envTurn s) t := by
  obtain ⟨hc, hr, -⟩ := exec_next h
  rcases instr_cases i with hbuf | ⟨op, x, y, hcmd⟩ | ⟨k, addr, size, hchunk⟩
  · exact absurd hbuf hi
  · rw [exec_of_commandOf hcmd] at h
    obtain ⟨-, -, rfl⟩ := hostOperation_next h
    exact run_sameCaller (by simpa using hc)
      (stepV_latch_safe (by simpa using hc) (envTurn_safe hs) (by simpa using hr) op x y) (stepV_latch_env op x y _) _
  · obtain ⟨buf, hloop, -⟩ := isChunked_of_next hchunk h
    obtain ⟨-, -, rfl⟩ := hloop.next h
    exact run_sameCaller (v := envTurn s) (w := chunkInit k addr buf size (envTurn s)) (by simpa using hc) (hloop.safe_start hs hr) rfl _

/-! ### A command's registers -/

/-- A command leaves the registers of the chunk loop (R151). -/
structure SameLoop (e e' : Engine) : Prop where
  cKind : e'.cKind = e.cKind
  cAddr : e'.cAddr = e.cAddr
  cSize : e'.cSize = e.cSize
  cCur : e'.cCur = e.cCur
  cChunk : e'.cChunk = e.cChunk
  cIdx : e'.cIdx = e.cIdx
  cBuf : e'.cBuf = e.cBuf

theorem CallTrack.sameLoop {v w : State} (h : CallTrack v w) : SameLoop v.eng w.eng :=
  ⟨h.command.cKind, h.command.cAddr, h.command.cSize, h.command.cCur, h.command.cChunk, h.command.cIdx, h.command.cBuf⟩

theorem CallRun.sameLoop {v w : State} (hk : v.eng.cKind = .none) (h : CallRun v w) : SameLoop v.eng w.eng := by
  rcases h.call with htrack | ⟨hres, -⟩
  · exact htrack.sameLoop
  · obtain ⟨u, htrack, hend⟩ := hres.completes
    obtain ⟨hkind, haddr, hsize, hcur, hchunk, hidx, hbuf⟩ := htrack.sameLoop
    refine ⟨?_, hend.cAddr.trans haddr, hend.cSize.trans hsize, hend.cCur.trans hcur, hend.cChunk.trans hchunk, ?_,
      hend.cBuf.trans hbuf⟩
    · rw [hend.cKind, hkind, hk, ite_self]
    · rw [hend.cIdx, hkind, hk, if_neg (by simp), hidx]

/-! ### Memory outside the mailbox -/

theorem mul_lt_of_lt_chunkCount {j size m : Nat} (hm : 1 ≤ m) (h : j < chunkCount size m) : j * m < size := by
  rw [chunkCount, Nat.lt_iff_add_one_le, Nat.le_div_iff_mul_le hm, Nat.succ_mul] at h
  omega

/-- No more than the range is copied (R151, R153). -/
theorem LoopRun.copied_le {addr : U32} {buf : U64} {size id : U32} {w : State} (hc : parametersOk w.cfg = true) (hs : SafeState w)
    (h : LoopRun w.cfg .read addr buf size id w.eng) : copied w.eng ≤ size.toNat := by
  obtain ⟨-, -, -, -, hmax, -⟩ := (parametersOk_iff w.cfg).1 hc
  rcases h with ⟨hinv, -⟩ | ⟨⟨hp, -⟩, hok, hfail⟩
  · have hrange := hinv.range
    have hactive : w.eng.cKind ≠ .none := by rw [hinv.kind]; simp
    unfold copied
    split_ifs with ho ha
    · have hidx := hs.copyIndex (.inr ho)
      obtain ⟨-, -, hchunk⟩ := hs.chunkBounds hactive (by rw [ho]; rfl)
      omega
    · obtain ⟨-, -, hchunk⟩ := hs.chunkBounds hactive (by rw [ha]; rfl)
      omega
    · omega
  · rw [copied_of_pc (by simp [hp]) (by simp [hp])]
    by_cases hcode : w.eng.res = codeOk
    · obtain ⟨-, -, hcur⟩ := hok hcode
      rw [hcur]
    · obtain ⟨j, hj⟩ := hfail hcode
      have hlt := mul_lt_of_lt_chunkCount hmax hj.chunk
      have hdone := hj.done
      rw [hj.arg0, BitVec.add_comm, BitVec.add_sub_cancel, BitVec.toNat_ofNat] at hdone
      rw [← hdone]
      exact (Nat.mod_le _ _).trans hlt.le

/-- What every byte outside the mailbox is after an operation: as it was before its first step, but for what a read has copied. -/
theorem exec_chunked_clean {i : Instr} {k : ChunkKind} {addr : U32} {buf : U64} {size : U32} {s t : State} (hs : SafeState s)
    (hi : IsChunked i k addr buf size s.cfg) (ho : s.bus.oversize = false) (h : exec i s = .next t) :
    Clean (envTurn s) k buf t ∧ LoopRun s.cfg k addr buf size s.eng.nextId t.eng := by
  obtain ⟨hc, hr, rfl⟩ := hi.next h
  have hsafe := hi.safe_start hs hr
  have hclean := (clean_chunkInit hsafe ((envTurn_keeps hc hs).oversize.trans ho)).run (by simpa using hc) (budget size s)
  have hrun := loopRun_run (by simpa using hc) hsafe hi.kind (budget size s)
  rw [envTurn_cfg, envTurn_eng] at hrun
  exact ⟨hclean, hrun⟩

theorem exec_command_clean {i : Instr} {op : Byte} {x y : U32} {s t : State} (hs : SafeState s)
    (hi : commandOf i = some (op, x, y)) (ho : s.bus.oversize = false) (hop : oversizeCommand s.cfg.payloadCap op y = false)
    (h : exec i s = .next t) : Clean (envTurn s) .none (envTurn s).eng.cBuf t := by
  rw [exec_of_commandOf hi] at h
  obtain ⟨hc, hr, rfl⟩ := hostOperation_next h
  have hc' : parametersOk (envTurn s).cfg = true := by simpa using hc
  have hstart := clean_called (op := op) (x := x) (y := y) (envTurn_safe hs) (by simpa using hr)
    ((envTurn_keeps hc hs).oversize.trans ho) (by rw [envTurn_cfg]; exact hop)
  rw [stepV_latch]
  exact (hstart.step (w := called op x y (envTurn s)) hc' (by simp [called])).run hc' _

/-- Outside the mailbox an operation stores no byte but those of `dst` (R43, R153). -/
theorem exec_outside {i : Instr} {s t : State} (hs : SafeState s) (hbuf : i ≠ .scpBuf) (h : exec i s = .next t)
    (ho : s.bus.oversize = false) (hsmall : oversizeCall s.cfg i = false) {a : Nat} (ha : ¬ inMailbox s.cfg a)
    (hstores : ¬ storesTo i a) : Memory.read t.bus.mem a = Memory.read (envTurn s).bus.mem a := by
  have ha' : ¬ inMailbox (envTurn s).cfg a := by rw [envTurn_cfg]; exact ha
  rcases instr_cases i with hi | ⟨op, x, y, hi⟩ | ⟨k, addr, size, hi⟩
  · exact absurd hi hbuf
  · simp only [oversizeCall, hi] at hsmall
    exact (exec_command_clean hs hi ho hsmall h).outside a ha' fun hst => absurd hst.1 (by simp)
  · obtain ⟨buf, hloop, hread⟩ := isChunked_of_next hi h
    obtain ⟨hclean, hrun⟩ := exec_chunked_clean hs hloop ho h
    have hcfg : t.cfg = s.cfg := (exec_cfg_clock h).1
    refine hclean.outside a ha' fun ⟨hk, hlo, hhi⟩ => hstores ?_
    subst hk
    have hle : copied t.eng ≤ size.toNat := by
      rw [← hcfg] at hrun
      exact hrun.copied_le (by rw [hcfg]; exact (exec_next h).1) hclean.safe
    rw [hread rfl]
    exact ⟨hlo, hhi.trans_le (Nat.add_le_add_left hle _)⟩

/-- Settles O58: the environment is outside the caller's reach while an operation runs, and the requester's steps touch what
lies outside the mailbox by the copy-out alone. -/
theorem operationFrame : Obligations.OperationFrame := by
  intro i s t hs hbuf h
  obtain ⟨hc, hr, -⟩ := exec_next h
  obtain ⟨hoffers, hret, hseen⟩ := exec_sameCaller hs hbuf h
  have hk := envTurn_keeps hc hs
  refine ⟨(exec_cfg_clock h).1, fun ho hsmall a ha hstores => exec_outside hs hbuf h ho hsmall ha hstores, hoffers.trans hk.offers,
    hret.trans hk.retBuf, hseen, fun hcmd => ?_, fun hcmd hrest hcode => ?_⟩
  all_goals obtain ⟨⟨op, x, y⟩, hi⟩ := Option.ne_none_iff_exists'.1 hcmd
  · obtain ⟨hkind, haddr, hsize, hcur, hchunk, hidx, hbuf⟩ :=
      (exec_call hi hs h).sameLoop (v := called op x y (envTurn s)) ((envTurn_safe hs).restKind (by simpa using hr))
    have heng := envTurn_eng s
    rw [← heng]
    exact ⟨hkind, haddr, hsize, hcur, hchunk, hidx, hbuf⟩
  · have hun := (unwritten_called hc hs hr op x y).trans (((exec_call hi hs h).result hrest).unwritten hcode)
    exact ⟨hun.t0, hun.rdSt⟩

/-- A failed read leaves `dst` from its recorded chunk on (R153, R158). -/
theorem failedRead_leaves {addr : U32} {dst : U64} {size : U32} {s t : State} (hs : SafeState s) (ho : s.bus.oversize = false)
    (h : exec (.flashRead addr dst size) s = .next t) (hr : t.eng.pc = .rest) (hcode : t.eng.res ≠ codeOk) {a : Nat}
    (hlo : dst.toNat + (t.eng.diag.arg0 - addr).toNat ≤ a) (hhi : a < dst.toNat + size.toNat) :
    Memory.read t.bus.mem a = Memory.read (envTurn s).bus.mem a := by
  have hloop := isChunked_read_of_next h
  obtain ⟨hclean, hrun⟩ := exec_chunked_clean hs hloop ho h
  have hdone : (t.eng.diag.arg0 - addr).toNat = t.eng.cCur.toNat := by
    rcases hrun with ⟨hinv, -⟩ | hrep
    · exact absurd hr hinv.begun.2
    · obtain ⟨j, hj⟩ := hrep.failed hcode
      exact hj.done
  have hclear : bufferClear s.cfg dst.toNat size.toNat = true := (chunkedOn_next h).1
  refine hclean.outside a ?_ fun ⟨_, _, hst⟩ => ?_
  · rw [envTurn_cfg]
    exact bufferClear_notMailbox hclear (by omega) hhi
  · rw [copied_of_pc (by simp [hr]) (by simp [hr])] at hst
    omega

end Sys2Proof.Machine
end

section
/-! SUPPORT. A `FLASH_READ` that fails after some whole chunks (R153, R158, R192 to R194). -/

namespace Sys2Proof.Machine

open Sys2Proof

/-- The loop of a read stands before a chunk, on an idle channel with nothing pending. -/
structure ReadHead (w : State) : Prop where
  params : parametersOk w.cfg = true
  safe : SafeState w
  settled : Settled w
  idle : channelIdle w
  pc : w.eng.pc = .fTest
  left : w.eng.cSize ≠ 0#32
  kind : w.eng.cKind = .read

/-- A chunk that failed with `code`: its record is that of the chunk, and outside the mailbox nothing changed (R153, R158). -/
structure ChunkFailed (code : BitVec 3) (w t : State) : Prop where
  pc : t.eng.pc = .rest
  res : t.eng.res = code
  arg0 : t.eng.diag.arg0 = w.eng.cAddr
  outside : ∀ a, ¬ inMailbox w.cfg a → Memory.read t.bus.mem a = Memory.read w.bus.mem a

theorem ReadHead.path {w : State} (h : ReadHead w) : ∃ v, EPath 3 w v ∧ ChunkCall w v := by
  obtain ⟨v, hto, hv⟩ := epath_chunkCall h.params h.pc h.left
  rw [h.kind, if_neg (by simp), Nat.zero_add] at hto
  exact ⟨v, hto, hv⟩

/-- Over three empty batches to the chunk's command. -/
theorem ReadHead.goes_call {w : State} (h : ReadHead w) {bs : List (List EnvMove)} (hs : w.env.sched = quiet 15 ++ bs) :
    ∃ v, Goes 3 w v ∧ ChunkCall w v ∧ AtCall v ∧ v.env.sched = quiet 12 ++ bs := by
  obtain ⟨v, hto, hv⟩ := h.path
  rw [show 15 = 3 + 12 from rfl, quiet_add, List.append_assoc] at hs
  have hgo := hto.goes (fun b hb => quiet_empty le_rfl (hs ▸ hb))
  rw [hs, quiet_drop] at hgo
  have hv' := hv.rescheduled (quiet 12 ++ bs)
  have hsample : ownSample (onSched (quiet 12 ++ bs) v) = visibleSample w := hv'.sample.trans (ownSample_of_settled h.settled.1)
  have hrec : recognised w.cfg.gen (chunkOpcode w.eng.cKind) = true := by rw [h.kind]; exact recognised_read _
  refine ⟨_, hgo, hv', ⟨by rw [hv'.cfg]; exact h.params, hgo.safe h.params h.safe, by rw [hv'.eng], by rw [hv'.eng, hv'.cfg]; exact hrec,
    hv'.loadPick.trans h.settled.2.2.2, by rw [hsample]; exact h.idle⟩, rfl⟩

/-- The command is answered with the status still in progress (R194). -/
theorem ReadHead.faults {w : State} (h : ReadHead w) {extra : List Byte}
    (hs : w.env.sched = quiet 15 ++ [answer w.eng.nextId extra statusExecuting]) :
    ∃ t, Goes 22 w t ∧ ChunkFailed codeFault w t := by
  obtain ⟨v, hgo, hv, hat, hvs⟩ := h.goes_call hs
  have hid : v.eng.nextId = w.eng.nextId := by rw [hv.eng]
  obtain ⟨t, hgo', ht, -⟩ := hat.goes_returned (data := extra) (bs := []) (.inr rfl) (by rw [hvs, hid]) (by simp)
  have hcode : ¬ statusExecuting = statusGood := by decide
  refine ⟨t, hgo.trans hgo', ?_, ?_, ?_, fun a ha => ?_⟩
  · rw [ht.eng, returnedEngine, if_neg hcode]
    exact returnPc_error (by decide) _
  · rw [ht.eng, returnedEngine, if_neg hcode]
  · rw [ht.eng, returnedEngine, hv.eng]
  · rw [ht.outside a (by rw [hv.cfg]; exact ha), hv.bus]

theorem not_idle_of_status {x : Sample} (hg : x.st ≠ statusGood) (he : x.st ≠ statusExecuting) : idle x = false := by
  simp [idle, hg, he]

/-- The command's check sees a status outside `'G'` and `'E'` (R192). -/
theorem ReadHead.busy {w : State} (h : ReadHead w) (hs : w.env.sched = [[.scp (.writeStatus 0#8)]]) :
    ∃ t, Goes 8 w t ∧ ChunkFailed codeChannelBusy w t := by
  obtain ⟨hpend, -, -, hpick⟩ := h.settled
  set u := envMoves [.scp (.writeStatus 0#8)] (onSched [] w) with hu
  have hframe : ScpFrame (onSched [] w) u := scpFrame_writeStatus (s := onSched [] w) h.params 0#8
  have hstatus : visible u (.field .status) = zextByte 0#8 := by
    have hv := visible_writeStatus (s := onSched [] w) h.params h.safe.memory 0#8 .status
    rwa [if_pos rfl] at hv
  have hkind : ¬ u.eng.cKind = .write := by rw [hframe.eng, onSched_eng, h.kind]; simp
  obtain ⟨v, hto, hv⟩ := epath_chunkCall (w := u) (by rw [hframe.cfg]; exact h.params) (by rw [hframe.eng]; exact h.pc)
    (by rw [hframe.eng]; exact h.left)
  rw [if_neg hkind, Nat.zero_add] at hto
  have hbusy : Machine.idle (ownSample v) = false := by
    have hst : (ownSample v).st = 0#8 := by
      rw [hv.sample, ownSample_of_settled (hframe.pending.trans hpend), visibleSample, hstatus, lowByte_zextByte]
    exact not_idle_of_status (by rw [hst]; decide) (by rw [hst]; decide)
  have hrec : recognised v.cfg.gen v.eng.op = true := by
    rw [hv.cfg, hv.eng, hframe.eng, onSched_eng, h.kind]
    exact recognised_read _
  have hcheck := epath_check_busy (s := v) (by rw [hv.eng]) hrec (by rw [hv.loadPick, hframe.loadPick]; exact hpick) hbusy
  have hgo := goes_batch (n := 7) (by rw [h.pc]; simp) hs (hto.trans hcheck) (by simp)
  have hend : Completes codeChannelBusy (sampled v) (raiseChannelBusy (sampled v)) := completes_complete ..
  refine ⟨_, hgo, hend.pc.trans (returnPc_error (by decide) _), hend.res, hend.diagArg0.trans ?_, fun a ha => ?_⟩
  · show v.eng.arg0 = _
    rw [hv.eng, hframe.eng]
    rfl
  · have hbus : (onSched (List.drop 7 []) (raiseChannelBusy (sampled v))).bus = u.bus := hend.bus.trans hv.bus
    rw [hbus]
    exact hframe.outside a ha

/-- Nothing answers the command, and a second passes (R193). -/
theorem ReadHead.timesOut {w : State} (h : ReadHead w) (hs : w.env.sched = quiet 15 ++ [[.clk (timeoutTicks w.cfg)]])
    (hfit : w.env.now.toNat + timeoutTicks w.cfg < 2 ^ 64) :
    ∃ t, Goes 20 w t ∧ ChunkFailed codeTimeout w t := by
  obtain ⟨v, hgo, hv, hat, hvs⟩ := h.goes_call hs
  obtain ⟨m, hgo', hm, hms⟩ := hat.goes_delivered hvs
  have hm' := hm.rescheduled []
  have hstart : (onSched [] m).env.now = w.env.now := by rw [hm'.now, hv.env]
  set u := clkMove (timeoutTicks w.cfg) (onSched [] m) with hu
  have hnow : u.env.now.toNat = w.env.now.toNat + timeoutTicks w.cfg := by
    rw [hu, clkMove_now (by rw [hstart]; exact hfit), hstart]
  have heng : u.eng = m.eng := clkMove_eng ..
  have hp : u.eng.pc = .poll := by rw [heng, hm.pc]
  have ht0 : u.eng.t0 = w.env.now := by rw [heng, hm.eng, hv.env]
  have hbusy : Machine.idle (ownSample u) = false := by
    rw [hu, ownSample_clkMove]
    exact not_idle_of_busy hm'.ownSample_busy
  have hdue : ticksToDeadline (sampled u) = 0 := by
    have hcfg : (sampled u).cfg = w.cfg := (clkMove_cfg ..).trans (hm'.cfg.trans hv.cfg)
    have hdiff : ((sampled u).env.now - (sampled u).eng.t0).toNat = timeoutTicks w.cfg := by
      show (u.env.now - u.eng.t0).toNat = _
      rw [ht0, BitVec.toNat_sub_of_le (by rw [BitVec.le_def]; omega)]
      omega
    unfold ticksToDeadline
    rw [hdiff, hcfg, Nat.sub_self, ite_self]
  have hsample := epath_pollSample_busy hp (by rw [heng, hm.sampleAt]) (by rw [hu, clkMove_ord]; exact hm'.loadPick) hbusy
  have htime := goes_pollTimeout hsample (clkMove_sched ..) hp hbusy (by rw [ht0]; omega) (by rw [hdue]; omega)
  have hend : Completes codeTimeout (clkMove (ticksToDeadline (sampled u)) (sampled u))
      (raiseTimeout (clkMove (ticksToDeadline (sampled u)) (sampled u))) := completes_complete ..
  refine ⟨_, hgo.trans (hgo'.trans (Goes.after_lastBatch (n := 4) hm.pc hm.sampleAt hms htime)),
    hend.pc.trans (returnPc_error (by decide) _), hend.res, hend.diagArg0.trans ?_, fun a ha => ?_⟩
  · rw [clkMove_eng]
    show u.eng.arg0 = _
    rw [heng, hm.eng, hv.eng]
  · have hbus : (clkMove (ticksToDeadline (sampled u)) (sampled u)).bus = m.bus := (clkMove_bus ..).trans (clkMove_bus ..)
    rw [hend.bus, hbus, hm.outside a (by rw [hv.cfg]; exact ha), hv.bus]

/-- The three ways in which the next chunk fails, by what is scheduled for it. -/
theorem ReadHead.fails {w : State} (h : ReadHead w) {extra : List Byte} {tail : List (List EnvMove)} {code : BitVec 3}
    (hfit : w.env.now.toNat + timeoutTicks w.cfg < 2 ^ 64) (hs : w.env.sched = tail)
    (ht : (tail, code) ∈ [(quiet 15 ++ [answer w.eng.nextId extra statusExecuting], codeFault),
      (quiet 15 ++ [[.clk (timeoutTicks w.cfg)]], codeTimeout), ([[.scp (.writeStatus 0#8)]], codeChannelBusy)]) :
    ∃ m t, m ≤ 64 ∧ Goes m w t ∧ ChunkFailed code w t := by
  simp only [List.mem_cons, Prod.mk.injEq, List.not_mem_nil, or_false] at ht
  rcases ht with ⟨htail, rfl⟩ | ⟨htail, rfl⟩ | ⟨htail, rfl⟩
  · obtain ⟨t, hgo, hfail⟩ := h.faults (hs.trans htail)
    exact ⟨22, t, by omega, hgo, hfail⟩
  · obtain ⟨t, hgo, hfail⟩ := h.timesOut (hs.trans htail) hfit
    exact ⟨20, t, by omega, hgo, hfail⟩
  · obtain ⟨t, hgo, hfail⟩ := h.busy (hs.trans htail)
    exact ⟨8, t, by omega, hgo, hfail⟩

/-- A read of whole chunks that are answered with the bytes of `data`, up to the head of the next chunk. -/
theorem read_goes_head {addr : U32} {dst : U64} {size : U32} {data : List Byte} {j : Nat} {s : State}
    {tail : List (List EnvMove)} (hs : ReadyIdle s) (hclear : bufferClear s.cfg dst.toNat size.toNat = true)
    (hj : j * s.cfg.maxChunk < size.toNat) (hlen : data.length = j * s.cfg.maxChunk)
    (hsched : s.env.sched = chunkedSched .read s.cfg.maxChunk data.length s.eng.nextId data ++ tail) :
    ∃ w m, Goes m (chunkInit .read addr dst size (envTurn s)) w ∧ m ≤ s.env.sched.length
      ∧ Progress .read addr dst size (fun x => data.getD x 0#8) s w j ∧ w.env.sched = tail
      ∧ w.eng.cCur = BitVec.ofNat 32 data.length ∧ ReadHead w := by
  have hc := hs.1.1
  obtain ⟨-, -, -, -, hmax, -⟩ := (parametersOk_iff s.cfg).1 hc
  have hlt := size.isLt
  have hturn : envTurn s = onSched (chunkSched .read s.cfg.maxChunk data.length data.length s.eng.nextId data ++ tail) s :=
    envTurn_of_quiet hsched
  have hdata : LoopData .read (fun x => data.getD x 0#8) 0 data.length data := by
    refine ⟨fun _ i => ?_, fun h => absurd rfl h⟩
    split
    · rename_i hi
      simp [List.getD_eq_getElem?_getD, List.getElem?_eq_getElem hi]
    · rw [List.getElem?_eq_none (by omega)]
  have hstart := progress_start (addr := addr) (moved := fun x => data.getD x 0#8) hs (isChunked_read addr hclear).clear
    (chunkSched .read s.cfg.maxChunk data.length data.length s.eng.nextId data ++ tail)
  rw [← hturn] at hstart
  set w0 := chunkInit .read addr dst size (envTurn s) with hw0
  have hid : w0.eng.nextId = s.eng.nextId := by simp [hw0]
  have hsize0 : w0.eng.cSize = size := rfl
  have hcur0 : w0.eng.cCur.toNat = 0 := by simp [hw0]
  have hsched0 : w0.env.sched = chunkSched .read s.cfg.maxChunk data.length data.length w0.eng.nextId data ++ tail := by
    simp [hw0, hsched, chunkedSched]
  obtain ⟨w, n, hgo, hprog, hws, hcur⟩ := goes_chunks hc (by simp) (recognised_read _) (fun h => by simp at h) data.length hstart le_rfl
    (by rw [hsize0]; omega) (.inr ⟨j, by rw [hlen, Nat.mul_comm]⟩) (by rw [hcur0]; exact hdata) hsched0
  have hdone := hprog.done
  have hleft := hprog.left
  have hsize : w.eng.cSize ≠ 0#32 := fun h0 => by simp [h0] at hleft; omega
  obtain ⟨-, hpos, -⟩ := hprog.position hsize
  obtain rfl : n = j := Nat.eq_of_mul_eq_mul_right (show 0 < s.cfg.maxChunk by omega) (by omega)
  have hcfg : w.cfg = s.cfg := hprog.caller.1
  refine ⟨w, _, hgo, ?_, hprog, hws, BitVec.eq_of_toNat_eq ?_, ⟨by rw [hcfg]; exact hc, hprog.safe, hprog.settled, hprog.idle,
    hprog.pc, hsize, hprog.kind⟩⟩
  · rw [hid, hsched, chunkedSched, List.cons_append, List.length_cons, List.length_append]
    omega
  · rw [BitVec.toNat_ofNat, Nat.mod_eq_of_lt (by omega)]
    omega

/-- Settles O57: outside the mailbox a read changes only what it has copied out, and the failing chunk copies nothing. -/
theorem failedReadLeavesTheRest : Obligations.FailedReadLeavesTheRest := by
  refine ⟨fun addr dst size s t hs ho h hr hcode a hlo hhi => failedRead_leaves hs ho h hr hcode hlo hhi, ?_⟩
  intro addr dst size data extra j s code tail hs hclear hj hlen _ hfit htail hsched
  obtain ⟨w, m, hgo, hm, hprog, hws, hcur, hhead⟩ := read_goes_head (addr := addr) hs hclear hj hlen hsched
  obtain ⟨hcfg, hnow, -⟩ := hprog.caller
  obtain ⟨m', t, hm', hgo', hfail⟩ := hhead.fails (tail := tail) (code := code) (extra := extra) (by rw [hnow, hcfg]; exact hfit) hws
    (by rw [hprog.nextId, hcfg]; exact htail)
  have hexec : exec (.flashRead addr dst size) s = .next t := by
    rw [(isChunked_read addr hclear).exec s rfl]
    refine chunked_goes hs.1 (hgo.trans hgo') hfail.pc ?_
    rw [budget]
    omega
  have hlt := size.isLt
  have hcurNat : w.eng.cCur.toNat = data.length := by rw [hcur, BitVec.toNat_ofNat, Nat.mod_eq_of_lt (by omega)]
  have hbyte : ∀ a, dst.toNat ≤ a → a < dst.toNat + size.toNat → Memory.read t.bus.mem a =
      if a < dst.toNat + data.length then data.getD (a - dst.toNat) 0#8 else Memory.read s.bus.mem a := fun a hlo hhi => by
    have ha := bufferClear_notMailbox hclear hlo hhi
    rw [hfail.outside a (by rw [hcfg]; exact ha), hprog.outside a ha, hcurNat]
    simp only [true_and, hlo]
  refine ⟨t, hexec, hfail.pc, hfail.res, by rw [hfail.arg0, hprog.address, hcur], fun k hk => ?_, fun a hlo hhi => ?_⟩
  · rw [hbyte _ (by omega) (by omega), if_pos (by omega), Nat.add_sub_cancel_left, List.getD_eq_getElem?_getD,
      List.getElem?_eq_getElem hk]
    rfl
  · rw [hbyte a (by omega) hhi, if_neg (by omega)]

end Sys2Proof.Machine
end

section
/-! SUPPORT. Every operation ends, or waits for a clock that has no move left (R119, R162, R179, R201; U20). -/

namespace Sys2Proof.Machine

open Sys2Proof

/-! ### The steps that an operation has left -/

/-- The steps of the loop after a chunk that leaves `n` bytes: fewer than 64 for each byte (R151, R160). -/
def loopSteps (n : Nat) : Nat :=
  64 * n + 1

/-- The steps of the loop after its transaction has come back: the copy-out, the advance, the chunks after it. -/
def stepsAfterCall (e : Engine) : Nat :=
  if e.cKind = .none then 0 else e.cChunk.toNat + 1 + loopSteps (e.cSize.toNat - e.cChunk.toNat)

/-- The reads that are left of the sample of `C` (R104). -/
def checkReads : SampleAt → Nat
  | .rdNow => 5
  | .rdBusy => 4
  | .rdExec => 3
  | .rdReq => 2
  | .rdStatus => 1

/-- The steps of a transaction from `p` to its return, but for the polls that the schedule keeps going. -/
def callSteps (p : Pc) (a : SampleAt) : Nat :=
  match p with
  | .v => 31
  | .c => 26 + checkReads a
  | .wOp => 26
  | .wA0 => 25
  | .wA1 => 24
  | .wId => 23
  | .sb => 22
  | .ring => 21
  | .t0 => 20
  | .poll => 19
  | .lb => 3
  | .rdSt => 2
  | .resolve => 1
  | .rest | .fInit | .fTest | .fChunk | .fCopyIn | .fCmd | .fCopyOut | .fAdv => 0

/-- The steps of the chunk loop outside its transactions. -/
def outsideSteps (e : Engine) : Nat :=
  match e.pc with
  | .fTest => loopSteps e.cSize.toNat
  | .fChunk => 64 * e.cSize.toNat
  | .fCopyIn => e.cChunk.toNat - e.cIdx.toNat + 32 + stepsAfterCall e
  | .fCmd => 32 + stepsAfterCall e
  | .fCopyOut => e.cChunk.toNat - e.cIdx.toNat + 1 + loopSteps (e.cSize.toNat - e.cChunk.toNat)
  | .fAdv => 1 + loopSteps (e.cSize.toNat - e.cChunk.toNat)
  | .rest | .fInit | .v | .c | .wOp | .wA0 | .wA1 | .wId | .sb | .ring | .t0 | .poll | .lb | .rdSt | .resolve => 0

/-- At most how many requester steps an operation has left, but for the polls that the schedule keeps going. -/
def stepsLeft (e : Engine) : Nat :=
  if inTransaction e.pc then callSteps e.pc e.sampleAt + stepsAfterCall e else outsideSteps e

theorem stepsAfterCall_congr {e e' : Engine} (h : SameCommand e e') : stepsAfterCall e' = stepsAfterCall e := by
  rw [stepsAfterCall, stepsAfterCall, h.cKind, h.cChunk, h.cSize]

/-- A transaction that comes back leaves no more than the loop's own steps. -/
theorem stepsLeft_completes {code : BitVec 3} {s t : State} (h : Completes code s t) :
    stepsLeft t.eng ≤ stepsAfterCall s.eng := by
  rw [stepsLeft, h.not_inTransaction, if_neg (by simp)]
  rcases returnPc_cases code s.eng.cKind with ⟨hp, -⟩ | ⟨hp, hok, hk⟩ | ⟨hp, hok, hk⟩ <;> rw [← h.pc] at hp <;>
    simp only [outsideSteps, hp]
  · exact Nat.zero_le _
  · have hidx : t.eng.cIdx = 0#32 := by rw [h.cIdx, if_pos ⟨hok, hk⟩]
    rw [stepsAfterCall, if_neg (by simp [hk]), hidx, h.cChunk, h.cSize]
    exact le_rfl
  · have hne : s.eng.cKind ≠ .none := by rcases hk with hk | hk <;> simp [hk]
    rw [stepsAfterCall, if_neg hne, h.cChunk, h.cSize]
    omega

theorem callSteps_pos {p : Pc} (h : inTransaction p = true) (a : SampleAt) : 0 < callSteps p a := by
  cases p <;> simp [inTransaction, beforeCheck, opChecked, callSteps] at h ⊢

theorem checkReads_sampleRead {s : State} (h : s.eng.sampleAt ≠ .rdStatus) :
    checkReads (sampleRead s).eng.sampleAt + 1 ≤ checkReads s.eng.sampleAt := by
  cases ha : s.eng.sampleAt with
  | rdBusy => rw [sampleRead_rdBusy ha]; exact le_rfl
  | rdExec => rw [sampleRead_rdExec ha]; exact le_rfl
  | rdReq => rw [sampleRead_rdReq ha]; exact le_rfl
  | rdStatus => exact absurd ha h
  | rdNow => rw [sampleRead_rdNow ha]; exact le_rfl

/-- Every step of a transaction that goes on brings it nearer to its end, but for a poll. -/
theorem callSteps_engineStep {s : State} (ht : inTransaction s.eng.pc = true)
    (ho : inTransaction (engineStep s).eng.pc = true) :
    callSteps (engineStep s).eng.pc (engineStep s).eng.sampleAt + (if s.eng.pc = .poll then 0 else 1)
      ≤ callSteps s.eng.pc s.eng.sampleAt := by
  obtain ⟨a, x, o, hs, -⟩ := sampleRead_eq s
  have hend : ∀ {code t}, Completes code s t → ¬ inTransaction t.eng.pc = true := fun h => by simp [h.not_inTransaction]
  cases hp : s.eng.pc <;> rw [hp] at ht <;> simp only [engineStep, hp] at ho ⊢
  case v =>
    rcases stepV_cases s with ⟨-, he⟩ | ⟨-, he⟩ <;> rw [he] at ho ⊢
    · exact (by decide : 30 + 1 ≤ 31)
    · exact absurd ho (hend (completes_raiseInvalidOperation s))
  case c =>
    rcases stepC_cases s with ⟨hat, he⟩ | ⟨hat, -, he⟩ | ⟨-, -, he⟩ <;> rw [he] at ho ⊢
    · have hreads := checkReads_sampleRead hat
      rw [sampleRead_pc, hp]
      simp only [callSteps, reduceCtorEq, if_false]
      omega
    · simp [callSteps, checkReads, hat]
    · exact absurd ho (hend (completes_raiseChannelBusy_sampleRead s))
  case poll =>
    rcases stepPoll_cases s with ⟨he, -⟩ | ⟨-, -, he⟩ | ⟨-, -, he⟩ <;> rw [he] at ho ⊢
    · rw [sampleRead_pc, hp]; exact le_rfl
    · exact (by decide : 3 + 0 ≤ 19)
    · exact absurd ho (hend (completes_complete codeTimeout ..))
  case resolve =>
    rcases stepResolve_cases s with ⟨-, he⟩ | ⟨-, he⟩ <;> rw [he] at ho
    · exact absurd ho (hend (completes_complete codeOk ..))
    · exact absurd ho (hend (completes_complete codeFault ..))
  case wOp | wA0 | wA1 | wId | sb | ring | t0 | lb | rdSt => exact le_rfl
  all_goals exact Bool.noConfusion ht

/-- Every step of a transaction brings the operation nearer to its end, but for a poll. -/
theorem stepsLeft_transaction {s : State} (ht : inTransaction s.eng.pc = true) :
    stepsLeft (engineStep s).eng + (if s.eng.pc = .poll then 0 else 1) ≤ stepsLeft s.eng := by
  have hpos := callSteps_pos ht s.eng.sampleAt
  have hone : (if s.eng.pc = .poll then 0 else 1) ≤ 1 := by split <;> omega
  have hnow : stepsLeft s.eng = callSteps s.eng.pc s.eng.sampleAt + stepsAfterCall s.eng := if_pos ht
  rw [hnow]
  rcases engineStep_transaction ht with ⟨code, -, hend⟩ | ⟨ho, hsame, -⟩
  · have hle := stepsLeft_completes hend
    omega
  · have ht' := inTransaction_of_opChecked ho
    have hle := callSteps_engineStep ht ht'
    rw [stepsLeft, if_pos ht', stepsAfterCall_congr hsame]
    omega

theorem stepFCopyIn_eng (s : State) :
    (stepFCopyIn s).eng =
      if s.eng.cIdx.toNat + 1 < s.eng.cChunk.toNat then { s.eng with cIdx := s.eng.cIdx + 1#32 }
      else { s.eng with cIdx := 0#32, pc := .fCmd } :=
  copyNext_eng _ _

theorem stepsLeft_of_outside {e : Engine} (h : inTransaction e.pc = false) : stepsLeft e = outsideSteps e :=
  if_neg (by simp [h])

/-- Every byte copied is one byte less to copy (R151). -/
theorem outsideSteps_nextByte {e : Engine} (hp : e.pc = .fCopyIn ∨ e.pc = .fCopyOut)
    (hmore : e.cIdx.toNat + 1 < e.cChunk.toNat) : stepsLeft { e with cIdx := e.cIdx + 1#32 } < outsideSteps e := by
  have hidx : (e.cIdx + 1#32).toNat = e.cIdx.toNat + 1 := succ_index hmore
  rcases hp with hp | hp <;> rw [stepsLeft_of_outside (by rw [hp]; rfl)] <;>
    simp only [outsideSteps, hp, hidx, stepsAfterCall] <;> omega

/-- Every step of the loop outside a transaction brings the operation nearer to its end. -/
theorem stepsLeft_loop {s : State} (hc : parametersOk s.cfg = true) (hs : SafeState s) (ht : inTransaction s.eng.pc = false)
    (hr : s.eng.pc ≠ .rest) (hi : s.eng.pc ≠ .fInit) : stepsLeft (engineStep s).eng < stepsLeft s.eng := by
  have hnow := stepsLeft_of_outside ht
  rw [hnow]
  cases hp : s.eng.pc <;> rw [hp] at ht hi hr <;> simp only [engineStep, hp]
  case fTest =>
    rw [stepFTest_eq]
    dsimp only
    split
    · simp [stepsLeft_of_outside, inTransaction, beforeCheck, opChecked, outsideSteps, hp, loopSteps]
    · simp [stepsLeft_of_outside, inTransaction, beforeCheck, opChecked, outsideSteps, hp, loopSteps]
  case fChunk =>
    have hsize := hs.sizeLeft hp
    obtain ⟨hlo, hmax, hle⟩ := chunkOf_bounds hc hsize
    have hactive := hs.loopKind (by rw [hp]; rfl)
    by_cases hk : s.eng.cKind = .write
    · simp only [stepFChunk, hk, if_true]
      rw [stepsLeft_of_outside rfl]
      simp only [outsideSteps, hp, stepsAfterCall, reduceCtorEq, if_false, loopSteps]
      simp
      omega
    · simp only [stepFChunk, hk, if_false]
      rw [stepsLeft_of_outside rfl]
      simp only [outsideSteps, hp, stepsAfterCall, hactive, if_false, loopSteps]
      omega
  case fCopyIn =>
    have hidx := hs.copyIndex (.inl hp)
    rw [stepFCopyIn_eng]
    by_cases hmore : s.eng.cIdx.toNat + 1 < s.eng.cChunk.toNat
    · rw [if_pos hmore]
      exact outsideSteps_nextByte (.inl hp) hmore
    · rw [if_neg hmore, stepsLeft_of_outside rfl]
      simp only [outsideSteps, hp, stepsAfterCall]
      omega
  case fCmd =>
    have hcall : stepsLeft (stepFCmd s).eng = 31 + stepsAfterCall s.eng := rfl
    rw [hcall]
    simp only [outsideSteps, hp]
    omega
  case fCopyOut =>
    have hidx := hs.copyIndex (.inr hp)
    rw [stepFCopyOut_eng]
    by_cases hmore : s.eng.cIdx.toNat + 1 < s.eng.cChunk.toNat
    · rw [if_pos hmore]
      exact outsideSteps_nextByte (.inr hp) hmore
    · rw [if_neg hmore, stepsLeft_of_outside rfl]
      simp only [outsideSteps, hp]
      omega
  case fAdv =>
    have hactive := hs.loopKind (by rw [hp]; rfl)
    obtain ⟨-, -, hle⟩ := hs.chunkBounds hactive (by rw [hp]; rfl)
    have hnext : stepsLeft (stepFAdv s).eng = loopSteps (s.eng.cSize - s.eng.cChunk).toNat := rfl
    rw [hnext, BitVec.toNat_sub_of_le (by rw [BitVec.le_def]; exact hle)]
    simp only [outsideSteps, hp]
    omega
  case rest => exact absurd rfl hr
  case fInit => exact absurd rfl hi
  all_goals exact Bool.noConfusion ht

/-- Every requester step brings the operation nearer to its end, but for a poll. -/
theorem stepsLeft_engineStep {s : State} (hc : parametersOk s.cfg = true) (hs : SafeState s) (hr : s.eng.pc ≠ .rest)
    (hi : s.eng.pc ≠ .fInit) : stepsLeft (engineStep s).eng + (if s.eng.pc = .poll then 0 else 1) ≤ stepsLeft s.eng := by
  by_cases ht : inTransaction s.eng.pc = true
  · exact stepsLeft_transaction ht
  · have hlt := stepsLeft_loop hc hs (by simpa using ht) hr hi
    have hpoll : s.eng.pc ≠ .poll := fun hp => ht (by rw [hp]; rfl)
    rw [if_neg hpoll]
    exact hlt

end Sys2Proof.Machine
end

section
/-! SUPPORT. With the schedule used up a poll ends, unless the clock would have to wrap (R111, R119, R201; U20). -/

namespace Sys2Proof.Machine

open Sys2Proof

/-! ### A poll that nothing disturbs -/

/-- What the sample has read so far is what the engine's own side sees, and the next load is not satisfied early. -/
def sampleCurrent (s : State) : Bool :=
  match s.eng.sampleAt with
  | .rdBusy => s.ord.loadPick == 0
  | .rdExec => s.ord.loadPick == 0 && s.eng.sample.busy == (ownSample s).busy
  | .rdReq => s.ord.loadPick == 0 && s.eng.sample.busy == (ownSample s).busy && s.eng.sample.exec == (ownSample s).exec
  | .rdStatus =>
    s.ord.loadPick == 0 && s.eng.sample.busy == (ownSample s).busy && s.eng.sample.exec == (ownSample s).exec
      && s.eng.sample.req == (ownSample s).req
  | .rdNow => s.eng.sample == ownSample s

/-- How many samples a poll takes at most, the present one among them, with the schedule used up: one that reads what is there,
and before it those that began with something older. -/
def pollRounds (s : State) : Nat :=
  if sampleCurrent s then 1 else if s.eng.sampleAt = .rdNow ∧ s.ord.loadPick ≠ 0 then 3 else 2

/-- The steps of the present sample of a poll (R104, R111). -/
def pollReads : SampleAt → Nat
  | .rdBusy => 5
  | .rdExec => 4
  | .rdReq => 3
  | .rdStatus => 2
  | .rdNow => 1

/-- The steps an operation has left with the schedule used up. -/
def quietSteps (s : State) : Nat :=
  if s.eng.pc = .poll then 3 + pollReads s.eng.sampleAt + 5 * pollRounds s - 5 + stepsAfterCall s.eng else stepsLeft s.eng

theorem pollReads_bounds (a : SampleAt) : 1 ≤ pollReads a ∧ pollReads a ≤ 5 := by
  cases a <;> simp [pollReads]

theorem pollRounds_pos (s : State) : 1 ≤ pollRounds s := by
  unfold pollRounds
  split_ifs <;> omega

theorem pollRounds_le_two {s : State} (h : s.eng.sampleAt ≠ .rdNow ∨ s.ord.loadPick = 0) : pollRounds s ≤ 2 := by
  unfold pollRounds
  split_ifs with h1 h2
  · omega
  · exact absurd h2 (by tauto)
  · omega

theorem quietSteps_le (s : State) : quietSteps s ≤ stepsLeft s.eng := by
  unfold quietSteps
  split
  · rename_i hp
    have hleft : stepsLeft s.eng = 19 + stepsAfterCall s.eng := by
      rw [stepsLeft, if_pos (by rw [hp]; rfl), hp]
      rfl
    rw [hleft]
    by_cases hnow : s.eng.sampleAt = .rdNow
    · have hle : pollRounds s ≤ 3 := by unfold pollRounds; split_ifs <;> omega
      have hread : pollReads s.eng.sampleAt = 1 := by rw [hnow]; rfl
      omega
    · have hle := pollRounds_le_two (s := s) (.inl hnow)
      have hread := (pollReads_bounds s.eng.sampleAt).2
      omega
  · exact le_rfl

/-- A load leaves the next one not satisfied early (R50). -/
theorem sampleRead_loadPick {s : State} (h : s.eng.sampleAt ≠ .rdNow) : (sampleRead s).ord.loadPick = 0 := by
  cases ha : s.eng.sampleAt with
  | rdBusy => rw [sampleRead_rdBusy ha]; rfl
  | rdExec => rw [sampleRead_rdExec ha]; rfl
  | rdReq => rw [sampleRead_rdReq ha]; rfl
  | rdStatus => rw [sampleRead_rdStatus ha]; rfl
  | rdNow => exact absurd ha h

theorem ownSample_sampleRead (s : State) : ownSample (sampleRead s) = ownSample s := by
  simp only [ownSample, ownView_sampleRead]

/-- A read that is not satisfied early keeps a current sample current. -/
theorem sampleCurrent_sampleRead {s : State} (h : sampleCurrent s = true) (hn : s.eng.sampleAt ≠ .rdNow) :
    sampleCurrent (sampleRead s) = true := by
  have hown := ownSample_sampleRead s
  have hpick := sampleRead_loadPick hn
  unfold sampleCurrent at h ⊢
  rw [hown, hpick]
  cases ha : s.eng.sampleAt <;> simp only [ha, Bool.and_eq_true, beq_iff_eq] at h hn ⊢
  · rw [sampleRead_rdBusy ha, loadValue_of_pick_zero h]
    simp [ownSample]
  · obtain ⟨hp, hb⟩ := h
    rw [sampleRead_rdExec ha, loadValue_of_pick_zero hp]
    simpa [ownSample] using hb
  · obtain ⟨⟨hp, hb⟩, he⟩ := h
    rw [sampleRead_rdReq ha, loadValue_of_pick_zero hp]
    simpa [ownSample] using ⟨hb, he⟩
  · obtain ⟨⟨⟨hp, hb⟩, he⟩, hr⟩ := h
    rw [sampleRead_rdStatus ha, loadValue_of_pick_zero hp]
    simpa [ownSample] using And.intro hb (And.intro he hr)
  · exact absurd rfl hn

theorem pollRounds_sampleRead {s : State} (hn : s.eng.sampleAt ≠ .rdNow) : pollRounds (sampleRead s) ≤ pollRounds s := by
  by_cases hcur : sampleCurrent s = true
  · rw [pollRounds, if_pos (sampleCurrent_sampleRead hcur hn)]
    exact pollRounds_pos s
  · have htwo := pollRounds_le_two (s := sampleRead s) (.inr (sampleRead_loadPick hn))
    have hnow : pollRounds s = 2 := by
      rw [pollRounds, if_neg hcur, if_neg (fun h => hn h.1)]
    omega

theorem pollReads_sampleRead {s : State} (hn : s.eng.sampleAt ≠ .rdNow) :
    pollReads (sampleRead s).eng.sampleAt + 1 = pollReads s.eng.sampleAt := by
  cases ha : s.eng.sampleAt with
  | rdBusy => rw [sampleRead_rdBusy ha]; rfl
  | rdExec => rw [sampleRead_rdExec ha]; rfl
  | rdReq => rw [sampleRead_rdReq ha]; rfl
  | rdStatus => rw [sampleRead_rdStatus ha]; rfl
  | rdNow => exact absurd ha hn

theorem quietSteps_of_poll {s : State} (hp : s.eng.pc = .poll) :
    quietSteps s = 3 + pollReads s.eng.sampleAt + 5 * pollRounds s - 5 + stepsAfterCall s.eng := if_pos hp

theorem quietSteps_pos_of_poll {s : State} (hp : s.eng.pc = .poll) : 4 + stepsAfterCall s.eng ≤ quietSteps s := by
  have hrounds := pollRounds_pos s
  have hreads := (pollReads_bounds s.eng.sampleAt).1
  rw [quietSteps_of_poll hp]
  omega

/-- A read of a poll's sample brings the poll nearer to its end. -/
theorem quietSteps_read {s : State} (hp : s.eng.pc = .poll) (hn : s.eng.sampleAt ≠ .rdNow) :
    quietSteps (stepPoll s) < quietSteps s := by
  have hpos := quietSteps_pos_of_poll hp
  obtain ⟨a, x, o, hs, -⟩ := sampleRead_eq s
  have hafter : stepsAfterCall (sampleRead s).eng = stepsAfterCall s.eng := by rw [hs]; rfl
  rcases stepPoll_cases s with ⟨he, -⟩ | ⟨-, -, he⟩ | ⟨hat, -⟩
  · have hread := pollReads_sampleRead hn
    have hround := pollRounds_sampleRead hn
    have hone := pollRounds_pos (sampleRead s)
    rw [he, quietSteps_of_poll hp, quietSteps_of_poll (by rw [sampleRead_pc, hp]), hafter]
    omega
  · have hlb : quietSteps (stepPoll s) = 3 + stepsAfterCall (sampleRead s).eng := by rw [he]; rfl
    omega
  · exact absurd hat hn

/-- The turn before a requester step with the schedule used up. -/
theorem envTurn_used_up {s : State} (hs : s.env.sched = []) (hr : s.eng.pc ≠ .rest) :
    envTurn s = clkMove (ticksToDeadline s) s := by
  simp [envTurn, fairTurn, hs, hr]

/-- The clock is past the doorbell write of a poll in progress, and a sample that is read to its end was not idle (R110, R111). -/
structure Polling (s : State) : Prop where
  begun : s.eng.pc ≠ .fInit
  clock : s.eng.pc = .poll → s.eng.t0.toNat ≤ s.env.now.toNat
  busySeen : s.eng.pc = .poll → s.eng.sampleAt = .rdNow → idle s.eng.sample = false

/-- The sample after one that was not current has fewer doubts. -/
theorem quietSteps_again {s u : State} (hp : s.eng.pc = .poll) (hn : s.eng.sampleAt = .rdNow) (hcur : ¬ sampleCurrent s = true)
    (he : u.eng = s.eng) (ho : u.ord = s.ord) :
    quietSteps { u with eng := { u.eng with sampleAt := .rdBusy } } < quietSteps s := by
  have hreads : pollReads s.eng.sampleAt = 1 := by rw [hn]; rfl
  have hnext : quietSteps { u with eng := { u.eng with sampleAt := .rdBusy } }
      = 3 + 5 + 5 * (if s.ord.loadPick = 0 then 1 else 2) - 5 + stepsAfterCall s.eng := by
    rw [quietSteps_of_poll (by rw [← hp, he]), pollRounds, he, ho]
    simp [sampleCurrent, pollReads, stepsAfterCall]
  rw [hnext, quietSteps_of_poll hp, hreads, pollRounds, if_neg hcur]
  by_cases hpick : s.ord.loadPick = 0
  · rw [if_pos hpick, if_neg (fun h => h.2 hpick)]
    omega
  · rw [if_neg hpick, if_pos ⟨hn, hpick⟩]
    omega

/-- At the deadline test with the schedule used up the poll ends, or samples once more with fewer doubts. -/
theorem quietSteps_deadline {s : State} (hp : s.eng.pc = .poll) (hn : s.eng.sampleAt = .rdNow) (hs : s.env.sched = [])
    (h : Polling s) (hw : waiting s = false) : quietSteps (tick s) < quietSteps s := by
  have hpos := quietSteps_pos_of_poll hp
  by_cases hcur : sampleCurrent s = true
  · have hsame : s.eng.sample = ownSample s := by simpa [sampleCurrent, hn] using hcur
    have hbusy : idle (ownSample s) = false := by rw [← hsame]; exact h.busySeen hp hn
    have hfit : s.env.now.toNat + ticksToDeadline s < 2 ^ 64 := by
      have hlt := s.env.now.isLt
      by_contra hge
      rw [Bool.eq_false_iff, ne_eq, waiting_iff] at hw
      exact hw ⟨hs, by omega, by omega⟩
    have htick : tick s = _ := (goes_timeout hp hn hs hbusy (h.clock hp) hfit).ticks
    have hend : Completes codeTimeout (clkMove (ticksToDeadline s) s) (raiseTimeout (clkMove (ticksToDeadline s) s)) :=
      completes_complete ..
    have hback := stepsLeft_completes hend
    rw [clkMove_eng] at hback
    rw [htick]
    exact ((quietSteps_le _).trans hback).trans_lt (by omega)
  · have hturn := envTurn_used_up hs (by simp [hp])
    set u := clkMove (ticksToDeadline s) s with hu
    have hueng : u.eng = s.eng := clkMove_eng ..
    have htick : tick s = stepPoll u := by rw [tick, hturn, engineStep, hueng, hp]
    rcases stepPoll_cases u with ⟨he, -⟩ | ⟨hat, -⟩ | ⟨-, -, he⟩
    · rw [htick, he, sampleRead_rdNow (by rw [hueng]; exact hn)]
      exact quietSteps_again hp hn hcur hueng (clkMove_ord ..)
    · rw [hueng, hn] at hat
      exact absurd hat (by simp)
    · have hend : Completes codeTimeout u (raiseTimeout u) := completes_complete ..
      have hback := stepsLeft_completes hend
      rw [hueng] at hback
      rw [htick, he]
      exact ((quietSteps_le _).trans hback).trans_lt (by omega)

/-! ### The measure of a run -/

/-- The requester steps that an operation can still take, with one for each entry of the schedule. -/
def workLeft (s : State) : Nat :=
  s.env.sched.length + if s.env.sched = [] then quietSteps s else stepsLeft s.eng

theorem workLeft_le (s : State) : workLeft s ≤ s.env.sched.length + stepsLeft s.eng := by
  unfold workLeft
  split
  · exact Nat.add_le_add_left (quietSteps_le s) _
  · exact le_rfl

theorem workLeft_used_up {s : State} (hs : s.env.sched = []) : workLeft s = quietSteps s := by
  rw [workLeft, hs, if_pos rfl, List.length_nil, Nat.zero_add]

/-- Every requester step takes from the work that is left. -/
theorem workLeft_tick {s : State} (hc : parametersOk s.cfg = true) (hs : SafeState s) (h : Polling s) (hr : s.eng.pc ≠ .rest)
    (hw : waiting s = false) : workLeft (tick s) < workLeft s := by
  have hstep := stepsLeft_engineStep (s := envTurn s) (by simpa using hc) (envTurn_safe hs) (by simpa using hr) (by simpa using h.begun)
  rw [envTurn_eng] at hstep
  have hle := workLeft_le (tick s)
  rw [tick_sched, List.length_tail] at hle
  by_cases hsched : s.env.sched = []
  · rw [workLeft_used_up hsched]
    rw [workLeft_used_up (by rw [tick_sched, hsched]; rfl)]
    by_cases hp : s.eng.pc = .poll
    · by_cases hn : s.eng.sampleAt = .rdNow
      · exact quietSteps_deadline hp hn hsched h hw
      · have hturn := envTurn_used_up hsched hr
        rw [ticksToDeadline_of_sampleAt (fun _ => hn), clkMove_zero] at hturn
        have htick : tick s = stepPoll s := by rw [tick, hturn, engineStep, hp]
        rw [htick]
        exact quietSteps_read hp hn
    · rw [if_neg hp] at hstep
      have hquiet : quietSteps s = stepsLeft s.eng := if_neg hp
      rw [hquiet]
      exact (quietSteps_le _).trans_lt (by rw [tick]; omega)
  · have hpos : 0 < s.env.sched.length := List.length_pos_iff.2 hsched
    have hnow : workLeft s = s.env.sched.length + stepsLeft s.eng := by rw [workLeft, if_neg hsched]
    have htick : stepsLeft (tick s).eng ≤ stepsLeft s.eng := by rw [tick]; omega
    omega

/-- The requester steps that lead into a poll (R110, R111). -/
theorem engineStep_to_poll {s : State} (h : (engineStep s).eng.pc = .poll) :
    s.eng.pc = .t0 ∨ (s.eng.pc = .poll ∧ engineStep s = sampleRead s
      ∧ (s.eng.sampleAt = .rdStatus → idle (sampleRead s).eng.sample = false)) := by
  obtain ⟨a, x, o, hs, -⟩ := sampleRead_eq s
  by_cases ht : inTransaction s.eng.pc = true
  · have hend : ∀ {code t}, Completes code s t → t.eng.pc ≠ .poll := fun hc hp => by
      have hin := hc.not_inTransaction
      rw [hp] at hin
      exact Bool.noConfusion hin
    cases hp : s.eng.pc <;> rw [hp] at ht <;> simp only [engineStep, hp] at h ⊢
    case v =>
      rcases stepV_cases s with ⟨-, he⟩ | ⟨-, he⟩ <;> rw [he] at h
      · simp at h
      · exact absurd h (hend (completes_raiseInvalidOperation s))
    case c =>
      rcases stepC_cases s with ⟨-, he⟩ | ⟨-, -, he⟩ | ⟨-, -, he⟩ <;> rw [he] at h
      · rw [sampleRead_pc, hp] at h; simp at h
      · simp at h
      · exact absurd h (hend (completes_raiseChannelBusy_sampleRead s))
    case poll =>
      rcases stepPoll_cases s with ⟨he, -, hbusy⟩ | ⟨-, -, he⟩ | ⟨-, -, he⟩
      · exact .inr ⟨trivial, he, hbusy⟩
      · rw [he] at h; simp at h
      · rw [he] at h; exact absurd h (hend (completes_complete codeTimeout ..))
    case resolve =>
      rcases stepResolve_cases s with ⟨-, he⟩ | ⟨-, he⟩ <;> rw [he] at h
      · exact absurd h (hend (completes_complete codeOk ..))
      · exact absurd h (hend (completes_complete codeFault ..))
    case t0 => exact .inl trivial
    case wOp | wA0 | wA1 | wId | sb | ring | lb | rdSt =>
      simp [stepWOp, stepWA0, stepWA1, stepWId, stepSb, stepRing, stepLb, stepRdSt] at h
    all_goals exact Bool.noConfusion ht
  · have hcmd := engineStep_starts (by simpa using ht) (by rw [h]; rfl)
    simp only [engineStep, hcmd] at h
    simp [stepFCmd] at h

theorem Polling.step {s : State} (hs : SafeState s) (h : Polling s) : Polling (engineStep s) := by
  refine ⟨(engineStep_grows hs h.begun).begun, fun hp => ?_, fun hp hn => ?_⟩
  · rcases engineStep_to_poll hp with ht | ⟨hpoll, he, -⟩
    · simp only [engineStep, ht]
      exact le_rfl
    · obtain ⟨a, x, o, hsr, -⟩ := sampleRead_eq s
      rw [he, hsr]
      exact h.clock hpoll
  · rcases engineStep_to_poll hp with ht | ⟨hpoll, he, hbusy⟩
    · simp only [engineStep, ht] at hn
      simp [stepT0] at hn
    · rw [he] at hn ⊢
      refine hbusy ?_
      cases ha : s.eng.sampleAt <;> simp [sampleRead, ha] at hn ⊢

theorem Polling.of_keeps {s t : State} (h : Polling s) (hk : EnvKeeps s t) : Polling t := by
  refine ⟨by rw [hk.eng]; exact h.begun, fun hp => ?_, by rw [hk.eng]; exact h.busySeen⟩
  rw [hk.eng] at hp ⊢
  exact (h.clock hp).trans hk.clock

theorem polling_of_pc {s : State} (hi : s.eng.pc ≠ .fInit) (hp : s.eng.pc ≠ .poll) : Polling s :=
  ⟨hi, fun h => absurd h hp, fun h => absurd h hp⟩

/-- A run that has the steps for the work that is left comes to `REST`, or to a poll that can never end. -/
theorem run_ends {s : State} (hc : parametersOk s.cfg = true) (hs : SafeState s) (h : Polling s) (n : Nat) (hn : workLeft s ≤ n) :
    Polling (run n s) ∧ ((run n s).eng.pc = .rest ∨ waiting (run n s) = true) := by
  induction n generalizing s with
  | zero =>
    refine ⟨h, ?_⟩
    by_contra hnot
    simp only [run, not_or, Bool.not_eq_true] at hnot
    have hlt := workLeft_tick hc hs h hnot.1 hnot.2
    omega
  | succ n ih =>
    by_cases hr : s.eng.pc = .rest
    · rw [run_at_rest hr]
      exact ⟨h, .inl hr⟩
    · by_cases hw : waiting s = true
      · rw [run_waiting hw]
        exact ⟨h, .inr hw⟩
      · have hw' : waiting s = false := by simpa using hw
        rw [run_step hr hw']
        have hlt := workLeft_tick hc hs h hr hw'
        exact ih (by simpa using hc) (tick_safe hc hs) ((h.of_keeps (envTurn_keeps hc hs)).step (envTurn_safe hs)) (by omega)

/-- A waiting poll's deadline lies past the wrap of the tick counter (U20). -/
theorem deadline_past_wrap {s : State} (h : Polling s) (hw : waiting s = true) :
    2 ^ 64 ≤ s.eng.t0.toNat + timeoutTicks s.cfg := by
  obtain ⟨-, hpos, hwrap⟩ := (waiting_iff s).1 hw
  unfold ticksToDeadline at hpos hwrap
  split at hpos
  · rename_i hp
    rw [if_pos hp] at hwrap
    have hclock := h.clock hp.1
    have hdiff : (s.env.now - s.eng.t0).toNat = s.env.now.toNat - s.eng.t0.toNat := BitVec.toNat_sub_of_le hclock
    omega
  · omega

/-- Settles O16: the work left is within the run's budget, and every step takes from it. -/
theorem operationEndsOrWaits : Obligations.OperationEndsOrWaits := by
  intro i s t hs h
  obtain ⟨hc, hr, hshape⟩ := exec_next h
  have hsafe := exec_safe hs h
  have hc' : parametersOk (envTurn s).cfg = true := by simpa using hc
  have hr' : (envTurn s).eng.pc = .rest := by simpa using hr
  have hsched : (envTurn s).env.sched.length ≤ s.env.sched.length := by
    rw [envTurn_sched, List.length_tail]
    omega
  have hend : Polling t ∧ (t.eng.pc = .rest ∨ waiting t = true) := by
    rcases hshape with ⟨op, x, y, rfl⟩ | ⟨-, rfl⟩ | ⟨k, addr, buf, size, hk, rfl⟩
    · have hv : SafeState (called op x y (envTurn s)) := latch_at_v_safe (envTurn_safe hs) hr' op x y
      have hkind : (called op x y (envTurn s)).eng.cKind = .none := (envTurn_safe hs).restKind hr'
      have hstep := stepsLeft_transaction (s := called op x y (envTurn s)) rfl
      have hfirst : stepsLeft (called op x y (envTurn s)).eng = 31 := by
        rw [stepsLeft, if_pos (by rfl), stepsAfterCall, if_pos hkind]
        rfl
      have hle := workLeft_le (engineStep (called op x y (envTurn s)))
      have henv : (engineStep (called op x y (envTurn s))).env = (envTurn s).env := engineStep_env _
      rw [henv] at hle
      rw [stepV_latch]
      refine run_ends (s := engineStep (called op x y (envTurn s))) (by rw [engineStep_cfg]; exact hc')
        (engineStep_safe (s := called op x y (envTurn s)) hc' hv)
        (Polling.step hv (polling_of_pc (by simp [called]) (by simp [called]))) _ ?_
      rw [budget]
      omega
    · exact ⟨polling_of_pc (by simp [returnBuf, hr]) (by simp [returnBuf, hr]), .inl (by simp [returnBuf, hr])⟩
    · refine run_ends (by simpa using hc) (chunkInit_safe (envTurn_safe hs) hr' addr (by simpa using hk)) (polling_of_pc (by simp) (by simp))
        _ ?_
      have hle := workLeft_le (chunkInit k addr buf size (envTurn s))
      have hfirst : stepsLeft (chunkInit k addr buf size (envTurn s)).eng = 64 * size.toNat + 1 := rfl
      have henv : (chunkInit k addr buf size (envTurn s)).env = (envTurn s).env := rfl
      rw [henv] at hle
      rw [budget]
      omega
  obtain ⟨hpoll, hrest | hwait⟩ := hend
  · exact .inl ⟨hrest, hsafe.restKind hrest⟩
  · exact .inr ⟨hwait, deadline_past_wrap hpoll hwait⟩

end Sys2Proof.Machine
end

section
/-! SUPPORT. A conforming responder's part of a transaction, move by move (R173), and what a load of `busy` can return (R50). -/

namespace Sys2Proof.Machine

open Sys2Proof

/-! ### Older values of `busy` -/

/-- No load that is satisfied early returns a clear `busy`. -/
def BusyBehind (s : State) : Prop :=
  ∀ e ∈ olderValues s, e.loc = .dbStatus → busyBit e.val = true

/-- The coprocessor's newest store is the one that cleared `busy`, or no load goes behind it any more. -/
def ClearNewest (s : State) : Prop :=
  s.ord.stale = [] ∨ ∃ e es, olderValues s = e :: es ∧ e.loc = .dbStatus

theorem busyBit_valueBack {os : List Older} (h : ∀ e ∈ os, e.loc = .dbStatus → busyBit e.val = true) {v : U32}
    (hv : busyBit v = true) : busyBit (valueBack .dbStatus os v) = true := by
  induction os generalizing v with
  | nil => exact hv
  | cons e es ih =>
    refine ih (fun x hx => h x (List.mem_cons_of_mem e hx)) ?_
    split
    · exact h e List.mem_cons_self ‹_›
    · exact hv

/-- The requester stores to fields only, so that `DB.STATUS` is the coprocessor's (R33). -/
theorem loadValue_dbStatus (s : State) :
    loadValue s .dbStatus = valueBack .dbStatus ((olderValues s).take s.ord.loadPick) s.bus.dbStatus := by
  have hnone : ownStore s.ord.pending .dbStatus = none := ownStore_none (by simp)
  simp only [loadValue, hnone]
  rfl

theorem BusyBehind.loaded {s : State} (h : BusyBehind s) (hb : busyBit s.bus.dbStatus = true) :
    busyBit (loadValue s .dbStatus) = true := by
  rw [loadValue_dbStatus]
  exact busyBit_valueBack (fun e he => h e (List.mem_of_mem_take he)) hb

/-- A load that returned a clear `busy` was satisfied after the store that cleared it. -/
theorem BusyBehind.clear_loaded {s : State} (h : BusyBehind s) (hn : ClearNewest s)
    (hb : busyBit (loadValue s .dbStatus) = false) (l : Loc) : (afterLoad s l).ord.stale = [] := by
  show s.ord.stale.take s.ord.loadPick = []
  rcases hn with hnil | ⟨e, es, hlist, hloc⟩
  · rw [hnil, List.take_nil]
  · cases hpick : s.ord.loadPick with
    | zero => exact List.take_zero
    | succ n =>
      have hbusy : busyBit (loadValue s .dbStatus) = true := by
        rw [loadValue_dbStatus, hlist, hpick, List.take_succ_cons, valueBack, if_pos hloc]
        refine busyBit_valueBack (fun x hx => h x ?_) (h e ?_ hloc) <;> rw [hlist]
        · exact List.mem_cons_of_mem e (List.mem_of_mem_take hx)
        · exact List.mem_cons_self
      rw [hbusy] at hb
      exact Bool.noConfusion hb

theorem BusyBehind.afterLoad {s : State} (h : BusyBehind s) (l : Loc) : BusyBehind (afterLoad s l) := by
  intro e he
  rw [olderValues_afterLoad] at he
  rcases List.mem_append.1 he with he | he
  · exact h e (List.mem_of_mem_take he)
  · exact h e (List.mem_of_mem_drop (mem_forget.1 he).1)

theorem ClearNewest.afterLoad {s : State} (h : ClearNewest s) (l : Loc) : ClearNewest (afterLoad s l) := by
  rcases h with hnil | ⟨e, es, hlist, hloc⟩
  · exact .inl (show s.ord.stale.take s.ord.loadPick = [] by rw [hnil, List.take_nil])
  · cases hpick : s.ord.loadPick with
    | zero => exact .inl (show s.ord.stale.take s.ord.loadPick = [] by rw [hpick]; rfl)
    | succ n =>
      refine .inr ⟨e, es.take n ++ forget l (es.drop n), ?_, hloc⟩
      rw [olderValues_afterLoad, hlist, hpick]
      rfl

/-! ### Moves that change nothing of a transaction -/

/-- What a move leaves alone that no side of a transaction can notice. -/
structure Calm (s t : State) : Prop where
  cfg : t.cfg = s.cfg
  eng : t.eng = s.eng
  field : ∀ f, visible t (.field f) = visible s (.field f)
  stale : t.ord.stale = s.ord.stale
  passed : t.ord.passed = s.ord.passed
  busy : busyBit t.bus.dbStatus = busyBit s.bus.dbStatus
  signals : t.bus.signals = s.bus.signals
  phase : t.env.scpPhase = s.env.scpPhase
  window : t.window = s.window

theorem Calm.refl (s : State) : Calm s s := ⟨rfl, rfl, fun _ => rfl, rfl, rfl, rfl, rfl, rfl, rfl⟩

theorem Calm.olderValues {s t : State} (h : Calm s t) : olderValues t = olderValues s := by
  rw [Machine.olderValues, Machine.olderValues, h.stale, h.passed]

/-- In an operation with no store pending only the coprocessor's moves can be noticed. -/
theorem envMove_calm {s : State} (hr : s.eng.pc ≠ .rest) (hp : s.ord.pending = []) {m : EnvMove} (hm : ∀ c, m ≠ .scp c) :
    Calm s (envMove m s) := by
  cases m with
  | scp c => exact absurd rfl (hm c)
  | clk n =>
    obtain ⟨v, hv⟩ := clkMove_eq n s
    rw [envMove, hv]
    exact ⟨rfl, rfl, fun f => visible_field_congr rfl rfl f, rfl, rfl, rfl, rfl, rfl, rfl⟩
  | drain k =>
    rw [envMove, drain_of_nil hp]
    exact .refl s
  | early n => exact ⟨rfl, rfl, fun f => visible_field_congr rfl rfl f, rfl, rfl, rfl, rfl, rfl, rfl⟩
  | statusHi v => exact ⟨rfl, rfl, fun f => visible_field_congr rfl rfl f, rfl, rfl, busyBit_statusHi v _, rfl, rfl, rfl⟩
  | host c =>
    have hstay : envMove (.host c) s = s := by simp [envMove, hostMove, hr]
    rw [hstay]
    exact .refl s

/-- A conforming responder between transactions with no signal to observe does nothing (R173 clause 1). -/
theorem scpMove_calm_of_quiet {s : State} (hq : s.env.scpPhase = .quiet) (hsig : s.bus.signals = 0) {m : ScpMove}
    (ha : scpAllowed m s.env.scpPhase = true) : Calm s (scpMove m s) := by
  rw [hq] at ha
  cases m with
  | nothing => exact ⟨rfl, rfl, fun f => visible_field_congr rfl rfl f, rfl, rfl, rfl, rfl, rfl, rfl⟩
  | observe =>
    refine ⟨rfl, rfl, fun f => visible_field_congr rfl rfl f, rfl, rfl, rfl, ?_, ?_, rfl⟩
    · show s.bus.signals - 1 = s.bus.signals
      rw [hsig]
    · rw [scpPhase_scpMove, hq]
      simp [scpNextPhase, hq, hsig]
  | writeExec | writeStatus | writePayload | writePast | clearBusy | read => exact Bool.noConfusion ha

theorem scpMove_read_calm (l : Loc) (s : State) : Calm s (scpMove (.read l) s) := by
  have hphase : scpNextPhase (.read l) s = s.env.scpPhase := by cases h : s.env.scpPhase <;> simp [scpNextPhase, h]
  have heff : ∃ w k, scpEffect (.read l) s = { s with env := { s.env with scpSeen := w }, freeCtr := k } := by
    simp only [scpEffect]
    split
    · exact ⟨_, _, rfl⟩
    · exact ⟨s.env.scpSeen, s.freeCtr, rfl⟩
  obtain ⟨w, k, he⟩ := heff
  refine ⟨?_, ?_, fun f => ?_, ?_, ?_, ?_, ?_, hphase, ?_⟩
  · exact scpMove_cfg _ s
  · exact scpMove_eng _ s
  · exact visible_field_congr (scpMove_cfg _ s) (by rw [scpMove_bus, he]) f
  · rw [scpMove_ord, he]
  · rw [scpMove_ord, he]
  · rw [scpMove_bus, he]
  · rw [scpMove_bus, he]
  · rw [scpMove_window, he]

theorem scpMove_nothing_calm (s : State) : Calm s (scpMove .nothing s) := by
  have hphase : scpNextPhase .nothing s = s.env.scpPhase := by cases h : s.env.scpPhase <;> simp [scpNextPhase, h]
  exact ⟨rfl, rfl, fun f => visible_field_congr rfl rfl f, rfl, rfl, rfl, rfl, hphase, rfl⟩

/-! ### The responder's part of a transaction -/

/-- Of the payload positions `need` of a response all but `owed` hold a byte that one of `moves` wrote (R173 clause 3). -/
def Paid (moves : List EnvMove) (need : List Nat) (s : State) (owed : List Nat) : Prop :=
  ∀ j ∈ need, j ∈ owed ∨ ∃ v, EnvMove.scp (.writePayload j v) ∈ moves ∧ visible s (.field (.payload j)) = zextByte v

/-- Where a conforming responder stands after the doorbell write of the command with id `id` (R173). -/
inductive Stage (moves : List EnvMove) (need : List Nat) (id : U32) (s : State) : Prop
  | signalled (phase : s.env.scpPhase = .quiet) (signals : s.bus.signals = 1) (busy : busyBit s.bus.dbStatus = true)
  | started (x e : Bool) (owed : List Nat) (phase : s.env.scpPhase = .started id x e owed) (signals : s.bus.signals = 0)
      (busy : busyBit s.bus.dbStatus = true) (exec : x = true → visible s (.field .execId) = id)
      (status : e = true → visible s (.field .status) = zextByte statusExecuting) (paid : Paid moves need s owed)
  | final (phase : s.env.scpPhase = .final) (signals : s.bus.signals = 0) (busy : busyBit s.bus.dbStatus = true)
      (exec : visible s (.field .execId) = id) (paid : visible s (.field .status) = zextByte statusGood → Paid moves need s [])
  | answered (phase : s.env.scpPhase = .quiet) (signals : s.bus.signals = 0) (clear : busyBit s.bus.dbStatus = false)
      (exec : visible s (.field .execId) = id) (paid : visible s (.field .status) = zextByte statusGood → Paid moves need s [])
      (newest : ClearNewest s)

theorem Paid.congr {moves : List EnvMove} {need owed : List Nat} {s t : State} (h : Paid moves need s owed)
    (hf : ∀ j ∈ need, visible t (.field (.payload j)) = visible s (.field (.payload j))) : Paid moves need t owed :=
  fun j hj => (h j hj).imp_right fun ⟨v, hm, hv⟩ => ⟨v, hm, (hf j hj).trans hv⟩

theorem Stage.congr {moves : List EnvMove} {need : List Nat} {id : U32} {s t : State} (h : Stage moves need id s)
    (hf : ∀ f, visible t (.field f) = visible s (.field f)) (hbusy : busyBit t.bus.dbStatus = busyBit s.bus.dbStatus)
    (hsig : t.bus.signals = s.bus.signals) (hphase : t.env.scpPhase = s.env.scpPhase) (hn : ClearNewest s → ClearNewest t) :
    Stage moves need id t := by
  have hpay : ∀ j ∈ need, visible t (.field (.payload j)) = visible s (.field (.payload j)) := fun j _ => hf _
  cases h with
  | signalled hp hs hb => exact .signalled (hphase.trans hp) (hsig.trans hs) (hbusy.trans hb)
  | started x e owed hp hs hb hx he hpaid =>
    exact .started x e owed (hphase.trans hp) (hsig.trans hs) (hbusy.trans hb) (fun h => (hf _).trans (hx h))
      (fun h => (hf _).trans (he h)) (hpaid.congr hpay)
  | final hp hs hb hx hpaid =>
    exact .final (hphase.trans hp) (hsig.trans hs) (hbusy.trans hb) ((hf _).trans hx)
      fun h => (hpaid ((hf _).symm.trans h)).congr hpay
  | answered hp hs hb hx hpaid hnew =>
    exact .answered (hphase.trans hp) (hsig.trans hs) (hbusy.trans hb) ((hf _).trans hx)
      (fun h => (hpaid ((hf _).symm.trans h)).congr hpay) (hn hnew)

theorem Stage.calm {moves : List EnvMove} {need : List Nat} {id : U32} {s t : State} (h : Stage moves need id s) (hc : Calm s t) :
    Stage moves need id t :=
  h.congr hc.field hc.busy hc.signals hc.phase fun hn => by rwa [ClearNewest, hc.stale, hc.olderValues]

/-- What a responder's move leaves behind is a clear `busy` only where `busy` was clear. -/
theorem BusyBehind.scpMove {s : State} (h : BusyBehind s) (hb : busyBit s.bus.dbStatus = true) (m : ScpMove) :
    BusyBehind (scpMove m s) := by
  intro e he hloc
  have hcases : e ∈ olderValues s ∨ busyBit e.val = true := by
    rw [olderValues, scpMove_ord] at he
    rcases scpEffect_cases m s with ⟨f, v, -, heff⟩ | heff | ⟨k, b, -, -, -, heff⟩ | ⟨w, n, k, heff, -⟩ <;> rw [heff] at he
    · rcases List.mem_cons.1 he with rfl | he
      · exact absurd hloc (by simp)
      · exact .inl he
    · rcases List.mem_cons.1 he with rfl | he
      · exact .inr hb
      · exact .inl he
    · exact .inl he
    · exact .inl he
  exact hcases.elim (fun hold => h e hold hloc) id

/-- The message that the coprocessor finds at the signal is that of the command with id `id` and response `need` (R174). -/
def SignalsCommand (need : List Nat) (id : U32) (s : State) : Prop :=
  visible s (.field .requestId) = id
    ∧ responseOwed s.cfg.payloadCap (lowByte (visible s (.field .op))) (visible s (.field .arg1)) = need

theorem busyBit_clearBusy (s : State) : busyBit (scpMove .clearBusy s).bus.dbStatus = false := busyBit_clear _

theorem clearNewest_clearBusy (s : State) : ClearNewest (scpMove .clearBusy s) := .inr ⟨_, _, rfl, rfl⟩

theorem visible_clearBusy (s : State) (f : Field) : visible (scpMove .clearBusy s) (.field f) = visible s (.field f) :=
  visible_field_congr rfl rfl f

theorem scpNextPhase_clearBusy (s : State) : scpNextPhase .clearBusy s = .quiet := by
  cases h : s.env.scpPhase <;> simp [scpNextPhase]

theorem zextByte_inj {a b : Byte} (h : zextByte a = zextByte b) : a = b := by
  rw [← lowByte_zextByte a, h, lowByte_zextByte]

/-- The signal is observed (R173 clause 1). -/
theorem stage_observe {moves : List EnvMove} {need : List Nat} {id : U32} {s : State} (hp : s.env.scpPhase = .quiet)
    (hs : s.bus.signals = 1) (hb : busyBit s.bus.dbStatus = true) (hmsg : SignalsCommand need id s) :
    Stage moves need id (scpMove .observe s) := by
  refine .started false false need ?_ ?_ hb (fun h => Bool.noConfusion h) (fun h => Bool.noConfusion h) fun j hj => .inl hj
  · rw [scpPhase_scpMove]
    simp [scpNextPhase, hp, hs, scpStart, hmsg.1, hmsg.2]
  · show s.bus.signals - 1 = 0
    rw [hs]

section Started

variable {moves : List EnvMove} {need owed : List Nat} {id : U32} {x e : Bool} {s : State}

/-- `exec_id` is written (R173 clause 2). -/
theorem stage_writeExec (hc : parametersOk s.cfg = true) (hm : Memory.wf s.bus.mem = true)
    (hp : s.env.scpPhase = .started id x e owed) (hs : s.bus.signals = 0) (hb : busyBit s.bus.dbStatus = true)
    (he : e = true → visible s (.field .status) = zextByte statusExecuting) (hpaid : Paid moves need s owed) :
    Stage moves need id (scpMove (.writeExec id) s) := by
  have hvis := visible_writeExec hc hm id
  refine .started true e owed ?_ hs hb (fun _ => by rw [hvis, if_pos rfl]) (fun h => by rw [hvis, if_neg (by simp)]; exact he h)
    (hpaid.congr fun j _ => by rw [hvis, if_neg (by simp)])
  rw [scpPhase_scpMove]
  simp [scpNextPhase, hp]

/-- The status is written: in progress first, the final one once `exec_id` and the in-progress status are (R173). -/
theorem stage_writeStatus (hc : parametersOk s.cfg = true) (hm : Memory.wf s.bus.mem = true)
    (hp : s.env.scpPhase = .started id x e owed) (hs : s.bus.signals = 0) (hb : busyBit s.bus.dbStatus = true)
    (hx : x = true → visible s (.field .execId) = id) (hpaid : Paid moves need s owed) {v : Byte}
    (ha : scpAllowed (.writeStatus v) s.env.scpPhase = true) : Stage moves need id (scpMove (.writeStatus v) s) := by
  have hvis := visible_writeStatus hc hm v
  have hpay : ∀ j ∈ need, visible (scpMove (.writeStatus v) s) (.field (.payload j)) = visible s (.field (.payload j)) :=
    fun j _ => by rw [hvis, if_neg (by simp)]
  have hexec : visible (scpMove (.writeStatus v) s) (.field .execId) = visible s (.field .execId) := by rw [hvis, if_neg (by simp)]
  rw [hp] at ha
  by_cases hxe : (x && e) = true
  · simp only [scpAllowed, hxe, if_true, Bool.or_eq_true, bne_iff_ne, ne_eq, List.isEmpty_iff] at ha
    refine .final ?_ hs hb (hexec.trans (hx (Bool.and_eq_true_iff.1 hxe).1)) fun hgood => ?_
    · rw [scpPhase_scpMove]
      simp only [scpNextPhase, hp, hxe, if_true]
    · rw [hvis, if_pos rfl] at hgood
      obtain rfl : owed = [] := ha.resolve_left fun hne => hne (zextByte_inj hgood)
      exact hpaid.congr hpay
  · have hxe : (x && e) = false := Bool.eq_false_of_not_eq_true hxe
    have ha : v = statusExecuting := by simpa [scpAllowed, hxe] using ha
    refine .started x true owed ?_ hs hb (fun h => hexec.trans (hx h)) (fun _ => by rw [hvis, if_pos rfl, ha]) (hpaid.congr hpay)
    rw [scpPhase_scpMove]
    simp [scpNextPhase, hp, hxe]

/-- A byte of the response is written (R173 clause 3). -/
theorem stage_writePayload (hc : parametersOk s.cfg = true) (hm : Memory.wf s.bus.mem = true)
    (hp : s.env.scpPhase = .started id x e owed) (hs : s.bus.signals = 0) (hb : busyBit s.bus.dbStatus = true)
    (hx : x = true → visible s (.field .execId) = id)
    (he : e = true → visible s (.field .status) = zextByte statusExecuting) (hpaid : Paid moves need s owed)
    (hneed : ∀ j ∈ need, j < s.cfg.payloadCap) {i : Nat} {v : Byte} (hmem : EnvMove.scp (.writePayload i v) ∈ moves) :
    Stage moves need id (scpMove (.writePayload i v) s) := by
  have hvis : ∀ f, fieldExists s.cfg f → visible (scpMove (.writePayload i v) s) (.field f) = _ := fun f hf =>
    visible_writePayload hc hm i v hf
  refine .started x e (owed.filter (· ≠ i)) ?_ ?_ ?_ (fun h => ?_) (fun h => ?_) fun j hj => ?_
  · rw [scpPhase_scpMove]
    simp only [scpNextPhase, hp]
  · rw [scpMove_bus, scpEffect]
    split <;> exact hs
  · rw [scpMove_bus, scpEffect]
    split <;> exact hb
  · rw [hvis .execId trivial, if_neg (by simp)]
    exact hx h
  · rw [hvis .status trivial, if_neg (by simp)]
    exact he h
  · rw [hvis (.payload j) (hneed j hj)]
    by_cases hji : j = i
    · exact .inr ⟨v, hji ▸ hmem, by rw [if_pos (by rw [hji])]⟩
    · refine (hpaid j hj).imp (fun h => List.mem_filter.2 ⟨h, by simpa using hji⟩) fun ⟨w, hw, hv⟩ => ⟨w, hw, ?_⟩
      rw [if_neg (by simpa using hji)]
      exact hv

/-- `busy` is cleared, and with that the transaction is answered (R173). -/
theorem stage_clearBusy (hs : s.bus.signals = 0) (hx : visible s (.field .execId) = id)
    (hpaid : visible s (.field .status) = zextByte statusGood → Paid moves need s []) : Stage moves need id (scpMove .clearBusy s) :=
  .answered (scpNextPhase_clearBusy s) hs (busyBit_clearBusy s) ((visible_clearBusy s _).trans hx)
    (fun h => (hpaid ((visible_clearBusy s _).symm.trans h)).congr fun _ _ => visible_clearBusy s _) (clearNewest_clearBusy s)

end Started

/-- A conforming move brings the responder on in the sequence of R173. -/
theorem Stage.scpMove {moves : List EnvMove} {need : List Nat} {id : U32} {s : State} (h : Stage moves need id s)
    (hc : parametersOk s.cfg = true) (hm : Memory.wf s.bus.mem = true) (hmsg : SignalsCommand need id s)
    (hneed : ∀ j ∈ need, j < s.cfg.payloadCap) {m : ScpMove} (ha : scpAllowed m s.env.scpPhase = true)
    (hmem : EnvMove.scp m ∈ moves) : Stage moves need id (scpMove m s) := by
  have hstay := h
  cases h with
  | signalled hp hs hb =>
    cases m with
    | nothing => exact hstay.calm (scpMove_nothing_calm s)
    | observe => exact stage_observe hp hs hb hmsg
    | _ => rw [hp] at ha; exact Bool.noConfusion ha
  | started x e owed hp hs hb hx he hpaid =>
    cases m with
    | nothing => exact hstay.calm (scpMove_nothing_calm s)
    | read l => exact hstay.calm (scpMove_read_calm l s)
    | writeExec v =>
      obtain rfl : v = id := by rw [hp] at ha; simpa [scpAllowed] using ha
      exact stage_writeExec hc hm hp hs hb he hpaid
    | writeStatus v => exact stage_writeStatus hc hm hp hs hb hx hpaid ha
    | writePayload i v => exact stage_writePayload hc hm hp hs hb hx he hpaid hneed hmem
    | clearBusy =>
      rw [hp] at ha
      obtain ⟨hxt, het⟩ := Bool.and_eq_true_iff.1 (show (x && e) = true from ha)
      refine stage_clearBusy hs (hx hxt) fun hgood => absurd (zextByte_inj (hgood.symm.trans (he het))) (by decide)
    | observe => rw [hp] at ha; exact Bool.noConfusion ha
    | writePast k v => rw [hp] at ha; exact Bool.noConfusion ha
  | final hp hs hb hx hpaid =>
    cases m with
    | nothing => exact hstay.calm (scpMove_nothing_calm s)
    | read l => exact hstay.calm (scpMove_read_calm l s)
    | clearBusy => exact stage_clearBusy hs hx hpaid
    | _ => rw [hp] at ha; exact Bool.noConfusion ha
  | answered hp hs hb hx hpaid hn => exact hstay.calm (scpMove_calm_of_quiet hp hs ha)

end Sys2Proof.Machine
end

section
/-! SUPPORT. A transaction with a conforming responder, through the environment's turns (R173). -/

namespace Sys2Proof.Machine

open Sys2Proof

/-! ### Between transactions -/

/-- A conforming responder has nothing to do: it is between transactions, and every signal was observed. -/
def Quiescent (s : State) : Prop :=
  s.env.scpPhase = .quiet ∧ s.bus.signals = 0

theorem Calm.quiescent {s t : State} (h : Calm s t) (hq : Quiescent s) : Quiescent t :=
  ⟨h.phase.trans hq.1, h.signals.trans hq.2⟩

/-- Only the coprocessor's moves concern the monitor of R173 and the signals. -/
theorem envMove_monitor (s : State) {m : EnvMove} (hm : ∀ c, m ≠ .scp c) :
    (envMove m s).env.scpPhase = s.env.scpPhase ∧ (envMove m s).env.conform = s.env.conform
      ∧ (envMove m s).bus.signals = s.bus.signals := by
  cases m with
  | scp c => exact absurd rfl (hm c)
  | clk n =>
    obtain ⟨v, hv⟩ := clkMove_eq n s
    rw [envMove, hv]
    exact ⟨rfl, rfl, rfl⟩
  | drain k => exact ⟨by rw [envMove, drain_env], by rw [envMove, drain_env], drain_signals k s⟩
  | early n => exact ⟨rfl, rfl, rfl⟩
  | statusHi v => exact ⟨rfl, rfl, rfl⟩
  | host c =>
    rw [envMove]
    rcases hostMove_cases c s with h | ⟨-, ⟨i, v, -, h⟩ | ⟨i, v, k, h⟩ | ⟨a, v, -, h⟩⟩ <;> rw [h] <;> exact ⟨rfl, rfl, rfl⟩

/-- A responder that conforms after a move conformed before it. -/
theorem conform_of_envMove {m : EnvMove} {s : State} (h : (envMove m s).env.conform = true) : s.env.conform = true := by
  by_cases hm : ∃ c, m = .scp c
  · obtain ⟨c, rfl⟩ := hm
    rw [envMove, conform_scpMove, Bool.and_eq_true] at h
    exact h.1
  · rw [← (envMove_monitor s fun c hc => hm ⟨c, hc⟩).2.1]
    exact h

/-- A coprocessor's move after which the monitor is content is a conforming one. -/
theorem scpAllowed_of_conform {c : ScpMove} {s : State} (h : (scpMove c s).env.conform = true) :
    scpAllowed c s.env.scpPhase = true := by
  rw [conform_scpMove, Bool.and_eq_true] at h
  exact h.2

theorem Quiescent.envMove {s : State} (h : Quiescent s) {m : EnvMove} (hconf : (envMove m s).env.conform = true) :
    Quiescent (envMove m s) := by
  by_cases hm : ∃ c, m = .scp c
  · obtain ⟨c, rfl⟩ := hm
    exact (scpMove_calm_of_quiet h.1 h.2 (scpAllowed_of_conform hconf)).quiescent h
  · obtain ⟨hphase, -, hsig⟩ := envMove_monitor s fun c hc => hm ⟨c, hc⟩
    exact ⟨hphase.trans h.1, hsig.trans h.2⟩

theorem Quiescent.envTurn {s : State} (h : Quiescent s) (hconf : (envTurn s).env.conform = true) : Quiescent (envTurn s) :=
  envTurn_induction (P := fun t => t.env.conform = true → Quiescent t)
    (fun _ _ ht hm => (ht (conform_of_envMove hm)).envMove hm) (fun _ _ ht => ht) (fun _ => h) hconf

/-! ### In a transaction -/

/-- The engine has seen a clear `busy` in the sample it is taking, or found the channel idle. -/
def Noticed (e : Engine) : Prop :=
  (e.pc = .poll ∧ e.sampleAt ≠ .rdBusy ∧ e.sample.busy = false) ∨ e.pc = .lb ∨ e.pc = .rdSt ∨ e.pc = .resolve

/-- The payload positions that the response to the command of `v` owes. -/
def owedTo (v : State) : List Nat :=
  responseOwed v.cfg.payloadCap v.eng.op v.eng.arg1

/-- What the transaction that stood at step `V` in `v` knows in `w` of a responder that has conformed so far. -/
structure Watched (moves : List EnvMove) (v w : State) : Prop where
  before : afterDoorbell w.eng.pc = false → Quiescent w
  stage : afterDoorbell w.eng.pc = true → Stage moves (owedTo v) v.eng.nextId w ∧ BusyBehind w
  noticed : Noticed w.eng → busyBit w.bus.dbStatus = false ∧ w.ord.stale = []
  barrier : w.eng.pc = .rdSt ∨ w.eng.pc = .resolve →
    w.ord.passed = [] ∧ w.window = responseLength v.cfg.payloadCap v.eng.op v.eng.arg1
  status : w.eng.pc = .resolve → w.eng.rdSt = lowByte (visible w (.field .status))

theorem Noticed.of_barrier {e : Engine} (h : e.pc = .rdSt ∨ e.pc = .resolve) : Noticed e := .inr (.inr h)

theorem Noticed.afterDoorbell {e : Engine} (h : Noticed e) : afterDoorbell e.pc = true := by
  rcases h with ⟨h, -⟩ | h | h | h <;> rw [h] <;> rfl

theorem Watched.of_before {moves : List EnvMove} {v w : State} (hp : afterDoorbell w.eng.pc = false) (h : Quiescent w) :
    Watched moves v w where
  before := fun _ => h
  stage := fun ht => by rw [hp] at ht; exact Bool.noConfusion ht
  noticed := fun hn => by rw [hn.afterDoorbell] at hp; exact Bool.noConfusion hp
  barrier := fun hb => by rw [(Noticed.of_barrier hb).afterDoorbell] at hp; exact Bool.noConfusion hp
  status := fun hr => by rw [hr] at hp; exact Bool.noConfusion hp

/-- A transaction past the doorbell in which nothing has been noticed of the answer. -/
theorem Watched.of_unnoticed {moves : List EnvMove} {v w : State} (hp : afterDoorbell w.eng.pc = true)
    (hstage : Stage moves (owedTo v) v.eng.nextId w) (hb : BusyBehind w) (hn : ¬ Noticed w.eng) : Watched moves v w where
  before := fun hf => by rw [hp] at hf; exact Bool.noConfusion hf
  stage := fun _ => ⟨hstage, hb⟩
  noticed := fun h => absurd h hn
  barrier := fun h => absurd (.of_barrier h) hn
  status := fun h => absurd (.of_barrier (.inr h)) hn

theorem Watched.calm {moves : List EnvMove} {v w u : State} (h : Watched moves v w) (hc : Calm w u) : Watched moves v u where
  before := fun hp => hc.quiescent (h.before (hc.eng ▸ hp))
  stage := fun hp => by
    obtain ⟨hstage, hb⟩ := h.stage (hc.eng ▸ hp)
    exact ⟨hstage.calm hc, by rwa [BusyBehind, hc.olderValues]⟩
  noticed := fun hn => by rw [hc.busy, hc.stale]; exact h.noticed (hc.eng ▸ hn)
  barrier := fun hb => by rw [hc.passed, hc.window]; exact h.barrier (hc.eng ▸ hb)
  status := fun hr => by rw [hc.eng, hc.field]; exact h.status (hc.eng ▸ hr)

theorem mem_of_afterDoorbell {p : Pc} (h : afterDoorbell p = true) : p ∈ [Pc.t0, .poll, .lb, .rdSt, .resolve] := by
  cases p <;> simp [afterDoorbell] at h ⊢

theorem SafeState.ownView_afterDoorbell {w : State} (hs : SafeState w) (hp : afterDoorbell w.eng.pc = true) (l : Loc) :
    ownView w l = visible w l :=
  ownView_of_not_pending (by simp [hs.pendingDone hp])

/-- Past the doorbell the coprocessor finds the message of the command (R121, R174). -/
theorem CallTrack.signalsCommand {v w : State} (h : CallTrack v w) (hs : SafeState w) (hm : MessageHeld w)
    (hp : afterDoorbell w.eng.pc = true) : SignalsCommand (owedTo v) v.eng.nextId w := by
  have hpc := mem_of_afterDoorbell hp
  have hseen := hm.seen (List.mem_cons_of_mem _ (List.mem_cons_of_mem _ hpc))
  have hop : lowByte (visible w (.field .op)) = v.eng.op := by
    rw [← hs.ownView_afterDoorbell hp, hseen.op, lowByte_zextByte, h.command.op]
  refine ⟨(h.id_visible hs hm hpc).2, ?_⟩
  rw [hop, h.cfg, owedTo]
  by_cases hr : v.eng.op = 0x52#8
  · have hstores : storesArgs w.cfg.gen w.eng.op = true := by
      rw [h.command.op, hr]
      cases w.cfg.gen <;> rfl
    rw [← hs.ownView_afterDoorbell hp, hseen.arg1 hstores, h.command.arg1]
  · simp [responseOwed, hr]

theorem lt_of_mem_owedTo {v : State} {j : Nat} (h : j ∈ owedTo v) : j < v.cfg.payloadCap := by
  rw [owedTo, responseOwed] at h
  split at h
  · rename_i hr
    exact (List.mem_range.1 h).trans_le hr.2
  · exact absurd h List.not_mem_nil

/-- Where `busy` is clear a conforming responder has answered. -/
theorem Stage.of_clear {moves : List EnvMove} {need : List Nat} {id : U32} {s : State} (h : Stage moves need id s)
    (hb : busyBit s.bus.dbStatus = false) :
    Quiescent s ∧ visible s (.field .execId) = id
      ∧ (visible s (.field .status) = zextByte statusGood → Paid moves need s []) ∧ ClearNewest s := by
  cases h with
  | answered hp hs _ hx hpaid hnew => exact ⟨⟨hp, hs⟩, hx, hpaid, hnew⟩
  | signalled _ _ hset => rw [hset] at hb; exact Bool.noConfusion hb
  | started _ _ _ _ _ hset => rw [hset] at hb; exact Bool.noConfusion hb
  | final _ _ hset => rw [hset] at hb; exact Bool.noConfusion hb

/-- A conforming move of the responder. -/
theorem Watched.scpMove {moves : List EnvMove} {v w : State} (h : Watched moves v w) (hc : parametersOk w.cfg = true)
    (ht : CallTrack v w) (hs : SafeState w) (hm : MessageHeld w) {c : ScpMove} (hmem : EnvMove.scp c ∈ moves)
    (ha : scpAllowed c w.env.scpPhase = true) : Watched moves v (scpMove c w) := by
  cases hp : afterDoorbell w.eng.pc
  · obtain ⟨hq, hsig⟩ := h.before hp
    exact h.calm (scpMove_calm_of_quiet hq hsig ha)
  · obtain ⟨hstage, hb⟩ := h.stage hp
    cases hbusy : busyBit w.bus.dbStatus
    · obtain ⟨⟨hq, hsig⟩, -⟩ := hstage.of_clear hbusy
      exact h.calm (scpMove_calm_of_quiet hq hsig ha)
    · have heng := scpMove_eng c w
      refine Watched.of_unnoticed (by rw [heng]; exact hp)
        (hstage.scpMove hc hs.memory (ht.signalsCommand hs hm hp) (fun j hj => ht.cfg ▸ lt_of_mem_owedTo hj) ha hmem)
        (hb.scpMove hbusy c) fun hn => ?_
      rw [heng] at hn
      rw [(h.noticed hn).1] at hbusy
      exact Bool.noConfusion hbusy

/-- A move of the environment, the responder's a conforming one. -/
theorem Watched.envMove {moves : List EnvMove} {v w : State} (h : Watched moves v w) (hc : parametersOk w.cfg = true)
    (ht : CallTrack v w) (hs : SafeState w) (hm : MessageHeld w) {m : EnvMove} (hmem : ∀ c, m = .scp c → m ∈ moves)
    (hconf : (envMove m w).env.conform = true) : Watched moves v (envMove m w) := by
  by_cases hscp : ∃ c, m = .scp c
  · obtain ⟨c, rfl⟩ := hscp
    exact h.scpMove hc ht hs hm (hmem c rfl) (scpAllowed_of_conform hconf)
  · have hother : ∀ c, m ≠ .scp c := fun c hcm => hscp ⟨c, hcm⟩
    cases hp : afterDoorbell w.eng.pc
    · exact .of_before (by rw [envMove_eng]; exact hp) ((h.before hp).envMove hconf)
    · exact h.calm (envMove_calm (fun hr => by rw [hr] at hp; exact Bool.noConfusion hp) (hs.pendingDone hp) hother)

/-- A transaction under way, on an engine whose caller's schedule holds no other moves of the coprocessor than `moves`. -/
structure Attended (moves : List EnvMove) (v w : State) : Prop where
  parameters : parametersOk w.cfg = true
  safe : SafeState w
  held : MessageHeld w
  call : CallTrack v w
  watched : w.env.conform = true → Watched moves v w

theorem Attended.envMove {moves : List EnvMove} {v w : State} (h : Attended moves v w) {m : EnvMove}
    (hmem : ∀ c, m = .scp c → m ∈ moves) : Attended moves v (envMove m w) := by
  obtain ⟨hc, hs, hm, ht, hw⟩ := h
  have hk := envMove_keeps hc hs m
  exact ⟨by rw [hk.cfg]; exact hc, envMove_safe hs, hm.of_keeps hk, ht.of_keeps hs hk,
    fun hconf => (hw (conform_of_envMove hconf)).envMove hc ht hs hm hmem hconf⟩

theorem Attended.envMoves {moves : List EnvMove} {v : State} (ms : List EnvMove) {w : State} (h : Attended moves v w)
    (hmem : ms ⊆ moves) : Attended moves v (envMoves ms w) := by
  induction ms generalizing w with
  | nil => exact h
  | cons m ms ih =>
    exact ih (h.envMove fun _ _ => hmem List.mem_cons_self) fun x hx => hmem (List.mem_cons_of_mem m hx)

theorem CallTrack.not_rest {v w : State} (h : CallTrack v w) : w.eng.pc ≠ .rest := fun hr => by
  have hin := h.inside
  rw [hr] at hin
  exact Bool.noConfusion hin

/-- The environment takes its next batch. -/
theorem Attended.nextBatch {moves : List EnvMove} {v w : State} (h : Attended moves v w) {bs : List (List EnvMove)} :
    Attended moves v { w with env := { w.env with sched := bs } } := by
  have hk : EnvKeeps w { w with env := { w.env with sched := bs } } :=
    ⟨rfl, rfl, rfl, rfl, le_rfl, le_rfl, id, rfl, .inl rfl, fun _ => .inl, fun _ _ => rfl, fun _ => rfl, fun _ _ _ _ => rfl⟩
  have hsafe := h.safe
  refine ⟨h.parameters, by rw [safeState_iff] at hsafe ⊢; exact hsafe, h.held.of_keeps hk, h.call.of_keeps h.safe hk, fun hconf => ?_⟩
  exact (h.watched hconf).calm ⟨rfl, rfl, fun _ => rfl, rfl, rfl, rfl, rfl, rfl, rfl⟩

/-- A turn of the environment. -/
theorem Attended.envTurn {moves : List EnvMove} {v w : State} (h : Attended moves v w) (hmem : w.env.sched.flatten ⊆ moves) :
    Attended moves v (envTurn w) := by
  rw [Machine.envTurn]
  split
  · rw [fairTurn, if_neg h.call.not_rest]
    exact h.envMove (m := .clk _) fun _ hc => nomatch hc
  · rename_i b bs hsched
    rw [hsched, List.flatten_cons] at hmem
    exact h.nextBatch.envMoves b (List.append_subset.1 hmem).1

end Sys2Proof.Machine
end

section
/-! SUPPORT. What a call reports of a conforming responder's answer (R173, R175, R52, R57). -/

namespace Sys2Proof.Machine

open Sys2Proof

section Steps

variable {moves : List EnvMove} {v w : State}

/-- At `RING` the doorbell write starts the responder's part; no older `busy` is left to load. -/
theorem Watched.stepRing (h : Watched moves v w) (hp : w.eng.pc = .ring) : Watched moves v (stepRing w) := by
  obtain ⟨hq, hsig⟩ := h.before (by rw [hp]; rfl)
  refine .of_unnoticed rfl (.signalled ?_ ?_ ?_) (fun e he hloc => ?_) (by simp [Noticed, Machine.stepRing])
  · simpa [Machine.stepRing] using hq
  · simp [Machine.stepRing, hsig]
  · simp [Machine.stepRing, busyBit_or_one]
  · rw [Machine.stepRing, goto, writeSignal_one] at he
    rcases List.mem_append.1 he with he | he <;> exact absurd hloc (mem_forget.1 he).2

theorem noticed_poll {e : Engine} (hp : e.pc = .poll) : Noticed e ↔ e.sampleAt ≠ .rdBusy ∧ e.sample.busy = false := by
  simp [Noticed, hp]

/-- A read of a poll's sample. -/
theorem Watched.loaded (h : Watched moves v w) (hp : w.eng.pc = .poll) (l : Loc) {e : Engine} (he : e.pc = .poll)
    (hn : e.sampleAt ≠ .rdBusy → e.sample.busy = false → busyBit w.bus.dbStatus = false ∧ (afterLoad w l).ord.stale = []) :
    Watched moves v { afterLoad w l with eng := e } := by
  obtain ⟨hstage, hb⟩ := h.stage (by rw [hp]; rfl)
  refine ⟨fun hf => ?_, fun _ => ⟨?_, hb.afterLoad l⟩, fun hnot => ?_, fun hf => ?_, fun hf => ?_⟩
  · exact absurd hf (by simp [he, afterDoorbell])
  · exact hstage.congr (fun f => visible_field_congr rfl rfl f) rfl rfl rfl (ClearNewest.afterLoad · l)
  · obtain ⟨hat, hclear⟩ := (noticed_poll he).1 hnot
    exact hn hat hclear
  · exact absurd hf (by simp [he])
  · exact absurd hf (by simp [he])

/-- A sample whose `busy` was clear keeps that nothing older can be loaded. -/
theorem Watched.still_noticed (h : Watched moves v w) (hp : w.eng.pc = .poll) (hat : w.eng.sampleAt ≠ .rdBusy) (l : Loc)
    (hb : w.eng.sample.busy = false) : busyBit w.bus.dbStatus = false ∧ (afterLoad w l).ord.stale = [] := by
  obtain ⟨hbusy, hstale⟩ := h.noticed ((noticed_poll hp).2 ⟨hat, hb⟩)
  exact ⟨hbusy, show w.ord.stale.take w.ord.loadPick = [] by rw [hstale, List.take_nil]⟩

/-- A load that finds `busy` clear is one after the responder's last store. -/
theorem Watched.notices (h : Watched moves v w) (hp : w.eng.pc = .poll) (hb : busyBit (loadValue w .dbStatus) = false) :
    busyBit w.bus.dbStatus = false ∧ (afterLoad w .dbStatus).ord.stale = [] := by
  obtain ⟨hstage, hbehind⟩ := h.stage (by rw [hp]; rfl)
  have hbusy : busyBit w.bus.dbStatus = false := Bool.eq_false_of_not_eq_true fun hset => by
    rw [hbehind.loaded hset] at hb
    exact Bool.noConfusion hb
  obtain ⟨-, -, -, hnew⟩ := hstage.of_clear hbusy
  exact ⟨hbusy, hbehind.clear_loaded hnew hb _⟩

theorem Watched.sampleRead (h : Watched moves v w) (hp : w.eng.pc = .poll) : Watched moves v (sampleRead w) := by
  rw [Machine.sampleRead]
  split <;> rename_i hat
  · exact h.loaded hp _ hp fun _ hb => h.notices hp hb
  · exact h.loaded hp _ hp fun _ hb => h.still_noticed hp (by simp [hat]) _ hb
  · exact h.loaded hp _ hp fun _ hb => h.still_noticed hp (by simp [hat]) _ hb
  · exact h.loaded hp _ hp fun _ hb => h.still_noticed hp (by simp [hat]) _ hb
  · obtain ⟨hstage, hb⟩ := h.stage (by rw [hp]; rfl)
    exact .of_unnoticed (by simp [hp, afterDoorbell]) (hstage.congr (fun f => visible_field_congr rfl rfl f) rfl rfl rfl id) hb
      (by simp [noticed_poll, hp])

/-- From a poll whose sample was idle to `LB`. -/
theorem Watched.goto_lb (h : Watched moves v w) (hp : w.eng.pc = .poll) (hat : w.eng.sampleAt ≠ .rdBusy)
    (hidle : idle w.eng.sample = true) : Watched moves v (goto .lb w) := by
  have hb : w.eng.sample.busy = false := Bool.eq_false_of_not_eq_true fun hb => by
    rw [not_idle_of_busy hb] at hidle
    exact Bool.noConfusion hidle
  obtain ⟨hstage, hbehind⟩ := h.stage (by rw [hp]; rfl)
  exact ⟨fun hf => Bool.noConfusion hf,
    fun _ => ⟨hstage.congr (fun f => visible_field_congr rfl rfl f) rfl rfl rfl id, hbehind⟩,
    fun _ => h.noticed ((noticed_poll hp).2 ⟨hat, hb⟩), by simp, by simp⟩

/-- `LB` gives up every older value that is left, and opens the window (R52, R57). -/
theorem Watched.stepLb (h : Watched moves v w) (ht : CallTrack v w) (hp : w.eng.pc = .lb) : Watched moves v (stepLb w) := by
  obtain ⟨hbusy, hstale⟩ := h.noticed (by simp [Noticed, hp])
  obtain ⟨hstage, hb⟩ := h.stage (by rw [hp]; rfl)
  refine ⟨fun hf => Bool.noConfusion hf, fun _ => ⟨?_, fun e he => ?_⟩, fun _ => ⟨hbusy, hstale⟩, fun _ => ⟨rfl, ?_⟩, by simp⟩
  · exact hstage.congr (fun f => visible_field_congr rfl rfl f) rfl rfl rfl fun _ => .inl hstale
  · rw [olderValues, stepLb_ord] at he
    simp [loadBarrier, hstale] at he
  · rw [stepLb_window, ht.cfg, ht.command.op, ht.command.arg1]

/-- With no store pending and no older value left a load returns what is visible. -/
theorem loadValue_fresh {s : State} (hp : s.ord.pending = []) (hst : s.ord.stale = []) (hpa : s.ord.passed = []) (l : Loc) :
    loadValue s l = visible s l := by
  rw [loadValue, hp, hst, hpa]
  simp [ownStore]

theorem Watched.stepRdSt (h : Watched moves v w) (hs : SafeState w) (hp : w.eng.pc = .rdSt) : Watched moves v (stepRdSt w) := by
  obtain ⟨hbusy, hstale⟩ := h.noticed (by simp [Noticed, hp])
  obtain ⟨hpassed, hwin⟩ := h.barrier (.inl hp)
  obtain ⟨hstage, hb⟩ := h.stage (by rw [hp]; rfl)
  have hstale' : (afterLoad w (.field .status)).ord.stale = [] :=
    show w.ord.stale.take w.ord.loadPick = [] by rw [hstale, List.take_nil]
  have hpassed' : (afterLoad w (.field .status)).ord.passed = [] := by simp [afterLoad, hstale, hpassed, forget]
  refine ⟨fun hf => Bool.noConfusion hf, fun _ => ⟨?_, hb.afterLoad _⟩, fun _ => ⟨hbusy, hstale'⟩, fun _ => ⟨hpassed', hwin⟩, fun _ => ?_⟩
  · exact hstage.congr (fun f => visible_field_congr rfl rfl f) rfl rfl rfl fun _ => .inl hstale'
  · exact congrArg lowByte (loadValue_fresh (hs.pendingDone (by rw [hp]; rfl)) hstale hpassed _)

theorem endsAt_answered {p : Pc} {code : BitVec 3} (h : endsAt p code) (hcode : code = codeOk ∨ code = codeFault) :
    p = .resolve := by
  cases p <;> simp only [endsAt, reduceCtorEq] at h ⊢
  all_goals rw [h] at hcode; exact absurd hcode (by decide)

theorem completes_stepResolve (s : State) :
    Completes (if s.eng.rdSt = statusGood then codeOk else codeFault) s (stepResolve s) := by
  rw [stepResolve]
  split <;> exact completes_complete ..

theorem Watched.stepT0 (h : Watched moves v w) (hp : w.eng.pc = .t0) : Watched moves v (stepT0 w) := by
  obtain ⟨hstage, hb⟩ := h.stage (by rw [hp]; rfl)
  exact .of_unnoticed rfl (hstage.congr (fun f => visible_field_congr rfl rfl f) rfl rfl rfl id) hb (by simp [Noticed, Machine.stepT0])

theorem Watched.stepPoll (h : Watched moves v w) (hp : w.eng.pc = .poll) (hin : inTransaction (stepPoll w).eng.pc = true) :
    Watched moves v (stepPoll w) := by
  have hread := h.sampleRead hp
  obtain ⟨a, x, o, hsample, -⟩ := sampleRead_eq w
  rcases stepPoll_cases w with ⟨he, -⟩ | ⟨hat, hidle, he⟩ | ⟨-, -, he⟩ <;> rw [he] at hin ⊢
  · exact hread
  · exact hread.goto_lb (by rw [hsample]; exact hp) (by simp [Machine.sampleRead, hat]) hidle
  · have hend : Completes codeTimeout w (raiseTimeout w) := completes_complete ..
    rw [hend.not_inTransaction] at hin
    exact Bool.noConfusion hin

/-- A requester step before the doorbell gives no signal. -/
theorem Watched.step_before (h : Watched moves v w) (hp : afterDoorbell w.eng.pc = false) (hr : w.eng.pc ≠ .ring)
    (ho : w.eng.pc ≠ .fCopyOut) (hp' : afterDoorbell (engineStep w).eng.pc = false) : Watched moves v (engineStep w) := by
  obtain ⟨hq, hsig⟩ := h.before hp
  exact .of_before hp' ⟨by rw [engineStep_env]; exact hq, by rw [engineStep_bus hr ho]; exact hsig⟩

/-- A step with which the transaction goes on. -/
theorem Watched.step (h : Watched moves v w) (ht : CallTrack v w) (hs : SafeState w)
    (hin : inTransaction (engineStep w).eng.pc = true) : Watched moves v (engineStep w) := by
  have hin' := ht.inside
  cases hp : w.eng.pc <;> rw [hp] at hin'
  case ring => simpa only [engineStep, hp] using h.stepRing hp
  case t0 => simpa only [engineStep, hp] using h.stepT0 hp
  case poll =>
    simp only [engineStep, hp] at hin ⊢
    exact h.stepPoll hp hin
  case lb => simpa only [engineStep, hp] using h.stepLb ht hp
  case rdSt => simpa only [engineStep, hp] using h.stepRdSt hs hp
  case resolve =>
    have hend := completes_stepResolve w
    simp only [engineStep, hp] at hin
    rw [hend.not_inTransaction] at hin
    exact Bool.noConfusion hin
  case v | c =>
    have hbefore : afterDoorbell w.eng.pc = false := by rw [hp]; rfl
    refine h.step_before hbefore (by simp [hp]) (by simp [hp]) (Bool.eq_false_of_not_eq_true fun hd => ?_)
    rw [(engineStep_transaction_phase ht.inside (by simp [hp])).2 hd] at hbefore
    exact Bool.noConfusion hbefore
  case wOp | wA0 | wA1 | wId | sb =>
    exact h.step_before (by rw [hp]; rfl) (by simp [hp]) (by simp [hp]) (by rw [engineStep, hp]; rfl)
  all_goals exact absurd hin' (by decide)

end Steps

/-! ### The end of the call -/

/-- What a call that a conforming responder answered leaves: the answer, and no older value of anything. -/
structure Reported (moves : List EnvMove) (v t : State) : Prop where
  exec : visible t (.field .execId) = v.eng.nextId
  clear : busyBit t.bus.dbStatus = false
  quiescent : Quiescent t
  pending : t.ord.pending = []
  stale : t.ord.stale = []
  passed : t.ord.passed = []
  status : t.eng.res = codeOk ↔ visible t (.field .status) = zextByte statusGood
  paid : t.eng.res = codeOk → Paid moves (owedTo v) t []
  window : t.window = if t.eng.res = codeOk then responseLength v.cfg.payloadCap v.eng.op v.eng.arg1 else 0

theorem visible_status (s : State) : visible s (.field .status) = zextByte (lowByte (visible s (.field .status))) := by
  rw [show visible s (.field .status) = zextByte (Memory.read s.bus.mem (fieldAddr s.cfg .status)) from rfl, lowByte_zextByte]

theorem lowByte_status_eq (s : State) (b : Byte) :
    lowByte (visible s (.field .status)) = b ↔ visible s (.field .status) = zextByte b := by
  constructor
  · rintro rfl
    exact visible_status s
  · intro h
    rw [h, lowByte_zextByte]

/-- `RESOLVE` reports the answer. -/
theorem Watched.reported {moves : List EnvMove} {v w : State} (h : Watched moves v w) (hs : SafeState w)
    (hp : w.eng.pc = .resolve) : Reported moves v (stepResolve w) := by
  obtain ⟨hbusy, hstale⟩ := h.noticed (.of_barrier (.inr hp))
  obtain ⟨hpassed, hwin⟩ := h.barrier (.inr hp)
  obtain ⟨hstage, -⟩ := h.stage (by rw [hp]; rfl)
  have hend := completes_stepResolve w
  have hord : (stepResolve w).ord = w.ord := by
    rw [stepResolve]
    split <;> exact complete_ord ..
  have hvis : ∀ f, visible (stepResolve w) (.field f) = visible w (.field f) := visible_field_congr hend.cfg (by rw [hend.bus])
  have hok : (if w.eng.rdSt = statusGood then codeOk else codeFault) = codeOk ↔ visible w (.field .status) = zextByte statusGood := by
    rw [← lowByte_status_eq, ← h.status hp]
    split <;> simp [*, codeOk, codeFault]
  obtain ⟨hquiet, hexec, hpaid, -⟩ := hstage.of_clear hbusy
  refine ⟨(hvis _).trans hexec, by rw [hend.bus]; exact hbusy, ?_, by rw [hord]; exact hs.pendingDone (by rw [hp]; rfl),
    by rw [hord]; exact hstale, by rw [hord]; exact hpassed, ?_, fun hres => ?_, ?_⟩
  · rw [Quiescent, hend.env, hend.bus]
    exact hquiet
  · rw [hend.res, hvis]
    exact hok
  · rw [hend.res] at hres
    exact (hpaid (hok.1 hres)).congr fun _ _ => hvis _
  · rw [hend.window, hend.res, hwin]

/-- A transaction of a direct call along a run: under way, or over and reported. -/
structure ReportRun (moves : List EnvMove) (v w : State) : Prop where
  sched : w.env.sched.flatten ⊆ moves
  call : Attended moves v w ∨ (w.eng.pc = .rest
    ∧ (w.env.conform = true → w.eng.res = codeOk ∨ w.eng.res = codeFault → Reported moves v w))

/-- A requester step of the transaction. -/
theorem Attended.step {moves : List EnvMove} {v w : State} (hk : v.eng.cKind = .none) (h : Attended moves v w)
    (hsched : w.env.sched.flatten ⊆ moves) : ReportRun moves v (engineStep w) := by
  obtain ⟨hc, hs, hm, ht, hw⟩ := h
  refine ⟨by rw [engineStep_env]; exact hsched, ?_⟩
  rcases ht.step hs hm with hres | ht'
  · refine .inr ⟨hres.pc_rest hk, fun hconf hcode => ?_⟩
    rw [engineStep_env] at hconf
    rcases engineStep_transaction ht.inside with ⟨code, hat, hend⟩ | ⟨hopen, -⟩
    · rw [hend.res] at hcode
      have hp : w.eng.pc = .resolve := endsAt_answered hat hcode
      simpa only [engineStep, hp] using (hw hconf).reported hs hp
    · rw [hres.pc_rest hk] at hopen
      exact Bool.noConfusion hopen
  · refine .inl ⟨by simpa using hc, engineStep_safe hc hs, engineStep_held hc hs hm, ht', fun hconf => ?_⟩
    rw [engineStep_env] at hconf
    exact (hw hconf).step ht hs ht'.inside

theorem flatten_tail_subset {α : Type} {ls : List (List α)} {l : List α} (h : ls.flatten ⊆ l) : ls.tail.flatten ⊆ l := by
  cases ls with
  | nil => exact h
  | cons b bs => exact (List.append_subset.1 h).2

theorem ReportRun.tick {moves : List EnvMove} {v w : State} (hk : v.eng.cKind = .none) (h : ReportRun moves v w)
    (hp : w.eng.pc ≠ .rest) : ReportRun moves v (tick w) := by
  rcases h.call with hatt | ⟨hrest, -⟩
  · exact (hatt.envTurn h.sched).step hk (by rw [envTurn_sched]; exact flatten_tail_subset h.sched)
  · exact absurd hrest hp

/-- A direct call to a responder with no signal to observe. -/
theorem exec_reported {i : Instr} {op : Byte} {x y : U32} {s t : State} (hi : commandOf i = some (op, x, y)) (hs : SafeState s)
    (hq : Quiescent s) (h : exec i s = .next t) : ReportRun s.env.sched.flatten (called op x y (envTurn s)) t := by
  rw [exec_of_commandOf hi] at h
  obtain ⟨hc, hr, rfl⟩ := hostOperation_next h
  have hr' : (envTurn s).eng.pc = .rest := by simpa using hr
  have hsafe := envTurn_safe hs
  have hkind : (called op x y (envTurn s)).eng.cKind = .none := hsafe.restKind hr'
  refine run_induction (P := ReportRun s.env.sched.flatten (called op x y (envTurn s))) (fun w hw hp => hw.tick hkind hp) _ ?_
  rw [stepV_latch]
  refine Attended.step hkind ⟨by simpa using hc, latch_at_v_safe hsafe hr' op x y,
    messageHeld_of_not_holding (by simp [holdingPcs]), callTrack_start rfl, fun hconf => ?_⟩ ?_
  · exact .of_before rfl (hq.envTurn hconf)
  · show (envTurn s).env.sched.flatten ⊆ _
    rw [envTurn_sched]
    exact flatten_tail_subset (List.Subset.refl _)

/-- The caller reads the payload inside the window, and a free value outside of it (R57, R227). -/
theorem hostSeen_readPayload {t : State} (hr : t.eng.pc = .rest) {j : Nat} (hj : j < t.cfg.payloadCap) :
    (hostMove (.readPayload j) t).env.hostSeen
      = if j < t.window then lowByte (loadValue t (.field (.payload j))) else Config.freeByte t.freeCtr := by
  rw [hostMove, if_pos hr, hostEffect, if_pos hj]
  dsimp only
  split <;> rfl

/-- Settles O54: the answer of a conforming responder is what the sample and the fresh read found, and it stays. -/
theorem conformingResponderIsReported : Obligations.ConformingResponderIsReported := by
  intro i op x y s t hi hs hphase hsig h hr hconf hcode
  obtain ⟨-, hrest, -⟩ := exec_next h
  have hcfg : (called op x y (envTurn s)).cfg = s.cfg := envTurn_cfg s
  have hid : (called op x y (envTurn s)).eng.nextId = s.eng.nextId := by
    show (envTurn s).eng.nextId = _
    rw [envTurn_eng]
  have hrep : Reported s.env.sched.flatten (called op x y (envTurn s)) t := by
    rcases (exec_reported hi hs ⟨hphase, hsig⟩ h).call with hatt | ⟨-, hrep⟩
    · exact absurd hr hatt.call.not_rest
    · exact hrep hconf hcode
  obtain ⟨hexec, hclear, ⟨hquiet, hnone⟩, hpend, hstale, hpassed, hstatus, hpaid, hwin⟩ := hrep
  have hload : ∀ l, loadValue t l = visible t l := loadValue_fresh hpend hstale hpassed
  have hwindow : t.window = if t.eng.res = codeOk then responseLength s.cfg.payloadCap op y else 0 := by rw [hwin, hcfg]; rfl
  refine ⟨hexec.trans hid, hclear, hstatus, hquiet, hnone, fun n j => ?_, fun hok hop hcap j hj => ?_, fun j hj => ?_⟩
  · exact loadValue_fresh (s := envMove (.early n) t) hpend hstale hpassed _
  · have hneed : j ∈ owedTo (called op x y (envTurn s)) := by
      rw [owedTo, hcfg]
      simpa [responseOwed, called, latch, hop, hcap] using hj
    exact (hpaid hok j hneed).resolve_left List.not_mem_nil
  · obtain ⟨htcfg, -⟩ := exec_cfg_clock h
    rw [hostSeen_readPayload hr (by rw [htcfg]; exact hj), hload, hwindow]
    by_cases hok : t.eng.res = codeOk <;> simp [hok]

end Sys2Proof.Machine
end
